-- ==== Sys2Proof/Word.lean ====
section
/-!
DEFINITION. The word types of the DEFLATE core.

The streams and the window move bytes; `head`, `prev`, the token distances, the frequency counters, the
Adler-32 halves and the bit accumulator are 16 bits wide (spec/10_state.md R28 to R35); a command word has
32 bits (spec/30_encoding.md R63). Positions, lengths, distances and costs are mathematical integers (R9),
so they are `Nat` or `Int`, not bit vectors.
-/

namespace Sys2Proof

/-- One byte of a stream or of the window. -/
abbrev Byte := BitVec 8

/-- One 16-bit entry or register. -/
abbrev Half := BitVec 16

/-- One 32-bit command word, or the status word. -/
abbrev Word := BitVec 32

end Sys2Proof
end

