-- ==== Sys2Proof/Config.lean ====
section
/-!
DEFINITION. The implementation parameters of spec/00_scope.md R7.

The rows that R7 fixes are constants below, under the spec's own names. The rows marked *parameter* are the
fields of `Config`, with the default R7 gives; a machine state carries its `Config` (log 5).
-/

namespace Sys2Proof

/-- `W` (windowSize), R7. -/
def W : Nat := 32768
/-- `WMASK = W - 1`, R7. -/
def WMASK : Nat := 32767
/-- `WIN = 2 * W`, the size of the window buffer in bytes, R7. -/
def WIN : Nat := 65536
/-- `MIN_MATCH`, R7. -/
def MIN_MATCH : Nat := 3
/-- `MAX_MATCH`, R7. -/
def MAX_MATCH : Nat := 258
/-- `MIN_LOOKAHEAD = MAX_MATCH + MIN_MATCH + 1`, R7. -/
def MIN_LOOKAHEAD : Nat := 262
/-- `MAX_DIST = W - MIN_LOOKAHEAD`, R7. -/
def MAX_DIST : Nat := 32506
/-- `HASH_BITS`, R7. -/
def HASH_BITS : Nat := 15
/-- `HASH_SIZE = 2 ^ HASH_BITS`, R7. -/
def HASH_SIZE : Nat := 32768
/-- `HASH_SHIFT`, R7. -/
def HASH_SHIFT : Nat := 5
/-- `NIL`, the empty-chain marker, R7. -/
def NIL : Nat := 0
/-- `MAX_CHAIN` (maxChainLength), R7. -/
def MAX_CHAIN : Nat := 4096
/-- `NICE_MATCH` (niceMatch), R7. -/
def NICE_MATCH : Nat := 258
/-- `MAX_LAZY`, R7. -/
def MAX_LAZY : Nat := 258
/-- `TOO_FAR`, R7. -/
def TOO_FAR : Nat := 4096
/-- `L_CODES`, the literal/length alphabet, R7. -/
def L_CODES : Nat := 286
/-- `D_CODES`, the distance alphabet, R7. -/
def D_CODES : Nat := 30
/-- `BL_CODES`, the bit-length alphabet, R7. -/
def BL_CODES : Nat := 19
/-- `MAX_BITS`, R7. -/
def MAX_BITS : Nat := 15
/-- `MAX_BL_BITS`, R7. -/
def MAX_BL_BITS : Nat := 7
/-- `END_BLOCK`, R7. -/
def END_BLOCK : Nat := 256
/-- `LEN_MAX = 2 ^ 28 - 1`, the most bytes one PROCESS carries, R7 and R210. -/
def LEN_MAX : Nat := 268435455
/-- The modulus of Adler-32, R98. -/
def ADLER_MOD : Nat := 65521

/-- The parameter `HEAP_TIE` of R7: which node a Huffman merge takes among equals (R131, R138). -/
inductive HeapTie where
  | docOrder
  | zlibHeap
deriving DecidableEq, Repr

/-- The parameters that R7 lets a model take as arguments. -/
structure Config where
  /-- `GOOD_MATCH` (R107): a deferred match this long shortens the chain walk. -/
  goodMatch : Nat
  /-- `LIT_BUFSIZE` (R30, R125): the slots of the token buffer. -/
  litBufsize : Nat
  /-- `HEAP_TIE` (R131, R138). -/
  heapTie : HeapTie
  /-- The first byte of `ZLIB_HDR`, CMF (R73). -/
  zlibCmf : Byte
  /-- The second byte of `ZLIB_HDR`, FLG (R73). -/
  zlibFlg : Byte
  /-- `RESET_FRAMING` (R200). -/
  resetFraming : Bool
deriving DecidableEq, Repr

/-- The defaults of R7. -/
def Config.default : Config where
  goodMatch := 259
  litBufsize := 16384
  heapTie := .docOrder
  zlibCmf := 0x78
  zlibFlg := 0xDA
  resetFraming := true

/-- `TOKEN_LIMIT = LIT_BUFSIZE - 1`, the tokens of a full block (R7). -/
def Config.tokenLimit (c : Config) : Nat := c.litBufsize - 1

/-- The parameter values the register widths allow: at least one token a block, and `last_lit` in the 14 bits of
R30, so that no 16-bit counter overflows (R31). -/
def Config.ok (c : Config) : Bool := decide (2 ≤ c.litBufsize) && decide (c.litBufsize ≤ 16384)

end Sys2Proof
end

