-- ==== Sys2Proof/Syntax.lean ====
section
/-!
DEFINITION. The commands of the core (spec/30_encoding.md section 1) and what a host hands to it.

`Instr` has one constructor for each row of spec/opcode_table.json. COMPRESS is a pseudo-command without a
word of its own (R71); it stands in Sys2Proof/Machine/Assembler.lean.
-/

namespace Sys2Proof

/-- A decoded command (R63 to R67). -/
inductive Instr where
  /-- INIT with operand `F`, the new `FRAMING` (R64). -/
  | init (framing : Bool)
  /-- PROCESS with operand `LEN`, the number of data bytes that follow (R65). -/
  | process (len : Nat)
  /-- FINALIZE (R66). -/
  | finalize
  /-- STATUS (R67). -/
  | status
deriving DecidableEq, Repr

/-- What the host issues: one command word and the data bytes that follow it on the input port (R63, R164). -/
structure Command where
  word : Word
  data : List Byte
deriving DecidableEq, Repr

/-- What the outside world can do to the core between two steps: issue a command (R164) or reset it (R200). -/
inductive HostInput where
  | command (c : Command)
  | reset
deriving DecidableEq, Repr

/-- Why the decoder turns a command away (R69, R165). -/
inductive Reject where
  /-- `OPC` is 0x0 or 0x5..0xF (R69). -/
  | reservedOpcode
  /-- INIT with `ARG[27:1] != 0` (R69). -/
  | initArgument
  /-- FINALIZE with `ARG != 0` (R69). -/
  | finalizeArgument
  /-- STATUS with `ARG != 0` (R69). -/
  | statusArgument
  /-- The data list does not have the length the word asks for (R165). -/
  | payloadLength
deriving DecidableEq, Repr

end Sys2Proof
end

