-- ==== Sys2Proof/WellFormed.lean ====
section
/-!
DEFINITION. The well-formed commands: those with a command word of their own (spec/30_encoding.md R64 to R67).
-/

namespace Sys2Proof

/-- `LEN` fits its 28-bit field, 0..`LEN_MAX` (R65, R210). The other operands are well formed by their types. -/
def Instr.wellFormed : Instr → Bool
  | .init _ => true
  | .process len => decide (len ≤ LEN_MAX)
  | .finalize => true
  | .status => true

end Sys2Proof
end

