-- ==== Sys2Proof/Decode.lean ====
section
/-!
DEFINITION. The command decoder and encoder (spec/30_encoding.md R63 to R69, spec/46_control.md R165).

A command is a 32-bit word with the fields `OPC = word[31:28]` and `ARG = word[27:0]`, followed by the data
bytes of a PROCESS. Words are decoded whole, so no byte order enters.
-/

namespace Sys2Proof

/-- The field `OPC`, bits 31:28 (R63). -/
def opcOf (w : Word) : BitVec 4 := w.extractLsb' 28 4

/-- The field `ARG`, bits 27:0 (R63). -/
def argOf (w : Word) : BitVec 28 := w.extractLsb' 0 28

/-- The command a word spells, or why it spells none: the patterns of R64 to R67, every other word reserved
(R69). -/
def decodeWord (w : Word) : Except Reject Instr :=
  match (opcOf w).toNat with
  | 1 => if (argOf w).extractLsb' 1 27 = 0 then .ok (.init ((argOf w).getLsbD 0)) else .error .initArgument
  | 2 => .ok (.process (argOf w).toNat)
  | 3 => if argOf w = 0 then .ok .finalize else .error .finalizeArgument
  | 4 => if argOf w = 0 then .ok .status else .error .statusArgument
  | _ => .error .reservedOpcode

/-- How many data bytes follow the word: `LEN` for PROCESS, none for the other commands (R63, R165). -/
def Instr.payloadLength : Instr → Nat
  | .init _ => 0
  | .process len => len
  | .finalize => 0
  | .status => 0

/-- Decoding a whole command: the word first, then the length of its data list (R165, R190). -/
def decode (c : Command) : Except Reject Instr :=
  match decodeWord c.word with
  | .ok i => if c.data.length = i.payloadLength then .ok i else .error .payloadLength
  | .error r => .error r

/-- The mask of the command's row in the opcode table: the bits its pattern fixes (R64 to R67). -/
def Instr.mask : Instr → Word
  | .init _ => 0xFFFFFFFE
  | .process _ => 0xF0000000
  | .finalize => 0xFFFFFFFF
  | .status => 0xFFFFFFFF

/-- The match value of the command's row in the opcode table (R64 to R67). -/
def Instr.pattern : Instr → Word
  | .init _ => 0x10000000
  | .process _ => 0x20000000
  | .finalize => 0x30000000
  | .status => 0x40000000

/-- The operand bits of the command word: `ARG[0] = F` for INIT and `ARG[27:0] = LEN` for PROCESS (R64, R65). -/
def Instr.operandBits : Instr → Word
  | .init framing => (BitVec.ofBool framing).setWidth 32
  | .process len => (BitVec.ofNat 28 len).setWidth 32
  | .finalize => 0
  | .status => 0

/-- The word of a command (R64 to R67). -/
def encode (i : Instr) : Word := i.pattern ||| i.operandBits

/-- The command in the host's form: its word and its data bytes. -/
def encodeCommand (i : Instr) (data : List Byte) : Command := ⟨encode i, data⟩

/-- The 32-bit word whose low `nbits` bits are those of `w`, the others zero. -/
def tableWord (nbits w : Nat) : Word := BitVec.ofNat 32 (w % 2 ^ nbits)

/-- The instruction the decoder reads from a table word. Every row of the table is one 32-bit word. The data bytes
of a PROCESS are no part of the word, so a word alone decides the answer (`decode_zeroPayload` in
Sys2Proof/Laws/Decode.lean says that `decode` agrees once the data bytes stand beside it). -/
def decodeTableWord (nbits w : Nat) : Option Instr := (decodeWord (tableWord nbits w)).toOption

/-- A table word as the host issues it: with as many zero data bytes as the word asks for. -/
def tableCommand (nbits w : Nat) : Command where
  word := tableWord nbits w
  data :=
    match decodeWord (tableWord nbits w) with
    | .ok i => List.replicate i.payloadLength 0
    | .error _ => []

end Sys2Proof
end

