-- ==== Sys2Proof/Machine/State.lean ====
section
/-!
DEFINITION. The architectural state of the core (spec/10_state.md) with the streams and the host port
(spec/20_memory.md R52 to R54, spec/46_control.md R164 to R166), the reasons a step can stop, and reset.

All of it is plain data. `State.reset` is the table of R41.
-/

namespace Sys2Proof.Machine

/-- A memory of the core: the pairs (index, value) of its listed entries, indices strictly rising, no value 0. An
unlisted entry reads as 0 (log 4; for `head` that is `NIL`, R34). `Memory 8` is a list of `Host.Cell`. -/
abbrev Memory (w : Nat) := List (Nat × BitVec w)

/-- The register `STATE` (R14). -/
inductive Phase where
  | init
  | busy
  | finish
  | done
deriving DecidableEq, Repr

/-- The encoding of `STATE` (R14). -/
def Phase.toBits : Phase → BitVec 2
  | .init => 0
  | .busy => 1
  | .finish => 2
  | .done => 3

/-- The result codes of R68 that have a name. Codes 4 to 15 are reserved and never returned. -/
inductive ResultCode where
  | ok
  | invalidState
  | outOfMemory
  | streamError
deriving DecidableEq, Repr

/-- The numeric result codes (R68). -/
def ResultCode.toBits : ResultCode → BitVec 4
  | .ok => 0
  | .invalidState => 1
  | .outOfMemory => 2
  | .streamError => 3

/-- What a command returns to the host (R166): its result code, the status word if it is STATUS, and the output
bytes the sink accepted during it. -/
structure Response where
  code : ResultCode
  status : Option Word
  delivered : List Byte
deriving DecidableEq, Repr

/-- The conditions under which a step is `fault InternalInvariant`. The first seven are those of R187; the spec calls
each of them unreachable. -/
inductive InternalCondition where
  /-- A SendBits operand out of range (R148). -/
  | sendBitsOperand
  /-- A sent symbol has code length 0 (R149). -/
  | unusedSymbolSent
  /-- A tally distance outside 1..`MAX_DIST`, or `lc` outside 0..255 (R124). -/
  | tallyOperand
  /-- CorrectOverflow reached `bits = 0` (R135), or a leaf count would fall below 0 there (R9). -/
  | overflowReachedZero
  /-- A stored block with `stored_len` outside 0..65535 or `block_start < 0` (R144). -/
  | storedBlockBounds
  /-- A window access at a position outside 0..`WIN - 1` (R50). -/
  | windowAccess
  /-- `strstart + lookahead > WIN` (R20). -/
  | windowOverrun
  /-- InRead on an empty feed (R53). -/
  | emptyFeed
  /-- Another counter left its stated range (R9): `lookahead` below 0, `last_lit` above `TOKEN_LIMIT`, a frequency counter
  above 16 bits, `bi_valid` above 16, or a dynamic header count below its bias. -/
  | counterRange
  /-- A loop ran longer than its bound (R10: "Loops are bounded by the stated limits"). -/
  | loopBound
deriving DecidableEq, Repr

/-- The model faults of R182: the situation has no meaning, and the machine stops. -/
inductive Fault where
  /-- PROCESS or FINALIZE while `FAILED = 1` (R188). Raised by `execProcess` and `execFinalize`. Safe: the spec gives
  the call no value. -/
  | commandAfterError
  /-- `fault InternalInvariant` (R187, R9). Raised by the operations PROCESS and FINALIZE run, never by INIT or STATUS.
  Safe: the model stops where the spec shows that the hardware never comes. -/
  | internalInvariant (c : InternalCondition)
deriving DecidableEq, Repr

/-- Why a step answers no state although no fault occurred. -/
inductive Refusal where
  /-- The instruction has no meaning in this model. Raised by `exec` alone, for an arm not written yet. Safe. -/
  | notModelled (mnemonic : String)
  /-- A reserved word or a malformed data list (R69, R165, R189). Raised by `step` when the decoder rejects a command,
  and by `exec` when the data list beside the instruction has the wrong length. Safe: R189 says that the step "returns
  a refusal". -/
  | rejectedCommand (why : Reject)
deriving DecidableEq, Repr

/-- The state of the core (R13), its streams, and its host port. -/
structure State where
  /-- The parameters of R7; no step changes them (log 5). -/
  cfg : Config
  /-- `STATE` (R14). -/
  phase : Phase
  /-- `FAILED` (R15). -/
  failed : Bool
  /-- `FRAMING` (R16). -/
  framing : Bool
  /-- `RESULT` (R17). -/
  result : ResultCode
  /-- `strstart` (R19). -/
  strstart : Nat
  /-- `lookahead` (R20). -/
  lookahead : Nat
  /-- `block_start` (R21), negative once a slide has passed the start of the block. -/
  blockStart : Int
  /-- `match_length` (R22). -/
  matchLength : Nat
  /-- `prev_length` (R23). -/
  prevLength : Nat
  /-- `match_start` (R24). -/
  matchStart : Int
  /-- `prev_match` (R25). -/
  prevMatch : Int
  /-- `match_available` (R26). -/
  matchAvailable : Bool
  /-- `ins_h` (R27). -/
  insH : BitVec 15
  /-- `bi_buf` (R28). -/
  biBuf : Half
  /-- `bi_valid` (R28). -/
  biValid : Nat
  /-- `adler_a` (R29). -/
  adlerA : Half
  /-- `adler_b` (R29). -/
  adlerB : Half
  /-- `last_lit` (R30). -/
  lastLit : Nat
  /-- `tok_dist` (R30). -/
  tokDist : Memory 16
  /-- `tok_lc` (R30). -/
  tokLc : Memory 8
  /-- `dyn_lfreq` (R31). -/
  dynLfreq : Memory 16
  /-- `dyn_dfreq` (R31). -/
  dynDfreq : Memory 16
  /-- `bl_freq` (R31). -/
  blFreq : Memory 16
  /-- `opt_len` (R32). -/
  optLen : Int
  /-- `static_len` (R32). -/
  staticLen : Int
  /-- `window` (R33). -/
  window : Memory 8
  /-- `head` (R34). -/
  head : Memory 16
  /-- `prev` (R35). -/
  prev : Memory 16
  /-- The data list of the command being run (R63, R165); empty between commands. -/
  payload : List Byte
  /-- The input feed (R37): bytes of the current PROCESS not yet moved into the window. -/
  feed : List Byte
  /-- What the host does next, oldest first (log 1). -/
  inputs : List HostInput
  /-- The sink's answers to the next offered bytes, oldest first; it accepts every byte after the last answer listed
  (R54, log 2). -/
  sink : List Bool
  /-- The output stream (R52): every accepted byte, in order. -/
  out : List Byte
  /-- What the last command returned (R166). -/
  response : Option Response
deriving DecidableEq, Repr

/-- The state of R41 for a core with the parameters `c`, after `FRAMING` has been given the value `framing`, with
nothing issued, offered or returned yet. -/
def State.fresh (c : Config) (framing : Bool) : State where
  cfg := c
  phase := .init
  failed := false
  framing := framing
  result := .ok
  strstart := 0
  lookahead := 0
  blockStart := 0
  matchLength := 2
  prevLength := 2
  matchStart := 0
  prevMatch := 0
  matchAvailable := false
  insH := 0
  biBuf := 0
  biValid := 0
  adlerA := 1
  adlerB := 0
  lastLit := 0
  tokDist := []
  tokLc := []
  dynLfreq := [(256, 1)]
  dynDfreq := []
  blFreq := []
  optLen := 0
  staticLen := 0
  window := []
  head := []
  prev := []
  payload := []
  feed := []
  inputs := []
  sink := []
  out := []
  response := none

/-- The machine right after reset (R200): the table of R41 with `FRAMING = RESET_FRAMING`, the parameters at the
defaults of R7. -/
def State.reset : State := State.fresh Config.default Config.default.resetFraming

end Sys2Proof.Machine
end

