-- ==== Sys2Proof/Machine/Ops.lean ====
section
/-!
DEFINITION. The shared operations: reading and writing a memory, raising an error, offering an output byte, and
running a command to its end.

The operations of a command are programs of `M`. A program answers a value and the next state, or stops: by
`raise` (the command ends with a result code, and everything written so far stays written, R183) or by a model
fault (R187).
-/

namespace Sys2Proof.Machine

/-! ### Memories -/

/-- Entry `a` of a memory. -/
def Memory.read {w : Nat} : Memory w → Nat → BitVec w
  | [], _ => 0
  | (k, v) :: m, a => if a = k then v else Memory.read m a

/-- The memory with entry `a` written; writing 0 unlists the entry. -/
def Memory.write {w : Nat} : Memory w → Nat → BitVec w → Memory w
  | [], a, v => if v = 0 then [] else [(a, v)]
  | (k, x) :: m, a, v =>
    if a < k then (if v = 0 then (k, x) :: m else (a, v) :: (k, x) :: m)
    else if a = k then (if v = 0 then m else (a, v) :: m)
    else (k, x) :: Memory.write m a v

/-- The canonical form of a memory whose indices lie in `lo..size - 1`: indices rising, no value 0. -/
def Memory.wfFrom {w : Nat} (lo size : Nat) : Memory w → Bool
  | [] => true
  | (k, v) :: m => decide (lo ≤ k) && decide (k < size) && decide (v ≠ 0) && Memory.wfFrom (k + 1) size m

/-- The canonical form of a memory of `size` entries. -/
def Memory.wf {w : Nat} (size : Nat) (m : Memory w) : Bool := Memory.wfFrom 0 size m

/-- The entries of a memory at and above index `W`. -/
def Memory.upper {w : Nat} (m : Memory w) : Memory w := m.filter fun c => decide (W ≤ c.1)

/-- Compaction of the window (R94): entry `i` becomes entry `i + W` for `i < W`, the rest stays. -/
def Memory.compact {w : Nat} (m : Memory w) : Memory w :=
  (m.upper.map fun c => (c.1 - W, c.2)) ++ m.upper

/-- What a slide makes of one stored position (R95). -/
def rebasePosition (v : Half) : Half := if W ≤ v.toNat then v - BitVec.ofNat 16 W else BitVec.ofNat 16 NIL

/-- Rebasing a table of positions (R95). -/
def Memory.rebase (m : Memory 16) : Memory 16 :=
  m.filterMap fun c => if rebasePosition c.2 = 0 then none else some (c.1, rebasePosition c.2)

/-! ### Stopping -/

/-- Why a program stops before its end. -/
inductive Stop where
  /-- The command ends with this error code (R183). -/
  | raised (e : ResultCode)
  /-- The situation has no meaning (R187). -/
  | fault (f : Fault)
deriving DecidableEq, Repr

/-- The programs the commands are made of. -/
abbrev M (α : Type) := EStateM Stop State α

/-- Does this error leave the session unusable? (R15, R183: every error but InvalidState.) -/
def ResultCode.setsFailed : ResultCode → Bool
  | .ok => false
  | .invalidState => false
  | .outOfMemory => true
  | .streamError => true

/-- What raising the error `e` writes: `RESULT`, and `FAILED` for an error other than InvalidState (R183). It saves no
program counter and changes no mode (R192). -/
def State.raiseError (s : State) (e : ResultCode) : State :=
  { s with result := e, failed := s.failed || e.setsFailed }

/-- `raise E` (R183): nothing after it runs, and what was written stays written. -/
def raise {α : Type} (e : ResultCode) : M α := fun s => .error (.raised e) (s.raiseError e)

/-- `fault InternalInvariant` (R187). -/
def internalFault {α : Type} (c : InternalCondition) : M α := fun s =>
  .error (.fault (.internalInvariant c)) s

/-- `fault CommandAfterError` (R188). -/
def commandAfterError {α : Type} : M α := fun s => .error (.fault .commandAfterError) s

/-- Goes on only if the condition `ok` holds; `c` names what would be violated. -/
def require (ok : Bool) (c : InternalCondition) : M Unit := fun s =>
  if ok then .ok () s else .error (.fault (.internalInvariant c)) s

/-- Runs `m` if `c` holds. -/
def doIf (c : Bool) (m : M Unit) : M Unit := if c then m else pure ()

/-! ### The window -/

/-- Reads `window[p]` (R50). -/
def readWindow (p : Int) : M Byte := fun s =>
  if 0 ≤ p ∧ p < WIN then .ok (s.window.read p.toNat) s
  else .error (.fault (.internalInvariant .windowAccess)) s

/-- Writes `window[p]` (R50). -/
def writeWindow (p : Nat) (b : Byte) : M Unit := fun s =>
  if p < WIN then .ok () { s with window := s.window.write p b }
  else .error (.fault (.internalInvariant .windowAccess)) s

/-! ### The output stream -/

/-- `OutByte(b)` (R54): offers a byte to the sink. An accepted byte joins the output stream; a refusal raises
StreamError (R185). -/
def outByte (b : Byte) : M Unit := fun s =>
  match s.sink with
  | [] => .ok () { s with out := s.out ++ [b] }
  | true :: answers => .ok () { s with out := s.out ++ [b], sink := answers }
  | false :: answers => raise .streamError { s with sink := answers }

/-- `PutByte(b)` (R152). -/
def putByte (b : Byte) : M Unit := outByte b

/-- The low byte of a 16-bit value. -/
def lowByte (w : Half) : Byte := w.extractLsb' 0 8

/-- The high byte of a 16-bit value. -/
def highByte (w : Half) : Byte := w.extractLsb' 8 8

/-- `PutShortLE(w)` (R152): the low byte first. -/
def putShortLE (w : Half) : M Unit := do
  outByte (lowByte w)
  outByte (highByte w)

/-- `PutShortMSB(w)` (R152): the high byte first. -/
def putShortMSB (w : Half) : M Unit := do
  outByte (highByte w)
  outByte (lowByte w)

/-! ### Running a command -/

/-- The state a command leaves when it ends with `code` (R166, R171): `RESULT` holds the code, the host holds the
response, and the input port is empty (R37). `before` is the output stream as the command found it. -/
def State.complete (t : State) (before : List Byte) (code : ResultCode) : State :=
  { t with
    result := code
    payload := []
    feed := []
    response := some ⟨code, none, t.out.drop before.length⟩ }

/-- Runs a command that takes `need` data bytes and whose effect is `body` (R165, R166). A data list of another length
is refused (R189). An error raised by `body` ends the command with its code (R183). -/
def runCommand (need : Nat) (body : M ResultCode) (s : State) : Host.Outcome State Fault Refusal :=
  if s.payload.length = need then
    match body s with
    | .ok code t => .next (t.complete s.out code)
    | .error (.raised e) t => .next (t.complete s.out e)
    | .error (.fault f) _ => .fault f
  else .refused (.rejectedCommand .payloadLength)

end Sys2Proof.Machine
end

