-- ==== Sys2Proof/Machine/Flags.lean ====
section
/-!
DEFINITION. The single-bit state and the status word (spec/10_state.md R39, spec/30_encoding.md R67).

The core has no condition codes. Its flags are `FAILED` (written by `State.raiseError`), `FRAMING` (written by
INIT) and `match_available` (written by the lazy step); the capacity flag of a tally (R125) is a returned value.
-/

namespace Sys2Proof.Machine

/-- The status word `RESULT << 4 | FRAMING << 3 | FAILED << 2 | STATE` (R67, R176). -/
def statusWord (s : State) : Word :=
  (s.result.toBits.setWidth 32 <<< 4) ||| ((BitVec.ofBool s.framing).setWidth 32 <<< 3) |||
    ((BitVec.ofBool s.failed).setWidth 32 <<< 2) ||| s.phase.toBits.setWidth 32

/-- `STATE` in {INIT, BUSY}: PROCESS and FINALIZE may run (R167). -/
def Phase.accepts : Phase → Bool
  | .init => true
  | .busy => true
  | .finish => false
  | .done => false

/-- The capacity flag of a tally (R125): the block holds `TOKEN_LIMIT` tokens. -/
def blockFull (s : State) : Bool := decide (s.lastLit = s.cfg.tokenLimit)

end Sys2Proof.Machine
end

