-- ==== Sys2Proof/Machine/Operands.lean ====
section
/-!
DEFINITION. The operand forms: what the operations read beside the state's registers.

A command's operand is a field of its word (`Sys2Proof.decodeWord`) and, for PROCESS, the data list on the input
port. Inside the core the operands are bytes of the feed, SendBits values, and tally operands.
-/

namespace Sys2Proof.Machine

/-- `feed <- D` (R172): the data list of the command becomes the input feed. -/
def loadFeed : M Unit := fun s => .ok () { s with feed := s.payload }

/-- `InRead()` (R53): takes the next byte of the feed. It is called only when the feed is not empty. -/
def inRead : M Byte := fun s =>
  match s.feed with
  | [] => internalFault .emptyFeed s
  | b :: rest => .ok b { s with feed := rest }

/-- The range of the operands of SendBits: `1 <= length <= 16` and `0 <= value < 2 ^ length` (R148). -/
def sendBitsOperandOk (value length : Nat) : Bool :=
  decide (1 ≤ length) && decide (length ≤ 16) && decide (value < 2 ^ length)

/-- The range of the operands of TallyDistance: `d` in 1..`MAX_DIST` and `lc` in 0..255 (R124). -/
def tallyOperandOk (d : Int) (lc : Nat) : Bool :=
  decide (1 ≤ d) && decide (d ≤ MAX_DIST) && decide (lc ≤ 255)

end Sys2Proof.Machine
end

