-- ==== Sys2Proof/Machine/Tables.lean ====
section
/-!
DEFINITION. The constant tables of the DEFLATE format (spec/10_state.md R38), from spec/30_encoding.md section 3.
-/

namespace Sys2Proof.Machine

/-- The base lengths `BL(c)`, `c` in 0..28 (R80). -/
def lengthBases : List Nat :=
  [3, 4, 5, 6, 7, 8, 9, 10, 11, 13, 15, 17, 19, 23, 27, 31, 35, 43, 51, 59, 67, 83, 99, 115, 131, 163, 195, 227, 258]

/-- The extra bits `EL(c)` of the length codes (R80). -/
def lengthExtras : List Nat :=
  [0, 0, 0, 0, 0, 0, 0, 0, 1, 1, 1, 1, 2, 2, 2, 2, 3, 3, 3, 3, 4, 4, 4, 4, 5, 5, 5, 5, 0]

/-- The base distances `BD(c)`, `c` in 0..29 (R81). -/
def distBases : List Nat :=
  [1, 2, 3, 4, 5, 7, 9, 13, 17, 25, 33, 49, 65, 97, 129, 193, 257, 385, 513, 769, 1025, 1537, 2049, 3073, 4097, 6145,
    8193, 12289, 16385, 24577]

/-- The extra bits `ED(c)` of the distance codes (R81). -/
def distExtras : List Nat :=
  [0, 0, 0, 0, 1, 1, 2, 2, 3, 3, 4, 4, 5, 5, 6, 6, 7, 7, 8, 8, 9, 9, 10, 10, 11, 11, 12, 12, 13, 13]

/-- `BL(c)` (R80). -/
def lengthBase (c : Nat) : Nat := lengthBases.getD c 0
/-- `EL(c)` (R80). -/
def lengthExtra (c : Nat) : Nat := lengthExtras.getD c 0
/-- `BD(c)` (R81). -/
def distBase (c : Nat) : Nat := distBases.getD c 0
/-- `ED(c)` (R81). -/
def distExtra (c : Nat) : Nat := distExtras.getD c 0

/-- `max { c : bases[c] <= x }` for a rising list of bases whose first one is at most `x` (R89, R90). -/
def lastBaseLe (bases : List Nat) (x : Nat) : Nat := (bases.takeWhile fun b => decide (b ≤ x)).length - 1

/-- `LengthCode(len)` for `len` in 3..258 (R89): 258 has a symbol of its own. -/
def lengthCode (len : Nat) : Nat := if len = 258 then 285 else 257 + lastBaseLe (lengthBases.take 28) len

/-- `DistCode(d)` for `d` in 1..32768 (R90). -/
def distCode (d : Nat) : Nat := lastBaseLe distBases d

/-- The code length `SL(n)` of symbol `n` in the static literal/length tree (R77). -/
def staticLitLenLength (n : Nat) : Nat :=
  if n ≤ 143 then 8 else if n ≤ 255 then 9 else if n ≤ 279 then 7 else 8

/-- The code length `SD(d)` in the static distance tree (R78). -/
def staticDistLength (_d : Nat) : Nat := 5

/-- The order in which the bit-length code lengths are sent (R84). -/
def bitLengthOrder : List Nat := [16, 17, 18, 0, 8, 7, 9, 6, 10, 5, 11, 4, 12, 3, 13, 2, 14, 1, 15]

/-- The symbol `REP_3_6` (R83). -/
def REP_3_6 : Nat := 16
/-- The symbol `REPZ_3_10` (R83). -/
def REPZ_3_10 : Nat := 17
/-- The symbol `REPZ_11_138` (R83). -/
def REPZ_11_138 : Nat := 18

/-- The extra bits of the bit-length symbols (R83, R85). -/
def bitLengthExtra (n : Nat) : Nat := if n = 16 then 2 else if n = 17 then 3 else if n = 18 then 7 else 0

/-- The three trees of a block (R128). -/
inductive TreeKind where
  | litLen
  | dist
  | bitLen
deriving DecidableEq, Repr

/-- The size of the alphabet (R128). -/
def TreeKind.elems : TreeKind → Nat
  | .litLen => L_CODES
  | .dist => D_CODES
  | .bitLen => BL_CODES

/-- The length cap (R128). -/
def TreeKind.maxLength : TreeKind → Nat
  | .litLen => MAX_BITS
  | .dist => MAX_BITS
  | .bitLen => MAX_BL_BITS

/-- The static code length `stree(n)`, where the tree has a static form (R128). -/
def TreeKind.staticLength : TreeKind → Nat → Option Nat
  | .litLen, n => some (staticLitLenLength n)
  | .dist, n => some (staticDistLength n)
  | .bitLen, _ => none

/-- The extra bits `extra(n)` of a symbol (R85, R128). -/
def TreeKind.extra : TreeKind → Nat → Nat
  | .litLen, n => if 257 ≤ n then lengthExtra (n - 257) else 0
  | .dist, n => distExtra n
  | .bitLen, n => bitLengthExtra n

/-- `bitrev(c, n)`: the `n` low bits of `c` in reverse order (R9). -/
def bitrev (c : Nat) : Nat → Nat
  | 0 => 0
  | n + 1 => c % 2 * 2 ^ n + bitrev (c / 2) n

end Sys2Proof.Machine
end

