-- ==== Sys2Proof/Machine/Tally.lean ====
section
/-!
DEFINITION. The frequency tally and the token buffer (spec/43_tally.md R121 to R126).
-/

namespace Sys2Proof.Machine

/-- One more occurrence of symbol `n`. -/
def bump (freq : Memory 16) (n : Nat) : Memory 16 := freq.write n (freq.read n + 1)

/-- `k` more occurrences of symbol `n` fit its 16-bit counter (R9, R31). -/
def countFits (freq : Memory 16) (n k : Nat) : Bool := decide ((freq.read n).toNat + k < 2 ^ 16)

/-- Appends the token `(dist, lc)` at index `last_lit` (R123, R124). -/
def State.pushToken (s : State) (dist : Half) (lc : Byte) : State :=
  { s with
    tokDist := s.tokDist.write s.lastLit dist
    tokLc := s.tokLc.write s.lastLit lc
    lastLit := s.lastLit + 1 }

/-- The writes of `TallyLiteral(c)` (R123). -/
def State.tallyLiteral (s : State) (c : Byte) : State :=
  { s.pushToken 0 c with dynLfreq := bump s.dynLfreq c.toNat }

/-- The writes of `TallyDistance(d, lc)` (R124). -/
def State.tallyDistance (s : State) (d lc : Nat) : State :=
  { s.pushToken (BitVec.ofNat 16 d) (BitVec.ofNat 8 lc) with
    dynLfreq := bump s.dynLfreq (lengthCode (lc + MIN_MATCH))
    dynDfreq := bump s.dynDfreq (distCode d) }

/-- `last_lit < TOKEN_LIMIT`: there is room for a token (R125: "No tally ever runs with `last_lit = TOKEN_LIMIT`"). -/
def tallyRoom (s : State) : Bool := decide (s.lastLit < s.cfg.tokenLimit)

/-- `TallyLiteral(c)` (R123): the capacity flag. -/
def tallyLiteral (c : Byte) : M Bool := do
  let s ← get
  require (tallyRoom s) .counterRange
  require (countFits s.dynLfreq c.toNat 1) .counterRange
  set (s.tallyLiteral c)
  pure (blockFull (s.tallyLiteral c))

/-- The counters that TallyDistance raises fit (R9, R31). -/
def matchFits (s : State) (d lc : Nat) : Bool :=
  countFits s.dynLfreq (lengthCode (lc + MIN_MATCH)) 1 && countFits s.dynDfreq (distCode d) 1

/-- `TallyDistance(d, lc)` (R124): the capacity flag. -/
def tallyDistance (d : Int) (lc : Nat) : M Bool := do
  let s ← get
  require (tallyOperandOk d lc) .tallyOperand
  require (tallyRoom s) .counterRange
  require (matchFits s d.toNat lc) .counterRange
  set (s.tallyDistance d.toNat lc)
  pure (blockFull (s.tallyDistance d.toNat lc))

/-- What `InitBlock()` writes (spec/10_state.md R43). -/
def State.blockCleared (s : State) : State :=
  { s with
    dynLfreq := [(END_BLOCK, 1)]
    dynDfreq := []
    blFreq := []
    optLen := 0
    staticLen := 0
    lastLit := 0 }

/-- `InitBlock()` (R43). -/
def initBlock : M Unit := fun s => .ok () s.blockCleared

end Sys2Proof.Machine
end

