-- ==== Sys2Proof/Machine/Huffman.lean ====
section
/-!
DEFINITION. The Huffman tree builder and the choice of the block type (spec/44_huffman.md R128 to R145).

A tree is built by pure functions from its frequencies; `buildTree` adds the costs to the registers `opt_len` and
`static_len`. The working arrays are transient (spec/10_state.md R36).
-/

namespace Sys2Proof.Machine

/-! ### Nodes and priority -/

/-- A node of one BuildTree run (R129): its number, its frequency and its depth. -/
structure Node where
  idx : Nat
  freq : Nat
  depth : Nat
deriving DecidableEq, Repr

/-- The priority order `DOC_ORDER` (R131): frequency, then depth, then index. -/
def Node.before (a b : Node) : Bool :=
  decide (a.freq < b.freq) ||
    decide (a.freq = b.freq) && (decide (a.depth < b.depth) || decide (a.depth = b.depth) && decide (a.idx < b.idx))

/-- The node that joins `a` and `b` under the number `next` (R133). -/
def Node.join (next : Nat) (a b : Node) : Node := ⟨next, a.freq + b.freq, max a.depth b.depth + 1⟩

/-- The leaves of a tree: the symbols with non-zero frequency, rising (R130). -/
def leavesOf (k : TreeKind) (freq : Memory 16) : List Node :=
  (List.range k.elems).filterMap fun n =>
    if freq.read n = 0 then none else some ⟨n, (freq.read n).toNat, 0⟩

/-- `max_code`: the largest used symbol, or -1 (R129). -/
def maxCodeOf (leaves : List Node) : Int := leaves.foldl (fun m n => max m n.idx) (-1)

/-- One forced leaf (R132): the symbol after `max_code` while `max_code < 2`, else symbol 0; and the new `max_code`. -/
def forcedLeaf (maxCode : Int) : Nat × Int :=
  if maxCode < 2 then ((maxCode + 1).toNat, maxCode + 1) else (0, maxCode)

/-- CompleteDegenerate (R132), at most two rounds: the leaves, `max_code`, and the forced symbols. -/
def completeDegenerate : Nat → List Node → Int → List Node × Int × List Nat
  | 0, leaves, maxCode => (leaves, maxCode, [])
  | rounds + 1, leaves, maxCode =>
    if leaves.length < 2 then
      let (node, maxCode') := forcedLeaf maxCode
      let (leaves', maxCode'', forced) := completeDegenerate rounds (leaves ++ [⟨node, 1, 0⟩]) maxCode'
      (leaves', maxCode'', node :: forced)
    else (leaves, maxCode, [])

/-! ### The merge -/

/-- What a merge returns: the removal list, root last, and each node's parent (R133). -/
structure MergeResult where
  removal : List Node
  parents : List (Nat × Nat)
deriving DecidableEq, Repr

/-- Records that `a` and `b` were removed, in that order, and joined under `next`. -/
def MergeResult.cons (r : MergeResult) (a b : Node) (next : Nat) : MergeResult where
  removal := a :: b :: r.removal
  parents := (a.idx, next) :: (b.idx, next) :: r.parents

/-- The least of the nodes `a :: q` by R131. -/
def leastNode (a : Node) (q : List Node) : Node := q.foldl (fun m n => if n.before m then n else m) a

/-- Takes the least node out of a queue (R133). -/
def popLeast : List Node → Option (Node × List Node)
  | [] => none
  | n :: q => some (leastNode n q, (n :: q).erase (leastNode n q))

/-- Merge for `DOC_ORDER` (R133). Each pass leaves one node fewer, so `|Q|` passes suffice. -/
def mergeDoc : Nat → Nat → List Node → MergeResult
  | 0, _, q => ⟨q, []⟩
  | fuel + 1, next, q =>
    match popLeast q with
    | none => ⟨[], []⟩
    | some (a, q1) =>
      match popLeast q1 with
      | none => ⟨[a], []⟩
      | some (b, q2) => (mergeDoc fuel (next + 1) (q2 ++ [Node.join next a b])).cons a b next

/-- `smaller(a, b)` of the zlib heap (R138). -/
def Node.smaller (a b : Node) : Bool :=
  decide (a.freq < b.freq) || decide (a.freq = b.freq) && decide (a.depth ≤ b.depth)

/-- `H[k]` of a heap numbered from 1 (R138). -/
def heapAt (h : List Node) (k : Nat) : Node := h.getD (k - 1) ⟨0, 0, 0⟩

/-- The child of slot `k` that DownHeap compares with (R138): `2k`, or `2k + 1` if that node is smaller. -/
def heapChild (h : List Node) (k : Nat) : Nat :=
  if 2 * k < h.length ∧ (heapAt h (2 * k + 1)).smaller (heapAt h (2 * k)) = true then 2 * k + 1 else 2 * k

/-- `DownHeap(k)` of R138, with the value `v` on its way down from slot `k`. -/
def downHeap (v : Node) : Nat → Nat → List Node → List Node
  | 0, k, h => h.set (k - 1) v
  | fuel + 1, k, h =>
    if 2 * k ≤ h.length then
      if v.smaller (heapAt h (heapChild h k)) then h.set (k - 1) v
      else downHeap v fuel (heapChild h k) (h.set (k - 1) (heapAt h (heapChild h k)))
    else h.set (k - 1) v

/-- `DownHeap(k)` (R138). -/
def siftDown (k : Nat) (h : List Node) : List Node := downHeap (heapAt h k) h.length k h

/-- `for k in n down to 1: DownHeap(k)` (R138). -/
def heapify : Nat → List Node → List Node
  | 0, h => h
  | k + 1, h => heapify k (siftDown (k + 1) h)

/-- The merge loop of R138. -/
def mergeZlib : Nat → Nat → List Node → MergeResult
  | 0, _, h => ⟨h, []⟩
  | fuel + 1, next, h =>
    if h.length < 2 then ⟨h, []⟩
    else
      let a := heapAt h 1
      let h1 := siftDown 1 ((h.set 0 (heapAt h h.length)).dropLast)
      let b := heapAt h1 1
      (mergeZlib fuel (next + 1) (siftDown 1 (h1.set 0 (Node.join next a b)))).cons a b next

/-- Merge under the parameter `HEAP_TIE` (R130, R133, R138). -/
def merge (tie : HeapTie) (k : TreeKind) (leaves : List Node) : MergeResult :=
  match tie with
  | .docOrder => mergeDoc leaves.length k.elems leaves
  | .zlibHeap => mergeZlib leaves.length k.elems (heapify (leaves.length / 2) leaves)

/-! ### Code lengths -/

/-- An array kept as the pairs (index, value) written so far, the latest first. -/
abbrev Assoc := List (Nat × Nat)

/-- Entry `n` of such an array, 0 if it was never written. -/
def Assoc.get (a : Assoc) (n : Nat) : Nat := (List.lookup n a).getD 0

/-- The lengths, the leaf counts `bl_count[0..15]`, the clamped nodes, and what the tree adds to `opt_len` and
`static_len`. -/
structure Lengths where
  len : Assoc
  blCount : List Nat
  overflow : Nat
  opt : Int
  static : Int
deriving DecidableEq, Repr

/-- `bl_count[b] <- bl_count[b] + 1`. -/
def countUp (blCount : List Nat) (b : Nat) : List Nat := blCount.set b (blCount.getD b 0 + 1)

/-- The static cost of one occurrence of symbol `n` (R134); 0 where the tree has no static form. -/
def staticCost (k : TreeKind) (n : Nat) : Int :=
  match k.staticLength n with
  | some l => (l : Int) + k.extra n
  | none => 0

/-- FirstLengths for one node whose parent has length `up` (R134). -/
def Lengths.visit (k : TreeKind) (maxCode : Int) (up : Nat) (n : Node) (s : Lengths) : Lengths :=
  let bits := min (up + 1) k.maxLength
  let s := { s with
    len := (n.idx, bits) :: s.len
    overflow := if k.maxLength < up + 1 then s.overflow + 1 else s.overflow }
  if (n.idx : Int) ≤ maxCode then
    { s with
      blCount := countUp s.blCount bits
      opt := s.opt + n.freq * ((bits : Int) + k.extra n.idx)
      static := s.static + n.freq * staticCost k n.idx }
  else s

/-- FirstLengths (R134): the removal list from the root back to the first removed node. -/
def firstLengths (k : TreeKind) (maxCode : Int) (m : MergeResult) : Lengths :=
  match m.removal.reverse with
  | [] => ⟨[], List.replicate 16 0, 0, 0, 0⟩
  | root :: rest =>
    rest.foldl (fun s n => s.visit k maxCode (s.len.get (Assoc.get m.parents n.idx)) n)
      ⟨[(root.idx, 0)], List.replicate 16 0, 0, 0, 0⟩

/-- The inner search of R135: the greatest `bits >= 1` at or below the argument with `bl_count[bits] != 0`. -/
def findLevel (blCount : List Nat) : Nat → Option Nat
  | 0 => none
  | b + 1 => if blCount.getD (b + 1) 0 = 0 then findLevel blCount b else some (b + 1)

/-- One round of CorrectOverflow (R135) that moves a leaf from level `bits`. -/
def moveLeaf (maxLength bits : Nat) (blCount : List Nat) : List Nat :=
  let c := blCount.set bits (blCount.getD bits 0 - 1)
  let c := c.set (bits + 1) (c.getD (bits + 1) 0 + 2)
  c.set maxLength (c.getD maxLength 0 - 1)

/-- No leaf count falls below 0 in that round (R9): the deepest level, from which it takes one away, holds one, or has just
got two. The level the leaf leaves was found non-empty. -/
def moveAllowed (maxLength bits : Nat) (blCount : List Nat) : Bool :=
  decide (bits + 1 = maxLength) || decide (1 ≤ blCount.getD maxLength 0)

/-- CorrectOverflow (R135). Each round takes 2 from `overflow`, so `overflow` rounds suffice. Reaching `bits = 0`
answers none (R187), and so does a count that would fall below 0 (R9). -/
def correctOverflow (maxLength : Nat) : Nat → Nat → List Nat → Option (List Nat)
  | 0, _, blCount => some blCount
  | fuel + 1, overflow, blCount =>
    if overflow = 0 then some blCount
    else
      match findLevel blCount (maxLength - 1) with
      | none => none
      | some bits =>
        if moveAllowed maxLength bits blCount then
          correctOverflow maxLength fuel (overflow - 2) (moveLeaf maxLength bits blCount)
        else none

/-- The lengths and `opt_len` while R136 reassigns lengths. -/
structure Reassigned where
  len : Assoc
  opt : Int
deriving DecidableEq, Repr

/-- Gives the leaf `m` the length `bits` (R136). -/
def Reassigned.assign (s : Reassigned) (bits : Nat) (m : Node) : Reassigned :=
  if s.len.get m.idx = bits then s
  else ⟨(m.idx, bits) :: s.len, s.opt + ((bits : Int) - s.len.get m.idx) * m.freq⟩

/-- The inner loop of R136 for one length: the next `count` leaves of the removal list get `bits`; internal nodes are
skipped. It answers what is left of the list. -/
def reassignLevel (maxCode : Int) (bits : Nat) : Nat → List Node → Reassigned → List Node × Reassigned
  | 0, rest, s => (rest, s)
  | _ + 1, [], s => ([], s)
  | count + 1, m :: rest, s =>
    if maxCode < m.idx then reassignLevel maxCode bits (count + 1) rest s
    else reassignLevel maxCode bits count rest (s.assign bits m)

/-- ReassignLengths (R136), from length `bits` down to 1. -/
def reassignLengths (maxCode : Int) (blCount : List Nat) : Nat → List Node → Reassigned → Reassigned
  | 0, _, s => s
  | bits + 1, rest, s =>
    let (rest', s') := reassignLevel maxCode (bits + 1) (blCount.getD (bits + 1) 0) rest s
    reassignLengths maxCode blCount bits rest' s'

/-! ### Canonical codes -/

/-- The first code of length `b` (R137): `next[b]` before any symbol is numbered. -/
def firstCode (lens : List Nat) : Nat → Nat
  | 0 => 0
  | b + 1 => 2 * (firstCode lens b + (if b = 0 then 0 else lens.count b))

/-- Numbers the symbols in order (R137): a symbol of length `l` takes `next[l]`, stored reversed. -/
def assignCodes : List Nat → List Nat → List Nat
  | _, [] => []
  | next, l :: lens =>
    if l = 0 then 0 :: assignCodes next lens
    else bitrev (next.getD l 0) l :: assignCodes (next.set l (next.getD l 0 + 1)) lens

/-- CanonicalCodes (R137): the code of each symbol, pre-reversed, 0 for an unused one. -/
def canonicalCodes (lens : List Nat) : List Nat :=
  assignCodes ((List.range 16).map (firstCode lens)) lens

/-! ### BuildTree -/

/-- What BuildTree returns (R130), with what it adds to the cost registers. -/
structure BuiltTree where
  lens : List Nat
  codes : List Nat
  maxCode : Nat
  optAdd : Int
  staticAdd : Int
deriving DecidableEq, Repr

/-- The static code lengths of the forced leaves, which R132 takes off `static_len`. -/
def forcedStatic (k : TreeKind) (forced : List Nat) : Int :=
  (forced.map fun n => ((k.staticLength n).getD 0 : Int)).sum

/-- The lengths after R135 and R136, or none if CorrectOverflow answers none. -/
def cappedLengths (k : TreeKind) (maxCode : Int) (m : MergeResult) (s : Lengths) : Option Reassigned :=
  if s.overflow = 0 then some ⟨s.len, s.opt⟩
  else
    match correctOverflow k.maxLength s.overflow s.overflow s.blCount with
    | none => none
    | some blCount => some (reassignLengths maxCode blCount k.maxLength m.removal ⟨s.len, s.opt⟩)

/-- BuildTree (R130) from the frequencies alone; none where CorrectOverflow answers none. The lengths
cover the whole alphabet, and symbols without a leaf have length 0. -/
def builtTree (tie : HeapTie) (k : TreeKind) (freq : Memory 16) : Option BuiltTree :=
  let leaves0 := leavesOf k freq
  let (leaves, maxCode, forced) := completeDegenerate 2 leaves0 (maxCodeOf leaves0)
  let m := merge tie k leaves
  let s := firstLengths k maxCode m
  (cappedLengths k maxCode m s).map fun r =>
    let lens := (List.range k.elems).map r.len.get
    { lens := lens
      codes := canonicalCodes lens
      maxCode := maxCode.toNat
      optAdd := r.opt - forced.length
      staticAdd := s.static - forcedStatic k forced }

/-- The frequencies of a tree (R128). -/
def State.freqOf (s : State) : TreeKind → Memory 16
  | .litLen => s.dynLfreq
  | .dist => s.dynDfreq
  | .bitLen => s.blFreq

/-- `BuildTree(T)` (R130). -/
def buildTree (k : TreeKind) : M BuiltTree := fun s =>
  match builtTree s.cfg.heapTie k (s.freqOf k) with
  | none => internalFault .overflowReachedZero s
  | some t => .ok t { s with optLen := s.optLen + t.optAdd, staticLen := s.staticLen + t.staticAdd }

/-! ### The run-length scan -/

/-- One symbol of the bit-length alphabet as it is sent: the symbol and its extra bits (R83). -/
structure BlItem where
  symbol : Nat
  extraValue : Nat
  extraBits : Nat
deriving DecidableEq, Repr

/-- The symbols that stand for a finished run of `count` lengths `cur` (R140, R157); `prevlen` is the length of the
run before it, none for -1. -/
def runItems (prevlen : Option Nat) (cur count minc : Nat) : List BlItem :=
  if count < minc then List.replicate count ⟨cur, 0, 0⟩
  else if cur ≠ 0 then
    if prevlen = some cur then [⟨REP_3_6, count - 3, 2⟩]
    else [⟨cur, 0, 0⟩, ⟨REP_3_6, count - 1 - 3, 2⟩]
  else if count ≤ 10 then [⟨REPZ_3_10, count - 3, 3⟩]
  else [⟨REPZ_11_138, count - 11, 7⟩]

/-- `(maxc, minc)` for the run after one of length `cur`, when `next` starts it (R140). -/
def runLimits (cur : Option Nat) (next : Option Nat) : Nat × Nat :=
  if next = some 0 then (138, 3) else if cur.isSome ∧ cur = next then (6, 3) else (7, 4)

/-- The walk of R140 and R157: `count` lengths of the current run have been seen, and `limits` is `(maxc, minc)`. The
end of the list is the SENTINEL. -/
def scanRuns (prevlen : Option Nat) (count : Nat) (limits : Nat × Nat) : List Nat → List BlItem
  | [] => []
  | cur :: rest =>
    if count + 1 < limits.1 ∧ rest.head? = some cur then scanRuns prevlen (count + 1) limits rest
    else runItems prevlen cur (count + 1) limits.2 ++ scanRuns (some cur) 0 (runLimits (some cur) rest.head?) rest

/-- The bit-length symbols that describe the lengths of symbols 0..`max_code` (R140, R157). -/
def blItems (lens : List Nat) (maxCode : Nat) : List BlItem :=
  let used := lens.take (maxCode + 1)
  scanRuns none 0 (runLimits none used.head?) used

/-- Every occurrence in the list fits the counters (R9, R31). -/
def scanFits (freq : Memory 16) (items : List BlItem) : Bool :=
  (List.range BL_CODES).all fun n => countFits freq n (items.countP fun x => decide (x.symbol = n))

/-- What `ScanTree` writes: each symbol that SendTree will send is counted (R140). -/
def State.scanned (s : State) (items : List BlItem) : State :=
  { s with blFreq := items.foldl (fun f x => bump f x.symbol) s.blFreq }

/-- `ScanTree(len, max_code)` (R140). -/
def scanTree (lens : List Nat) (maxCode : Nat) : M Unit := do
  let s ← get
  require (scanFits s.blFreq (blItems lens maxCode)) .counterRange
  set (s.scanned (blItems lens maxCode))

/-- `max_blindex` (R141): from 18 down to 3, the last position of `BL_ORDER` whose symbol has a length. -/
def maxBlIndex (blLens : List Nat) : Nat → Nat
  | 0 => 0
  | r + 1 =>
    if 3 ≤ r + 1 ∧ blLens.getD (bitLengthOrder.getD (r + 1) 0) 0 = 0 then maxBlIndex blLens r else r + 1

/-- `BuildBlTree` (R141): the bit-length tree and `max_blindex`. -/
def buildBlTree (l d : BuiltTree) : M (BuiltTree × Nat) := do
  scanTree l.lens l.maxCode
  scanTree d.lens d.maxCode
  let bl ← buildTree .bitLen
  let maxIndex := maxBlIndex bl.lens 18
  modify fun s => { s with optLen := s.optLen + (3 * ((maxIndex : Int) + 1) + 5 + 5 + 4) }
  pure (bl, maxIndex)

/-! ### The block type -/

/-- The block types (R75). -/
inductive BlockType where
  | stored
  | static
  | dynamic
deriving DecidableEq, Repr

/-- BTYPE (R75). -/
def BlockType.code : BlockType → Nat
  | .stored => 0
  | .static => 1
  | .dynamic => 2

/-- A cost in bytes, the block header included (R142). -/
def bytesOf (bits : Int) : Int := (bits + 3 + 7) / 8

/-- `stored_len`: the bytes the block covers (R142, R160). -/
def storedLength (s : State) : Int := s.strstart - s.blockStart

/-- `ChooseBlock()` (R142, R143): ties go to stored first, then to static. -/
def chooseBlock (s : State) : BlockType :=
  let staticLenb := bytesOf s.staticLen
  let optLenb := min (bytesOf s.optLen) staticLenb
  if 0 ≤ s.blockStart ∧ storedLength s + 4 ≤ optLenb then .stored
  else if staticLenb = optLenb then .static
  else .dynamic

end Sys2Proof.Machine
end

