-- ==== Sys2Proof/Machine/Emitter.lean ====
section
/-!
DEFINITION. The bit packer, the block layouts and FlushBlock (spec/45_emitter.md R147 to R161).
-/

namespace Sys2Proof.Machine

/-! ### The bit packer -/

/-- `bi_valid` is in 0..16 on entry to every packer operation (R28, R148, R9). -/
def checkPacker : M Unit := do
  let s ← get
  require (decide (s.biValid ≤ 16)) .counterRange

/-- `SendBits(value, length)` (R148). In the flush branch the two bytes are offered before `bi_buf` is written, so after
a refusal `bi_buf` and `bi_valid` still hold what they held before the call. R148 writes the filled `bi_buf` first; R147
leaves the moment of the offer to the model (DESIGN CHOICE, log 8). -/
def sendBits (value length : Nat) : M Unit := do
  require (sendBitsOperandOk value length) .sendBitsOperand
  checkPacker
  let s ← get
  let filled := s.biBuf ||| (BitVec.ofNat 16 value <<< s.biValid)
  if 16 - length < s.biValid then do
    putShortLE filled
    modify fun t => { t with
      biBuf := BitVec.ofNat 16 value >>> (16 - s.biValid)
      biValid := s.biValid + length - 16 }
  else set { s with biBuf := filled, biValid := s.biValid + length }

/-- `SendCode(s)` in the tree with lengths `lens` and codes `codes` (R149). -/
def sendCode (lens codes : List Nat) (symbol : Nat) : M Unit := do
  require (decide (1 ≤ lens.getD symbol 0)) .unusedSymbolSent
  sendBits (codes.getD symbol 0) (lens.getD symbol 0)

/-- Empties the accumulator registers. -/
def clearBits : M Unit := fun s => .ok () { s with biBuf := 0, biValid := 0 }

/-- The bytes that `Align()` writes: every pending bit, the last byte padded with 0 bits (R150). -/
def drainBits : M Unit := do
  checkPacker
  let s ← get
  if 8 < s.biValid then putShortLE s.biBuf
  else if 0 < s.biValid then putByte (lowByte s.biBuf)
  else pure ()

/-- `Align()` (R150). -/
def align : M Unit := do
  drainBits
  clearBits

/-- `EndFlush()` (R151). -/
def endFlush : M Unit := do
  checkPacker
  let s ← get
  if s.biValid = 16 then do
    putShortLE s.biBuf
    clearBits
  else if 8 ≤ s.biValid then do
    putByte (lowByte s.biBuf)
    modify fun t => { t with biBuf := s.biBuf >>> 8, biValid := s.biValid - 8 }
  else pure ()

/-! ### Block layouts -/

/-- The value of a flag as a bit. -/
def bitOf (b : Bool) : Nat := b.toNat

/-- BlockHeader (R153): `SendBits(BTYPE << 1 | last, 3)`. -/
def blockHeader (kind : BlockType) (last : Bool) : M Unit := sendBits (2 * kind.code + bitOf last) 3

/-- Copies `n` window bytes from position `p` on to the output (the loop of R154). -/
def copyWindow (p : Int) : Nat → M Unit
  | 0 => pure ()
  | n + 1 => do
    let b ← readWindow p
    putByte b
    copyWindow (p + 1) n

/-- `StoredBlock(s, n, last)` (R154). -/
def storedBlock (start n : Int) (last : Bool) : M Unit := do
  require (decide (0 ≤ start) && decide (0 ≤ n) && decide (n ≤ 65535)) .storedBlockBounds
  blockHeader .stored last
  align
  putShortLE (BitVec.ofNat 16 n.toNat)
  putShortLE (~~~ BitVec.ofNat 16 n.toNat)
  copyWindow start n.toNat

/-- Sends the extra bits of a symbol, if it has any (R158). -/
def sendExtra (value bits : Nat) : M Unit := if 0 < bits then sendBits value bits else pure ()

/-- Sends one token (the loop body of R158). -/
def sendToken (lLens lCodes dLens dCodes : List Nat) (dist lc : Nat) : M Unit :=
  if dist = 0 then sendCode lLens lCodes lc
  else do
    let symbol := lengthCode (lc + 3)
    sendCode lLens lCodes symbol
    sendExtra (lc + 3 - lengthBase (symbol - 257)) (lengthExtra (symbol - 257))
    let dc := distCode dist
    sendCode dLens dCodes dc
    sendExtra (dist - distBase dc) (distExtra dc)

/-- Sends the `n` tokens from index `i` on (the loop of R158). -/
def sendTokens (lLens lCodes dLens dCodes : List Nat) (i : Nat) : Nat → M Unit
  | 0 => pure ()
  | n + 1 => do
    let s ← get
    sendToken lLens lCodes dLens dCodes (s.tokDist.read i).toNat (s.tokLc.read i).toNat
    sendTokens lLens lCodes dLens dCodes (i + 1) n

/-- `CompressBlock` (R158), ending with `END_BLOCK` (R159). -/
def compressBlock (lLens lCodes dLens dCodes : List Nat) : M Unit := do
  let s ← get
  sendTokens lLens lCodes dLens dCodes 0 s.lastLit
  sendCode lLens lCodes END_BLOCK

/-- The static literal/length lengths, 288 symbols (R77). -/
def staticLitLens : List Nat := (List.range 288).map staticLitLenLength
/-- `SCODE` (R155). -/
def staticLitCodes : List Nat := canonicalCodes staticLitLens
/-- The static distance lengths, 30 symbols (R78). -/
def staticDistLens : List Nat := (List.range D_CODES).map staticDistLength
/-- `DCODE` (R155). -/
def staticDistCodes : List Nat := (List.range D_CODES).map fun d => bitrev d 5

/-- `StaticBlock(last)` (R155). -/
def staticBlock (last : Bool) : M Unit := do
  blockHeader .static last
  compressBlock staticLitLens staticLitCodes staticDistLens staticDistCodes

/-- Sends bit-length symbols with their extra bits (R157). -/
def sendItems (bl : BuiltTree) : List BlItem → M Unit
  | [] => pure ()
  | x :: xs => do
    sendCode bl.lens bl.codes x.symbol
    sendExtra x.extraValue x.extraBits
    sendItems bl xs

/-- `SendTree(len, max_code)` (R157): the symbols that ScanTree counted. -/
def sendTree (bl : BuiltTree) (lens : List Nat) (maxCode : Nat) : M Unit := sendItems bl (blItems lens maxCode)

/-- Sends the code lengths of the bit-length alphabet, 3 bits each, for the given symbols (R156). -/
def sendBlLengths (bl : BuiltTree) : List Nat → M Unit
  | [] => pure ()
  | symbol :: rest => do
    sendBits (bl.lens.getD symbol 0) 3
    sendBlLengths bl rest

/-- `DynamicBlock(last)` (R156). -/
def dynamicBlock (l d bl : BuiltTree) (maxIndex : Nat) (last : Bool) : M Unit := do
  blockHeader .dynamic last
  require (decide (257 ≤ l.maxCode + 1) && decide (4 ≤ maxIndex + 1)) .counterRange
  sendBits (l.maxCode + 1 - 257) 5
  sendBits (d.maxCode + 1 - 1) 5
  sendBits (maxIndex + 1 - 4) 4
  sendBlLengths bl (bitLengthOrder.take (maxIndex + 1))
  sendTree bl l.lens l.maxCode
  sendTree bl d.lens d.maxCode
  compressBlock l.lens l.codes d.lens d.codes

/-! ### FlushBlock -/

/-- Sends the block in the form that ChooseBlock took (R160). -/
def emitBlock (l d bl : BuiltTree) (maxIndex : Nat) (last : Bool) : M Unit := do
  let s ← get
  match chooseBlock s with
  | .stored => storedBlock s.blockStart (storedLength s) last
  | .static => staticBlock last
  | .dynamic => dynamicBlock l d bl maxIndex last

/-- `block_start <- strstart` (R160). -/
def startBlock : M Unit := fun s => .ok () { s with blockStart := s.strstart }

/-- `FlushBlock(last)` (R160). -/
def flushBlock (last : Bool) : M Unit := do
  let l ← buildTree .litLen
  let d ← buildTree .dist
  let (bl, maxIndex) ← buildBlTree l d
  emitBlock l d bl maxIndex last
  initBlock
  doIf last align
  startBlock

end Sys2Proof.Machine
end

