-- ==== Sys2Proof/Machine/Window.lean ====
section
/-!
DEFINITION. The sliding window, the input feed and compaction (spec/40_window.md R91 to R99), and Adler-32 (R98).
-/

namespace Sys2Proof.Machine

/-- The next `(adler_a, adler_b)` after the input byte `b` (R98). -/
def adlerStep (a b : Half) (x : Byte) : Half × Half :=
  let a' := (a.toNat + x.toNat) % ADLER_MOD
  (BitVec.ofNat 16 a', BitVec.ofNat 16 ((b.toNat + a') % ADLER_MOD))

/-- `AdlerUpdate(b)` (R98). -/
def adlerUpdate (x : Byte) : M Unit := fun s =>
  .ok () { s with adlerA := (adlerStep s.adlerA s.adlerB x).1, adlerB := (adlerStep s.adlerA s.adlerB x).2 }

/-- The free space `more = WIN - lookahead - strstart` (R91). -/
def freeSpace (s : State) : Nat := WIN - s.lookahead - s.strstart

/-- The slide trigger `strstart >= W + MAX_DIST` (R92), which D9 calls normative; it does not look at the feed (R99). -/
def slideDue (s : State) : Bool := decide (W + MAX_DIST ≤ s.strstart)

/-- What a slide writes: compaction (R94) and rebase (R95) in one step. `strstart` is at least `W` then (R92), so its
difference is no less than 0. -/
def State.slid (s : State) : State :=
  { s with
    window := s.window.compact
    matchStart := s.matchStart - W
    strstart := ((s.strstart : Int) - W).toNat
    blockStart := s.blockStart - W
    head := s.head.rebase
    prev := s.prev.rebase }

/-- `Slide()` (R94, R95). -/
def slide : M Unit := fun s => .ok () s.slid

/-- Moves `n` bytes of the feed to the window positions from `p` on, each through AdlerUpdate (the loop of R96). -/
def readBytes (p : Nat) : Nat → M Unit
  | 0 => pure ()
  | n + 1 => do
    let b ← inRead
    writeWindow p b
    adlerUpdate b
    readBytes (p + 1) n

/-- `ReadBuf(size)` (R96): how many bytes it moved. -/
def readBuf (size : Nat) : M Nat := do
  let s ← get
  let n := min s.feed.length size
  readBytes (s.strstart + s.lookahead) n
  pure n

/-- `UpdateHash(h, c) = ((h << HASH_SHIFT) ^ c) & HASH_MASK` (spec/41_hash_chain.md R102); the mask is the width. -/
def updateHash (h : BitVec 15) (c : Byte) : BitVec 15 := (h <<< HASH_SHIFT) ^^^ c.setWidth 15

/-- `lookahead <- lookahead + n` (R97). -/
def growLookahead (n : Nat) : M Unit := fun s => .ok () { s with lookahead := s.lookahead + n }

/-- `ins_h <- h`. -/
def setHash (h : BitVec 15) : M Unit := fun s => .ok () { s with insH := h }

/-- The re-seed of the rolling hash (R97): only with `MIN_MATCH` bytes of lookahead. -/
def reseedHash : M Unit := do
  let s ← get
  if MIN_MATCH ≤ s.lookahead then do
    let b0 ← readWindow s.strstart
    let b1 ← readWindow (s.strstart + 1)
    setHash (updateHash (b0.setWidth 15) b1)
  else pure ()

/-- One pass of FillWindow's loop (R97). It answers whether the loop goes on. -/
def fillPass : M Bool := do
  let s ← get
  require (decide (s.strstart + s.lookahead ≤ WIN)) .windowOverrun
  doIf (slideDue s) slide
  let s ← get
  if s.feed = [] then pure false
  else do
    let n ← readBuf (freeSpace s)
    growLookahead n
    reseedHash
    let s ← get
    pure (decide (s.lookahead < MIN_LOOKAHEAD) && decide (s.feed ≠ []))

/-- FillWindow's loop, at most `fuel` passes. -/
def fillLoop : Nat → M Unit
  | 0 => internalFault .loopBound
  | fuel + 1 => do
    let again ← fillPass
    if again then fillLoop fuel else pure ()

/-- `FillWindow()` (R97). A pass that goes on has taken a byte of the feed, so `|feed| + 1` passes suffice. -/
def fillWindow : M Unit := do
  let s ← get
  fillLoop (s.feed.length + 1)

end Sys2Proof.Machine
end

