-- ==== Sys2Proof/Machine/HashChain.lean ====
section
/-!
DEFINITION. The hash chain index (spec/41_hash_chain.md R101 to R106).
-/

namespace Sys2Proof.Machine

/-- The hash of a 3-byte string (R101). -/
def hash3 (b0 b1 b2 : Byte) : BitVec 15 :=
  (b0.setWidth 15 <<< 10) ^^^ (b1.setWidth 15 <<< 5) ^^^ b2.setWidth 15

/-- `p & WMASK`, the index of `p` in `prev` (R49). -/
def prevIndex (p : Nat) : Nat := p &&& WMASK

/-- The writes of `InsertString(p)` (R103), once the hash of its string is `h`. -/
def State.inserted (s : State) (p : Nat) (h : BitVec 15) : State :=
  { s with
    insH := h
    prev := s.prev.write (prevIndex p) (s.head.read h.toNat)
    head := s.head.write h.toNat (BitVec.ofNat 16 p) }

/-- The reads and writes of `InsertString(p)` (R103) whose last string byte is `b`: the former head of the bucket. -/
def linkPosition (p : Nat) (b : Byte) : M Nat := fun s =>
  .ok (s.head.read (updateHash s.insH b).toNat).toNat (s.inserted p (updateHash s.insH b))

/-- `InsertString(p)` (R103): the former head of the bucket. -/
def insertString (p : Nat) : M Nat := do
  let b ← readWindow (p + 2)
  linkPosition p b

end Sys2Proof.Machine
end

