-- ==== Sys2Proof/Machine/Matcher.lean ====
section
/-!
DEFINITION. The LZ77 matcher and the lazy evaluation loop (spec/42_matcher.md R107 to R118).
-/

namespace Sys2Proof.Machine

/-! ### Longest match -/

/-- How many of `n` more bytes at `c` and `p` agree, after `k` that do (the loop of R109). -/
def matchBytes (c p : Nat) (k : Nat) : Nat → M Nat
  | 0 => pure k
  | n + 1 => do
    let x ← readWindow (c + k)
    let y ← readWindow (p + k)
    if x = y then matchBytes c p (k + 1) n else pure k

/-- `MatchLen(c)` (R109): at most `min(MAX_MATCH, lookahead)` bytes are compared. -/
def matchLen (c : Nat) : M Nat := do
  let s ← get
  matchBytes c s.strstart 0 (min MAX_MATCH s.lookahead)

/-- `match_start <- c` (R108). -/
def setMatchStart (c : Nat) : M Unit := fun s => .ok () { s with matchStart := c }

/-- `limit` of R107. -/
def chainLimit (s : State) : Nat := if MAX_DIST < s.strstart then s.strstart - MAX_DIST else NIL

/-- `chain_len` of R107. -/
def chainBudget (s : State) : Nat := if s.cfg.goodMatch ≤ s.prevLength then MAX_CHAIN >>> 2 else MAX_CHAIN

/-- The chain walk of R108 with `chain` candidates left to examine, the first of them `c`: the best length. -/
def walkChain (limit nice : Nat) : Nat → Nat → Nat → M Nat
  | 0, _, best => pure best
  | chain + 1, c, best => do
    let len ← matchLen c
    if best < len ∧ nice ≤ len then do
      setMatchStart c
      pure len
    else do
      doIf (decide (best < len)) (setMatchStart c)
      let s ← get
      let c' := (s.prev.read (prevIndex c)).toNat
      if limit < c' then walkChain limit nice chain c' (max best len) else pure (max best len)

/-- `LongestMatch(c1)` (R108). -/
def longestMatch (c1 : Nat) : M Nat := do
  let s ← get
  let best ← walkChain (chainLimit s) (min NICE_MATCH s.lookahead) (chainBudget s) c1 s.prevLength
  pure (min best s.lookahead)

/-! ### One position -/

/-- `prev_length <- match_length; prev_match <- match_start; match_length <- MIN_MATCH - 1` (R114). -/
def deferMatch : M Unit := fun s =>
  .ok () { s with prevLength := s.matchLength, prevMatch := s.matchStart, matchLength := MIN_MATCH - 1 }

/-- `match_length <- n` (R114). -/
def setMatchLength (n : Nat) : M Unit := fun s => .ok () { s with matchLength := n }

/-- May the search run? (The condition of R114.) -/
def searchAllowed (s : State) (hashHead : Nat) : Bool :=
  decide (hashHead ≠ NIL) && decide (s.prevLength < MAX_LAZY) && decide ((s.strstart : Int) - hashHead ≤ MAX_DIST)

/-- A 3-byte match too far away to keep (R114). -/
def tooFar (s : State) : Bool :=
  decide (s.matchLength = MIN_MATCH) && decide ((TOO_FAR : Int) < s.strstart - s.matchStart)

/-- The insertion at `strstart` (R114): the former head of its bucket, NIL without `MIN_MATCH` bytes of lookahead. -/
def insertHere : M Nat := do
  let s ← get
  if MIN_MATCH ≤ s.lookahead then insertString s.strstart else pure NIL

/-- `EvaluatePosition()` (R114). -/
def evaluatePosition : M Unit := do
  let hashHead ← insertHere
  deferMatch
  let s ← get
  if searchAllowed s hashHead then do
    let len ← longestMatch hashHead
    setMatchLength len
    let s ← get
    doIf (tooFar s) (setMatchLength (MIN_MATCH - 1))
  else pure ()

/-- `strstart <- strstart + 1; lookahead <- lookahead - 1` (R115, R117). -/
def advance : M Unit := do
  let s ← get
  require (decide (1 ≤ s.lookahead)) .counterRange
  set { s with strstart := s.strstart + 1, lookahead := s.lookahead - 1 }

/-- `EmitPendingLiteral()` (R115): the flush comes before `strstart` advances. -/
def emitPendingLiteral : M Unit := do
  let s ← get
  let b ← readWindow ((s.strstart : Int) - 1)
  let full ← tallyLiteral b
  doIf full (flushBlock false)
  advance

/-- `strstart <- strstart + 1; if strstart <= max_insert then InsertString(strstart)` (R116). -/
def insertNext (maxInsert : Int) : M Unit := do
  modify fun s => { s with strstart := s.strstart + 1 }
  let s ← get
  if (s.strstart : Int) ≤ maxInsert then do
    let _ ← insertString s.strstart
    pure ()
  else pure ()

/-- The repetition of R116 over the positions a match covers. -/
def insertCovered (maxInsert : Int) : Nat → M Unit
  | 0 => pure ()
  | k + 1 => do
    insertNext maxInsert
    insertCovered maxInsert k

/-- `lookahead <- lookahead - n` (R116); it must not pass 0 (R20). -/
def shrinkLookahead (n : Nat) : M Unit := do
  let s ← get
  require (decide (n ≤ s.lookahead)) .counterRange
  set { s with lookahead := s.lookahead - n }

/-- The last writes of R116 before the flush: the deferred match is gone, and `strstart` stands after it. -/
def closeMatch : M Unit := fun s =>
  .ok () { s with
    prevLength := 0
    matchAvailable := false
    matchLength := MIN_MATCH - 1
    strstart := s.strstart + 1 }

/-- `EmitDeferredMatch()` (R116): the flush comes after `strstart` advances. -/
def emitDeferredMatch : M Unit := do
  let s ← get
  let maxInsert : Int := s.strstart + s.lookahead - MIN_MATCH
  let full ← tallyDistance (s.strstart - 1 - s.prevMatch) (s.prevLength - MIN_MATCH)
  shrinkLookahead (s.prevLength - 1)
  insertCovered maxInsert (s.prevLength - 2)
  closeMatch
  doIf full (flushBlock false)

/-- `Defer()` (R117). -/
def deferByte : M Unit := do
  modify fun s => { s with matchAvailable := true }
  advance

/-- The three branches of DeflateLoop (R113). -/
def emitPosition : M Unit := do
  let s ← get
  if MIN_MATCH ≤ s.prevLength ∧ s.matchLength ≤ s.prevLength then emitDeferredMatch
  else if s.matchAvailable then emitPendingLiteral
  else deferByte

/-- The literal still waiting when the input ends (R118). -/
def drainPending : M Unit := do
  let s ← get
  if s.matchAvailable then do
    let b ← readWindow ((s.strstart : Int) - 1)
    let _ ← tallyLiteral b
    modify fun s => { s with matchAvailable := false }
  else pure ()

/-- `FinishDrain()` (R118). -/
def finishDrain : M Unit := do
  drainPending
  flushBlock true

/-! ### The loop -/

/-- What the top of the loop decides (R113). -/
inductive LoopTop where
  /-- `return`: more input is needed. -/
  | needsInput
  /-- `exit loop`: all input is consumed. -/
  | consumed
  /-- A position to evaluate. -/
  | position
deriving DecidableEq, Repr

/-- The top of the loop (R113). R20 states `strstart + lookahead <= WIN` for every step. -/
def loopTop (finish : Bool) : M LoopTop := do
  let s ← get
  require (decide (s.strstart + s.lookahead ≤ WIN)) .windowOverrun
  if s.lookahead < MIN_LOOKAHEAD then do
    fillWindow
    let s ← get
    if s.lookahead < MIN_LOOKAHEAD ∧ finish = false then pure .needsInput
    else if s.lookahead = 0 then pure .consumed
    else pure .position
  else pure .position

/-- `STATE <- p`. -/
def setPhase (p : Phase) : M Unit := fun s => .ok () { s with phase := p }

/-- DeflateLoop (R113), at most `fuel` positions. -/
def deflateFrom (finish : Bool) : Nat → M Unit
  | 0 => internalFault .loopBound
  | fuel + 1 => do
    let top ← loopTop finish
    match top with
    | .needsInput => pure ()
    | .consumed => do
      setPhase .finish
      finishDrain
    | .position => do
      evaluatePosition
      emitPosition
      deflateFrom finish fuel

/-- `DeflateLoop(finish)` (R113). A position takes at least one byte of the lookahead or the feed, so one pass more
than those bytes suffices. -/
def deflateLoop (finish : Bool) : M Unit := do
  let s ← get
  deflateFrom finish (s.lookahead + s.feed.length + 1)

end Sys2Proof.Machine
end

