-- ==== Sys2Proof/Machine/Control.lean ====
section
/-!
DEFINITION. The four commands and the framing (spec/46_control.md R164 to R179), and hardware reset
(spec/70_reset_and_hazards.md R200).
-/

namespace Sys2Proof.Machine

/-- The zlib header (R73). -/
def putHeader (c : Config) : M Unit := do
  putByte c.zlibCmf
  putByte c.zlibFlg

/-- `EnterBusy()` (R168): the zlib header, once per session. -/
def enterBusy : M Unit := do
  let s ← get
  if s.phase = .init then do
    doIf s.framing (putHeader s.cfg)
    setPhase .busy
  else pure ()

/-- `Trailer()` (R169): the Adler-32 value, most significant byte first (R74, R177). -/
def trailer : M Unit := do
  let s ← get
  if s.framing then do
    putShortMSB s.adlerB
    putShortMSB s.adlerA
  else pure ()

/-- The checks PROCESS and FINALIZE make first (R190 items 2 and 3): CommandAfterError, then InvalidState. -/
def checkSession : M Unit := do
  let s ← get
  if s.failed then commandAfterError
  else if s.phase.accepts then pure ()
  else raise .invalidState

/-- The state after INIT with operand `F` (R170): the table of R41, the host's streams and queues left alone. The
memories that R41 leaves unspecified list nothing again (log 6). -/
def State.restarted (s : State) (framing : Bool) : State :=
  { State.fresh s.cfg framing with
    payload := s.payload
    inputs := s.inputs
    sink := s.sink
    out := s.out
    response := s.response }

/-- The effect of INIT (R170). -/
def initBody (framing : Bool) : M ResultCode := fun s => .ok .ok (s.restarted framing)

/-- The effect of PROCESS (R172, R173). -/
def processBody : M ResultCode := do
  checkSession
  let s ← get
  if s.payload = [] then pure .ok
  else do
    enterBusy
    loadFeed
    deflateLoop false
    endFlush
    pure .ok

/-- The effect of FINALIZE (R174). -/
def finalizeBody : M ResultCode := do
  checkSession
  enterBusy
  deflateLoop true
  trailer
  setPhase .done
  pure .ok

/-- INIT (R170). -/
def execInit (framing : Bool) (s : State) : Host.Outcome State Fault Refusal := runCommand 0 (initBody framing) s

/-- PROCESS (R172). -/
def execProcess (len : Nat) (s : State) : Host.Outcome State Fault Refusal := runCommand len processBody s

/-- FINALIZE (R174). -/
def execFinalize (s : State) : Host.Outcome State Fault Refusal := runCommand 0 finalizeBody s

/-- STATUS (R176): it returns OK and the status word, and writes nothing of the core. -/
def execStatus (s : State) : Host.Outcome State Fault Refusal :=
  if s.payload.length = 0 then .next { s with response := some ⟨.ok, some (statusWord s), []⟩ }
  else .refused (.rejectedCommand .payloadLength)

/-- Hardware reset (R200): the state of R41 with `FRAMING = RESET_FRAMING`. It offers no byte; the host keeps its
stream and what it will do next, and no command has returned. -/
def State.hardwareReset (s : State) : State :=
  { State.fresh s.cfg s.cfg.resetFraming with inputs := s.inputs, sink := s.sink, out := s.out }

end Sys2Proof.Machine
end

