-- ==== Sys2Proof/Machine/Dispatch.lean ====
section
/-!
DEFINITION. One arm for each command (spec/opcode_table.json).
-/

namespace Sys2Proof.Machine

def exec (i : Instr) (s : State) : Host.Outcome State Fault Refusal :=
  match i with
  | .init framing => Sys2Proof.Machine.execInit framing s
  | .process len => Sys2Proof.Machine.execProcess len s
  | .finalize => Sys2Proof.Machine.execFinalize s
  | .status => Sys2Proof.Machine.execStatus s

end Sys2Proof.Machine
end

