-- ==== Sys2Proof/Machine/Step.lean ====
section
/-!
DEFINITION. One step (spec/46_control.md R166): the next thing the host does, run to completion.
-/

namespace Sys2Proof.Machine

/-- Takes the oldest input off the queue; its data list is the operand on the input port (R63, R208). -/
def State.issue (s : State) (data : List Byte) : State := { s with inputs := s.inputs.tail, payload := data }

/-- One step. With no input waiting the core is idle and holds its state (R198). A command is decoded (R165) and
executed; a reserved or malformed one is refused (R189). -/
def step (s : State) : Host.Outcome State Fault Refusal :=
  match s.inputs with
  | [] => .next s
  | .reset :: _ => .next (s.issue []).hardwareReset
  | .command c :: _ =>
    match decode c with
    | .error why => .refused (.rejectedCommand why)
    | .ok i => exec i (s.issue c.data)

/-- The state whose next command is the table word `w`, with as many zero data bytes as a PROCESS word asks for. The
core has no program counter: a command comes from the host's queue (R18, log 1). -/
def State.withFetchWord (s : State) (nbits w : Nat) : State :=
  { s with inputs := .command (tableCommand nbits w) :: s.inputs }

end Sys2Proof.Machine
end

