-- ==== Sys2Proof/Machine/Assembler.lean ====
section
/-!
DEFINITION. The assembler forms of a program (spec/30_encoding.md R70) and the pseudo-command COMPRESS (R71).
-/

namespace Sys2Proof.Machine

/-- One line of a program (R70, R71). -/
inductive Line where
  /-- `INIT framing=F`. -/
  | init (framing : Bool)
  /-- `PROCESS <LEN>, <byte list>`. -/
  | process (len : Nat) (data : List Byte)
  /-- `PROCESS "..."`: the bytes of an ASCII string. -/
  | processText (text : List Char)
  /-- `FINALIZE`. -/
  | finalize
  /-- `STATUS`. -/
  | status
  /-- `COMPRESS framing=F, <bytes>` (R71). -/
  | compress (framing : Bool) (data : List Byte)
deriving DecidableEq, Repr

/-- The bytes of an ASCII string (R70). -/
def asciiBytes (text : List Char) : List Byte := text.map fun c => BitVec.ofNat 8 c.toNat

/-- The PROCESS command that carries `data`. -/
def processCommand (data : List Byte) : Command := encodeCommand (.process data.length) data

/-- COMPRESS stands for INIT, PROCESS and FINALIZE, without the PROCESS when there are no bytes (R71). -/
def compressCommands (framing : Bool) (data : List Byte) : List Command :=
  encodeCommand (.init framing) [] ::
    (if data = [] then [] else [processCommand data]) ++ [encodeCommand .finalize []]

/-- The commands a line stands for (R70, R71). -/
def Line.commands : Line → List Command
  | .init framing => [encodeCommand (.init framing) []]
  | .process len data => [encodeCommand (.process len) data]
  | .processText text => [processCommand (asciiBytes text)]
  | .finalize => [encodeCommand .finalize []]
  | .status => [encodeCommand .status []]
  | .compress framing data => compressCommands framing data

/-- A program as the host issues it (R70). -/
def assemble (program : List Line) : List HostInput := (program.flatMap Line.commands).map HostInput.command

end Sys2Proof.Machine
end

