-- ==== Sys2Proof/Safety.lean ====
section
/-!
DEFINITION. The terms claims are stated in: the invariants of the core (spec/10_state.md R19 to R31, R40) and the bit
stream behind the output bytes (spec/45_emitter.md R147).

`State.Inv` holds at reset and is kept by every step, whatever the host and the sink do. `State.SessionInv` speaks of
a session without an error; it is what keeps PROCESS and FINALIZE clear of every `fault InternalInvariant`.
-/

namespace Sys2Proof.Machine

/-! ### The bit stream -/

/-- The `n` low bits of a number, bit 0 first. -/
def bitsOf (v n : Nat) : List Bool := (List.range n).map v.testBit

/-- The bits of output bytes, the least significant bit of each byte first (R56). -/
def byteBits (bytes : List Byte) : List Bool := bytes.flatMap fun b => bitsOf b.toNat 8

/-- The output bit stream: the bits of the accepted bytes, then the pending bits of the accumulator (R147). -/
def State.bitStream (s : State) : List Bool := byteBits s.out ++ bitsOf s.biBuf.toNat s.biValid

/-- The accumulator registers are in their range, and no bit is set above the pending ones (R28). -/
abbrev State.PackerOk (s : State) : Prop := s.biValid ≤ 16 ∧ s.biBuf.toNat < 2 ^ s.biValid

/-! ### Code lengths -/

/-- The part of the code space that the lengths use, in units of `2 ^ -cap` (R139 item 3): each used symbol of length
`l` takes `2 ^ (cap - l)` of them. -/
def codeSpace (cap : Nat) (lens : List Nat) : Nat := (lens.map fun l => if l = 0 then 0 else 2 ^ (cap - l)).sum

/-! ### Invariants of every state -/

/-- Every memory is canonical and inside its size (R30 to R35). -/
abbrev State.MemoriesCanonical (s : State) : Prop :=
  s.window.wf WIN = true ∧ s.head.wf HASH_SIZE = true ∧ s.prev.wf W = true ∧
    s.tokDist.wf s.cfg.litBufsize = true ∧ s.tokLc.wf s.cfg.litBufsize = true ∧
    s.dynLfreq.wf L_CODES = true ∧ s.dynDfreq.wf D_CODES = true ∧ s.blFreq.wf BL_CODES = true

/-- The registers are in the ranges of R19, R20, R22, R23, R28, R29 and R30. -/
abbrev State.RegistersInRange (s : State) : Prop :=
  s.strstart + s.lookahead ≤ WIN ∧ 2 ≤ s.matchLength ∧ s.matchLength ≤ MAX_MATCH ∧ s.prevLength ≤ MAX_MATCH ∧
    s.PackerOk ∧ s.adlerA.toNat < ADLER_MOD ∧ s.adlerB.toNat < ADLER_MOD ∧ s.lastLit ≤ s.cfg.tokenLimit

/-- The part of the invariant that holds at every moment inside a command too. -/
abbrev State.CoreOk (s : State) : Prop := s.cfg.ok = true ∧ s.MemoriesCanonical ∧ s.RegistersInRange

/-- Between commands the input port and the feed are empty (R37). -/
abbrev State.PortsIdle (s : State) : Prop := s.payload = [] ∧ s.feed = []

/-- What `FAILED`, `RESULT` and `STATE` say of each other between commands (R15, R167, R185, R186), and R40. -/
abbrev State.ControlConsistent (s : State) : Prop :=
  s.result ≠ .outOfMemory ∧ (s.failed = true ↔ s.result = .streamError) ∧
    (s.failed = true → s.phase ≠ .done) ∧
    (s.failed = false → s.phase ≠ .finish ∧ s.biValid ≤ 7 ∧ s.lastLit < s.cfg.tokenLimit ∧
      (s.phase = .busy → s.lookahead < MIN_LOOKAHEAD) ∧
      (s.phase = .done → s.lookahead = 0 ∧ s.matchAvailable = false ∧ s.biValid = 0))

/-- The invariant every step keeps. -/
abbrev State.Inv (s : State) : Prop :=
  s.CoreOk ∧ s.PortsIdle ∧ s.ControlConsistent

/-! ### Invariants of a session without an error -/

/-- At most `n` positions of the hash chain from `c` on; each but the first is above `limit` (R107). -/
def chainFrom (prev : Memory 16) (limit : Nat) : Nat → Nat → List Nat
  | 0, _ => []
  | n + 1, c =>
    c :: if limit < (prev.read (c % W)).toNat then chainFrom prev limit n (prev.read (c % W)).toNat else []

/-- Every position on the chain of a bucket lies behind `strstart` (R103, R105). Of an entry of `prev` that no chain
reaches it says nothing, so it holds whatever the entries are that nothing has written (R201). -/
def State.ChainsBehind (s : State) : Prop :=
  ∀ h n, s.head.read h ≠ BitVec.ofNat 16 NIL → ∀ c ∈ chainFrom s.prev NIL n (s.head.read h).toNat, c < s.strstart

/-- A match held for `strstart - 1` is one that R112 allows: its byte is undecided, it is no longer than the bytes
there, and its distance is in 1..`MAX_DIST`. -/
abbrev State.MatchHeld (s : State) : Prop :=
  (s.matchAvailable = true → 1 ≤ s.strstart) ∧
    (MIN_MATCH ≤ s.matchLength →
      s.matchAvailable = true ∧ s.matchLength ≤ s.lookahead + 1 ∧
        1 ≤ (s.strstart : Int) - 1 - s.matchStart ∧ (s.strstart : Int) - 1 - s.matchStart ≤ MAX_DIST)

/-- The literal/length symbol of a token (R122). -/
def litSymbol (dist : Half) (lc : Byte) : Nat := if dist = 0 then lc.toNat else lengthCode (lc.toNat + MIN_MATCH)

/-- The input bytes a token stands for (R119). -/
def tokenSpan (dist : Half) (lc : Byte) : Nat := if dist = 0 then 1 else lc.toNat + MIN_MATCH

/-- How many tokens of the block have the literal/length symbol `n`. -/
def State.litCount (s : State) (n : Nat) : Nat :=
  (List.range s.lastLit).countP fun i => decide (litSymbol (s.tokDist.read i) (s.tokLc.read i) = n)

/-- How many tokens of the block are matches with the distance code `n`. -/
def State.distCount (s : State) (n : Nat) : Nat :=
  (List.range s.lastLit).countP fun i =>
    decide (s.tokDist.read i ≠ 0) && decide (distCode (s.tokDist.read i).toNat = n)

/-- `u` holds the tokens of `s` and one more, `(dist, lc)`, whose symbols are counted once each (R122 to R124). -/
abbrev State.TokenAdded (s u : State) (dist lc : Nat) : Prop :=
  u.lastLit = s.lastLit + 1 ∧ (u.tokDist.read s.lastLit).toNat = dist ∧ (u.tokLc.read s.lastLit).toNat = lc ∧
    (∀ i, i ≠ s.lastLit → u.tokDist.read i = s.tokDist.read i ∧ u.tokLc.read i = s.tokLc.read i) ∧
    (∀ n, (u.dynLfreq.read n).toNat = (s.dynLfreq.read n).toNat +
      if n = (if dist = 0 then lc else lengthCode (lc + MIN_MATCH)) then 1 else 0) ∧
    ∀ n, (u.dynDfreq.read n).toNat = (s.dynDfreq.read n).toNat + if dist ≠ 0 ∧ n = distCode dist then 1 else 0

/-- The counters count the tokens of the block, and the end-of-block symbol once (R122, R126). -/
abbrev State.TallyExact (s : State) : Prop :=
  (∀ n < L_CODES, (s.dynLfreq.read n).toNat = s.litCount n + if n = END_BLOCK then 1 else 0) ∧
    (∀ n < D_CODES, (s.dynDfreq.read n).toNat = s.distCount n) ∧
    (∀ i < s.lastLit, (s.tokDist.read i).toNat ≤ MAX_DIST)

/-- The input bytes that the tokens of the block stand for. -/
def State.blockSpan (s : State) : Nat :=
  ((List.range s.lastLit).map fun i => tokenSpan (s.tokDist.read i) (s.tokLc.read i)).sum

/-- The tokens of the block and the undecided byte cover the bytes from `block_start` to `strstart` exactly once
(R119 item 1). -/
abbrev State.BlockCovered (s : State) : Prop :=
  storedLength s = (s.blockSpan : Int) + if s.matchAvailable = true then 1 else 0

/-- The accumulators that a block starts with (R43). -/
abbrev State.CostsClear (s : State) : Prop := s.blFreq = [] ∧ s.optLen = 0 ∧ s.staticLen = 0

/-- What holds between the commands of a session in which no error occurred. -/
abbrev State.SessionInv (s : State) : Prop :=
  s.failed = false →
    s.ChainsBehind ∧ s.MatchHeld ∧ s.TallyExact ∧ s.BlockCovered ∧ s.CostsClear

/-! ### Terms of the matcher -/

/-- The `k` bytes at the candidate `c` are those at `strstart` (R109). -/
abbrev State.Agrees (s : State) (c k : Nat) : Prop :=
  ∀ i < k, s.window.read (c + i) = s.window.read (s.strstart + i)

/-- The candidates that LongestMatch may examine from `c1` on (R107): above `strstart - MAX_DIST`, which is `NIL` where
`strstart` is no greater, and no more than `chain_len`. -/
def State.candidates (s : State) (c1 : Nat) : List Nat :=
  chainFrom s.prev (s.strstart - MAX_DIST) (if s.cfg.goodMatch ≤ s.prevLength then 1024 else 4096) c1

/-- InsertString at each position of a list in turn (R103). -/
def insertEach : List Nat → M Unit
  | [] => pure ()
  | p :: ps => do
    let _ ← insertString p
    insertEach ps

/-! ### Terms of the tree builder -/

/-- No node of `q` comes before `a`: not by frequency, nor by depth at the same frequency; by the index at the same
frequency and depth for `DOC_ORDER` (R131), where the heap of R138 leaves the choice to its layout. -/
def Node.LeastOf (tie : HeapTie) (a : Node) (q : List Node) : Prop :=
  ∀ c ∈ q, a.freq < c.freq ∨
    a.freq = c.freq ∧ (a.depth < c.depth ∨ a.depth = c.depth ∧ (tie = .docOrder → a.idx < c.idx))

/-- `r` is a merge of the nodes `q` whose joins are numbered from `next` on (R133, R138): while there are two nodes, a
least one and then a least one of the rest are removed, and a node with the sum of their frequencies and one more than
the greater depth takes their place as their parent. The last node is the root. -/
inductive JoinsLeast (tie : HeapTie) : Nat → List Node → MergeResult → Prop where
  | root (next : Nat) (n : Node) : JoinsLeast tie next [n] ⟨[n], []⟩
  | join {next : Nat} {q rest : List Node} {a b : Node} {r : MergeResult} (hq : q.Perm (a :: b :: rest))
      (ha : a.LeastOf tie (b :: rest)) (hb : b.LeastOf tie rest)
      (hr : JoinsLeast tie (next + 1) (⟨next, a.freq + b.freq, max a.depth b.depth + 1⟩ :: rest) r) :
      JoinsLeast tie next q ⟨a :: b :: r.removal, (a.idx, next) :: (b.idx, next) :: r.parents⟩

/-- How many parents lie above node `n`, at most `fuel` (R134). -/
def stepsToRoot (parents : List (Nat × Nat)) : Nat → Nat → Nat
  | 0, _ => 0
  | fuel + 1, n =>
    match parents.lookup n with
    | none => 0
    | some p => stepsToRoot parents fuel p + 1

/-! ### Terms of the output -/

/-- The zero bits that complete a byte after `n` bits. -/
def padBits (n : Nat) : List Bool := List.replicate ((8 - n % 8) % 8) false

/-- The bits that SendCode sends for a symbol (R149). -/
def symbolBits (lens codes : List Nat) (symbol : Nat) : List Bool := bitsOf (codes.getD symbol 0) (lens.getD symbol 0)

/-- The bits of one token (R80, R81, R158): its literal/length code, and for a match the extra bits of the length, the
distance code and the extra bits of the distance. -/
def tokenBits (lLens lCodes dLens dCodes : List Nat) (dist lc : Nat) : List Bool :=
  if dist = 0 then symbolBits lLens lCodes lc
  else
    symbolBits lLens lCodes (lengthCode (lc + 3)) ++
      bitsOf (lc + 3 - lengthBase (lengthCode (lc + 3) - 257)) (lengthExtra (lengthCode (lc + 3) - 257)) ++
      symbolBits dLens dCodes (distCode dist) ++ bitsOf (dist - distBase (distCode dist)) (distExtra (distCode dist))

/-- The header bits of a block (R75, R153): BFINAL, then BTYPE with its low bit first. -/
def headerBits (kind : BlockType) (last : Bool) : List Bool :=
  match kind with
  | .stored => [last, false, false]
  | .static => [last, true, false]
  | .dynamic => [last, false, true]

/-- What follows the header of a stored block of `n` bytes from window position `start` on (R76, R154): the pad, LEN and
NLEN with the low byte first, and the bytes. -/
def State.storedBits (s : State) (start n : Nat) : List Bool :=
  padBits (s.biValid + 3) ++
    byteBits ([BitVec.ofNat 8 n, BitVec.ofNat 8 (n / 256), ~~~ BitVec.ofNat 8 n, ~~~ BitVec.ofNat 8 (n / 256)] ++
      (List.range n).map fun i => s.window.read (start + i))

/-- The tokens of the block and the end-of-block symbol in given codes (R158, R159). -/
def State.codedBits (s : State) (lLens lCodes dLens dCodes : List Nat) : List Bool :=
  ((List.range s.lastLit).flatMap fun i =>
      tokenBits lLens lCodes dLens dCodes (s.tokDist.read i).toNat (s.tokLc.read i).toNat) ++
    symbolBits lLens lCodes END_BLOCK

/-- Bit-length symbols as they are sent, each with its extra bits (R83, R157). -/
def itemBits (bl : BuiltTree) (items : List BlItem) : List Bool :=
  items.flatMap fun x => symbolBits bl.lens bl.codes x.symbol ++ bitsOf x.extraValue x.extraBits

/-- What follows the header of a dynamic block (R82, R156): HLIT, HDIST, HCLEN, the bit-length code lengths in the order
`BL_ORDER`, the code lengths of both trees, and the tokens. -/
def State.dynamicBits (s : State) (l d bl : BuiltTree) (maxIndex : Nat) : List Bool :=
  bitsOf (l.maxCode + 1 - 257) 5 ++ bitsOf (d.maxCode + 1 - 1) 5 ++ bitsOf (maxIndex + 1 - 4) 4 ++
    ((bitLengthOrder.take (maxIndex + 1)).flatMap fun n => bitsOf (bl.lens.getD n 0) 3) ++
    itemBits bl (blItems l.lens l.maxCode) ++ itemBits bl (blItems d.lens d.maxCode) ++
    s.codedBits l.lens l.codes d.lens d.codes

/-- The code lengths that a list of bit-length symbols describes (R83), after the lengths `done`. -/
def expandItems : List Nat → List BlItem → List Nat
  | done, [] => done
  | done, x :: xs =>
    expandItems
      (done ++
        if x.symbol = REP_3_6 then List.replicate (x.extraValue + 3) (done.getLastD 0)
        else if x.symbol = REPZ_3_10 then List.replicate (x.extraValue + 3) 0
        else if x.symbol = REPZ_11_138 then List.replicate (x.extraValue + 11) 0
        else [x.symbol])
      xs

/-- `(adler_a, adler_b)` after more input bytes (R98, R177). -/
def adlerOver (halves : Half × Half) (bytes : List Byte) : Half × Half :=
  bytes.foldl (fun h x => adlerStep h.1 h.2 x) halves

/-- The 4 bytes of the trailer for the halves `(adler_a, adler_b)`, the most significant first (R74). -/
def trailerBytes (halves : Half × Half) : List Byte :=
  [highByte halves.2, lowByte halves.2, highByte halves.1, lowByte halves.1]

/-- The bytes that EnterBusy offers (R168). -/
def State.headerBytes (s : State) : List Byte :=
  if s.phase = .init ∧ s.framing = true then [s.cfg.zlibCmf, s.cfg.zlibFlg] else []

/-! ### The state at the start of a session -/

/-- `t` is `s` with any contents in the memories that R41 and R201 leave unspecified. -/
abbrev State.Unspecified (s t : State) : Prop :=
  t.MemoriesCanonical ∧
    t = { s with window := t.window, prev := t.prev, tokDist := t.tokDist, tokLc := t.tokLc }

/-- The table of R41, every element that it gives a value. The memories that it leaves unspecified are not among
them. -/
abbrev State.AtStart (s : State) (framing : Bool) : Prop :=
  s.phase = .init ∧ s.failed = false ∧ s.framing = framing ∧ s.result = .ok ∧
    s.strstart = 0 ∧ s.lookahead = 0 ∧ s.blockStart = 0 ∧ s.matchStart = 0 ∧ s.prevMatch = 0 ∧
    s.matchLength = 2 ∧ s.prevLength = 2 ∧ s.matchAvailable = false ∧ s.insH = 0 ∧
    s.biBuf = 0 ∧ s.biValid = 0 ∧ s.adlerA = 1 ∧ s.adlerB = 0 ∧
    s.lastLit = 0 ∧ s.optLen = 0 ∧ s.staticLen = 0 ∧
    (∀ n < L_CODES, s.dynLfreq.read n = if n = 256 then 1 else 0) ∧
    (∀ n < D_CODES, s.dynDfreq.read n = 0) ∧ (∀ n < BL_CODES, s.blFreq.read n = 0) ∧
    (∀ h < HASH_SIZE, s.head.read h = BitVec.ofNat 16 NIL)

end Sys2Proof.Machine
end

