-- ==== Sys2Proof/Certificates/Slice0/Obligations.lean ====
section
/-!
DEFINITION. The statements for the provers. Each docstring names the rules of spec/ behind its statement.

A command is executed from the state in which its data list stands on the input port: `s.issue data` for a command
issued in `s`, or a state `s` with `s.payload` its data list.
-/

open Sys2Proof Sys2Proof.Machine

/-! ### Encoding and decoding -/

/-- The command words of spec/95_test_vectors.md section 2.0 decode as the table there says (R64 to R67, R69, R165). -/
def Obligations.DecodeSpecWords : Prop :=
  decodeWord 0x10000000 = .ok (.init false) ∧ decodeWord 0x10000001 = .ok (.init true) ∧
    decodeWord 0x10000002 = .error .initArgument ∧ decodeWord 0x20000000 = .ok (.process 0) ∧
    decodeWord 0x20000009 = .ok (.process 9) ∧ decodeWord 0x2FFFFFFF = .ok (.process LEN_MAX) ∧
    decodeWord 0x30000000 = .ok .finalize ∧ decodeWord 0x30000001 = .error .finalizeArgument ∧
    decodeWord 0x40000000 = .ok .status ∧ decodeWord 0x00000000 = .error .reservedOpcode ∧
    decodeWord 0x50000000 = .error .reservedOpcode ∧ decodeWord 0xF0000000 = .error .reservedOpcode ∧
    decode ⟨0x20000002, [0x61, 0x62, 0x63]⟩ = .error .payloadLength

/-- Decoding the word of a well-formed command gives the command back, alone and with its data (R64 to R67, R165). -/
def Obligations.DecodeEncodeRoundTrip : Prop :=
  ∀ i : Instr, i.wellFormed = true →
    decodeWord (encode i) = .ok i ∧ decodeTableWord 32 (encode i).toNat = some i ∧
      ∀ data : List Byte, data.length = i.payloadLength → decode (encodeCommand i data) = .ok i

/-- A word that decodes is the word of exactly one command, and that command is well formed (R64 to R67, R69). -/
def Obligations.EncodeDecodeRoundTrip : Prop :=
  ∀ (w : Word) (i : Instr), decodeWord w = .ok i → i.wellFormed = true ∧ encode i = w

/-- A word is decoded by the match and mask of its row, a PROCESS length is zero-extended, and a word that matches no
row is rejected (R64 to R67, R165). -/
def Obligations.DecodeByMatchAndMask : Prop :=
  ∀ w : Word,
    (w &&& 0xFFFFFFFE = 0x10000000 → decodeWord w = .ok (.init (w.getLsbD 0))) ∧
    (w &&& 0xF0000000 = 0x20000000 → decodeWord w = .ok (.process (w.toNat % 2 ^ 28))) ∧
    (w &&& 0xFFFFFFFF = 0x30000000 → decodeWord w = .ok .finalize) ∧
    (w &&& 0xFFFFFFFF = 0x40000000 → decodeWord w = .ok .status) ∧
    (w &&& 0xFFFFFFFE ≠ 0x10000000 → w &&& 0xF0000000 ≠ 0x20000000 → w &&& 0xFFFFFFFF ≠ 0x30000000 →
      w &&& 0xFFFFFFFF ≠ 0x40000000 → ∃ why, decodeWord w = .error why)

/-- COMPRESS stands for INIT, a PROCESS that carries exactly the given bytes, and FINALIZE, and for INIT and FINALIZE
alone when there are no bytes; each of these commands decodes (R71). -/
def Obligations.CompressExpands : Prop :=
  ∀ (framing : Bool) (data : List Byte), data.length ≤ LEN_MAX →
    (compressCommands framing data).map (fun c => (decode c, c.data)) =
      (.ok (.init framing), []) :: (if data = [] then [] else [(.ok (.process data.length), data)]) ++
        [(.ok .finalize, [])]

/-! ### One step -/

/-- A step runs the decoded command: the oldest input leaves the queue, its data list stands on the input port, and the
command's meaning gives the answer (R60, R63, R166). -/
def Obligations.StepRunsDecodedCommand : Prop :=
  ∀ (s : State) (c : Command) (rest : List HostInput) (i : Instr),
    s.inputs = .command c :: rest → decode c = .ok i →
    step s = exec i { s with inputs := rest, payload := c.data }

/-- With nothing issued, the core is idle and holds its state (R198). -/
def Obligations.IdleStepHoldsState : Prop := ∀ s : State, s.inputs = [] → step s = .next s

/-- A reserved word (the list of R69) and a PROCESS whose data list has not `LEN` bytes are refused: the step answers
no state (R189). -/
def Obligations.ReservedAndMalformedRefused : Prop :=
  ∀ (s : State) (c : Command) (rest : List HostInput), s.inputs = .command c :: rest →
    (c.word.toNat / 2 ^ 28 = 0 ∨ 5 ≤ c.word.toNat / 2 ^ 28 ∨
      (c.word.toNat / 2 ^ 28 = 1 ∧ c.word.toNat % 2 ^ 28 / 2 ≠ 0) ∨
      (c.word.toNat / 2 ^ 28 = 3 ∧ c.word.toNat % 2 ^ 28 ≠ 0) ∨
      (c.word.toNat / 2 ^ 28 = 4 ∧ c.word.toNat % 2 ^ 28 ≠ 0) ∨
      (c.word.toNat / 2 ^ 28 = 2 ∧ c.data.length ≠ c.word.toNat % 2 ^ 28)) →
    ∃ why, step s = .refused (.rejectedCommand why)

/-- A step is refused only for a command that the decoder rejects. That a data list beside INIT, FINALIZE or STATUS is
one of those is the model's reading (log 7). -/
def Obligations.OnlyRejectedCommandsRefused : Prop :=
  ∀ (s : State) (r : Refusal), step s = .refused r →
    ∃ (c : Command) (rest : List HostInput) (why : Reject),
      s.inputs = .command c :: rest ∧ decode c = .error why ∧ r = .rejectedCommand why

/-! ### Reset, INIT and STATUS -/

/-- After reset, and after every INIT, the state is the table of R41, with `FRAMING` at `RESET_FRAMING` after reset and
at the operand after INIT. -/
def Obligations.TableAfterResetAndInit : Prop :=
  State.reset.AtStart State.reset.cfg.resetFraming ∧
    ∀ (s t : State) (framing : Bool), exec (.init framing) s = .next t → t.AtStart framing

/-- INIT completes in every state, `FAILED` or not: every element of R41 gets its reset value, `FRAMING` the operand, the
result is OK and no output is written. Nothing of the host's is touched (R170). -/
def Obligations.InitStartsSession : Prop :=
  ∀ (s : State) (framing : Bool), s.payload = [] →
    ∃ t, exec (.init framing) s = .next t ∧ t.AtStart framing ∧ t.response = some ⟨.ok, none, []⟩ ∧
      t.cfg = s.cfg ∧ t.out = s.out ∧ t.inputs = s.inputs ∧ t.sink = s.sink ∧ t.payload = [] ∧ t.feed = []

/-- Hardware reset puts every element into the value of R41, with `FRAMING = RESET_FRAMING`, and offers no byte; it is
the same as `INIT framing=RESET_FRAMING`, but that nothing is returned to the host (R200). About the contents of `window`,
`prev`, `tok_dist` and `tok_lc`, which both leave unspecified, nothing is said (R201). -/
def Obligations.HardwareResetIsInit : Prop :=
  ∀ (s : State) (rest : List HostInput), s.inputs = .reset :: rest →
    ∃ t, step s = .next t ∧ t.AtStart s.cfg.resetFraming ∧ t.out = s.out ∧ t.sink = s.sink ∧ t.inputs = rest ∧
      ∀ u, exec (.init s.cfg.resetFraming) { s with inputs := rest, payload := [] } = .next u →
        t = { u with
          response := t.response, window := t.window, prev := t.prev, tokDist := t.tokDist, tokLc := t.tokLc }

/-- STATUS completes in every state, with any `FAILED`: it returns OK and the word
`RESULT << 4 | FRAMING << 3 | FAILED << 2 | STATE` and writes nothing of the core; a second STATUS returns the same word
(R176). The fields of the word: `STATE` in bits 1:0, `FAILED` in bit 2, `FRAMING` in bit 3, `RESULT` in bits 7:4, with
the encodings of R14 and R68, and 0 above. -/
def Obligations.StatusReturnsWord : Prop :=
  ∀ s : State, s.payload = [] →
    ∃ w : Word, w.toNat = s.result.toBits.toNat * 16 + s.framing.toNat * 8 + s.failed.toNat * 4 + s.phase.toBits.toNat ∧
      exec .status s = .next { s with response := some ⟨.ok, some w, []⟩ } ∧
      exec .status { s with response := some ⟨.ok, some w, []⟩ } = .next { s with response := some ⟨.ok, some w, []⟩ } ∧
      w.extractLsb' 0 2 = (match s.phase with | .init => 0 | .busy => 1 | .finish => 2 | .done => 3) ∧
      w.getLsbD 2 = s.failed ∧ w.getLsbD 3 = s.framing ∧
      w.extractLsb' 4 4 = (match s.result with | .ok => 0 | .invalidState => 1 | .outOfMemory => 2 | .streamError => 3) ∧
      w.extractLsb' 8 24 = 0

/-! ### Errors -/

/-- PROCESS with `LEN = 0` in INIT or BUSY returns OK and changes nothing else (R173). -/
def Obligations.ProcessZeroIsNoOp : Prop :=
  ∀ s : State, s.failed = false → (s.phase = .init ∨ s.phase = .busy) → s.payload = [] → s.feed = [] →
    exec (.process 0) s = .next { s with result := .ok, response := some ⟨.ok, none, []⟩ }

/-- PROCESS with any `LEN`, and FINALIZE, in FINISH or DONE without an error, return InvalidState and change nothing but
`RESULT`: no byte is offered, no input is consumed, `FAILED` stays 0 (R184). -/
def Obligations.InvalidStateChangesResultOnly : Prop :=
  ∀ s : State, s.failed = false → (s.phase = .finish ∨ s.phase = .done) → s.feed = [] →
    exec (.process s.payload.length) s =
        .next { s with result := .invalidState, payload := [], response := some ⟨.invalidState, none, []⟩ } ∧
      (s.payload = [] →
        exec .finalize s = .next { s with result := .invalidState, response := some ⟨.invalidState, none, []⟩ })

/-- While `FAILED = 1`, INIT runs and clears it, STATUS runs, and PROCESS and FINALIZE fault (R188). -/
def Obligations.CommandsAfterError : Prop :=
  ∀ s : State, s.failed = true →
    exec (.process s.payload.length) s = .fault .commandAfterError ∧
      (s.payload = [] →
        exec .finalize s = .fault .commandAfterError ∧
        (∀ framing, ∃ t, exec (.init framing) s = .next t ∧ t.failed = false) ∧
        exec .status s = .next { s with response := some ⟨.ok, some (statusWord s), []⟩ })

/-- `raise E` writes `RESULT`, and `FAILED` for StreamError and OutOfMemory; nothing after it runs, what was written
stays written, and the command ends and returns `E` (R183). At the end of the command the input port and the feed are
empty, so bytes of the feed that were not read yet are dropped; that is the model's reading of R37 (log 12), not R183. -/
def Obligations.RaiseEndsCommand : Prop :=
  ∀ (e : ResultCode) (s : State),
    let t : State := { s with result := e, failed := s.failed || decide (e = .streamError ∨ e = .outOfMemory) }
    (raise e : M ResultCode) s = .error (.raised e) t ∧
      (∀ rest : ResultCode → M ResultCode, ((raise e : M ResultCode) >>= rest) s = .error (.raised e) t) ∧
      runCommand s.payload.length (raise e) s =
        .next { t with payload := [], feed := [], response := some ⟨e, none, []⟩ }

/-- INIT, PROCESS and FINALIZE write `RESULT` with the code they return; STATUS does not write it (R171). -/
def Obligations.ResultHoldsReturnedCode : Prop :=
  ∀ (i : Instr) (s t : State), exec i s = .next t →
    (i ≠ .status → ∃ delivered, t.response = some ⟨t.result, none, delivered⟩) ∧ (i = .status → t.result = s.result)

/-- Among the commands, only one that returns StreamError sets `FAILED`, and only INIT clears it; OutOfMemory is never
returned (R15, R183, R186). -/
def Obligations.FailedOnlyByStreamError : Prop :=
  ∀ (i : Instr) (s t : State), exec i s = .next t →
    match i with
    | .init _ => t.failed = false ∧ t.result = .ok
    | .status => t.failed = s.failed
    | .process _ => s.failed = false ∧ (t.failed = true ↔ t.result = .streamError) ∧ t.result ≠ .outOfMemory
    | .finalize => s.failed = false ∧ (t.failed = true ↔ t.result = .streamError) ∧ t.result ≠ .outOfMemory

/-- The transitions of `STATE` (R14, R167, R185). A PROCESS with data that returns OK ends in BUSY, one without data
leaves `STATE`; a FINALIZE that returns OK ends in DONE; both return OK only from INIT or BUSY; InvalidState, returned
from FINISH or DONE alone, leaves `STATE`. A StreamError keeps the value `STATE` had at the refused byte: INIT at a byte
of the zlib header, after which every refused byte of a PROCESS is met in BUSY; in a FINALIZE, BUSY at a byte of a block
that became full, and FINISH at a byte of the final block or the trailer. What the two FINALIZE cases say beside `STATE`
(`last_lit` still at `TOKEN_LIMIT`, no lookahead, no undecided byte) is internal state after a StreamError: it rests on
the moment at which the model offers a byte, which is the model's choice (log 8), and not on R185. -/
def Obligations.PhaseTransitions : Prop :=
  ∀ (i : Instr) (s t : State), exec i s = .next t →
    match i with
    | .init _ => t.phase = .init
    | .status => t.phase = s.phase
    | .process _ =>
      (t.result = .ok → s.phase.accepts = true ∧ t.phase = if s.payload = [] then s.phase else .busy) ∧
        (t.result = .invalidState → s.phase.accepts = false ∧ t.phase = s.phase) ∧
        (t.result = .streamError → s.phase.accepts = true ∧ s.payload ≠ [] ∧ ∀ r, t.response = some r →
          t.phase = if s.phase = .init ∧ s.framing = true ∧ r.delivered.length < 2 then .init else .busy)
    | .finalize =>
      (t.result = .ok → s.phase.accepts = true ∧ t.phase = .done) ∧
        (t.result = .invalidState → s.phase.accepts = false ∧ t.phase = s.phase) ∧
        (t.result = .streamError → s.phase.accepts = true ∧ ∀ r, t.response = some r →
          if s.phase = .init ∧ s.framing = true ∧ r.delivered.length < 2 then t.phase = .init
          else
            (t.phase = .busy ∧ t.lastLit = t.cfg.tokenLimit) ∨
              (t.phase = .finish ∧ t.lookahead = 0 ∧ t.matchAvailable = false))

/-- PROCESS, FINALIZE and STATUS leave `FRAMING`, the parameters and the host's queue alone: of the commands, only INIT
writes `FRAMING` (R16, R45). -/
def Obligations.FramingAndParametersKept : Prop :=
  ∀ (i : Instr) (s t : State), exec i s = .next t → (∀ framing, i ≠ .init framing) →
    t.framing = s.framing ∧ t.cfg = s.cfg ∧ t.inputs = s.inputs

/-- The output stream is the concatenation of every command's accepted bytes, in order: a command appends what it
returns as delivered, and a reset or an idle step appends nothing (R52, R60, R175, R200). -/
def Obligations.OutputIsDelivered : Prop :=
  (∀ (i : Instr) (s t : State), exec i s = .next t → ∃ r, t.response = some r ∧ t.out = s.out ++ r.delivered) ∧
    ∀ s t : State, step s = .next t → (∀ c rest, s.inputs ≠ .command c :: rest) → t.out = s.out

/-- The sink answers once for each offered byte. A command that meets no refusal takes one accepting answer for each
byte it delivered; a StreamError takes the accepting answers of the delivered bytes and the one refusal, and offers
nothing after it (R54, R175, R185). That the sink accepts when no answer is listed is the model's choice (log 2). -/
def Obligations.OneSinkAnswerPerByte : Prop :=
  ∀ (i : Instr) (s t : State) (r : Response), exec i s = .next t → t.response = some r →
    (r.code = .streamError → s.sink = List.replicate r.delivered.length true ++ false :: t.sink) ∧
      (r.code ≠ .streamError →
        t.sink = s.sink.drop r.delivered.length ∧ false ∉ s.sink.take r.delivered.length)

/-- A sink that refuses a byte of the zlib header ends PROCESS and FINALIZE with StreamError: `FAILED` is set, `STATE`
stays INIT, the bytes accepted before stay, and nothing was consumed (R168, R185). -/
def Obligations.HeaderRefused : Prop :=
  ∀ (s : State) (answers : List Bool), s.failed = false → s.phase = .init → s.framing = true → s.feed = [] →
    (s.sink = false :: answers →
      (s.payload ≠ [] → exec (.process s.payload.length) s = .next { s with
        result := .streamError, failed := true, sink := answers, payload := [],
        response := some ⟨.streamError, none, []⟩ }) ∧
      (s.payload = [] → exec .finalize s = .next { s with
        result := .streamError, failed := true, sink := answers, response := some ⟨.streamError, none, []⟩ })) ∧
    (s.sink = true :: false :: answers →
      (s.payload ≠ [] → exec (.process s.payload.length) s = .next { s with
        result := .streamError, failed := true, sink := answers, payload := [], out := s.out ++ [s.cfg.zlibCmf],
        response := some ⟨.streamError, none, [s.cfg.zlibCmf]⟩ }) ∧
      (s.payload = [] → exec .finalize s = .next { s with
        result := .streamError, failed := true, sink := answers, out := s.out ++ [s.cfg.zlibCmf],
        response := some ⟨.streamError, none, [s.cfg.zlibCmf]⟩ }))

/-! ### PROCESS and FINALIZE -/

/-- In a session without an error, PROCESS with any data completes with OK if the sink refuses nothing: all input is
consumed, each byte enters the checksum once, and with data the state is BUSY with less than `MIN_LOOKAHEAD` bytes of
lookahead and at most 7 pending bits (R37, R98, R172, R173). -/
def Obligations.ProcessCompletes : Prop :=
  ∀ (s : State) (data : List Byte), s.Inv → s.SessionInv → s.failed = false → s.phase.accepts = true →
    false ∉ s.sink →
    ∃ t, exec (.process data.length) (s.issue data) = .next t ∧ t.result = .ok ∧ t.failed = false ∧
      t.payload = [] ∧ t.feed = [] ∧ (t.adlerA, t.adlerB) = adlerOver (s.adlerA, s.adlerB) data ∧
      (data = [] → t.phase = s.phase ∧ t.out = s.out) ∧
      (data ≠ [] → t.phase = .busy ∧ t.lookahead < MIN_LOOKAHEAD ∧ t.biValid ≤ 7 ∧ s.out ++ s.headerBytes <+: t.out)

/-- In a session without an error, FINALIZE completes with OK if the sink refuses nothing, and the state is DONE with
nothing pending. Of the output it says that the header comes first, if none was written yet, and with framing the
Adler-32 trailer last; about the block bytes between them it says nothing (R74, R168, R169, R174). -/
def Obligations.FinalizeCompletes : Prop :=
  ∀ s : State, s.Inv → s.SessionInv → s.failed = false → s.phase.accepts = true → false ∉ s.sink →
    ∃ t, exec .finalize (s.issue []) = .next t ∧ t.result = .ok ∧ t.failed = false ∧ t.phase = .done ∧
      t.lookahead = 0 ∧ t.matchAvailable = false ∧ t.biValid = 0 ∧ t.lastLit = 0 ∧
      (t.adlerA, t.adlerB) = (s.adlerA, s.adlerB) ∧
      ∃ blocks, t.out = s.out ++ s.headerBytes ++ blocks ++
        if s.framing = true then trailerBytes (s.adlerA, s.adlerB) else []

/-- A whole session, INIT, PROCESS and FINALIZE with an accepting sink, from any state of the invariant and with anything
in the memories that INIT leaves unspecified (R201): each command completes, and with framing on the session's output starts with the header and ends with the Adler-32 of the data. About
the block bytes between them, all of the output with framing off, it says nothing (R72, R74, R98, R177). -/
def Obligations.SessionOutput : Prop :=
  ∀ (s : State) (framing : Bool) (data : List Byte), s.Inv → s.sink = [] →
    ∃ t0, exec (.init framing) (s.issue []) = .next t0 ∧
      ∀ u0, t0.Unspecified u0 →
        ∃ t1 t2, exec (.process data.length) (u0.issue data) = .next t1 ∧ exec .finalize (t1.issue []) = .next t2 ∧
          t2.result = .ok ∧ t2.phase = .done ∧
          ∃ blocks, t2.out =
            s.out ++ (if framing = true then [s.cfg.zlibCmf, s.cfg.zlibFlg] else []) ++ blocks ++
              if framing = true then trailerBytes (adlerOver (1, 0) data) else []

/-- FINALIZE in INIT, when no data ever came: the header, one final block with no tokens and its pad, and the Adler-32
of the empty input, whatever the memories hold that no rule has given a value and whatever the last command returned
(R72, R174, R201); the sink accepts every byte. -/
def Obligations.FinalizeEmptySession : Prop :=
  ∀ (c : Config) (framing : Bool) (out : List Byte) (inputs : List HostInput) (sink : List Bool)
    (response : Option Response) (s : State), false ∉ sink →
    State.Unspecified
      { State.fresh c framing with out := out, inputs := inputs, sink := sink, response := response } s →
    ∃ t, exec .finalize s = .next t ∧ t.result = .ok ∧ t.phase = .done ∧ t.inputs = inputs ∧
      t.out = out ++ (if framing = true then [c.zlibCmf, c.zlibFlg] else []) ++ [0x03, 0x00] ++
        if framing = true then [0x00, 0x00, 0x00, 0x01] else []

/-- A PROCESS whose data leaves less than `MIN_LOOKAHEAD` bytes of lookahead, with no slide due: the header if the
session has none yet, the bytes at the end of the lookahead, the checksum and the hash seed; no token is written and
nothing else changes (R96, R97, R113, R168, R172). -/
def Obligations.ShortProcessOnlyBuffers : Prop :=
  ∀ (s : State) (data : List Byte), s.Inv → s.failed = false → s.phase.accepts = true → s.sink = [] → data ≠ [] →
    s.lookahead + data.length < MIN_LOOKAHEAD → s.strstart < W + MAX_DIST →
    ∃ t, exec (.process data.length) (s.issue data) = .next t ∧
      t = { s with
        phase := .busy, result := .ok, out := s.out ++ s.headerBytes, inputs := s.inputs.tail
        window := t.window, lookahead := s.lookahead + data.length, adlerA := t.adlerA, adlerB := t.adlerB, insH := t.insH
        response := some ⟨.ok, none, s.headerBytes⟩ } ∧
      (∀ i < data.length, t.window.read (s.strstart + s.lookahead + i) = data.getD i 0) ∧
      (∀ a, (a < s.strstart + s.lookahead ∨ s.strstart + s.lookahead + data.length ≤ a) →
        t.window.read a = s.window.read a) ∧
      (t.adlerA, t.adlerB) = adlerOver (s.adlerA, s.adlerB) data ∧
      t.insH =
        if MIN_MATCH ≤ s.lookahead + data.length then
          updateHash ((t.window.read s.strstart).setWidth 15) (t.window.read (s.strstart + 1))
        else s.insH

/-- A PROCESS short enough to be buffered, followed by any PROCESS, is one PROCESS with the bytes of both: the two runs
leave the same state, output included, but for what the last command returned and the host's queue (R178 for such a chunk; log 16 says where R178 fails). -/
def Obligations.ShortChunkJoinsNext : Prop :=
  ∀ (s t u : State) (first second : List Byte), s.Inv → s.failed = false → s.phase.accepts = true → s.sink = [] →
    first ≠ [] → s.lookahead + first.length < MIN_LOOKAHEAD → s.strstart < W + MAX_DIST →
    exec (.process first.length) (s.issue first) = .next t →
    exec (.process second.length) (t.issue second) = .next u →
    ∃ v, exec (.process (first ++ second).length) (s.issue (first ++ second)) = .next v ∧
      u = { v with response := u.response, inputs := u.inputs }

/-- As long as no slide can be due, PROCESS stores its data at the end of the lookahead and changes no other byte of
the window, however it ends (R50, R96). -/
def Obligations.ProcessWindowFrame : Prop :=
  ∀ (len : Nat) (s t : State), exec (.process len) s = .next t → s.window.wf WIN = true →
    s.strstart + s.lookahead + len < W + MAX_DIST →
    (∀ a, (a < s.strstart + s.lookahead ∨ s.strstart + s.lookahead + len ≤ a) → t.window.read a = s.window.read a) ∧
      (t.result = .ok → ∀ i < len, t.window.read (s.strstart + s.lookahead + i) = s.payload.getD i 0)

/-- FINALIZE reads no input: the checksum stays, and so does every byte of the window as long as no slide can be due
(R50, R53, R98, R174). -/
def Obligations.FinalizeWindowFrame : Prop :=
  ∀ s t : State, exec .finalize s = .next t → s.feed = [] →
    t.adlerA = s.adlerA ∧ t.adlerB = s.adlerB ∧
      (s.strstart + s.lookahead < W + MAX_DIST → ∀ a, t.window.read a = s.window.read a)

/-! ### Invariants -/

/-- The invariant and the session invariant hold at reset, whatever the memories hold that R41 leaves unspecified: the
zeros of log 4 are not needed (R201). -/
def Obligations.InvariantsAtReset : Prop := ∀ s : State, State.reset.Unspecified s → s.Inv ∧ s.SessionInv

/-- Every step keeps the invariant: the memories stay canonical and in their bounds, the registers in their ranges, and
between commands R37 and R40 hold. After a StreamError too no bit of the accumulator is set above the pending ones
(`State.PackerOk`): for a byte refused within SendBits that rests on the model's choice of log 8, which offers the bytes
before it writes `bi_buf`, and not on R148, which writes it first. -/
def Obligations.StepKeepsInv : Prop := ∀ s t : State, s.Inv → step s = .next t → t.Inv

/-- Every step keeps the session invariant: chains point backwards, the deferred match is one that R112 allows, the
counters count the tokens of the block, and the tokens cover the block's bytes exactly once (R103, R112, R119, R126). -/
def Obligations.StepKeepsSessionInv : Prop :=
  ∀ s t : State, s.Inv → s.SessionInv → step s = .next t → t.SessionInv

/-- In a session, no condition of R187 comes about, and neither does one of the model's own (log 10): the only fault is
a PROCESS or FINALIZE after an error (R187, R188). -/
def Obligations.OnlyFaultIsCommandAfterError : Prop :=
  ∀ (s : State) (f : Fault), s.Inv → s.SessionInv → step s = .fault f →
    f = .commandAfterError ∧ s.failed = true ∧
      ∃ (c : Command) (rest : List HostInput), s.inputs = .command c :: rest ∧
        (decode c = .ok .finalize ∨ ∃ len, decode c = .ok (.process len))

/-! ### Window, hash chains and matcher -/

/-- Adler-32 in closed form, from the halves (1, 0) on (R177). -/
def Obligations.AdlerClosedForm : Prop :=
  ∀ data : List Byte,
    adlerOver (1, 0) data =
      (BitVec.ofNat 16 ((1 + (data.map BitVec.toNat).sum) % 65521),
        BitVec.ofNat 16
          ((data.length +
            ((List.range data.length).map fun i => (data.length - i) * (data.getD i 0).toNat).sum) % 65521))

/-- The hash of a 3-byte string: three updates give it whatever the hash was before; the top three bits of `b0` do not
reach it; and with `b0` and `b1` it determines `b2` (R101, which marks these as derived from R102). -/
def Obligations.HashOfThreeBytes : Prop :=
  ∀ (h : BitVec 15) (b0 b1 b2 c2 : Byte),
    updateHash (updateHash (updateHash h b0) b1) b2 = hash3 b0 b1 b2 ∧
      (hash3 b0 b1 b2).toNat = ((b0.toNat <<< 10) ^^^ (b1.toNat <<< 5) ^^^ b2.toNat) &&& 0x7FFF ∧
      hash3 (b0 &&& 0x1F) b1 b2 = hash3 b0 b1 b2 ∧ (hash3 b0 b1 b2 = hash3 b0 b1 c2 → b2 = c2) ∧
      (hash3 b0 b1 b2).setWidth 8 = b2 ^^^ (b1 <<< 5)

/-- InsertString: the position becomes the head of the bucket of its string, its `prev` entry the former head, which is
returned; nothing else changes (R102, R103). -/
def Obligations.InsertStringLinks : Prop :=
  ∀ (s : State) (p : Nat), s.CoreOk → p + 2 < WIN →
    ∃ (t : State) (h : BitVec 15), insertString p s = .ok (s.head.read h.toNat).toNat t ∧
      h = (s.insH <<< 5) ^^^ (s.window.read (p + 2)).setWidth 15 ∧
      t = { s with insH := h, head := t.head, prev := t.prev } ∧
      (t.head.read h.toNat).toNat = p ∧ (∀ x, x ≠ h.toNat → t.head.read x = s.head.read x) ∧
      t.prev.read (p % W) = s.head.read h.toNat ∧ ∀ x, x ≠ p % W → t.prev.read x = s.prev.read x

/-- A slide: the upper half of the window is copied onto the lower half and stays as it was; every stored position
moves down by `W`, or becomes `NIL` where it lies below `W`; nothing else changes (R94, R95). -/
def Obligations.SlideMovesWindow : Prop :=
  ∀ s : State, s.CoreOk → W + MAX_DIST ≤ s.strstart →
    ∃ t, slide s = .ok () t ∧
      t = { s with
        window := t.window, head := t.head, prev := t.prev, matchStart := s.matchStart - W
        strstart := s.strstart - W, blockStart := s.blockStart - W } ∧
      (∀ i < W, t.window.read i = s.window.read (i + W)) ∧
      (∀ i, W ≤ i → i < WIN → t.window.read i = s.window.read i) ∧
      (∀ h < HASH_SIZE, (t.head.read h).toNat =
        if W ≤ (s.head.read h).toNat then (s.head.read h).toNat - W else NIL) ∧
      ∀ i < W, (t.prev.read i).toNat = if W ≤ (s.prev.read i).toNat then (s.prev.read i).toNat - W else NIL

/-- FillWindow: it ends with `MIN_LOOKAHEAD` bytes of lookahead or an empty feed; the bytes taken from the feed follow
the lookahead and enter the checksum in order; the lookahead, the bytes behind `strstart` that a match may refer to and
every distance survive a slide (R91 to R93, R96 to R99). -/
def Obligations.FillWindowReadsFeed : Prop :=
  ∀ s : State, s.CoreOk → s.lookahead < MIN_LOOKAHEAD →
    ∃ (t : State) (n : Nat), fillWindow s = .ok () t ∧ t.CoreOk ∧ n ≤ s.feed.length ∧ t.feed = s.feed.drop n ∧
      t.lookahead = s.lookahead + n ∧ (MIN_LOOKAHEAD ≤ t.lookahead ∨ t.feed = []) ∧
      (t.adlerA, t.adlerB) = adlerOver (s.adlerA, s.adlerB) (s.feed.take n) ∧
      (∀ i < s.lookahead, t.window.read (t.strstart + i) = s.window.read (s.strstart + i)) ∧
      (∀ i < n, t.window.read (t.strstart + s.lookahead + i) = s.feed.getD i 0) ∧
      (∀ d, 1 ≤ d → d ≤ MAX_DIST → d ≤ s.strstart →
        d ≤ t.strstart ∧ t.window.read (t.strstart - d) = s.window.read (s.strstart - d)) ∧
      (t.strstart : Int) - t.blockStart = s.strstart - s.blockStart ∧
      (t.strstart : Int) - t.matchStart = s.strstart - s.matchStart

/-- MatchLen is the largest `k` up to `min(MAX_MATCH, lookahead)` such that the `k` bytes at the candidate are those at
`strstart`; it writes nothing (R109). -/
def Obligations.MatchLenIsLargest : Prop :=
  ∀ (s : State) (c : Nat), c ≤ s.strstart → s.strstart + s.lookahead ≤ WIN →
    ∃ k, matchLen c s = .ok k s ∧ k ≤ min MAX_MATCH s.lookahead ∧
      (∀ i < k, s.window.read (c + i) = s.window.read (s.strstart + i)) ∧
      (k < min MAX_MATCH s.lookahead → s.window.read (c + k) ≠ s.window.read (s.strstart + k))

/-- LongestMatch: it writes `match_start` alone, and only for a match longer than the deferred one. Its result is no
shorter than what any candidate offers: the first one, and each later one on the chain that is above `limit` and among
the first `chain_len`. A match longer than the deferred one is real, at a distance of 1..`MAX_DIST`, and its candidate is
the first on the chain, the most recent, that offers that length (R107 to R109, R111, R112). -/
def Obligations.LongestMatchIsReal : Prop :=
  ∀ (s : State) (c1 : Nat), s.strstart + s.lookahead ≤ WIN → (∀ c ∈ s.candidates c1, c < s.strstart) →
    c1 < s.strstart → s.strstart - c1 ≤ MAX_DIST →
    ∃ (n : Nat) (t : State), longestMatch c1 s = .ok n t ∧ t = { s with matchStart := t.matchStart } ∧
      n ≤ s.lookahead ∧ min s.prevLength s.lookahead ≤ n ∧ (n ≤ s.prevLength → t.matchStart = s.matchStart) ∧
      (∀ c ∈ s.candidates c1, ∀ k ≤ min MAX_MATCH s.lookahead, s.Agrees c k → k ≤ n) ∧
      (s.prevLength < n →
        ∃ (nearer farther : List Nat) (c : Nat), s.candidates c1 = nearer ++ c :: farther ∧ t.matchStart = c ∧
          c < s.strstart ∧ s.strstart - c ≤ MAX_DIST ∧ n ≤ MAX_MATCH ∧ s.Agrees c n ∧ ∀ c' ∈ nearer, ¬ s.Agrees c' n)

/-- EvaluatePosition and the decision after it.

EvaluatePosition (R114): the position is inserted, the current match becomes the deferred one, and the new one is what
LongestMatch finds from the former head of the bucket, if the search is allowed and the match is not one of length 3 at a
distance above `TOO_FAR`. A new match longer than the deferred one is real and in reach (R112, R119).

The decision (R113): a deferred match that the new one does not beat is emitted as one token, distance
`strstart - 1 - prev_match` and `prev_length - 3`; the positions it covers from `strstart + 1` on are inserted while
three bytes follow, and the position moves behind it (R116). Otherwise an undecided byte is emitted as the literal at
`strstart - 1` and the position moves on (R115), or, without one, the position moves on alone (R117). A token that fills
the block has it flushed, after the move in R116 and before it in R115. At the end of the input the undecided byte is
emitted before the final block (R118). -/
def Obligations.EvaluatePositionDefers : Prop :=
  (∀ s : State, s.CoreOk → s.ChainsBehind → s.MatchHeld → 1 ≤ s.lookahead →
    ∃ (hashHead : Nat) (u t : State),
      (if MIN_MATCH ≤ s.lookahead then insertString s.strstart s = .ok hashHead u else hashHead = NIL ∧ u = s) ∧
      evaluatePosition s = .ok () t ∧
      t = { s with
        insH := u.insH, head := u.head, prev := u.prev, prevLength := s.matchLength, prevMatch := s.matchStart
        matchLength := t.matchLength, matchStart := t.matchStart } ∧
      (if hashHead ≠ NIL ∧ s.matchLength < MAX_LAZY ∧ (s.strstart : Int) - hashHead ≤ MAX_DIST then
        ∃ (n : Nat) (v : State),
          longestMatch hashHead
            { u with prevLength := s.matchLength, prevMatch := s.matchStart, matchLength := 2 } = .ok n v ∧
          t.matchStart = v.matchStart ∧
          t.matchLength = if n = MIN_MATCH ∧ (TOO_FAR : Int) < s.strstart - v.matchStart then 2 else n
      else t.matchStart = s.matchStart ∧ t.matchLength = 2) ∧
      (s.matchLength < t.matchLength →
        ∃ c : Nat, t.matchStart = c ∧ c < s.strstart ∧ s.strstart - c ≤ MAX_DIST ∧ t.matchLength ≤ s.lookahead ∧
          s.Agrees c t.matchLength) ∧
      (t.matchLength = MIN_MATCH → (t.strstart : Int) - t.matchStart ≤ TOO_FAR)) ∧
  (∀ s : State, s.CoreOk → s.TallyExact → s.lastLit < s.cfg.tokenLimit → 1 ≤ s.lookahead →
    (MIN_MATCH ≤ s.prevLength → s.matchLength ≤ s.prevLength → s.prevLength ≤ s.lookahead + 1 →
      1 ≤ (s.strstart : Int) - 1 - s.prevMatch → (s.strstart : Int) - 1 - s.prevMatch ≤ MAX_DIST →
      ∃ u v : State, s.TokenAdded u ((s.strstart : Int) - 1 - s.prevMatch).toNat (s.prevLength - 3) ∧
        insertEach (List.range' (s.strstart + 1) (min (s.prevLength - 2) (s.lookahead - MIN_MATCH))) s = .ok () v ∧
        u = { s with
          tokDist := u.tokDist, tokLc := u.tokLc, lastLit := u.lastLit, dynLfreq := u.dynLfreq
          dynDfreq := u.dynDfreq, insH := v.insH, head := v.head, prev := v.prev
          strstart := s.strstart + s.prevLength - 1, lookahead := s.lookahead - (s.prevLength - 1)
          prevLength := 0, matchLength := 2, matchAvailable := false } ∧
        emitPosition s = if u.lastLit = u.cfg.tokenLimit then flushBlock false u else .ok () u) ∧
    (¬ (MIN_MATCH ≤ s.prevLength ∧ s.matchLength ≤ s.prevLength) → s.matchAvailable = true → 1 ≤ s.strstart →
      ∃ u : State, s.TokenAdded u 0 (s.window.read (s.strstart - 1)).toNat ∧
        u = { s with tokDist := u.tokDist, tokLc := u.tokLc, lastLit := u.lastLit, dynLfreq := u.dynLfreq } ∧
        (u.lastLit < u.cfg.tokenLimit →
          emitPosition s = .ok () { u with strstart := s.strstart + 1, lookahead := s.lookahead - 1 }) ∧
        (u.lastLit = u.cfg.tokenLimit →
          (∀ v, flushBlock false u = .ok () v →
            emitPosition s = .ok () { v with strstart := s.strstart + 1, lookahead := s.lookahead - 1 }) ∧
          ∀ e v, flushBlock false u = .error e v → emitPosition s = .error e v)) ∧
    (¬ (MIN_MATCH ≤ s.prevLength ∧ s.matchLength ≤ s.prevLength) → s.matchAvailable = false →
      emitPosition s =
        .ok () { s with matchAvailable := true, strstart := s.strstart + 1, lookahead := s.lookahead - 1 })) ∧
  ∀ s : State, s.CoreOk → s.TallyExact → s.lastLit < s.cfg.tokenLimit →
    (s.matchAvailable = true → 1 ≤ s.strstart →
      ∃ u : State, s.TokenAdded u 0 (s.window.read (s.strstart - 1)).toNat ∧
        u = { s with
          tokDist := u.tokDist, tokLc := u.tokLc, lastLit := u.lastLit, dynLfreq := u.dynLfreq
          matchAvailable := false } ∧
        finishDrain s = flushBlock true u) ∧
    (s.matchAvailable = false → finishDrain s = flushBlock true s)

/-! ### Tally -/

/-- TallyLiteral and TallyDistance: the token goes to index `last_lit`, its symbols are counted once each, and the flag
says whether the block is full; nothing else changes (R121 to R125). A counter that stands at its 16-bit limit cannot be
raised: that is a fault (R9, log 10). -/
def Obligations.TallyAppendsToken : Prop :=
  ∀ s : State, s.CoreOk → s.lastLit < s.cfg.tokenLimit →
    (∀ c : Byte,
      ((s.dynLfreq.read c.toNat).toNat < 65535 →
        ∃ t, tallyLiteral c s = .ok (decide (t.lastLit = s.cfg.litBufsize - 1)) t ∧
        t = { s with tokDist := t.tokDist, tokLc := t.tokLc, lastLit := s.lastLit + 1, dynLfreq := t.dynLfreq } ∧
        t.tokDist.read s.lastLit = 0 ∧ t.tokLc.read s.lastLit = c ∧
        (∀ i, i ≠ s.lastLit → t.tokDist.read i = s.tokDist.read i ∧ t.tokLc.read i = s.tokLc.read i) ∧
        ∀ n, (t.dynLfreq.read n).toNat = (s.dynLfreq.read n).toNat + if n = c.toNat then 1 else 0) ∧
      ((s.dynLfreq.read c.toNat).toNat = 65535 →
        tallyLiteral c s = .error (.fault (.internalInvariant .counterRange)) s)) ∧
    (∀ d lc : Nat, 1 ≤ d → d ≤ MAX_DIST → lc ≤ 255 →
      ((s.dynLfreq.read (lengthCode (lc + 3))).toNat < 65535 → (s.dynDfreq.read (distCode d)).toNat < 65535 →
        ∃ t, tallyDistance d lc s = .ok (decide (t.lastLit = s.cfg.litBufsize - 1)) t ∧
        t = { s with
          tokDist := t.tokDist, tokLc := t.tokLc, lastLit := s.lastLit + 1, dynLfreq := t.dynLfreq
          dynDfreq := t.dynDfreq } ∧
        (t.tokDist.read s.lastLit).toNat = d ∧ (t.tokLc.read s.lastLit).toNat = lc ∧
        (∀ i, i ≠ s.lastLit → t.tokDist.read i = s.tokDist.read i ∧ t.tokLc.read i = s.tokLc.read i) ∧
        (∀ n, (t.dynLfreq.read n).toNat = (s.dynLfreq.read n).toNat + if n = lengthCode (lc + 3) then 1 else 0) ∧
        ∀ n, (t.dynDfreq.read n).toNat = (s.dynDfreq.read n).toNat + if n = distCode d then 1 else 0) ∧
      ((s.dynLfreq.read (lengthCode (lc + 3))).toNat = 65535 ∨ (s.dynDfreq.read (distCode d)).toNat = 65535 →
        tallyDistance d lc s = .error (.fault (.internalInvariant .counterRange)) s))

/-- The counter identities, which hold between the commands of a session: with `nmatch` matches among the tokens, the
literal/length counters sum to `last_lit + 1`, the distance counters to `nmatch`, `END_BLOCK` is counted once, and no
counter exceeds 16384 (R126). -/
def Obligations.TallyIdentities : Prop :=
  ∀ s : State, s.Inv → s.SessionInv → s.failed = false →
    ((List.range 286).map fun n => (s.dynLfreq.read n).toNat).sum = s.lastLit + 1 ∧
      ((List.range 30).map fun n => (s.dynDfreq.read n).toNat).sum =
        (List.range s.lastLit).countP (fun i => decide (s.tokDist.read i ≠ 0)) ∧
      s.dynLfreq.read 256 = 1 ∧ (∀ n, (s.dynLfreq.read n).toNat ≤ 16384) ∧ ∀ n, (s.dynDfreq.read n).toNat ≤ 16384

/-! ### Codes and trees -/

/-- `LengthCode` and `DistCode` take the greatest code whose base is not above the value, 258 having code 285 to itself
(R89, R90). The extra bits of every length 3..258 and distance 1..32768 hold the rest above the base, and symbol 284 never
spells 258 (R80, R81, R88). -/
def Obligations.CodesAndExtraBits : Prop :=
  (lengthCode 258 = 285 ∧
    ∀ len, 3 ≤ len → len ≤ 257 →
      257 ≤ lengthCode len ∧ lengthCode len ≤ 284 ∧ lengthBase (lengthCode len - 257) ≤ len ∧
        ∀ c ≤ 27, lengthBase c ≤ len → c ≤ lengthCode len - 257) ∧
  (∀ d, 1 ≤ d → d ≤ 32768 →
    distCode d ≤ 29 ∧ distBase (distCode d) ≤ d ∧ ∀ c ≤ 29, distBase c ≤ d → c ≤ distCode d) ∧
  (∀ len, 3 ≤ len → len ≤ 258 →
    lengthBase (lengthCode len - 257) ≤ len ∧
      len - lengthBase (lengthCode len - 257) < 2 ^ lengthExtra (lengthCode len - 257) ∧
      ¬ (lengthCode len = 284 ∧ len - lengthBase (lengthCode len - 257) = 31)) ∧
  (∀ d, 1 ≤ d → d ≤ 32768 → d - distBase (distCode d) < 2 ^ distExtra (distCode d)) ∧
  lengthCode 3 = 257 ∧ lengthCode 11 = 265 ∧ lengthCode 257 = 284 ∧ 257 - lengthBase 27 = 30 ∧
  distCode 1 = 0 ∧ distCode 5 = 4 ∧ distCode 4096 = 23 ∧ distCode 4097 = 24 ∧ distCode 32506 = 29

/-- The static codes: the lengths and the codes of R77 and R78, stored bit-reversed. -/
def Obligations.StaticCodeTables : Prop :=
  (∀ n < 288,
    staticLitLens.getD n 0 = (if n ≤ 143 then 8 else if n ≤ 255 then 9 else if n ≤ 279 then 7 else 8) ∧
    staticLitCodes.getD n 0 =
      if n ≤ 143 then bitrev (0x30 + n) 8
      else if n ≤ 255 then bitrev (0x190 + (n - 144)) 9
      else if n ≤ 279 then bitrev (n - 256) 7
      else bitrev (0xC0 + (n - 280)) 8) ∧
  ∀ d < 30, staticDistLens.getD d 0 = 5 ∧ staticDistCodes.getD d 0 = bitrev d 5

/-- Merge joins the least nodes, whatever `HEAP_TIE` is, and numbers the joins from the alphabet's size on. With
`DOC_ORDER` ties go by frequency, depth and index, so each removed node is determined (R131, R133); the heap of
`ZLIB_HEAP` takes a node that is least by frequency and depth (R138). -/
def Obligations.MergeJoinsLeast : Prop :=
  ∀ (tie : HeapTie) (k : TreeKind) (leaves : List Node), leaves ≠ [] → (leaves.map Node.idx).Nodup →
    (∀ a ∈ leaves, a.idx < k.elems) → JoinsLeast tie k.elems leaves (merge tie k leaves)

/-- The code lengths follow the merge: where no used symbol lies deeper in the tree than the cap, each has its depth as
its length (R134), and in every tree the more frequent of two used symbols has no longer code (R134 to R136). Which
symbols the ties favour is as the spec's vector H8 has it: of 30 distance codes with frequency 1, 28 and 29 get length 4
under `DOC_ORDER` and 9 and 20 under `ZLIB_HEAP` (R131, R138). -/
def Obligations.LengthsFollowMerge : Prop :=
  (∀ (tie : HeapTie) (k : TreeKind) (freq : Memory 16) (t : BuiltTree), builtTree tie k freq = some t →
    (2 ≤ (leavesOf k freq).length →
      (∀ n < k.elems, freq.read n ≠ 0 →
        stepsToRoot (merge tie k (leavesOf k freq)).parents k.elems n ≤ if k = .bitLen then 7 else 15) →
      ∀ n < k.elems, freq.read n ≠ 0 →
        t.lens.getD n 0 = stepsToRoot (merge tie k (leavesOf k freq)).parents k.elems n) ∧
    ∀ m < k.elems, ∀ n < k.elems, freq.read m ≠ 0 → (freq.read m).toNat < (freq.read n).toNat →
      t.lens.getD n 0 ≤ t.lens.getD m 0) ∧
  ∀ tie : HeapTie,
    (builtTree tie .dist ((List.range 30).map fun n => (n, 1))).map
        (fun t => (List.range 30).filter fun n => t.lens.getD n 0 = 4) =
      some (match tie with
        | .docOrder => [28, 29]
        | .zlibHeap => [9, 20])

/-- BuildTree always returns a tree, for either tie order: used symbols have a length, none exceeds the cap, unused
symbols have none unless the tree was degenerate, and `max_code` is what R139 says (R130, R132, R135, R139). What it adds
to `opt_len` is, over all symbols, the frequency times the code length with the extra bits of the symbol, and to
`static_len` the same with the static length, nothing for the tree that has no static form; a forced leaf adds nothing
to either (R85, R128, R132, R134, R136). -/
def Obligations.BuildTreeLengths : Prop :=
  ∀ (tie : HeapTie) (k : TreeKind) (freq : Memory 16),
    let extra : Nat → Nat := fun n =>
      match k with
      | .litLen => if n < 257 then 0 else lengthExtra (n - 257)
      | .dist => distExtra n
      | .bitLen => if n = 16 then 2 else if n = 17 then 3 else if n = 18 then 7 else 0
    let staticCost : Nat → Nat := fun n =>
      match k with
      | .litLen => (if n ≤ 143 then 8 else if n ≤ 255 then 9 else if n ≤ 279 then 7 else 8) + extra n
      | .dist => 5 + extra n
      | .bitLen => 0
    ∃ t, builtTree tie k freq = some t ∧ t.lens.length = k.elems ∧ t.maxCode < k.elems ∧
      (∀ n < k.elems, freq.read n ≠ 0 → 1 ≤ t.lens.getD n 0 ∧ n ≤ t.maxCode) ∧
      (∀ n < k.elems, t.lens.getD n 0 ≤ if k = .bitLen then 7 else 15) ∧
      (2 ≤ (List.range k.elems).countP (fun n => decide (freq.read n ≠ 0)) →
        ∀ n < k.elems, freq.read n = 0 → t.lens.getD n 0 = 0) ∧
      (k = .litLen → freq.read 256 ≠ 0 → 256 ≤ t.maxCode) ∧ (k = .dist → 1 ≤ t.maxCode) ∧
      t.optAdd = (((List.range k.elems).map fun n => (freq.read n).toNat * (t.lens.getD n 0 + extra n)).sum : Nat) ∧
      t.staticAdd = (((List.range k.elems).map fun n => (freq.read n).toNat * staticCost n).sum : Nat)

/-- The code of every tree BuildTree returns is complete: its Kraft sum is exactly 1 (R139). -/
def Obligations.BuildTreeKraftEquality : Prop :=
  ∀ (tie : HeapTie) (k : TreeKind) (freq : Memory 16) (t : BuiltTree), builtTree tie k freq = some t →
    (t.lens.map fun l => if l = 0 then (0 : ℚ) else 1 / 2 ^ l).sum = 1

/-- The codes of every tree BuildTree returns fit their lengths, and none is a prefix of another, as the bits are sent
(R87, R137, R139). -/
def Obligations.BuildTreePrefixFree : Prop :=
  ∀ (tie : HeapTie) (k : TreeKind) (freq : Memory 16) (t : BuiltTree), builtTree tie k freq = some t →
    (∀ n < k.elems, t.codes.getD n 0 < 2 ^ t.lens.getD n 0) ∧
      ∀ m < k.elems, ∀ n < k.elems, m ≠ n → 1 ≤ t.lens.getD m 0 → 1 ≤ t.lens.getD n 0 →
        ¬ symbolBits t.lens t.codes m <+: symbolBits t.lens t.codes n

/-- The run-length symbols of ScanTree and SendTree describe the code lengths of symbols 0..`max_code` exactly, with the
repeat counts and the extra bits of R83 (R140, R157). -/
def Obligations.RunLengthsDescribeTree : Prop :=
  ∀ (lens : List Nat) (maxCode : Nat), (∀ l ∈ lens, l ≤ 15) → maxCode < lens.length →
    expandItems [] (blItems lens maxCode) = lens.take (maxCode + 1) ∧
      ∀ x ∈ blItems lens maxCode,
        (x.symbol ≤ 15 ∧ x.extraBits = 0) ∨ (x.symbol = 16 ∧ x.extraBits = 2 ∧ x.extraValue ≤ 3) ∨
          (x.symbol = 17 ∧ x.extraBits = 3 ∧ x.extraValue ≤ 7) ∨
          (x.symbol = 18 ∧ x.extraBits = 7 ∧ x.extraValue ≤ 127)

/-- ChooseBlock takes the cheapest form in bytes; stored only while the block's bytes are in the window; ties go to
stored first, then to static (R142, R143). -/
def Obligations.ChooseBlockIsCheapest : Prop :=
  ∀ s : State,
    let static := (s.staticLen + 3 + 7) / 8
    let dynamic := (s.optLen + 3 + 7) / 8
    let stored := s.strstart - s.blockStart + 4
    (chooseBlock s = .stored ↔ 0 ≤ s.blockStart ∧ stored ≤ static ∧ stored ≤ dynamic) ∧
      (chooseBlock s = .static → static ≤ dynamic) ∧ (chooseBlock s = .dynamic → dynamic < static)

/-! ### Emitter -/

/-- SendBits appends the bits of the value to the output bit stream, bit 0 first, and `bi_valid` moves as R148 says; an
operand out of range is a fault (R147, R148). Align sends the pending bits and pads with 0 bits to the next byte boundary;
EndFlush sends the complete bytes alone and pads nothing (R150, R151). -/
def Obligations.PackerKeepsBitStream : Prop :=
  (∀ (s : State) (value length : Nat),
    (1 ≤ length → length ≤ 16 → value < 2 ^ length → s.PackerOk → s.sink = [] →
      ∃ t, sendBits value length s = .ok () t ∧ t.bitStream = s.bitStream ++ bitsOf value length ∧ t.PackerOk ∧
        t.biValid = (if s.biValid + length ≤ 16 then s.biValid + length else s.biValid + length - 16) ∧
        t = { s with out := t.out, biBuf := t.biBuf, biValid := t.biValid }) ∧
    (¬ (1 ≤ length ∧ length ≤ 16 ∧ value < 2 ^ length) →
      sendBits value length s = .error (.fault (.internalInvariant .sendBitsOperand)) s)) ∧
  ∀ s : State, s.PackerOk → s.sink = [] →
    (∃ t, align s = .ok () t ∧ t.bitStream = s.bitStream ++ padBits s.biValid ∧
      t = { s with out := t.out, biBuf := 0, biValid := 0 }) ∧
    ∃ t, endFlush s = .ok () t ∧ t.bitStream = s.bitStream ∧ t.biValid ≤ 7 ∧ t.PackerOk ∧
      t = { s with out := t.out, biBuf := t.biBuf, biValid := t.biValid }

/-- A stored block: 3 header bits with BTYPE 0, the pad, LEN and NLEN low byte first, and the window's bytes (R76, R153,
R154). -/
def Obligations.StoredBlockLayout : Prop :=
  ∀ (s : State) (start n : Nat) (last : Bool), s.PackerOk → s.sink = [] → n ≤ 65535 → start + n ≤ WIN →
    ∃ t, storedBlock start n last s = .ok () t ∧
      t.bitStream = s.bitStream ++ [last, false, false] ++ padBits (s.biValid + 3) ++
        byteBits ([BitVec.ofNat 8 n, BitVec.ofNat 8 (n / 256), ~~~ BitVec.ofNat 8 n, ~~~ BitVec.ofNat 8 (n / 256)] ++
          (List.range n).map fun i => s.window.read (start + i)) ∧
      t = { s with out := t.out, biBuf := 0, biValid := 0 }

/-- CompressBlock sends the bits of the block's tokens in the order they were tallied, then the code of `END_BLOCK`
(R149, R158, R159). -/
def Obligations.CompressBlockSendsTokens : Prop :=
  ∀ (s : State) (lLens lCodes dLens dCodes : List Nat), s.PackerOk → s.sink = [] →
    (∀ n, lLens.getD n 0 ≤ 15 ∧ lCodes.getD n 0 < 2 ^ lLens.getD n 0) →
    (∀ n, dLens.getD n 0 ≤ 15 ∧ dCodes.getD n 0 < 2 ^ dLens.getD n 0) →
    1 ≤ lLens.getD END_BLOCK 0 →
    (∀ i < s.lastLit,
      (s.tokDist.read i = 0 → 1 ≤ lLens.getD (s.tokLc.read i).toNat 0) ∧
      (s.tokDist.read i ≠ 0 → (s.tokDist.read i).toNat ≤ 32768 ∧
        1 ≤ lLens.getD (lengthCode ((s.tokLc.read i).toNat + 3)) 0 ∧
        1 ≤ dLens.getD (distCode (s.tokDist.read i).toNat) 0)) →
    ∃ t, compressBlock lLens lCodes dLens dCodes s = .ok () t ∧
      t.bitStream = s.bitStream ++
        ((List.range s.lastLit).flatMap fun i =>
          tokenBits lLens lCodes dLens dCodes (s.tokDist.read i).toNat (s.tokLc.read i).toNat) ++
        symbolBits lLens lCodes END_BLOCK ∧
      t = { s with out := t.out, biBuf := t.biBuf, biValid := t.biValid }

/-- FlushBlock: the tally, the costs and the counters start afresh and the next block starts at `strstart`; everything
else persists across the block boundary but the output, the sink's answers and the accumulator, which the final block
leaves empty. In a session with an accepting sink it completes (R43, R44, R160, R161). -/
def Obligations.FlushBlockStartsNextBlock : Prop :=
  (∀ (s t : State) (last : Bool), flushBlock last s = .ok () t →
    t = { s with
      out := t.out, sink := t.sink, biBuf := t.biBuf, biValid := t.biValid, blockStart := s.strstart
      lastLit := 0, optLen := 0, staticLen := 0
      dynLfreq := t.dynLfreq, dynDfreq := t.dynDfreq, blFreq := t.blFreq } ∧
    (∀ n < L_CODES, t.dynLfreq.read n = if n = END_BLOCK then 1 else 0) ∧ (∀ n < D_CODES, t.dynDfreq.read n = 0) ∧
    (∀ n < BL_CODES, t.blFreq.read n = 0) ∧ (last = true → t.biValid = 0 ∧ t.biBuf = 0)) ∧
  ∀ (s : State) (last : Bool), s.CoreOk → s.TallyExact → s.CostsClear → s.blockStart ≤ s.strstart → s.sink = [] →
    ∃ t, flushBlock last s = .ok () t

/-- FlushBlock appends the bits of one block to the output bit stream: the 3 header bits of the form that ChooseBlock
takes at the costs of the three trees, then that form. Stored: the pad, LEN, NLEN and the window's bytes. Static: the
tokens and END_BLOCK in the static codes. Dynamic: HLIT, HDIST, HCLEN, the bit-length code lengths in BL_ORDER up to the
last used one, the code lengths of both trees as run-length symbols, then the tokens and END_BLOCK in the trees of the
block. After the final block comes the pad to the byte boundary (R75, R82, R84, R141, R153 to R156, R160, R161). -/
def Obligations.FlushBlockSendsChosenForm : Prop :=
  bitLengthOrder = [16, 17, 18, 0, 8, 7, 9, 6, 10, 5, 11, 4, 12, 3, 13, 2, 14, 1, 15] ∧
  ∀ (s : State) (last : Bool), s.CoreOk → s.TallyExact → s.CostsClear → s.blockStart ≤ s.strstart → s.sink = [] →
    ∃ (l d bl : BuiltTree) (freq : Memory 16) (maxIndex : Nat) (t : State),
      builtTree s.cfg.heapTie .litLen s.dynLfreq = some l ∧ builtTree s.cfg.heapTie .dist s.dynDfreq = some d ∧
      builtTree s.cfg.heapTie .bitLen freq = some bl ∧
      (∀ n < BL_CODES, (freq.read n).toNat =
        (blItems l.lens l.maxCode ++ blItems d.lens d.maxCode).countP fun x => decide (x.symbol = n)) ∧
      3 ≤ maxIndex ∧ maxIndex ≤ 18 ∧ bl.lens.getD (bitLengthOrder.getD maxIndex 0) 0 ≠ 0 ∧
      (∀ r, maxIndex < r → r ≤ 18 → bl.lens.getD (bitLengthOrder.getD r 0) 0 = 0) ∧
      flushBlock last s = .ok () t ∧
      let kind := chooseBlock { s with
        optLen := l.optAdd + d.optAdd + bl.optAdd + (3 * (maxIndex + 1) + 14)
        staticLen := l.staticAdd + d.staticAdd }
      let sent := s.bitStream ++ headerBits kind last ++
        match kind with
        | .stored => s.storedBits s.blockStart.toNat (s.strstart - s.blockStart).toNat
        | .static => s.codedBits staticLitLens staticLitCodes staticDistLens staticDistCodes
        | .dynamic => s.dynamicBits l d bl maxIndex
      t.bitStream = sent ++ if last = true then padBits sent.length else []
end

