-- ==== Sys2Proof/Laws/Memory.lean ====
section
/-!
SUPPORT. The laws of a memory: every operation keeps the canonical form, a read after a write gives the value
written, a write leaves every other entry alone, and a slide reads as R94 and R95 say.
-/

namespace Sys2Proof.Laws

open Sys2Proof.Machine

variable {w : Nat}

@[simp] theorem read_nil (a : Nat) : Memory.read ([] : Memory w) a = 0 := rfl

theorem read_cons (k a : Nat) (v : BitVec w) (m : Memory w) :
    Memory.read ((k, v) :: m) a = if a = k then v else Memory.read m a := rfl

@[simp] theorem wf_nil (size : Nat) : Memory.wf size ([] : Memory w) = true := rfl

theorem wfFrom_cons (lo size k : Nat) (v : BitVec w) (m : Memory w) :
    Memory.wfFrom lo size ((k, v) :: m) = true ↔
      lo ≤ k ∧ k < size ∧ v ≠ 0 ∧ Memory.wfFrom (k + 1) size m = true := by
  simp [Memory.wfFrom, and_assoc]

/-- A canonical tail is canonical from any lower start. -/
theorem wfFrom_mono {lo lo' size : Nat} {m : Memory w} (h : lo' ≤ lo) (hm : Memory.wfFrom lo size m = true) :
    Memory.wfFrom lo' size m = true := by
  cases m with
  | nil => rfl
  | cons c m =>
    obtain ⟨k, v⟩ := c
    rw [wfFrom_cons] at hm ⊢
    exact ⟨h.trans hm.1, hm.2⟩

/-- Nothing is listed below the start of a canonical memory. -/
theorem read_below {lo size a : Nat} {m : Memory w} (hm : Memory.wfFrom lo size m = true) (h : a < lo) :
    m.read a = 0 := by
  induction m generalizing lo with
  | nil => rfl
  | cons c m ih =>
    obtain ⟨k, v⟩ := c
    rw [wfFrom_cons] at hm
    rw [read_cons, if_neg (by omega)]
    exact ih hm.2.2.2 (by omega)

/-- Nothing is listed at or above the size. -/
theorem read_above {lo size a : Nat} {m : Memory w} (hm : Memory.wfFrom lo size m = true) (h : size ≤ a) :
    m.read a = 0 := by
  induction m generalizing lo with
  | nil => rfl
  | cons c m ih =>
    obtain ⟨k, v⟩ := c
    rw [wfFrom_cons] at hm
    rw [read_cons, if_neg (by omega)]
    exact ih hm.2.2.2

theorem wfFrom_write {lo size a : Nat} {m : Memory w} (v : BitVec w) (hm : Memory.wfFrom lo size m = true)
    (hlo : lo ≤ a) (ha : a < size) : Memory.wfFrom lo size (m.write a v) = true := by
  induction m generalizing lo with
  | nil =>
    simp only [Memory.write]
    split
    · rfl
    · rw [wfFrom_cons]
      exact ⟨hlo, ha, ‹_›, rfl⟩
  | cons c m ih =>
    obtain ⟨k, x⟩ := c
    have hm' := hm
    rw [wfFrom_cons] at hm
    simp only [Memory.write]
    split
    · split
      · exact hm'
      · rw [wfFrom_cons, wfFrom_cons]
        exact ⟨hlo, ha, ‹_›, by omega, hm.2⟩
    · split
      · split
        · exact wfFrom_mono (by omega) hm.2.2.2
        · rw [wfFrom_cons]
          exact ⟨hlo, ha, ‹_›, by subst_vars; exact hm.2.2.2⟩
      · rw [wfFrom_cons]
        exact ⟨hm.1, hm.2.1, hm.2.2.1, ih hm.2.2.2 (by omega)⟩

/-- A write inside the memory keeps the canonical form. -/
theorem wf_write {size a : Nat} {m : Memory w} (v : BitVec w) (hm : m.wf size = true) (ha : a < size) :
    (m.write a v).wf size = true := wfFrom_write v hm (Nat.zero_le _) ha

theorem read_write_from {lo size : Nat} {m : Memory w} (hm : Memory.wfFrom lo size m = true) (a b : Nat)
    (v : BitVec w) : (m.write a v).read b = if b = a then v else m.read b := by
  induction m generalizing lo with
  | nil =>
    simp only [Memory.write]
    split
    · subst_vars
      simp [Memory.read]
    · rfl
  | cons c m ih =>
    obtain ⟨k, x⟩ := c
    rw [wfFrom_cons] at hm
    simp only [Memory.write]
    split
    · split
      · by_cases hb : b = a
        · subst hb; subst_vars
          rw [read_cons, if_neg (by omega), read_below hm.2.2.2 (by omega), if_pos rfl]
        · rw [if_neg hb]
      · simp only [read_cons]
    · split
      · subst_vars
        split
        · by_cases hb : b = k
          · subst hb; subst_vars
            rw [read_below hm.2.2.2 (by omega), if_pos rfl]
          · rw [if_neg hb, read_cons, if_neg hb]
        · simp only [read_cons]
          split <;> rfl
      · rw [read_cons, ih hm.2.2.2, read_cons]
        by_cases hb : b = k
        · rw [if_pos hb, if_pos hb, if_neg (by omega)]
        · rw [if_neg hb, if_neg hb]

/-- A read after a write: the value written at its own index, what was there before elsewhere. -/
theorem read_write {size : Nat} {m : Memory w} (hm : m.wf size = true) (a b : Nat) (v : BitVec w) :
    (m.write a v).read b = if b = a then v else m.read b := read_write_from hm a b v

/-- Two canonical memories that read alike are equal. -/
theorem wfFrom_ext {lo size : Nat} {m n : Memory w} (hm : Memory.wfFrom lo size m = true)
    (hn : Memory.wfFrom lo size n = true) (h : ∀ a, m.read a = n.read a) : m = n := by
  induction m generalizing lo n with
  | nil =>
    cases n with
    | nil => rfl
    | cons c n =>
      obtain ⟨k, v⟩ := c
      rw [wfFrom_cons] at hn
      have := h k
      simp [read_cons] at this
      exact absurd this.symm hn.2.2.1
  | cons c m ih =>
    obtain ⟨k, v⟩ := c
    rw [wfFrom_cons] at hm
    cases n with
    | nil =>
      have := h k
      simp [read_cons] at this
      exact absurd this hm.2.2.1
    | cons d n =>
      obtain ⟨j, u⟩ := d
      rw [wfFrom_cons] at hn
      have hkj : k = j := by
        rcases Nat.lt_trichotomy k j with hlt | heq | hlt
        · have := h k
          rw [read_cons, if_pos rfl, read_cons, if_neg (by omega), read_below hn.2.2.2 (by omega)] at this
          exact absurd this hm.2.2.1
        · exact heq
        · have := h j
          rw [read_cons, if_neg (by omega), read_below hm.2.2.2 (by omega), read_cons, if_pos rfl] at this
          exact absurd this.symm hn.2.2.1
      subst hkj
      have hv : v = u := by simpa [read_cons] using h k
      subst hv
      congr 1
      refine ih hm.2.2.2 hn.2.2.2 fun a => ?_
      by_cases ha : a = k
      · subst ha
        rw [read_below hm.2.2.2 (by omega), read_below hn.2.2.2 (by omega)]
      · simpa [read_cons, ha] using h a

/-- The canonical form is canonical: equal contents are equal data. -/
theorem wf_ext {size : Nat} {m n : Memory w} (hm : m.wf size = true) (hn : n.wf size = true)
    (h : ∀ a, m.read a = n.read a) : m = n := wfFrom_ext hm hn h

/-! ### Membership -/

theorem read_of_mem {lo size : Nat} {m : Memory w} (hm : Memory.wfFrom lo size m = true) {c : Nat × BitVec w}
    (hc : c ∈ m) : m.read c.1 = c.2 ∧ lo ≤ c.1 ∧ c.1 < size ∧ c.2 ≠ 0 := by
  induction m generalizing lo with
  | nil => cases hc
  | cons d m ih =>
    obtain ⟨k, v⟩ := d
    rw [wfFrom_cons] at hm
    rcases List.mem_cons.mp hc with rfl | hc
    · exact ⟨by simp [read_cons], hm.1, hm.2.1, hm.2.2.1⟩
    · obtain ⟨h1, h2, h3, h4⟩ := ih hm.2.2.2 hc
      exact ⟨by rw [read_cons, if_neg (by omega), h1], by omega, h3, h4⟩

theorem mem_of_read_ne {m : Memory w} {a : Nat} (h : m.read a ≠ 0) : (a, m.read a) ∈ m := by
  induction m with
  | nil => exact absurd rfl h
  | cons c m ih =>
    obtain ⟨k, v⟩ := c
    by_cases hk : a = k
    · subst hk; simp [read_cons]
    · rw [read_cons, if_neg hk] at h ⊢
      exact List.mem_cons_of_mem _ (ih h)

/-- An entry of a written memory is the written one or an old one. -/
theorem mem_write {m : Memory w} {a : Nat} {v : BitVec w} {c : Nat × BitVec w} (h : c ∈ m.write a v) :
    c = (a, v) ∨ c ∈ m := by
  induction m with
  | nil =>
    simp only [Memory.write] at h
    split at h
    · cases h
    · exact .inl (by simpa using h)
  | cons d m ih =>
    obtain ⟨k, x⟩ := d
    simp only [Memory.write] at h
    split at h
    · split at h
      · exact .inr h
      · rcases List.mem_cons.mp h with h | h
        · exact .inl h
        · exact .inr h
    · split at h
      · split at h
        · exact .inr (List.mem_cons_of_mem _ h)
        · rcases List.mem_cons.mp h with h | h
          · exact .inl h
          · exact .inr (List.mem_cons_of_mem _ h)
      · rcases List.mem_cons.mp h with h | h
        · exact .inr (h ▸ List.mem_cons_self)
        · rcases ih h with h | h
          · exact .inl h
          · exact .inr (List.mem_cons_of_mem _ h)

/-- A bound on the listed values bounds every value read. -/
theorem read_le_of_forall {m : Memory w} {n : Nat} (h : ∀ c ∈ m, c.2.toNat < n) (a : Nat) :
    m.read a = 0 ∨ (m.read a).toNat < n := by
  by_cases h0 : m.read a = 0
  · exact .inl h0
  · exact .inr (h _ (mem_of_read_ne h0))

/-! ### The slide -/

theorem rebasePosition_toNat (v : Half) :
    (rebasePosition v).toNat = if W ≤ v.toNat then v.toNat - W else 0 := by
  unfold rebasePosition
  split
  · rw [BitVec.toNat_sub_of_le (by simpa [BitVec.le_def, W] using ‹W ≤ v.toNat›)]
    simp [W]
  · rfl

@[simp] theorem rebasePosition_zero : rebasePosition 0 = 0 := by decide

/-- Rebasing keeps the canonical form (R95). -/
theorem wf_rebase {lo size : Nat} {m : Memory 16} (hm : Memory.wfFrom lo size m = true) :
    Memory.wfFrom lo size m.rebase = true := by
  induction m generalizing lo with
  | nil => rfl
  | cons c m ih =>
    obtain ⟨k, v⟩ := c
    rw [wfFrom_cons] at hm
    simp only [Memory.rebase, List.filterMap_cons]
    split
    · rename_i h
      exact wfFrom_mono (by omega) (ih hm.2.2.2)
    · rename_i d h
      split at h
      · cases h
      · cases h
        rw [wfFrom_cons]
        exact ⟨hm.1, hm.2.1, ‹_›, ih hm.2.2.2⟩

/-- A rebased table reads as R95 says. -/
theorem read_rebase {lo size : Nat} {m : Memory 16} (hm : Memory.wfFrom lo size m = true) (a : Nat) :
    m.rebase.read a = rebasePosition (m.read a) := by
  induction m generalizing lo with
  | nil => exact rebasePosition_zero.symm
  | cons c m ih =>
    obtain ⟨k, v⟩ := c
    rw [wfFrom_cons] at hm
    have ih := ih hm.2.2.2
    simp only [Memory.rebase, List.filterMap_cons] at ih ⊢
    by_cases hz : rebasePosition v = 0
    · simp only [hz, if_true]
      rw [ih, read_cons]
      split
      · subst_vars
        rw [read_below hm.2.2.2 (by omega), hz, rebasePosition_zero]
      · rfl
    · simp only [hz, if_false, read_cons]
      split
      · rfl
      · exact ih

/-- A listed value after the rebase comes from one at or above `W`. -/
theorem mem_rebase {m : Memory 16} {c : Nat × Half} (h : c ∈ m.rebase) :
    ∃ d ∈ m, d.1 = c.1 ∧ W ≤ d.2.toNat ∧ c.2.toNat = d.2.toNat - W := by
  simp only [Memory.rebase, List.mem_filterMap] at h
  obtain ⟨d, hd, h⟩ := h
  split at h
  · cases h
  · cases h
    refine ⟨d, hd, rfl, ?_⟩
    have := rebasePosition_toNat d.2
    by_cases hw : W ≤ d.2.toNat
    · exact ⟨hw, by rw [this, if_pos hw]⟩
    · rename_i hz
      exact absurd (by unfold rebasePosition; rw [if_neg hw]; rfl) hz

theorem wfFrom_upper {lo size : Nat} {m : Memory w} (hm : Memory.wfFrom lo size m = true) :
    Memory.wfFrom (max lo W) size m.upper = true := by
  induction m generalizing lo with
  | nil => rfl
  | cons c m ih =>
    obtain ⟨k, v⟩ := c
    rw [wfFrom_cons] at hm
    have := ih hm.2.2.2
    simp only [Memory.upper, List.filter_cons] at this ⊢
    split
    · rename_i h
      simp only [decide_eq_true_eq] at h
      rw [wfFrom_cons]
      exact ⟨by omega, hm.2.1, hm.2.2.1, wfFrom_mono (by omega) this⟩
    · exact wfFrom_mono (by omega) this

theorem wfFrom_shift {lo size : Nat} {m : Memory w} (hm : Memory.wfFrom (lo + W) (size + W) m = true) :
    Memory.wfFrom lo size (m.map fun c => (c.1 - W, c.2)) = true := by
  induction m generalizing lo with
  | nil => rfl
  | cons c m ih =>
    obtain ⟨k, v⟩ := c
    rw [wfFrom_cons] at hm
    simp only [List.map_cons]
    rw [wfFrom_cons]
    refine ⟨by omega, by omega, hm.2.2.1, ih ?_⟩
    have : k - W + 1 + W = k + 1 := by omega
    rw [this]
    exact hm.2.2.2

theorem wfFrom_append {lo mid size : Nat} {m n : Memory w} (hm : Memory.wfFrom lo mid m = true)
    (hn : Memory.wfFrom mid size n = true) (hlo : lo ≤ mid) (hs : mid ≤ size) :
    Memory.wfFrom lo size (m ++ n) = true := by
  induction m generalizing lo with
  | nil => exact wfFrom_mono hlo hn
  | cons c m ih =>
    obtain ⟨k, v⟩ := c
    rw [wfFrom_cons] at hm
    rw [List.cons_append, wfFrom_cons]
    exact ⟨hm.1, by omega, hm.2.2.1, ih hm.2.2.2 (by omega)⟩

/-- Compaction keeps the canonical form of the window (R94). -/
theorem wf_compact {m : Memory w} (hm : m.wf WIN = true) : m.compact.wf WIN = true := by
  have h : Memory.wfFrom (max 0 W) WIN m.upper = true := wfFrom_upper hm
  have h : Memory.wfFrom W WIN m.upper = true := h
  exact wfFrom_append (mid := W) (wfFrom_shift h) h (by decide) (by decide)

theorem read_append {lo mid size : Nat} {m n : Memory w} (hm : Memory.wfFrom lo mid m = true)
    (hn : Memory.wfFrom mid size n = true) (a : Nat) :
    Memory.read (m ++ n) a = if a < mid then m.read a else n.read a := by
  induction m generalizing lo with
  | nil =>
    split
    · exact read_below hn ‹_›
    · rfl
  | cons c m ih =>
    obtain ⟨k, v⟩ := c
    rw [wfFrom_cons] at hm
    rw [List.cons_append, read_cons, ih hm.2.2.2, read_cons]
    by_cases ha : a = k
    · rw [if_pos ha, if_pos ha, if_pos (by omega)]
    · rw [if_neg ha, if_neg ha]

theorem read_upper (m : Memory w) (a : Nat) : m.upper.read a = if W ≤ a then m.read a else 0 := by
  induction m with
  | nil => simp [Memory.upper]
  | cons c m ih =>
    obtain ⟨k, v⟩ := c
    simp only [Memory.upper, List.filter_cons] at ih ⊢
    by_cases hk : W ≤ k
    · simp only [hk, decide_true, if_true, read_cons]
      by_cases ha : a = k
      · subst ha; simp [hk]
      · simp only [ha, if_false]; exact ih
    · simp only [hk, decide_false, Bool.false_eq_true, if_false, read_cons]
      rw [ih]
      by_cases ha : a = k
      · subst ha; simp [hk]
      · simp [ha]

theorem read_shift {lo size : Nat} {m : Memory w} (hm : Memory.wfFrom (lo + W) size m = true) (a : Nat) :
    Memory.read (m.map fun c => (c.1 - W, c.2)) a = m.read (a + W) := by
  induction m generalizing lo with
  | nil => rfl
  | cons c m ih =>
    obtain ⟨k, v⟩ := c
    rw [wfFrom_cons] at hm
    rw [List.map_cons, read_cons, read_cons]
    have : k + 1 = (k - W + 1) + W := by omega
    rw [ih (this ▸ hm.2.2.2)]
    by_cases ha : a + W = k
    · rw [if_pos (by omega), if_pos ha]
    · rw [if_neg (by omega), if_neg ha]

/-- The compacted window reads as R94 says: `window[i]` is the old `window[i + W]` for `i < W`, and the upper half is
as it was. -/
theorem read_compact {m : Memory w} (hm : m.wf WIN = true) (a : Nat) :
    m.compact.read a = if a < W then m.read (a + W) else m.read a := by
  have h : Memory.wfFrom (max 0 W) WIN m.upper = true := wfFrom_upper hm
  have h : Memory.wfFrom (0 + W) (W + W) m.upper = true := h
  unfold Memory.compact
  rw [read_append (mid := W) (wfFrom_shift h) (by simpa using h)]
  split
  · rw [read_shift h, read_upper, if_pos (by omega)]
  · rw [read_upper, if_pos (by omega)]

end Sys2Proof.Laws
end

