-- ==== Sys2Proof/Laws/State.lean ====
section
/-!
SUPPORT. One lemma for each field of each named update of the state, so that no proof unfolds an update.
-/

namespace Sys2Proof.Laws

open Sys2Proof.Machine

variable (s : State)

/-! ### `State.raiseError` -/

@[simp] theorem raiseError_cfg (e : ResultCode) : (s.raiseError e).cfg = s.cfg := rfl
@[simp] theorem raiseError_phase (e : ResultCode) : (s.raiseError e).phase = s.phase := rfl
@[simp] theorem raiseError_failed (e : ResultCode) : (s.raiseError e).failed = (s.failed || e.setsFailed) := rfl
@[simp] theorem raiseError_framing (e : ResultCode) : (s.raiseError e).framing = s.framing := rfl
@[simp] theorem raiseError_result (e : ResultCode) : (s.raiseError e).result = e := rfl
@[simp] theorem raiseError_strstart (e : ResultCode) : (s.raiseError e).strstart = s.strstart := rfl
@[simp] theorem raiseError_lookahead (e : ResultCode) : (s.raiseError e).lookahead = s.lookahead := rfl
@[simp] theorem raiseError_blockStart (e : ResultCode) : (s.raiseError e).blockStart = s.blockStart := rfl
@[simp] theorem raiseError_matchLength (e : ResultCode) : (s.raiseError e).matchLength = s.matchLength := rfl
@[simp] theorem raiseError_prevLength (e : ResultCode) : (s.raiseError e).prevLength = s.prevLength := rfl
@[simp] theorem raiseError_matchStart (e : ResultCode) : (s.raiseError e).matchStart = s.matchStart := rfl
@[simp] theorem raiseError_prevMatch (e : ResultCode) : (s.raiseError e).prevMatch = s.prevMatch := rfl
@[simp] theorem raiseError_matchAvailable (e : ResultCode) : (s.raiseError e).matchAvailable = s.matchAvailable := rfl
@[simp] theorem raiseError_insH (e : ResultCode) : (s.raiseError e).insH = s.insH := rfl
@[simp] theorem raiseError_biBuf (e : ResultCode) : (s.raiseError e).biBuf = s.biBuf := rfl
@[simp] theorem raiseError_biValid (e : ResultCode) : (s.raiseError e).biValid = s.biValid := rfl
@[simp] theorem raiseError_adlerA (e : ResultCode) : (s.raiseError e).adlerA = s.adlerA := rfl
@[simp] theorem raiseError_adlerB (e : ResultCode) : (s.raiseError e).adlerB = s.adlerB := rfl
@[simp] theorem raiseError_lastLit (e : ResultCode) : (s.raiseError e).lastLit = s.lastLit := rfl
@[simp] theorem raiseError_tokDist (e : ResultCode) : (s.raiseError e).tokDist = s.tokDist := rfl
@[simp] theorem raiseError_tokLc (e : ResultCode) : (s.raiseError e).tokLc = s.tokLc := rfl
@[simp] theorem raiseError_dynLfreq (e : ResultCode) : (s.raiseError e).dynLfreq = s.dynLfreq := rfl
@[simp] theorem raiseError_dynDfreq (e : ResultCode) : (s.raiseError e).dynDfreq = s.dynDfreq := rfl
@[simp] theorem raiseError_blFreq (e : ResultCode) : (s.raiseError e).blFreq = s.blFreq := rfl
@[simp] theorem raiseError_optLen (e : ResultCode) : (s.raiseError e).optLen = s.optLen := rfl
@[simp] theorem raiseError_staticLen (e : ResultCode) : (s.raiseError e).staticLen = s.staticLen := rfl
@[simp] theorem raiseError_window (e : ResultCode) : (s.raiseError e).window = s.window := rfl
@[simp] theorem raiseError_head (e : ResultCode) : (s.raiseError e).head = s.head := rfl
@[simp] theorem raiseError_prev (e : ResultCode) : (s.raiseError e).prev = s.prev := rfl
@[simp] theorem raiseError_payload (e : ResultCode) : (s.raiseError e).payload = s.payload := rfl
@[simp] theorem raiseError_feed (e : ResultCode) : (s.raiseError e).feed = s.feed := rfl
@[simp] theorem raiseError_inputs (e : ResultCode) : (s.raiseError e).inputs = s.inputs := rfl
@[simp] theorem raiseError_sink (e : ResultCode) : (s.raiseError e).sink = s.sink := rfl
@[simp] theorem raiseError_out (e : ResultCode) : (s.raiseError e).out = s.out := rfl
@[simp] theorem raiseError_response (e : ResultCode) : (s.raiseError e).response = s.response := rfl

/-! ### `State.complete` -/

@[simp] theorem complete_cfg (b : List Byte) (c : ResultCode) : (s.complete b c).cfg = s.cfg := rfl
@[simp] theorem complete_phase (b : List Byte) (c : ResultCode) : (s.complete b c).phase = s.phase := rfl
@[simp] theorem complete_failed (b : List Byte) (c : ResultCode) : (s.complete b c).failed = s.failed := rfl
@[simp] theorem complete_framing (b : List Byte) (c : ResultCode) : (s.complete b c).framing = s.framing := rfl
@[simp] theorem complete_result (b : List Byte) (c : ResultCode) : (s.complete b c).result = c := rfl
@[simp] theorem complete_strstart (b : List Byte) (c : ResultCode) : (s.complete b c).strstart = s.strstart := rfl
@[simp] theorem complete_lookahead (b : List Byte) (c : ResultCode) : (s.complete b c).lookahead = s.lookahead := rfl
@[simp] theorem complete_blockStart (b : List Byte) (c : ResultCode) : (s.complete b c).blockStart = s.blockStart := rfl
@[simp] theorem complete_matchLength (b : List Byte) (c : ResultCode) : (s.complete b c).matchLength = s.matchLength := rfl
@[simp] theorem complete_prevLength (b : List Byte) (c : ResultCode) : (s.complete b c).prevLength = s.prevLength := rfl
@[simp] theorem complete_matchStart (b : List Byte) (c : ResultCode) : (s.complete b c).matchStart = s.matchStart := rfl
@[simp] theorem complete_prevMatch (b : List Byte) (c : ResultCode) : (s.complete b c).prevMatch = s.prevMatch := rfl
@[simp] theorem complete_matchAvailable (b : List Byte) (c : ResultCode) : (s.complete b c).matchAvailable = s.matchAvailable := rfl
@[simp] theorem complete_insH (b : List Byte) (c : ResultCode) : (s.complete b c).insH = s.insH := rfl
@[simp] theorem complete_biBuf (b : List Byte) (c : ResultCode) : (s.complete b c).biBuf = s.biBuf := rfl
@[simp] theorem complete_biValid (b : List Byte) (c : ResultCode) : (s.complete b c).biValid = s.biValid := rfl
@[simp] theorem complete_adlerA (b : List Byte) (c : ResultCode) : (s.complete b c).adlerA = s.adlerA := rfl
@[simp] theorem complete_adlerB (b : List Byte) (c : ResultCode) : (s.complete b c).adlerB = s.adlerB := rfl
@[simp] theorem complete_lastLit (b : List Byte) (c : ResultCode) : (s.complete b c).lastLit = s.lastLit := rfl
@[simp] theorem complete_tokDist (b : List Byte) (c : ResultCode) : (s.complete b c).tokDist = s.tokDist := rfl
@[simp] theorem complete_tokLc (b : List Byte) (c : ResultCode) : (s.complete b c).tokLc = s.tokLc := rfl
@[simp] theorem complete_dynLfreq (b : List Byte) (c : ResultCode) : (s.complete b c).dynLfreq = s.dynLfreq := rfl
@[simp] theorem complete_dynDfreq (b : List Byte) (c : ResultCode) : (s.complete b c).dynDfreq = s.dynDfreq := rfl
@[simp] theorem complete_blFreq (b : List Byte) (c : ResultCode) : (s.complete b c).blFreq = s.blFreq := rfl
@[simp] theorem complete_optLen (b : List Byte) (c : ResultCode) : (s.complete b c).optLen = s.optLen := rfl
@[simp] theorem complete_staticLen (b : List Byte) (c : ResultCode) : (s.complete b c).staticLen = s.staticLen := rfl
@[simp] theorem complete_window (b : List Byte) (c : ResultCode) : (s.complete b c).window = s.window := rfl
@[simp] theorem complete_head (b : List Byte) (c : ResultCode) : (s.complete b c).head = s.head := rfl
@[simp] theorem complete_prev (b : List Byte) (c : ResultCode) : (s.complete b c).prev = s.prev := rfl
@[simp] theorem complete_payload (b : List Byte) (c : ResultCode) : (s.complete b c).payload = [] := rfl
@[simp] theorem complete_feed (b : List Byte) (c : ResultCode) : (s.complete b c).feed = [] := rfl
@[simp] theorem complete_inputs (b : List Byte) (c : ResultCode) : (s.complete b c).inputs = s.inputs := rfl
@[simp] theorem complete_sink (b : List Byte) (c : ResultCode) : (s.complete b c).sink = s.sink := rfl
@[simp] theorem complete_out (b : List Byte) (c : ResultCode) : (s.complete b c).out = s.out := rfl
@[simp] theorem complete_response (b : List Byte) (c : ResultCode) : (s.complete b c).response = some ⟨c, none, s.out.drop b.length⟩ := rfl

/-! ### `State.slid` -/

@[simp] theorem slid_cfg : (s.slid).cfg = s.cfg := rfl
@[simp] theorem slid_phase : (s.slid).phase = s.phase := rfl
@[simp] theorem slid_failed : (s.slid).failed = s.failed := rfl
@[simp] theorem slid_framing : (s.slid).framing = s.framing := rfl
@[simp] theorem slid_result : (s.slid).result = s.result := rfl
@[simp] theorem slid_strstart : (s.slid).strstart = ((s.strstart : Int) - W).toNat := rfl
@[simp] theorem slid_lookahead : (s.slid).lookahead = s.lookahead := rfl
@[simp] theorem slid_blockStart : (s.slid).blockStart = s.blockStart - W := rfl
@[simp] theorem slid_matchLength : (s.slid).matchLength = s.matchLength := rfl
@[simp] theorem slid_prevLength : (s.slid).prevLength = s.prevLength := rfl
@[simp] theorem slid_matchStart : (s.slid).matchStart = s.matchStart - W := rfl
@[simp] theorem slid_prevMatch : (s.slid).prevMatch = s.prevMatch := rfl
@[simp] theorem slid_matchAvailable : (s.slid).matchAvailable = s.matchAvailable := rfl
@[simp] theorem slid_insH : (s.slid).insH = s.insH := rfl
@[simp] theorem slid_biBuf : (s.slid).biBuf = s.biBuf := rfl
@[simp] theorem slid_biValid : (s.slid).biValid = s.biValid := rfl
@[simp] theorem slid_adlerA : (s.slid).adlerA = s.adlerA := rfl
@[simp] theorem slid_adlerB : (s.slid).adlerB = s.adlerB := rfl
@[simp] theorem slid_lastLit : (s.slid).lastLit = s.lastLit := rfl
@[simp] theorem slid_tokDist : (s.slid).tokDist = s.tokDist := rfl
@[simp] theorem slid_tokLc : (s.slid).tokLc = s.tokLc := rfl
@[simp] theorem slid_dynLfreq : (s.slid).dynLfreq = s.dynLfreq := rfl
@[simp] theorem slid_dynDfreq : (s.slid).dynDfreq = s.dynDfreq := rfl
@[simp] theorem slid_blFreq : (s.slid).blFreq = s.blFreq := rfl
@[simp] theorem slid_optLen : (s.slid).optLen = s.optLen := rfl
@[simp] theorem slid_staticLen : (s.slid).staticLen = s.staticLen := rfl
@[simp] theorem slid_window : (s.slid).window = s.window.compact := rfl
@[simp] theorem slid_head : (s.slid).head = s.head.rebase := rfl
@[simp] theorem slid_prev : (s.slid).prev = s.prev.rebase := rfl
@[simp] theorem slid_payload : (s.slid).payload = s.payload := rfl
@[simp] theorem slid_feed : (s.slid).feed = s.feed := rfl
@[simp] theorem slid_inputs : (s.slid).inputs = s.inputs := rfl
@[simp] theorem slid_sink : (s.slid).sink = s.sink := rfl
@[simp] theorem slid_out : (s.slid).out = s.out := rfl
@[simp] theorem slid_response : (s.slid).response = s.response := rfl

/-! ### `State.inserted` -/

@[simp] theorem inserted_cfg (p : Nat) (h : BitVec 15) : (s.inserted p h).cfg = s.cfg := rfl
@[simp] theorem inserted_phase (p : Nat) (h : BitVec 15) : (s.inserted p h).phase = s.phase := rfl
@[simp] theorem inserted_failed (p : Nat) (h : BitVec 15) : (s.inserted p h).failed = s.failed := rfl
@[simp] theorem inserted_framing (p : Nat) (h : BitVec 15) : (s.inserted p h).framing = s.framing := rfl
@[simp] theorem inserted_result (p : Nat) (h : BitVec 15) : (s.inserted p h).result = s.result := rfl
@[simp] theorem inserted_strstart (p : Nat) (h : BitVec 15) : (s.inserted p h).strstart = s.strstart := rfl
@[simp] theorem inserted_lookahead (p : Nat) (h : BitVec 15) : (s.inserted p h).lookahead = s.lookahead := rfl
@[simp] theorem inserted_blockStart (p : Nat) (h : BitVec 15) : (s.inserted p h).blockStart = s.blockStart := rfl
@[simp] theorem inserted_matchLength (p : Nat) (h : BitVec 15) : (s.inserted p h).matchLength = s.matchLength := rfl
@[simp] theorem inserted_prevLength (p : Nat) (h : BitVec 15) : (s.inserted p h).prevLength = s.prevLength := rfl
@[simp] theorem inserted_matchStart (p : Nat) (h : BitVec 15) : (s.inserted p h).matchStart = s.matchStart := rfl
@[simp] theorem inserted_prevMatch (p : Nat) (h : BitVec 15) : (s.inserted p h).prevMatch = s.prevMatch := rfl
@[simp] theorem inserted_matchAvailable (p : Nat) (h : BitVec 15) : (s.inserted p h).matchAvailable = s.matchAvailable := rfl
@[simp] theorem inserted_insH (p : Nat) (h : BitVec 15) : (s.inserted p h).insH = h := rfl
@[simp] theorem inserted_biBuf (p : Nat) (h : BitVec 15) : (s.inserted p h).biBuf = s.biBuf := rfl
@[simp] theorem inserted_biValid (p : Nat) (h : BitVec 15) : (s.inserted p h).biValid = s.biValid := rfl
@[simp] theorem inserted_adlerA (p : Nat) (h : BitVec 15) : (s.inserted p h).adlerA = s.adlerA := rfl
@[simp] theorem inserted_adlerB (p : Nat) (h : BitVec 15) : (s.inserted p h).adlerB = s.adlerB := rfl
@[simp] theorem inserted_lastLit (p : Nat) (h : BitVec 15) : (s.inserted p h).lastLit = s.lastLit := rfl
@[simp] theorem inserted_tokDist (p : Nat) (h : BitVec 15) : (s.inserted p h).tokDist = s.tokDist := rfl
@[simp] theorem inserted_tokLc (p : Nat) (h : BitVec 15) : (s.inserted p h).tokLc = s.tokLc := rfl
@[simp] theorem inserted_dynLfreq (p : Nat) (h : BitVec 15) : (s.inserted p h).dynLfreq = s.dynLfreq := rfl
@[simp] theorem inserted_dynDfreq (p : Nat) (h : BitVec 15) : (s.inserted p h).dynDfreq = s.dynDfreq := rfl
@[simp] theorem inserted_blFreq (p : Nat) (h : BitVec 15) : (s.inserted p h).blFreq = s.blFreq := rfl
@[simp] theorem inserted_optLen (p : Nat) (h : BitVec 15) : (s.inserted p h).optLen = s.optLen := rfl
@[simp] theorem inserted_staticLen (p : Nat) (h : BitVec 15) : (s.inserted p h).staticLen = s.staticLen := rfl
@[simp] theorem inserted_window (p : Nat) (h : BitVec 15) : (s.inserted p h).window = s.window := rfl
@[simp] theorem inserted_head (p : Nat) (h : BitVec 15) : (s.inserted p h).head = s.head.write h.toNat (BitVec.ofNat 16 p) := rfl
@[simp] theorem inserted_prev (p : Nat) (h : BitVec 15) : (s.inserted p h).prev = s.prev.write (prevIndex p) (s.head.read h.toNat) := rfl
@[simp] theorem inserted_payload (p : Nat) (h : BitVec 15) : (s.inserted p h).payload = s.payload := rfl
@[simp] theorem inserted_feed (p : Nat) (h : BitVec 15) : (s.inserted p h).feed = s.feed := rfl
@[simp] theorem inserted_inputs (p : Nat) (h : BitVec 15) : (s.inserted p h).inputs = s.inputs := rfl
@[simp] theorem inserted_sink (p : Nat) (h : BitVec 15) : (s.inserted p h).sink = s.sink := rfl
@[simp] theorem inserted_out (p : Nat) (h : BitVec 15) : (s.inserted p h).out = s.out := rfl
@[simp] theorem inserted_response (p : Nat) (h : BitVec 15) : (s.inserted p h).response = s.response := rfl

/-! ### `State.pushToken` -/

@[simp] theorem pushToken_cfg (d : Half) (x : Byte) : (s.pushToken d x).cfg = s.cfg := rfl
@[simp] theorem pushToken_phase (d : Half) (x : Byte) : (s.pushToken d x).phase = s.phase := rfl
@[simp] theorem pushToken_failed (d : Half) (x : Byte) : (s.pushToken d x).failed = s.failed := rfl
@[simp] theorem pushToken_framing (d : Half) (x : Byte) : (s.pushToken d x).framing = s.framing := rfl
@[simp] theorem pushToken_result (d : Half) (x : Byte) : (s.pushToken d x).result = s.result := rfl
@[simp] theorem pushToken_strstart (d : Half) (x : Byte) : (s.pushToken d x).strstart = s.strstart := rfl
@[simp] theorem pushToken_lookahead (d : Half) (x : Byte) : (s.pushToken d x).lookahead = s.lookahead := rfl
@[simp] theorem pushToken_blockStart (d : Half) (x : Byte) : (s.pushToken d x).blockStart = s.blockStart := rfl
@[simp] theorem pushToken_matchLength (d : Half) (x : Byte) : (s.pushToken d x).matchLength = s.matchLength := rfl
@[simp] theorem pushToken_prevLength (d : Half) (x : Byte) : (s.pushToken d x).prevLength = s.prevLength := rfl
@[simp] theorem pushToken_matchStart (d : Half) (x : Byte) : (s.pushToken d x).matchStart = s.matchStart := rfl
@[simp] theorem pushToken_prevMatch (d : Half) (x : Byte) : (s.pushToken d x).prevMatch = s.prevMatch := rfl
@[simp] theorem pushToken_matchAvailable (d : Half) (x : Byte) : (s.pushToken d x).matchAvailable = s.matchAvailable := rfl
@[simp] theorem pushToken_insH (d : Half) (x : Byte) : (s.pushToken d x).insH = s.insH := rfl
@[simp] theorem pushToken_biBuf (d : Half) (x : Byte) : (s.pushToken d x).biBuf = s.biBuf := rfl
@[simp] theorem pushToken_biValid (d : Half) (x : Byte) : (s.pushToken d x).biValid = s.biValid := rfl
@[simp] theorem pushToken_adlerA (d : Half) (x : Byte) : (s.pushToken d x).adlerA = s.adlerA := rfl
@[simp] theorem pushToken_adlerB (d : Half) (x : Byte) : (s.pushToken d x).adlerB = s.adlerB := rfl
@[simp] theorem pushToken_lastLit (d : Half) (x : Byte) : (s.pushToken d x).lastLit = s.lastLit + 1 := rfl
@[simp] theorem pushToken_tokDist (d : Half) (x : Byte) : (s.pushToken d x).tokDist = s.tokDist.write s.lastLit d := rfl
@[simp] theorem pushToken_tokLc (d : Half) (x : Byte) : (s.pushToken d x).tokLc = s.tokLc.write s.lastLit x := rfl
@[simp] theorem pushToken_dynLfreq (d : Half) (x : Byte) : (s.pushToken d x).dynLfreq = s.dynLfreq := rfl
@[simp] theorem pushToken_dynDfreq (d : Half) (x : Byte) : (s.pushToken d x).dynDfreq = s.dynDfreq := rfl
@[simp] theorem pushToken_blFreq (d : Half) (x : Byte) : (s.pushToken d x).blFreq = s.blFreq := rfl
@[simp] theorem pushToken_optLen (d : Half) (x : Byte) : (s.pushToken d x).optLen = s.optLen := rfl
@[simp] theorem pushToken_staticLen (d : Half) (x : Byte) : (s.pushToken d x).staticLen = s.staticLen := rfl
@[simp] theorem pushToken_window (d : Half) (x : Byte) : (s.pushToken d x).window = s.window := rfl
@[simp] theorem pushToken_head (d : Half) (x : Byte) : (s.pushToken d x).head = s.head := rfl
@[simp] theorem pushToken_prev (d : Half) (x : Byte) : (s.pushToken d x).prev = s.prev := rfl
@[simp] theorem pushToken_payload (d : Half) (x : Byte) : (s.pushToken d x).payload = s.payload := rfl
@[simp] theorem pushToken_feed (d : Half) (x : Byte) : (s.pushToken d x).feed = s.feed := rfl
@[simp] theorem pushToken_inputs (d : Half) (x : Byte) : (s.pushToken d x).inputs = s.inputs := rfl
@[simp] theorem pushToken_sink (d : Half) (x : Byte) : (s.pushToken d x).sink = s.sink := rfl
@[simp] theorem pushToken_out (d : Half) (x : Byte) : (s.pushToken d x).out = s.out := rfl
@[simp] theorem pushToken_response (d : Half) (x : Byte) : (s.pushToken d x).response = s.response := rfl

/-! ### `State.tallyLiteral` -/

@[simp] theorem tallyLiteral_cfg (x : Byte) : (s.tallyLiteral x).cfg = s.cfg := rfl
@[simp] theorem tallyLiteral_phase (x : Byte) : (s.tallyLiteral x).phase = s.phase := rfl
@[simp] theorem tallyLiteral_failed (x : Byte) : (s.tallyLiteral x).failed = s.failed := rfl
@[simp] theorem tallyLiteral_framing (x : Byte) : (s.tallyLiteral x).framing = s.framing := rfl
@[simp] theorem tallyLiteral_result (x : Byte) : (s.tallyLiteral x).result = s.result := rfl
@[simp] theorem tallyLiteral_strstart (x : Byte) : (s.tallyLiteral x).strstart = s.strstart := rfl
@[simp] theorem tallyLiteral_lookahead (x : Byte) : (s.tallyLiteral x).lookahead = s.lookahead := rfl
@[simp] theorem tallyLiteral_blockStart (x : Byte) : (s.tallyLiteral x).blockStart = s.blockStart := rfl
@[simp] theorem tallyLiteral_matchLength (x : Byte) : (s.tallyLiteral x).matchLength = s.matchLength := rfl
@[simp] theorem tallyLiteral_prevLength (x : Byte) : (s.tallyLiteral x).prevLength = s.prevLength := rfl
@[simp] theorem tallyLiteral_matchStart (x : Byte) : (s.tallyLiteral x).matchStart = s.matchStart := rfl
@[simp] theorem tallyLiteral_prevMatch (x : Byte) : (s.tallyLiteral x).prevMatch = s.prevMatch := rfl
@[simp] theorem tallyLiteral_matchAvailable (x : Byte) : (s.tallyLiteral x).matchAvailable = s.matchAvailable := rfl
@[simp] theorem tallyLiteral_insH (x : Byte) : (s.tallyLiteral x).insH = s.insH := rfl
@[simp] theorem tallyLiteral_biBuf (x : Byte) : (s.tallyLiteral x).biBuf = s.biBuf := rfl
@[simp] theorem tallyLiteral_biValid (x : Byte) : (s.tallyLiteral x).biValid = s.biValid := rfl
@[simp] theorem tallyLiteral_adlerA (x : Byte) : (s.tallyLiteral x).adlerA = s.adlerA := rfl
@[simp] theorem tallyLiteral_adlerB (x : Byte) : (s.tallyLiteral x).adlerB = s.adlerB := rfl
@[simp] theorem tallyLiteral_lastLit (x : Byte) : (s.tallyLiteral x).lastLit = s.lastLit + 1 := rfl
@[simp] theorem tallyLiteral_tokDist (x : Byte) : (s.tallyLiteral x).tokDist = s.tokDist.write s.lastLit 0 := rfl
@[simp] theorem tallyLiteral_tokLc (x : Byte) : (s.tallyLiteral x).tokLc = s.tokLc.write s.lastLit x := rfl
@[simp] theorem tallyLiteral_dynLfreq (x : Byte) : (s.tallyLiteral x).dynLfreq = bump s.dynLfreq x.toNat := rfl
@[simp] theorem tallyLiteral_dynDfreq (x : Byte) : (s.tallyLiteral x).dynDfreq = s.dynDfreq := rfl
@[simp] theorem tallyLiteral_blFreq (x : Byte) : (s.tallyLiteral x).blFreq = s.blFreq := rfl
@[simp] theorem tallyLiteral_optLen (x : Byte) : (s.tallyLiteral x).optLen = s.optLen := rfl
@[simp] theorem tallyLiteral_staticLen (x : Byte) : (s.tallyLiteral x).staticLen = s.staticLen := rfl
@[simp] theorem tallyLiteral_window (x : Byte) : (s.tallyLiteral x).window = s.window := rfl
@[simp] theorem tallyLiteral_head (x : Byte) : (s.tallyLiteral x).head = s.head := rfl
@[simp] theorem tallyLiteral_prev (x : Byte) : (s.tallyLiteral x).prev = s.prev := rfl
@[simp] theorem tallyLiteral_payload (x : Byte) : (s.tallyLiteral x).payload = s.payload := rfl
@[simp] theorem tallyLiteral_feed (x : Byte) : (s.tallyLiteral x).feed = s.feed := rfl
@[simp] theorem tallyLiteral_inputs (x : Byte) : (s.tallyLiteral x).inputs = s.inputs := rfl
@[simp] theorem tallyLiteral_sink (x : Byte) : (s.tallyLiteral x).sink = s.sink := rfl
@[simp] theorem tallyLiteral_out (x : Byte) : (s.tallyLiteral x).out = s.out := rfl
@[simp] theorem tallyLiteral_response (x : Byte) : (s.tallyLiteral x).response = s.response := rfl

/-! ### `State.tallyDistance` -/

@[simp] theorem tallyDistance_cfg (d x : Nat) : (s.tallyDistance d x).cfg = s.cfg := rfl
@[simp] theorem tallyDistance_phase (d x : Nat) : (s.tallyDistance d x).phase = s.phase := rfl
@[simp] theorem tallyDistance_failed (d x : Nat) : (s.tallyDistance d x).failed = s.failed := rfl
@[simp] theorem tallyDistance_framing (d x : Nat) : (s.tallyDistance d x).framing = s.framing := rfl
@[simp] theorem tallyDistance_result (d x : Nat) : (s.tallyDistance d x).result = s.result := rfl
@[simp] theorem tallyDistance_strstart (d x : Nat) : (s.tallyDistance d x).strstart = s.strstart := rfl
@[simp] theorem tallyDistance_lookahead (d x : Nat) : (s.tallyDistance d x).lookahead = s.lookahead := rfl
@[simp] theorem tallyDistance_blockStart (d x : Nat) : (s.tallyDistance d x).blockStart = s.blockStart := rfl
@[simp] theorem tallyDistance_matchLength (d x : Nat) : (s.tallyDistance d x).matchLength = s.matchLength := rfl
@[simp] theorem tallyDistance_prevLength (d x : Nat) : (s.tallyDistance d x).prevLength = s.prevLength := rfl
@[simp] theorem tallyDistance_matchStart (d x : Nat) : (s.tallyDistance d x).matchStart = s.matchStart := rfl
@[simp] theorem tallyDistance_prevMatch (d x : Nat) : (s.tallyDistance d x).prevMatch = s.prevMatch := rfl
@[simp] theorem tallyDistance_matchAvailable (d x : Nat) : (s.tallyDistance d x).matchAvailable = s.matchAvailable := rfl
@[simp] theorem tallyDistance_insH (d x : Nat) : (s.tallyDistance d x).insH = s.insH := rfl
@[simp] theorem tallyDistance_biBuf (d x : Nat) : (s.tallyDistance d x).biBuf = s.biBuf := rfl
@[simp] theorem tallyDistance_biValid (d x : Nat) : (s.tallyDistance d x).biValid = s.biValid := rfl
@[simp] theorem tallyDistance_adlerA (d x : Nat) : (s.tallyDistance d x).adlerA = s.adlerA := rfl
@[simp] theorem tallyDistance_adlerB (d x : Nat) : (s.tallyDistance d x).adlerB = s.adlerB := rfl
@[simp] theorem tallyDistance_lastLit (d x : Nat) : (s.tallyDistance d x).lastLit = s.lastLit + 1 := rfl
@[simp] theorem tallyDistance_tokDist (d x : Nat) : (s.tallyDistance d x).tokDist = s.tokDist.write s.lastLit (BitVec.ofNat 16 d) := rfl
@[simp] theorem tallyDistance_tokLc (d x : Nat) : (s.tallyDistance d x).tokLc = s.tokLc.write s.lastLit (BitVec.ofNat 8 x) := rfl
@[simp] theorem tallyDistance_dynLfreq (d x : Nat) : (s.tallyDistance d x).dynLfreq = bump s.dynLfreq (lengthCode (x + MIN_MATCH)) := rfl
@[simp] theorem tallyDistance_dynDfreq (d x : Nat) : (s.tallyDistance d x).dynDfreq = bump s.dynDfreq (distCode d) := rfl
@[simp] theorem tallyDistance_blFreq (d x : Nat) : (s.tallyDistance d x).blFreq = s.blFreq := rfl
@[simp] theorem tallyDistance_optLen (d x : Nat) : (s.tallyDistance d x).optLen = s.optLen := rfl
@[simp] theorem tallyDistance_staticLen (d x : Nat) : (s.tallyDistance d x).staticLen = s.staticLen := rfl
@[simp] theorem tallyDistance_window (d x : Nat) : (s.tallyDistance d x).window = s.window := rfl
@[simp] theorem tallyDistance_head (d x : Nat) : (s.tallyDistance d x).head = s.head := rfl
@[simp] theorem tallyDistance_prev (d x : Nat) : (s.tallyDistance d x).prev = s.prev := rfl
@[simp] theorem tallyDistance_payload (d x : Nat) : (s.tallyDistance d x).payload = s.payload := rfl
@[simp] theorem tallyDistance_feed (d x : Nat) : (s.tallyDistance d x).feed = s.feed := rfl
@[simp] theorem tallyDistance_inputs (d x : Nat) : (s.tallyDistance d x).inputs = s.inputs := rfl
@[simp] theorem tallyDistance_sink (d x : Nat) : (s.tallyDistance d x).sink = s.sink := rfl
@[simp] theorem tallyDistance_out (d x : Nat) : (s.tallyDistance d x).out = s.out := rfl
@[simp] theorem tallyDistance_response (d x : Nat) : (s.tallyDistance d x).response = s.response := rfl

/-! ### `State.scanned` -/

@[simp] theorem scanned_cfg (items : List BlItem) : (s.scanned items).cfg = s.cfg := rfl
@[simp] theorem scanned_phase (items : List BlItem) : (s.scanned items).phase = s.phase := rfl
@[simp] theorem scanned_failed (items : List BlItem) : (s.scanned items).failed = s.failed := rfl
@[simp] theorem scanned_framing (items : List BlItem) : (s.scanned items).framing = s.framing := rfl
@[simp] theorem scanned_result (items : List BlItem) : (s.scanned items).result = s.result := rfl
@[simp] theorem scanned_strstart (items : List BlItem) : (s.scanned items).strstart = s.strstart := rfl
@[simp] theorem scanned_lookahead (items : List BlItem) : (s.scanned items).lookahead = s.lookahead := rfl
@[simp] theorem scanned_blockStart (items : List BlItem) : (s.scanned items).blockStart = s.blockStart := rfl
@[simp] theorem scanned_matchLength (items : List BlItem) : (s.scanned items).matchLength = s.matchLength := rfl
@[simp] theorem scanned_prevLength (items : List BlItem) : (s.scanned items).prevLength = s.prevLength := rfl
@[simp] theorem scanned_matchStart (items : List BlItem) : (s.scanned items).matchStart = s.matchStart := rfl
@[simp] theorem scanned_prevMatch (items : List BlItem) : (s.scanned items).prevMatch = s.prevMatch := rfl
@[simp] theorem scanned_matchAvailable (items : List BlItem) : (s.scanned items).matchAvailable = s.matchAvailable := rfl
@[simp] theorem scanned_insH (items : List BlItem) : (s.scanned items).insH = s.insH := rfl
@[simp] theorem scanned_biBuf (items : List BlItem) : (s.scanned items).biBuf = s.biBuf := rfl
@[simp] theorem scanned_biValid (items : List BlItem) : (s.scanned items).biValid = s.biValid := rfl
@[simp] theorem scanned_adlerA (items : List BlItem) : (s.scanned items).adlerA = s.adlerA := rfl
@[simp] theorem scanned_adlerB (items : List BlItem) : (s.scanned items).adlerB = s.adlerB := rfl
@[simp] theorem scanned_lastLit (items : List BlItem) : (s.scanned items).lastLit = s.lastLit := rfl
@[simp] theorem scanned_tokDist (items : List BlItem) : (s.scanned items).tokDist = s.tokDist := rfl
@[simp] theorem scanned_tokLc (items : List BlItem) : (s.scanned items).tokLc = s.tokLc := rfl
@[simp] theorem scanned_dynLfreq (items : List BlItem) : (s.scanned items).dynLfreq = s.dynLfreq := rfl
@[simp] theorem scanned_dynDfreq (items : List BlItem) : (s.scanned items).dynDfreq = s.dynDfreq := rfl
@[simp] theorem scanned_blFreq (items : List BlItem) : (s.scanned items).blFreq = items.foldl (fun f x => bump f x.symbol) s.blFreq := rfl
@[simp] theorem scanned_optLen (items : List BlItem) : (s.scanned items).optLen = s.optLen := rfl
@[simp] theorem scanned_staticLen (items : List BlItem) : (s.scanned items).staticLen = s.staticLen := rfl
@[simp] theorem scanned_window (items : List BlItem) : (s.scanned items).window = s.window := rfl
@[simp] theorem scanned_head (items : List BlItem) : (s.scanned items).head = s.head := rfl
@[simp] theorem scanned_prev (items : List BlItem) : (s.scanned items).prev = s.prev := rfl
@[simp] theorem scanned_payload (items : List BlItem) : (s.scanned items).payload = s.payload := rfl
@[simp] theorem scanned_feed (items : List BlItem) : (s.scanned items).feed = s.feed := rfl
@[simp] theorem scanned_inputs (items : List BlItem) : (s.scanned items).inputs = s.inputs := rfl
@[simp] theorem scanned_sink (items : List BlItem) : (s.scanned items).sink = s.sink := rfl
@[simp] theorem scanned_out (items : List BlItem) : (s.scanned items).out = s.out := rfl
@[simp] theorem scanned_response (items : List BlItem) : (s.scanned items).response = s.response := rfl

/-! ### `State.blockCleared` -/

@[simp] theorem blockCleared_cfg : (s.blockCleared).cfg = s.cfg := rfl
@[simp] theorem blockCleared_phase : (s.blockCleared).phase = s.phase := rfl
@[simp] theorem blockCleared_failed : (s.blockCleared).failed = s.failed := rfl
@[simp] theorem blockCleared_framing : (s.blockCleared).framing = s.framing := rfl
@[simp] theorem blockCleared_result : (s.blockCleared).result = s.result := rfl
@[simp] theorem blockCleared_strstart : (s.blockCleared).strstart = s.strstart := rfl
@[simp] theorem blockCleared_lookahead : (s.blockCleared).lookahead = s.lookahead := rfl
@[simp] theorem blockCleared_blockStart : (s.blockCleared).blockStart = s.blockStart := rfl
@[simp] theorem blockCleared_matchLength : (s.blockCleared).matchLength = s.matchLength := rfl
@[simp] theorem blockCleared_prevLength : (s.blockCleared).prevLength = s.prevLength := rfl
@[simp] theorem blockCleared_matchStart : (s.blockCleared).matchStart = s.matchStart := rfl
@[simp] theorem blockCleared_prevMatch : (s.blockCleared).prevMatch = s.prevMatch := rfl
@[simp] theorem blockCleared_matchAvailable : (s.blockCleared).matchAvailable = s.matchAvailable := rfl
@[simp] theorem blockCleared_insH : (s.blockCleared).insH = s.insH := rfl
@[simp] theorem blockCleared_biBuf : (s.blockCleared).biBuf = s.biBuf := rfl
@[simp] theorem blockCleared_biValid : (s.blockCleared).biValid = s.biValid := rfl
@[simp] theorem blockCleared_adlerA : (s.blockCleared).adlerA = s.adlerA := rfl
@[simp] theorem blockCleared_adlerB : (s.blockCleared).adlerB = s.adlerB := rfl
@[simp] theorem blockCleared_lastLit : (s.blockCleared).lastLit = 0 := rfl
@[simp] theorem blockCleared_tokDist : (s.blockCleared).tokDist = s.tokDist := rfl
@[simp] theorem blockCleared_tokLc : (s.blockCleared).tokLc = s.tokLc := rfl
@[simp] theorem blockCleared_dynLfreq : (s.blockCleared).dynLfreq = [(END_BLOCK, 1)] := rfl
@[simp] theorem blockCleared_dynDfreq : (s.blockCleared).dynDfreq = [] := rfl
@[simp] theorem blockCleared_blFreq : (s.blockCleared).blFreq = [] := rfl
@[simp] theorem blockCleared_optLen : (s.blockCleared).optLen = 0 := rfl
@[simp] theorem blockCleared_staticLen : (s.blockCleared).staticLen = 0 := rfl
@[simp] theorem blockCleared_window : (s.blockCleared).window = s.window := rfl
@[simp] theorem blockCleared_head : (s.blockCleared).head = s.head := rfl
@[simp] theorem blockCleared_prev : (s.blockCleared).prev = s.prev := rfl
@[simp] theorem blockCleared_payload : (s.blockCleared).payload = s.payload := rfl
@[simp] theorem blockCleared_feed : (s.blockCleared).feed = s.feed := rfl
@[simp] theorem blockCleared_inputs : (s.blockCleared).inputs = s.inputs := rfl
@[simp] theorem blockCleared_sink : (s.blockCleared).sink = s.sink := rfl
@[simp] theorem blockCleared_out : (s.blockCleared).out = s.out := rfl
@[simp] theorem blockCleared_response : (s.blockCleared).response = s.response := rfl

/-! ### `State.restarted` -/

@[simp] theorem restarted_cfg (f : Bool) : (s.restarted f).cfg = s.cfg := rfl
@[simp] theorem restarted_phase (f : Bool) : (s.restarted f).phase = .init := rfl
@[simp] theorem restarted_failed (f : Bool) : (s.restarted f).failed = false := rfl
@[simp] theorem restarted_framing (f : Bool) : (s.restarted f).framing = f := rfl
@[simp] theorem restarted_result (f : Bool) : (s.restarted f).result = .ok := rfl
@[simp] theorem restarted_strstart (f : Bool) : (s.restarted f).strstart = 0 := rfl
@[simp] theorem restarted_lookahead (f : Bool) : (s.restarted f).lookahead = 0 := rfl
@[simp] theorem restarted_blockStart (f : Bool) : (s.restarted f).blockStart = 0 := rfl
@[simp] theorem restarted_matchLength (f : Bool) : (s.restarted f).matchLength = 2 := rfl
@[simp] theorem restarted_prevLength (f : Bool) : (s.restarted f).prevLength = 2 := rfl
@[simp] theorem restarted_matchStart (f : Bool) : (s.restarted f).matchStart = 0 := rfl
@[simp] theorem restarted_prevMatch (f : Bool) : (s.restarted f).prevMatch = 0 := rfl
@[simp] theorem restarted_matchAvailable (f : Bool) : (s.restarted f).matchAvailable = false := rfl
@[simp] theorem restarted_insH (f : Bool) : (s.restarted f).insH = 0 := rfl
@[simp] theorem restarted_biBuf (f : Bool) : (s.restarted f).biBuf = 0 := rfl
@[simp] theorem restarted_biValid (f : Bool) : (s.restarted f).biValid = 0 := rfl
@[simp] theorem restarted_adlerA (f : Bool) : (s.restarted f).adlerA = 1 := rfl
@[simp] theorem restarted_adlerB (f : Bool) : (s.restarted f).adlerB = 0 := rfl
@[simp] theorem restarted_lastLit (f : Bool) : (s.restarted f).lastLit = 0 := rfl
@[simp] theorem restarted_tokDist (f : Bool) : (s.restarted f).tokDist = [] := rfl
@[simp] theorem restarted_tokLc (f : Bool) : (s.restarted f).tokLc = [] := rfl
@[simp] theorem restarted_dynLfreq (f : Bool) : (s.restarted f).dynLfreq = [(256, 1)] := rfl
@[simp] theorem restarted_dynDfreq (f : Bool) : (s.restarted f).dynDfreq = [] := rfl
@[simp] theorem restarted_blFreq (f : Bool) : (s.restarted f).blFreq = [] := rfl
@[simp] theorem restarted_optLen (f : Bool) : (s.restarted f).optLen = 0 := rfl
@[simp] theorem restarted_staticLen (f : Bool) : (s.restarted f).staticLen = 0 := rfl
@[simp] theorem restarted_window (f : Bool) : (s.restarted f).window = [] := rfl
@[simp] theorem restarted_head (f : Bool) : (s.restarted f).head = [] := rfl
@[simp] theorem restarted_prev (f : Bool) : (s.restarted f).prev = [] := rfl
@[simp] theorem restarted_payload (f : Bool) : (s.restarted f).payload = s.payload := rfl
@[simp] theorem restarted_feed (f : Bool) : (s.restarted f).feed = [] := rfl
@[simp] theorem restarted_inputs (f : Bool) : (s.restarted f).inputs = s.inputs := rfl
@[simp] theorem restarted_sink (f : Bool) : (s.restarted f).sink = s.sink := rfl
@[simp] theorem restarted_out (f : Bool) : (s.restarted f).out = s.out := rfl
@[simp] theorem restarted_response (f : Bool) : (s.restarted f).response = s.response := rfl

/-! ### `State.hardwareReset` -/

@[simp] theorem hardwareReset_cfg : (s.hardwareReset).cfg = s.cfg := rfl
@[simp] theorem hardwareReset_phase : (s.hardwareReset).phase = .init := rfl
@[simp] theorem hardwareReset_failed : (s.hardwareReset).failed = false := rfl
@[simp] theorem hardwareReset_framing : (s.hardwareReset).framing = s.cfg.resetFraming := rfl
@[simp] theorem hardwareReset_result : (s.hardwareReset).result = .ok := rfl
@[simp] theorem hardwareReset_strstart : (s.hardwareReset).strstart = 0 := rfl
@[simp] theorem hardwareReset_lookahead : (s.hardwareReset).lookahead = 0 := rfl
@[simp] theorem hardwareReset_blockStart : (s.hardwareReset).blockStart = 0 := rfl
@[simp] theorem hardwareReset_matchLength : (s.hardwareReset).matchLength = 2 := rfl
@[simp] theorem hardwareReset_prevLength : (s.hardwareReset).prevLength = 2 := rfl
@[simp] theorem hardwareReset_matchStart : (s.hardwareReset).matchStart = 0 := rfl
@[simp] theorem hardwareReset_prevMatch : (s.hardwareReset).prevMatch = 0 := rfl
@[simp] theorem hardwareReset_matchAvailable : (s.hardwareReset).matchAvailable = false := rfl
@[simp] theorem hardwareReset_insH : (s.hardwareReset).insH = 0 := rfl
@[simp] theorem hardwareReset_biBuf : (s.hardwareReset).biBuf = 0 := rfl
@[simp] theorem hardwareReset_biValid : (s.hardwareReset).biValid = 0 := rfl
@[simp] theorem hardwareReset_adlerA : (s.hardwareReset).adlerA = 1 := rfl
@[simp] theorem hardwareReset_adlerB : (s.hardwareReset).adlerB = 0 := rfl
@[simp] theorem hardwareReset_lastLit : (s.hardwareReset).lastLit = 0 := rfl
@[simp] theorem hardwareReset_tokDist : (s.hardwareReset).tokDist = [] := rfl
@[simp] theorem hardwareReset_tokLc : (s.hardwareReset).tokLc = [] := rfl
@[simp] theorem hardwareReset_dynLfreq : (s.hardwareReset).dynLfreq = [(256, 1)] := rfl
@[simp] theorem hardwareReset_dynDfreq : (s.hardwareReset).dynDfreq = [] := rfl
@[simp] theorem hardwareReset_blFreq : (s.hardwareReset).blFreq = [] := rfl
@[simp] theorem hardwareReset_optLen : (s.hardwareReset).optLen = 0 := rfl
@[simp] theorem hardwareReset_staticLen : (s.hardwareReset).staticLen = 0 := rfl
@[simp] theorem hardwareReset_window : (s.hardwareReset).window = [] := rfl
@[simp] theorem hardwareReset_head : (s.hardwareReset).head = [] := rfl
@[simp] theorem hardwareReset_prev : (s.hardwareReset).prev = [] := rfl
@[simp] theorem hardwareReset_payload : (s.hardwareReset).payload = [] := rfl
@[simp] theorem hardwareReset_feed : (s.hardwareReset).feed = [] := rfl
@[simp] theorem hardwareReset_inputs : (s.hardwareReset).inputs = s.inputs := rfl
@[simp] theorem hardwareReset_sink : (s.hardwareReset).sink = s.sink := rfl
@[simp] theorem hardwareReset_out : (s.hardwareReset).out = s.out := rfl
@[simp] theorem hardwareReset_response : (s.hardwareReset).response = none := rfl

/-! ### `State.issue` -/

@[simp] theorem issue_cfg (d : List Byte) : (s.issue d).cfg = s.cfg := rfl
@[simp] theorem issue_phase (d : List Byte) : (s.issue d).phase = s.phase := rfl
@[simp] theorem issue_failed (d : List Byte) : (s.issue d).failed = s.failed := rfl
@[simp] theorem issue_framing (d : List Byte) : (s.issue d).framing = s.framing := rfl
@[simp] theorem issue_result (d : List Byte) : (s.issue d).result = s.result := rfl
@[simp] theorem issue_strstart (d : List Byte) : (s.issue d).strstart = s.strstart := rfl
@[simp] theorem issue_lookahead (d : List Byte) : (s.issue d).lookahead = s.lookahead := rfl
@[simp] theorem issue_blockStart (d : List Byte) : (s.issue d).blockStart = s.blockStart := rfl
@[simp] theorem issue_matchLength (d : List Byte) : (s.issue d).matchLength = s.matchLength := rfl
@[simp] theorem issue_prevLength (d : List Byte) : (s.issue d).prevLength = s.prevLength := rfl
@[simp] theorem issue_matchStart (d : List Byte) : (s.issue d).matchStart = s.matchStart := rfl
@[simp] theorem issue_prevMatch (d : List Byte) : (s.issue d).prevMatch = s.prevMatch := rfl
@[simp] theorem issue_matchAvailable (d : List Byte) : (s.issue d).matchAvailable = s.matchAvailable := rfl
@[simp] theorem issue_insH (d : List Byte) : (s.issue d).insH = s.insH := rfl
@[simp] theorem issue_biBuf (d : List Byte) : (s.issue d).biBuf = s.biBuf := rfl
@[simp] theorem issue_biValid (d : List Byte) : (s.issue d).biValid = s.biValid := rfl
@[simp] theorem issue_adlerA (d : List Byte) : (s.issue d).adlerA = s.adlerA := rfl
@[simp] theorem issue_adlerB (d : List Byte) : (s.issue d).adlerB = s.adlerB := rfl
@[simp] theorem issue_lastLit (d : List Byte) : (s.issue d).lastLit = s.lastLit := rfl
@[simp] theorem issue_tokDist (d : List Byte) : (s.issue d).tokDist = s.tokDist := rfl
@[simp] theorem issue_tokLc (d : List Byte) : (s.issue d).tokLc = s.tokLc := rfl
@[simp] theorem issue_dynLfreq (d : List Byte) : (s.issue d).dynLfreq = s.dynLfreq := rfl
@[simp] theorem issue_dynDfreq (d : List Byte) : (s.issue d).dynDfreq = s.dynDfreq := rfl
@[simp] theorem issue_blFreq (d : List Byte) : (s.issue d).blFreq = s.blFreq := rfl
@[simp] theorem issue_optLen (d : List Byte) : (s.issue d).optLen = s.optLen := rfl
@[simp] theorem issue_staticLen (d : List Byte) : (s.issue d).staticLen = s.staticLen := rfl
@[simp] theorem issue_window (d : List Byte) : (s.issue d).window = s.window := rfl
@[simp] theorem issue_head (d : List Byte) : (s.issue d).head = s.head := rfl
@[simp] theorem issue_prev (d : List Byte) : (s.issue d).prev = s.prev := rfl
@[simp] theorem issue_payload (d : List Byte) : (s.issue d).payload = d := rfl
@[simp] theorem issue_feed (d : List Byte) : (s.issue d).feed = s.feed := rfl
@[simp] theorem issue_inputs (d : List Byte) : (s.issue d).inputs = s.inputs.tail := rfl
@[simp] theorem issue_sink (d : List Byte) : (s.issue d).sink = s.sink := rfl
@[simp] theorem issue_out (d : List Byte) : (s.issue d).out = s.out := rfl
@[simp] theorem issue_response (d : List Byte) : (s.issue d).response = s.response := rfl

/-! ### `State.fresh` -/

@[simp] theorem fresh_cfg (c : Config) (f : Bool) : (State.fresh c f).cfg = c := rfl
@[simp] theorem fresh_phase (c : Config) (f : Bool) : (State.fresh c f).phase = .init := rfl
@[simp] theorem fresh_failed (c : Config) (f : Bool) : (State.fresh c f).failed = false := rfl
@[simp] theorem fresh_framing (c : Config) (f : Bool) : (State.fresh c f).framing = f := rfl
@[simp] theorem fresh_result (c : Config) (f : Bool) : (State.fresh c f).result = .ok := rfl
@[simp] theorem fresh_strstart (c : Config) (f : Bool) : (State.fresh c f).strstart = 0 := rfl
@[simp] theorem fresh_lookahead (c : Config) (f : Bool) : (State.fresh c f).lookahead = 0 := rfl
@[simp] theorem fresh_blockStart (c : Config) (f : Bool) : (State.fresh c f).blockStart = 0 := rfl
@[simp] theorem fresh_matchLength (c : Config) (f : Bool) : (State.fresh c f).matchLength = 2 := rfl
@[simp] theorem fresh_prevLength (c : Config) (f : Bool) : (State.fresh c f).prevLength = 2 := rfl
@[simp] theorem fresh_matchStart (c : Config) (f : Bool) : (State.fresh c f).matchStart = 0 := rfl
@[simp] theorem fresh_prevMatch (c : Config) (f : Bool) : (State.fresh c f).prevMatch = 0 := rfl
@[simp] theorem fresh_matchAvailable (c : Config) (f : Bool) : (State.fresh c f).matchAvailable = false := rfl
@[simp] theorem fresh_insH (c : Config) (f : Bool) : (State.fresh c f).insH = 0 := rfl
@[simp] theorem fresh_biBuf (c : Config) (f : Bool) : (State.fresh c f).biBuf = 0 := rfl
@[simp] theorem fresh_biValid (c : Config) (f : Bool) : (State.fresh c f).biValid = 0 := rfl
@[simp] theorem fresh_adlerA (c : Config) (f : Bool) : (State.fresh c f).adlerA = 1 := rfl
@[simp] theorem fresh_adlerB (c : Config) (f : Bool) : (State.fresh c f).adlerB = 0 := rfl
@[simp] theorem fresh_lastLit (c : Config) (f : Bool) : (State.fresh c f).lastLit = 0 := rfl
@[simp] theorem fresh_tokDist (c : Config) (f : Bool) : (State.fresh c f).tokDist = [] := rfl
@[simp] theorem fresh_tokLc (c : Config) (f : Bool) : (State.fresh c f).tokLc = [] := rfl
@[simp] theorem fresh_dynLfreq (c : Config) (f : Bool) : (State.fresh c f).dynLfreq = [(256, 1)] := rfl
@[simp] theorem fresh_dynDfreq (c : Config) (f : Bool) : (State.fresh c f).dynDfreq = [] := rfl
@[simp] theorem fresh_blFreq (c : Config) (f : Bool) : (State.fresh c f).blFreq = [] := rfl
@[simp] theorem fresh_optLen (c : Config) (f : Bool) : (State.fresh c f).optLen = 0 := rfl
@[simp] theorem fresh_staticLen (c : Config) (f : Bool) : (State.fresh c f).staticLen = 0 := rfl
@[simp] theorem fresh_window (c : Config) (f : Bool) : (State.fresh c f).window = [] := rfl
@[simp] theorem fresh_head (c : Config) (f : Bool) : (State.fresh c f).head = [] := rfl
@[simp] theorem fresh_prev (c : Config) (f : Bool) : (State.fresh c f).prev = [] := rfl
@[simp] theorem fresh_payload (c : Config) (f : Bool) : (State.fresh c f).payload = [] := rfl
@[simp] theorem fresh_feed (c : Config) (f : Bool) : (State.fresh c f).feed = [] := rfl
@[simp] theorem fresh_inputs (c : Config) (f : Bool) : (State.fresh c f).inputs = [] := rfl
@[simp] theorem fresh_sink (c : Config) (f : Bool) : (State.fresh c f).sink = [] := rfl
@[simp] theorem fresh_out (c : Config) (f : Bool) : (State.fresh c f).out = [] := rfl
@[simp] theorem fresh_response (c : Config) (f : Bool) : (State.fresh c f).response = none := rfl

end Sys2Proof.Laws
end

