-- ==== Sys2Proof/Laws/Program.lean ====
section
/-!
SUPPORT. How to reason about a program of `M`: `wp m Q R F s` says what the program `m` does from the state `s`. It
ends with a value and a state that meet `Q`, or it raises an error in a state that meets `R`, or it faults, and then
`F`. Take `F := True` to speak of what holds if there is no fault, and `F := False` to say that there is none.
-/

namespace Sys2Proof.Laws

open Sys2Proof.Machine

variable {α β : Type}

/-- What the program `m` does from the state `s`. Proofs use the lemmas below and never its definition. -/
@[irreducible] def wp (m : M α) (Q : α → State → Prop) (R : ResultCode → State → Prop) (F : Prop) (s : State) : Prop :=
  match m s with
  | .ok a t => Q a t
  | .error (.raised e) t => R e t
  | .error (.fault _) _ => F

variable {Q : α → State → Prop} {R : ResultCode → State → Prop} {F : Prop} {s : State}

theorem wp_mono {m : M α} {Q' : α → State → Prop} {R' : ResultCode → State → Prop} {F' : Prop}
    (h : wp m Q R F s) (hQ : ∀ a t, Q a t → Q' a t) (hR : ∀ e t, R e t → R' e t) (hF : F → F') :
    wp m Q' R' F' s := by
  unfold wp at h ⊢
  split <;> simp_all

/-- The rule of consequence for the value and the state alone. -/
theorem wp_imp {m : M α} {Q' : α → State → Prop} (h : wp m Q R F s) (hQ : ∀ a t, Q a t → Q' a t) :
    wp m Q' R F s := wp_mono h hQ (fun _ _ h => h) id

/-- Two facts about one run. -/
theorem wp_and {m : M α} {Q' : α → State → Prop} {R' : ResultCode → State → Prop} {F' : Prop}
    (h : wp m Q R F s) (h' : wp m Q' R' F' s) :
    wp m (fun a t => Q a t ∧ Q' a t) (fun e t => R e t ∧ R' e t) (F ∧ F') s := by
  unfold wp at h h' ⊢
  split <;> simp_all

/-- From a run that ends with a value: the fact about it. -/
theorem wp_ok {m : M α} {a : α} {t : State} (h : wp m Q R F s) (hm : m s = .ok a t) : Q a t := by
  simpa [wp, hm] using h

@[simp] theorem wp_bind (m : M α) (f : α → M β) (Q : β → State → Prop) :
    wp (m >>= f) Q R F s ↔ wp m (fun a t => wp (f a) Q R F t) R F s := by
  simp only [wp, bind, EStateM.bind]
  cases m s with
  | ok a t => rfl
  | error e t => cases e <;> rfl

@[simp] theorem wp_pure (a : α) : wp (pure a) Q R F s ↔ Q a s := by
  unfold wp; exact Iff.rfl

@[simp] theorem wp_get (Q : State → State → Prop) : wp (get : M State) Q R F s ↔ Q s s := by
  unfold wp; exact Iff.rfl

@[simp] theorem wp_set (t : State) (Q : PUnit → State → Prop) :
    wp (set t : M PUnit) Q R F s ↔ Q ⟨⟩ t := by
  unfold wp; exact Iff.rfl

@[simp] theorem wp_modify (f : State → State) (Q : PUnit → State → Prop) :
    wp (modify f : M PUnit) Q R F s ↔ Q ⟨⟩ (f s) := by
  unfold wp; exact Iff.rfl

/-- A program given as a function that ends with a value. -/
theorem wp_fun (f : State → α) (g : State → State) :
    wp (fun s => .ok (f s) (g s) : M α) Q R F s ↔ Q (f s) (g s) := by
  unfold wp; exact Iff.rfl

theorem wp_ite {c : Prop} [Decidable c] (m n : M α) :
    wp (if c then m else n) Q R F s ↔ (c → wp m Q R F s) ∧ (¬ c → wp n Q R F s) := by
  split <;> simp_all

theorem wp_doIf (c : Bool) (m : M Unit) (Q : Unit → State → Prop) :
    wp (doIf c m) Q R F s ↔ (c = true → wp m Q R F s) ∧ (c = false → Q () s) := by
  cases c <;> simp [doIf]

@[simp] theorem wp_raise (e : ResultCode) : wp (raise e : M α) Q R F s ↔ R e (s.raiseError e) := by
  unfold wp; exact Iff.rfl

@[simp] theorem wp_internalFault (c : InternalCondition) : wp (internalFault c : M α) Q R F s ↔ F := by
  unfold wp; exact Iff.rfl

@[simp] theorem wp_commandAfterError : wp (commandAfterError : M α) Q R F s ↔ F := by
  unfold wp; exact Iff.rfl

@[simp] theorem wp_require (ok : Bool) (c : InternalCondition) (Q : Unit → State → Prop) :
    wp (require ok c) Q R F s ↔ (ok = true → Q () s) ∧ (ok = false → F) := by
  cases ok <;> simp [wp, require]

@[simp] theorem wp_readWindow (p : Int) (Q : Byte → State → Prop) :
    wp (readWindow p) Q R F s ↔
      (0 ≤ p ∧ p < WIN → Q (s.window.read p.toNat) s) ∧ (¬ (0 ≤ p ∧ p < WIN) → F) := by
  unfold wp readWindow
  by_cases h : 0 ≤ p ∧ p < WIN <;> simp [h]

@[simp] theorem wp_writeWindow (p : Nat) (b : Byte) (Q : Unit → State → Prop) :
    wp (writeWindow p b) Q R F s ↔
      (p < WIN → Q () { s with window := s.window.write p b }) ∧ (¬ p < WIN → F) := by
  unfold wp writeWindow
  by_cases h : p < WIN <;> simp [h]

/-- OutByte: the sink accepts the byte, or it refuses it and StreamError is raised (R54, R185). -/
theorem wp_outByte (b : Byte) (Q : Unit → State → Prop)
    (hok : ∀ sink, Q () { s with out := s.out ++ [b], sink := sink })
    (hraise : ∀ sink, R .streamError { s with sink := sink, result := .streamError, failed := true }) :
    wp (outByte b) Q R F s := by
  unfold wp outByte
  cases hs : s.sink with
  | nil => simpa [hs] using hok s.sink
  | cons a rest =>
    cases a with
    | true => exact hok rest
    | false =>
      have := hraise rest
      simpa [raise, State.raiseError, ResultCode.setsFailed] using this

/-- The accepting sink: with no answer listed, every byte is accepted (R54, log 2). -/
theorem outByte_accepts (b : Byte) (h : s.sink = []) : outByte b s = .ok () { s with out := s.out ++ [b] } := by
  simp [outByte, h]

@[simp] theorem wp_setHash (h : BitVec 15) (Q : Unit → State → Prop) :
    wp (setHash h) Q R F s ↔ Q () { s with insH := h } := by
  unfold wp; exact Iff.rfl

@[simp] theorem wp_growLookahead (n : Nat) (Q : Unit → State → Prop) :
    wp (growLookahead n) Q R F s ↔ Q () { s with lookahead := s.lookahead + n } := by
  unfold wp; exact Iff.rfl

@[simp] theorem wp_adlerUpdate (x : Byte) (Q : Unit → State → Prop) :
    wp (adlerUpdate x) Q R F s ↔
      Q () { s with adlerA := (adlerStep s.adlerA s.adlerB x).1, adlerB := (adlerStep s.adlerA s.adlerB x).2 } := by
  unfold wp; exact Iff.rfl

@[simp] theorem wp_slide (Q : Unit → State → Prop) : wp slide Q R F s ↔ Q () s.slid := by
  unfold wp; exact Iff.rfl

@[simp] theorem wp_initBlock (Q : Unit → State → Prop) : wp initBlock Q R F s ↔ Q () s.blockCleared := by
  unfold wp; exact Iff.rfl

@[simp] theorem wp_clearBits (Q : Unit → State → Prop) :
    wp clearBits Q R F s ↔ Q () { s with biBuf := 0, biValid := 0 } := by
  unfold wp; exact Iff.rfl

@[simp] theorem wp_startBlock (Q : Unit → State → Prop) :
    wp startBlock Q R F s ↔ Q () { s with blockStart := s.strstart } := by
  unfold wp; exact Iff.rfl

@[simp] theorem wp_loadFeed (Q : Unit → State → Prop) :
    wp loadFeed Q R F s ↔ Q () { s with feed := s.payload } := by
  unfold wp; exact Iff.rfl

@[simp] theorem wp_setPhase (p : Phase) (Q : Unit → State → Prop) :
    wp (setPhase p) Q R F s ↔ Q () { s with phase := p } := by
  unfold wp; exact Iff.rfl

@[simp] theorem wp_setMatchStart (c : Nat) (Q : Unit → State → Prop) :
    wp (setMatchStart c) Q R F s ↔ Q () { s with matchStart := c } := by
  unfold wp; exact Iff.rfl

@[simp] theorem wp_setMatchLength (n : Nat) (Q : Unit → State → Prop) :
    wp (setMatchLength n) Q R F s ↔ Q () { s with matchLength := n } := by
  unfold wp; exact Iff.rfl

@[simp] theorem wp_deferMatch (Q : Unit → State → Prop) :
    wp deferMatch Q R F s ↔
      Q () { s with prevLength := s.matchLength, prevMatch := s.matchStart, matchLength := MIN_MATCH - 1 } := by
  unfold wp; exact Iff.rfl

@[simp] theorem wp_closeMatch (Q : Unit → State → Prop) :
    wp closeMatch Q R F s ↔
      Q () { s with
        prevLength := 0, matchAvailable := false, matchLength := MIN_MATCH - 1, strstart := s.strstart + 1 } := by
  unfold wp; exact Iff.rfl

/-- ScanTree (R140). -/
theorem wp_scanTree (lens : List Nat) (maxCode : Nat) (Q : Unit → State → Prop) :
    wp (scanTree lens maxCode) Q R F s ↔
      (scanFits s.blFreq (blItems lens maxCode) = true → Q () (s.scanned (blItems lens maxCode))) ∧
        (scanFits s.blFreq (blItems lens maxCode) = false → F) := by
  rw [scanTree, wp_bind, wp_get, wp_bind, wp_require, wp_set]

/-- The packer's range check (R28). -/
theorem wp_checkPacker (Q : Unit → State → Prop) :
    wp checkPacker Q R F s ↔ (s.biValid ≤ 16 → Q () s) ∧ (¬ s.biValid ≤ 16 → F) := by
  rw [checkPacker, wp_bind, wp_get, wp_require, decide_eq_true_eq, decide_eq_false_iff_not]

theorem wp_inRead (Q : Byte → State → Prop) (h : ∀ b rest, s.feed = b :: rest → Q b { s with feed := rest })
    (hF : s.feed = [] → F) : wp inRead Q R F s := by
  unfold wp inRead
  cases hs : s.feed with
  | nil => exact hF hs
  | cons b rest => exact h b rest hs

@[simp] theorem wp_linkPosition (p : Nat) (b : Byte) (Q : Nat → State → Prop) :
    wp (linkPosition p b) Q R F s ↔
      Q (s.head.read (updateHash s.insH b).toNat).toNat (s.inserted p (updateHash s.insH b)) := by
  unfold wp; exact Iff.rfl

/-- `InsertString(p)` (R103). -/
@[simp] theorem wp_insertString (p : Nat) (Q : Nat → State → Prop) :
    wp (insertString p) Q R F s ↔
      (p + 2 < WIN → Q (s.head.read (updateHash s.insH (s.window.read (p + 2))).toNat).toNat
        (s.inserted p (updateHash s.insH (s.window.read (p + 2))))) ∧ (¬ p + 2 < WIN → F) := by
  unfold insertString
  rw [wp_bind, wp_readWindow]
  have h1 : (0 ≤ (p : Int) + 2 ∧ (p : Int) + 2 < (WIN : Nat)) ↔ p + 2 < WIN := by omega
  have h2 : ((p : Int) + 2).toNat = p + 2 := by omega
  rw [h1, h2, wp_linkPosition]

theorem wp_buildTree (k : TreeKind) (Q : BuiltTree → State → Prop)
    (h : ∀ t, builtTree s.cfg.heapTie k (s.freqOf k) = some t →
      Q t { s with optLen := s.optLen + t.optAdd, staticLen := s.staticLen + t.staticAdd })
    (hF : builtTree s.cfg.heapTie k (s.freqOf k) = none → F) : wp (buildTree k) Q R F s := by
  unfold wp buildTree
  cases hb : builtTree s.cfg.heapTie k (s.freqOf k) with
  | none => exact hF hb
  | some t => exact h t hb

/-! ### Properties a program keeps -/

/-- `m` keeps `P`: it holds wherever `m` ends, by a value or by an error. -/
def Keeps (P : State → Prop) (m : M α) : Prop :=
  ∀ s, P s → wp m (fun _ t => P t) (fun _ t => P t) True s

variable {P : State → Prop}

theorem keeps_pure (a : α) : Keeps P (pure a : M α) := fun _ h => (wp_pure a).mpr h

theorem keeps_bind {m : M α} {f : α → M β} (hm : Keeps P m) (hf : ∀ a, Keeps P (f a)) : Keeps P (m >>= f) :=
  fun s h => (wp_bind m f _).mpr (wp_imp (hm s h) fun a t ht => hf a t ht)

/-- A bind whose continuation may use what the state was. -/
theorem keeps_get_bind {f : State → M β} (hf : ∀ s, P s → wp (f s) (fun _ t => P t) (fun _ t => P t) True s) :
    Keeps P (get >>= f) := fun s h => by
  rw [wp_bind, wp_get]
  exact hf s h

theorem keeps_get : Keeps P (get : M State) := fun _ h => (wp_get _).mpr h

theorem keeps_ite {c : Prop} [Decidable c] {m n : M α} (hm : Keeps P m) (hn : Keeps P n) :
    Keeps P (if c then m else n) := by split <;> assumption

theorem keeps_doIf (c : Bool) {m : M Unit} (hm : Keeps P m) : Keeps P (doIf c m) :=
  fun s h => (wp_doIf c m _).mpr ⟨fun _ => hm s h, fun _ => h⟩

theorem keeps_modify {f : State → State} (h : ∀ s, P s → P (f s)) : Keeps P (modify f : M PUnit) := fun s hs => (wp_modify f _).mpr (h s hs)

theorem keeps_internalFault (c : InternalCondition) : Keeps P (internalFault c : M α) := fun _ _ => (wp_internalFault c).mpr trivial

theorem keeps_require (ok : Bool) (c : InternalCondition) : Keeps P (require ok c) :=
  fun _ h => (wp_require ok c _).mpr ⟨fun _ => h, fun _ => trivial⟩

theorem keeps_checkPacker : Keeps P checkPacker :=
  fun _ h => (wp_checkPacker _).mpr ⟨fun _ => h, fun _ => trivial⟩

theorem keeps_readWindow (p : Int) : Keeps P (readWindow p) :=
  fun _ h => (wp_readWindow p _).mpr ⟨fun _ => h, fun _ => trivial⟩

end Sys2Proof.Laws
end

