-- ==== Sys2Proof/Laws/CoreOk.lean ====
section
/-!
SUPPORT. Every operation keeps `State.CoreOk`: the memories stay canonical and the registers in their ranges at every
moment inside a command, wherever the operation ends (a value or a refused byte).
-/

namespace Sys2Proof.Laws

open Sys2Proof.Machine

variable {s : State}

/-! ### Output -/

theorem coreOk_outByte (b : Byte) : Keeps State.CoreOk (outByte b) :=
  fun _ h => wp_outByte b _ (fun _ => h) (fun _ => h)

theorem coreOk_putShortLE (w : Half) : Keeps State.CoreOk (putShortLE w) :=
  keeps_bind (coreOk_outByte _) fun _ => coreOk_outByte _

theorem coreOk_putShortMSB (w : Half) : Keeps State.CoreOk (putShortMSB w) :=
  keeps_bind (coreOk_outByte _) fun _ => coreOk_outByte _

/-! ### The window and the feed -/

theorem coreOk_writeWindow (p : Nat) (b : Byte) : Keeps State.CoreOk (writeWindow p b) := fun _ h =>
  (wp_writeWindow p b _).mpr
    ⟨fun hp => ⟨h.1, ⟨wf_write b h.2.1.1 hp, h.2.1.2⟩, h.2.2⟩, fun _ => trivial⟩

theorem coreOk_inRead : Keeps State.CoreOk inRead := fun _ h => wp_inRead _ (fun _ _ _ => h) (fun _ => trivial)

theorem adlerStep_lt (a b : Half) (x : Byte) :
    (adlerStep a b x).1.toNat < ADLER_MOD ∧ (adlerStep a b x).2.toNat < ADLER_MOD := by
  have h1 : (a.toNat + x.toNat) % ADLER_MOD < 65521 := Nat.mod_lt _ (by decide)
  have h2 : (b.toNat + (a.toNat + x.toNat) % ADLER_MOD) % ADLER_MOD < 65521 := Nat.mod_lt _ (by decide)
  simp only [adlerStep, BitVec.toNat_ofNat]
  have h3 : ADLER_MOD = 65521 := rfl
  omega

theorem coreOk_adlerUpdate (x : Byte) : Keeps State.CoreOk (adlerUpdate x) := fun s h =>
  have ha := adlerStep_lt s.adlerA s.adlerB x
  have hr := h.2.2
  (wp_adlerUpdate x _).mpr
    ⟨h.1, h.2.1, hr.1, hr.2.1, hr.2.2.1, hr.2.2.2.1, hr.2.2.2.2.1, ha.1, ha.2, hr.2.2.2.2.2.2.2⟩

theorem coreOk_readBytes (p n : Nat) : Keeps State.CoreOk (readBytes p n) := by
  induction n generalizing p with
  | zero => exact keeps_pure _
  | succ n ih =>
    exact keeps_bind coreOk_inRead fun b => keeps_bind (coreOk_writeWindow p b) fun _ =>
      keeps_bind (coreOk_adlerUpdate b) fun _ => ih (p + 1)

/-- What `readBytes` leaves alone: everything but the window, the checksum and the feed, of which it takes `n` bytes. -/
theorem readBytes_frame (p n : Nat) (s : State) :
    wp (readBytes p n)
      (fun _ t => t = { s with window := t.window, adlerA := t.adlerA, adlerB := t.adlerB, feed := s.feed.drop n } ∧
        n ≤ s.feed.length)
      (fun _ _ => False) True s := by
  induction n generalizing p s with
  | zero =>
    rw [readBytes, wp_pure]
    exact ⟨rfl, Nat.zero_le _⟩
  | succ n ih =>
    simp only [readBytes, wp_bind]
    refine wp_inRead _ (fun b rest hf => ?_) (fun _ => trivial)
    rw [wp_writeWindow]
    refine ⟨fun hp => ?_, fun _ => trivial⟩
    rw [wp_adlerUpdate]
    refine wp_imp (ih (p + 1) _) fun _ t ht => ?_
    simp only at ht
    rw [hf]
    refine ⟨by rw [ht.1]; simp, ?_⟩
    have := ht.2
    simp only [List.length_cons]
    omega

theorem coreOk_slide : ∀ s : State, s.CoreOk → s.slid.CoreOk := by
  intro s ⟨hc, ⟨hw, hh, hp, hm⟩, hsum, hr⟩
  refine ⟨hc, ⟨wf_compact hw, wf_rebase hh, wf_rebase hp, hm⟩, ?_, hr⟩
  simp only [slid_strstart, slid_lookahead]
  omega

/-- FillWindow's read of as many bytes as there are and fit (R96, R97) keeps the window within `WIN`. -/
theorem coreOk_readBuf :
    ∀ s : State, s.CoreOk → wp (readBuf (freeSpace s)) (fun n t => State.CoreOk { t with lookahead := t.lookahead + n })
      (fun _ t => t.CoreOk) True s := by
  intro s h
  simp only [readBuf, wp_bind, wp_get, wp_pure]
  have h1 := coreOk_readBytes (s.strstart + s.lookahead) (min s.feed.length (freeSpace s)) s h
  have h2 := readBytes_frame (s.strstart + s.lookahead) (min s.feed.length (freeSpace s)) s
  refine wp_mono (wp_and h1 h2) (fun _ t ht => ?_) (fun _ _ h => h.2.elim) (fun h => h.1)
  obtain ⟨⟨hc, hm, hsum, hr⟩, heq, -⟩ := ht
  refine ⟨hc, hm, ?_, hr⟩
  have e1 : t.strstart = s.strstart := by rw [heq]
  have e2 : t.lookahead = s.lookahead := by rw [heq]
  simp only
  rw [e1, e2]
  have := h.2.2.1
  have : freeSpace s = WIN - s.lookahead - s.strstart := rfl
  omega

theorem coreOk_setHash (x : BitVec 15) : Keeps State.CoreOk (setHash x) := fun _ h => (wp_setHash x _).mpr h

theorem coreOk_reseedHash : Keeps State.CoreOk reseedHash :=
  keeps_get_bind fun _ h => keeps_ite
    (keeps_bind (keeps_readWindow _) fun _ => keeps_bind (keeps_readWindow _) fun _ => coreOk_setHash _)
    (keeps_pure _) _ h

theorem coreOk_slideProgram : Keeps State.CoreOk slide := fun s h => (wp_slide _).mpr (coreOk_slide s h)

theorem coreOk_fillPass : Keeps State.CoreOk fillPass := by
  refine keeps_get_bind fun s h => ?_
  refine keeps_bind (keeps_require _ _) (fun _ => ?_) s h
  refine keeps_bind (keeps_doIf _ coreOk_slideProgram) fun _ => ?_
  refine keeps_get_bind fun s h => ?_
  refine (wp_ite _ _).mpr ⟨fun _ => (wp_pure _).mpr h, fun _ => ?_⟩
  simp only [wp_bind, wp_growLookahead]
  refine wp_imp (coreOk_readBuf s h) fun n t ht => ?_
  exact wp_imp (coreOk_reseedHash _ ht) fun _ t ht => by rw [wp_get, wp_pure]; exact ht

theorem coreOk_fillLoop (fuel : Nat) : Keeps State.CoreOk (fillLoop fuel) := by
  induction fuel with
  | zero => exact keeps_internalFault _
  | succ fuel ih => exact keeps_bind coreOk_fillPass fun _ => keeps_ite ih (keeps_pure _)

theorem coreOk_fillWindow : Keeps State.CoreOk fillWindow :=
  keeps_get_bind fun _ h => coreOk_fillLoop _ _ h

/-! ### The hash chains and the matcher -/

theorem prevIndex_lt (p : Nat) : prevIndex p < W := by
  have h : p &&& WMASK ≤ WMASK := Nat.and_le_right
  have hw : WMASK = 32767 := rfl
  have hW : W = 32768 := rfl
  unfold prevIndex
  omega

theorem hash_lt (h : BitVec 15) : h.toNat < HASH_SIZE := by
  have h1 := h.isLt
  have h2 : HASH_SIZE = 32768 := rfl
  omega

theorem coreOk_inserted (p : Nat) (x : BitVec 15) (h : s.CoreOk) : (s.inserted p x).CoreOk := by
  obtain ⟨hc, ⟨hw, hh, hp, hm⟩, hr⟩ := h
  exact ⟨hc, ⟨hw, wf_write _ hh (hash_lt x), wf_write _ hp (prevIndex_lt p), hm⟩, hr⟩

theorem coreOk_insertString (p : Nat) : Keeps State.CoreOk (insertString p) := by
  intro s h
  rw [wp_insertString]
  exact ⟨fun _ => coreOk_inserted _ _ h, fun _ => trivial⟩

/-- Comparing bytes changes nothing, and answers no more than it may compare. -/
theorem wp_matchBytes (c p k n : Nat) (s : State) :
    wp (matchBytes c p k n) (fun l t => t = s ∧ l ≤ k + n) (fun _ _ => False) True s := by
  induction n generalizing k with
  | zero =>
    rw [matchBytes, wp_pure]
    exact ⟨rfl, Nat.le_refl _⟩
  | succ n ih =>
    rw [matchBytes, wp_bind, wp_readWindow]
    refine ⟨fun _ => ?_, fun _ => trivial⟩
    rw [wp_bind, wp_readWindow]
    refine ⟨fun _ => (wp_ite _ _).mpr ⟨fun _ => ?_, fun _ => ?_⟩, fun _ => trivial⟩
    · exact wp_imp (ih (k + 1)) fun _ _ h => ⟨h.1, by omega⟩
    · rw [wp_pure]
      exact ⟨rfl, by omega⟩

theorem wp_matchLen (c : Nat) (s : State) :
    wp (matchLen c) (fun l t => t = s ∧ l ≤ min MAX_MATCH s.lookahead) (fun _ _ => False) True s := by
  simp only [matchLen, wp_bind, wp_get]
  exact wp_imp (wp_matchBytes _ _ _ _ _) fun _ _ h => ⟨h.1, by omega⟩

/-- The chain walk writes `match_start` alone, and its result lies between the best length it starts with and
`max best (min MAX_MATCH lookahead)`. -/
theorem wp_walkChain (limit nice chain c best : Nat) (s : State) :
    wp (walkChain limit nice chain c best)
      (fun l t => t = { s with matchStart := t.matchStart } ∧ best ≤ l ∧ l ≤ max best (min MAX_MATCH s.lookahead))
      (fun _ _ => False) True s := by
  induction chain generalizing c best s with
  | zero =>
    rw [walkChain, wp_pure]
    exact ⟨rfl, Nat.le_refl _, by omega⟩
  | succ chain ih =>
    simp only [walkChain, wp_bind]
    refine wp_imp (wp_matchLen c s) fun len t ⟨ht, hlen⟩ => ?_
    rw [ht]
    clear ht
    have tail : ∀ x : Int, wp (do
          let s ← get
          let c' := (s.prev.read (prevIndex c)).toNat
          if limit < c' then walkChain limit nice chain c' (max best len) else pure (max best len))
        (fun l t => t = { s with matchStart := t.matchStart } ∧ best ≤ l ∧ l ≤ max best (min MAX_MATCH s.lookahead))
        (fun _ _ => False) True { s with matchStart := x } := by
      intro x
      simp only [wp_bind, wp_get]
      refine (wp_ite _ _).mpr ⟨fun _ => ?_, fun _ => (wp_pure _).mpr ⟨rfl, by omega, by omega⟩⟩
      refine wp_imp (ih _ _ _) fun l t ⟨h1, h2, h3⟩ => ⟨h1, by omega, h3.trans (by simp only; omega)⟩
    refine (wp_ite _ _).mpr ⟨fun hb => ?_, fun _ => ?_⟩
    · simp only [wp_bind, wp_setMatchStart, wp_pure]
      exact ⟨trivial, by omega, by omega⟩
    · rw [wp_bind, wp_doIf, wp_setMatchStart]
      exact ⟨fun _ => tail c, fun _ => tail s.matchStart⟩

/-- LongestMatch writes `match_start` alone; its result is at most 258, and at least 2 where R114 calls it. -/
theorem wp_longestMatch (c : Nat) (s : State) :
    wp (longestMatch c)
      (fun l t => t = { s with matchStart := t.matchStart } ∧ l ≤ max s.prevLength MAX_MATCH ∧
        min s.prevLength s.lookahead ≤ l ∧ l ≤ s.lookahead)
      (fun _ _ => False) True s := by
  simp only [longestMatch, wp_bind, wp_get]
  refine wp_imp (wp_walkChain _ _ _ _ _ _) fun l t ⟨h1, h2, h3⟩ => ?_
  rw [wp_pure]
  exact ⟨h1, by omega, by omega, by omega⟩

theorem coreOk_matchStart (x : Int) (h : s.CoreOk) : ({ s with matchStart := x } : State).CoreOk := h

theorem coreOk_setMatchLength (n : Nat) (h : s.CoreOk) (h2 : 2 ≤ n) (hm : n ≤ MAX_MATCH) :
    ({ s with matchLength := n } : State).CoreOk :=
  ⟨h.1, h.2.1, h.2.2.1, h2, hm, h.2.2.2.2.2⟩

theorem coreOk_insertHere : Keeps State.CoreOk insertHere := by
  intro s h
  rw [insertHere, wp_bind, wp_get, wp_ite]
  exact ⟨fun _ => coreOk_insertString _ s h, fun _ => (wp_pure _).mpr h⟩

/-- The head that InsertString answers is NIL where there is too little lookahead. -/
theorem wp_insertHere_look (s : State) :
    wp insertHere (fun n t => t.lookahead = s.lookahead ∧ (n ≠ NIL → MIN_MATCH ≤ s.lookahead)) (fun _ _ => False) True
      s := by
  rw [insertHere, wp_bind, wp_get, wp_ite, wp_pure, wp_insertString]
  exact ⟨fun hl => ⟨fun _ => ⟨rfl, fun _ => hl⟩, fun _ => trivial⟩, fun _ => ⟨rfl, fun h => absurd rfl h⟩⟩

theorem coreOk_deferMatch (h : s.CoreOk) : State.CoreOk
    { s with prevLength := s.matchLength, prevMatch := s.matchStart, matchLength := MIN_MATCH - 1 } :=
  ⟨h.1, h.2.1, h.2.2.1, Nat.le_refl 2, (by decide : 2 ≤ 258), h.2.2.2.2.1, h.2.2.2.2.2.2⟩

/-- The lazy step (R114) keeps `CoreOk`. -/
theorem coreOk_evaluatePosition : Keeps State.CoreOk evaluatePosition := by
  intro s h
  rw [evaluatePosition, wp_bind]
  refine wp_mono (wp_and (coreOk_insertHere s h) (wp_insertHere_look s)) (fun hashHead u ⟨hu, hlook, hne⟩ => ?_)
    (fun _ _ h => h.1) (fun _ => trivial)
  have hr := hu.2.2
  have hu' := coreOk_deferMatch hu
  simp only [wp_bind, wp_deferMatch, wp_get]
  refine (wp_ite _ _).mpr ⟨fun hs => ?_, fun _ => (wp_pure _).mpr hu'⟩
  simp only [wp_bind, wp_setMatchLength, wp_get]
  refine wp_mono (wp_longestMatch hashHead _) (fun l t ⟨ht, hl1, hl2, hl3⟩ => ?_) (fun _ _ h => h.elim) id
  have hlk := hne (by
    simp only [searchAllowed, Bool.and_eq_true, decide_eq_true_eq] at hs
    exact hs.1.1)
  have h3 : MIN_MATCH = 3 := rfl
  have h258 : MAX_MATCH = 258 := rfl
  have hm := hr.2.1
  have hM := hr.2.2.1
  simp only at hl1 hl2 hl3
  have hcore : State.CoreOk t := by rw [ht]; exact hu'
  have hset : State.CoreOk { t with matchLength := l } := coreOk_setMatchLength l hcore (by omega) (by omega)
  rw [wp_doIf, wp_setMatchLength]
  exact ⟨fun _ => coreOk_setMatchLength (MIN_MATCH - 1) hset (Nat.le_refl 2) (by decide), fun _ => hset⟩

/-! ### The tally -/

theorem wf_bump {size n : Nat} {m : Memory 16} (hm : m.wf size = true) (hn : n < size) :
    (bump m n).wf size = true := wf_write _ hm hn

theorem lastBaseLe_lt {bases : List Nat} (x : Nat) (h : bases ≠ []) : lastBaseLe bases x < bases.length := by
  have h1 := (List.takeWhile_prefix (fun b => decide (b ≤ x)) (l := bases)).length_le
  have h2 : 0 < bases.length := List.length_pos_iff.mpr h
  unfold lastBaseLe
  omega

/-- Every length code is a symbol of the literal/length alphabet (R79, R89). -/
theorem lengthCode_lt (len : Nat) : 257 ≤ lengthCode len ∧ lengthCode len < L_CODES := by
  have h := lastBaseLe_lt (bases := lengthBases.take 28) len (by decide)
  have h28 : (lengthBases.take 28).length = 28 := rfl
  have hL : L_CODES = 286 := rfl
  unfold lengthCode
  split <;> omega

/-- Every distance code is a symbol of the distance alphabet (R79, R90). -/
theorem distCode_lt (d : Nat) : distCode d < D_CODES := lastBaseLe_lt d (by decide)

theorem tokenLimit_lt (h : s.CoreOk) : s.cfg.tokenLimit < s.cfg.litBufsize := by
  have := h.1
  simp only [Config.ok, Bool.and_eq_true, decide_eq_true_eq] at this
  unfold Config.tokenLimit
  omega

theorem coreOk_pushToken (d : Half) (x : Byte) (h : s.CoreOk) (hroom : s.lastLit < s.cfg.tokenLimit) :
    (s.pushToken d x).CoreOk := by
  have hl := tokenLimit_lt h
  obtain ⟨hc, ⟨hw, hh, hp, hd, hx, hf⟩, h1, h2, h3, h4, h5, h6, h7, h8⟩ := h
  have hi : s.lastLit < s.cfg.litBufsize := by omega
  exact ⟨hc, ⟨hw, hh, hp, wf_write _ hd hi, wf_write _ hx hi, hf⟩, h1, h2, h3, h4, h5, h6, h7, hroom⟩

theorem coreOk_literal (h : s.CoreOk) (hroom : s.lastLit < s.cfg.tokenLimit) (c : Byte) :
    (s.tallyLiteral c).CoreOk := by
  have h' := coreOk_pushToken 0 c h hroom
  have hc : c.toNat < L_CODES := Nat.lt_trans c.isLt (by decide)
  exact ⟨h'.1, ⟨h'.2.1.1, h'.2.1.2.1, h'.2.1.2.2.1, h'.2.1.2.2.2.1, h'.2.1.2.2.2.2.1,
    wf_bump h.2.1.2.2.2.2.2.1 hc, h.2.1.2.2.2.2.2.2⟩, h'.2.2⟩

theorem coreOk_distance (h : s.CoreOk) (hroom : s.lastLit < s.cfg.tokenLimit) (d lc : Nat) :
    (s.tallyDistance d lc).CoreOk := by
  have h' := coreOk_pushToken (BitVec.ofNat 16 d) (BitVec.ofNat 8 lc) h hroom
  exact ⟨h'.1, ⟨h'.2.1.1, h'.2.1.2.1, h'.2.1.2.2.1, h'.2.1.2.2.2.1, h'.2.1.2.2.2.2.1,
    wf_bump h.2.1.2.2.2.2.2.1 (lengthCode_lt _).2, wf_bump h.2.1.2.2.2.2.2.2.1 (distCode_lt _),
    h.2.1.2.2.2.2.2.2.2⟩, h'.2.2⟩

/-- TallyLiteral (R123): the conditions it faults without, and what it writes. -/
theorem wp_tallyLiteral {F : Prop} {R : ResultCode → State → Prop} (c : Byte) (Q : Bool → State → Prop) :
    wp (tallyLiteral c) Q R F s ↔
      (s.lastLit < s.cfg.tokenLimit →
        (countFits s.dynLfreq c.toNat 1 = true → Q (blockFull (s.tallyLiteral c)) (s.tallyLiteral c)) ∧
        (countFits s.dynLfreq c.toNat 1 = false → F)) ∧ (¬ s.lastLit < s.cfg.tokenLimit → F) := by
  rw [Sys2Proof.Machine.tallyLiteral, wp_bind, wp_get, wp_bind, wp_require, wp_bind, wp_require, wp_bind, wp_set,
    wp_pure, tallyRoom, decide_eq_true_eq, decide_eq_false_iff_not]

/-- TallyDistance (R124). -/
theorem wp_tallyDistance {F : Prop} {R : ResultCode → State → Prop} (d : Int) (lc : Nat) (Q : Bool → State → Prop) :
    wp (tallyDistance d lc) Q R F s ↔
      (tallyOperandOk d lc = true →
        (s.lastLit < s.cfg.tokenLimit →
          (matchFits s d.toNat lc = true → Q (blockFull (s.tallyDistance d.toNat lc)) (s.tallyDistance d.toNat lc)) ∧
          (matchFits s d.toNat lc = false → F)) ∧ (¬ s.lastLit < s.cfg.tokenLimit → F)) ∧
      (tallyOperandOk d lc = false → F) := by
  rw [Sys2Proof.Machine.tallyDistance, wp_bind, wp_get, wp_bind, wp_require, wp_bind, wp_require, wp_bind, wp_require,
    wp_bind, wp_set, wp_pure, tallyRoom, decide_eq_true_eq, decide_eq_false_iff_not]

theorem coreOk_tallyLiteral (c : Byte) : Keeps State.CoreOk (tallyLiteral c) := fun _ h =>
  (wp_tallyLiteral c _).mpr
    ⟨fun hroom => ⟨fun _ => coreOk_literal h hroom c, fun _ => trivial⟩, fun _ => trivial⟩

theorem coreOk_tallyDistance (d : Int) (lc : Nat) : Keeps State.CoreOk (tallyDistance d lc) := fun _ h =>
  (wp_tallyDistance d lc _).mpr ⟨fun _ => ⟨fun hroom =>
    ⟨fun _ => coreOk_distance h hroom _ _, fun _ => trivial⟩, fun _ => trivial⟩, fun _ => trivial⟩

theorem coreOk_blockCleared (h : s.CoreOk) : s.blockCleared.CoreOk := by
  obtain ⟨hc, ⟨hw, hh, hp, hd, hx, hf⟩, h1, h2, h3, h4, h5, h6, h7, h8⟩ := h
  exact ⟨hc, ⟨hw, hh, hp, hd, hx, (by decide : Memory.wf L_CODES [(END_BLOCK, (1 : Half))] = true), rfl, rfl⟩, h1, h2, h3, h4, h5, h6, h7, Nat.zero_le _⟩

end Sys2Proof.Laws
end

