-- ==== Sys2Proof/Laws/CoreOkEmit.lean ====
section
/-!
SUPPORT. The bit packer, the tree builder and FlushBlock keep `State.CoreOk`.
-/

namespace Sys2Proof.Laws

open Sys2Proof.Machine

variable {s : State}

/-! ### The bit packer -/

theorem coreOk_packer (b : Half) (n : Nat) (h : s.CoreOk) (hn : n ≤ 16) (hb : b.toNat < 2 ^ n) :
    State.CoreOk { s with biBuf := b, biValid := n } :=
  ⟨h.1, h.2.1, h.2.2.1, h.2.2.2.1, h.2.2.2.2.1, h.2.2.2.2.2.1, ⟨hn, hb⟩, h.2.2.2.2.2.2.2⟩

theorem coreOk_clearBits : Keeps State.CoreOk clearBits := fun _ h =>
  (wp_clearBits _).mpr (coreOk_packer 0 0 h (by decide) (by decide))

/-- The accumulator while there is room: the pending bits, then the bits of `value` above them (R148). -/
theorem filled_toNat {b : Half} {value n length : Nat} (hb : b.toNat < 2 ^ n) (hv : value < 2 ^ length)
    (hlen : length ≤ 16) :
    (b ||| (BitVec.ofNat 16 value <<< n)).toNat = (b.toNat + value * 2 ^ n) % 2 ^ 16 := by
  have hv16 : value < 2 ^ 16 := Nat.lt_of_lt_of_le hv (Nat.pow_le_pow_right (by decide) hlen)
  rw [BitVec.toNat_or, BitVec.toNat_shiftLeft, BitVec.toNat_ofNat, Nat.mod_eq_of_lt hv16]
  have h1 : b.toNat + value * 2 ^ n = b.toNat ||| (value <<< n) := by
    rw [Nat.or_comm, ← Nat.shiftLeft_add_eq_or_of_lt hb, Nat.shiftLeft_eq, Nat.add_comm]
  rw [h1, Nat.or_mod_two_pow, Nat.mod_eq_of_lt b.isLt]

/-- The bits of `value` that did not fit (R148). -/
theorem spilled_toNat {value n length : Nat} (hv : value < 2 ^ length) (hlen : length ≤ 16) :
    (BitVec.ofNat 16 value >>> (16 - n)).toNat = value / 2 ^ (16 - n) := by
  have hv16 : value < 2 ^ 16 := Nat.lt_of_lt_of_le hv (Nat.pow_le_pow_right (by decide) hlen)
  rw [BitVec.toNat_ushiftRight, BitVec.toNat_ofNat, Nat.mod_eq_of_lt hv16, Nat.shiftRight_eq_div_pow]

theorem sendBitsOperandOk_iff (value length : Nat) :
    sendBitsOperandOk value length = true ↔ 1 ≤ length ∧ length ≤ 16 ∧ value < 2 ^ length := by
  simp [sendBitsOperandOk, and_assoc]

theorem coreOk_sendBits (value length : Nat) : Keeps State.CoreOk (sendBits value length) := by
  intro s h
  rw [sendBits, wp_bind, wp_require]
  refine ⟨fun hok => ?_, fun _ => trivial⟩
  rw [sendBitsOperandOk_iff] at hok
  obtain ⟨h1, h16, hv⟩ := hok
  have hp : s.PackerOk := h.2.2.2.2.2.2.1
  rw [wp_bind, wp_checkPacker]
  refine ⟨fun _ => ?_, fun _ => trivial⟩
  rw [wp_bind, wp_get, wp_ite]
  refine ⟨fun hc => ?_, fun hc => ?_⟩
  · rw [wp_bind]
    refine wp_imp (coreOk_putShortLE _ s h) fun _ t ht => ?_
    rw [wp_modify]
    refine coreOk_packer _ _ ht (by omega) ?_
    rw [spilled_toNat hv h16, Nat.div_lt_iff_lt_mul (Nat.two_pow_pos _), ← Nat.pow_add]
    have : s.biValid + length - 16 + (16 - s.biValid) = length := by omega
    rw [this]
    exact hv
  · rw [wp_set]
    refine coreOk_packer _ _ h (by omega) ?_
    rw [filled_toNat hp.2 hv h16]
    refine Nat.lt_of_le_of_lt (Nat.mod_le _ _) ?_
    have : value + 1 ≤ 2 ^ length := hv
    have h2 : (value + 1) * 2 ^ s.biValid ≤ 2 ^ length * 2 ^ s.biValid := Nat.mul_le_mul_right _ this
    rw [← Nat.pow_add, Nat.add_mul, Nat.one_mul] at h2
    have h3 := hp.2
    rw [Nat.add_comm s.biValid length]
    omega

theorem coreOk_sendCode (lens codes : List Nat) (symbol : Nat) : Keeps State.CoreOk (sendCode lens codes symbol) :=
  keeps_bind (keeps_require _ _) fun _ => coreOk_sendBits _ _

theorem coreOk_drainBits : Keeps State.CoreOk drainBits :=
  keeps_bind keeps_checkPacker fun _ => keeps_get_bind fun s h =>
    keeps_ite (coreOk_putShortLE _) (keeps_ite (coreOk_outByte _) (keeps_pure _)) s h

theorem coreOk_align : Keeps State.CoreOk align := keeps_bind coreOk_drainBits fun _ => coreOk_clearBits

theorem coreOk_endFlush : Keeps State.CoreOk endFlush := by
  intro s h
  have hp : s.PackerOk := h.2.2.2.2.2.2.1
  rw [endFlush, wp_bind, wp_checkPacker]
  refine ⟨fun _ => ?_, fun _ => trivial⟩
  rw [wp_bind, wp_get, wp_ite]
  refine ⟨fun _ => keeps_bind (coreOk_putShortLE _) (fun _ => coreOk_clearBits) s h, fun _ => ?_⟩
  rw [wp_ite]
  refine ⟨fun h8 => ?_, fun _ => (wp_pure _).mpr h⟩
  rw [wp_bind]
  refine wp_imp (coreOk_outByte _ s h) fun _ t ht => ?_
  rw [wp_modify]
  refine coreOk_packer _ _ ht (by omega) ?_
  rw [BitVec.toNat_ushiftRight, Nat.shiftRight_eq_div_pow, Nat.div_lt_iff_lt_mul (by decide), ← Nat.pow_add]
  have : s.biValid - 8 + 8 = s.biValid := by omega
  rw [this]
  exact hp.2

/-! ### Blocks -/

theorem coreOk_copyWindow (p : Int) (n : Nat) : Keeps State.CoreOk (copyWindow p n) := by
  induction n generalizing p with
  | zero => exact keeps_pure _
  | succ n ih => exact keeps_bind (keeps_readWindow _) fun _ => keeps_bind (coreOk_outByte _) fun _ => ih _

theorem coreOk_storedBlock (start n : Int) (last : Bool) : Keeps State.CoreOk (storedBlock start n last) :=
  keeps_bind (keeps_require _ _) fun _ => keeps_bind (coreOk_sendBits _ _) fun _ => keeps_bind coreOk_align fun _ =>
    keeps_bind (coreOk_putShortLE _) fun _ => keeps_bind (coreOk_putShortLE _) fun _ => coreOk_copyWindow _ _

theorem coreOk_sendExtra (value bits : Nat) : Keeps State.CoreOk (sendExtra value bits) :=
  keeps_ite (coreOk_sendBits _ _) (keeps_pure _)

theorem coreOk_sendToken (lLens lCodes dLens dCodes : List Nat) (dist lc : Nat) :
    Keeps State.CoreOk (sendToken lLens lCodes dLens dCodes dist lc) :=
  keeps_ite (coreOk_sendCode _ _ _) (keeps_bind (coreOk_sendCode _ _ _) fun _ =>
    keeps_bind (coreOk_sendExtra _ _) fun _ => keeps_bind (coreOk_sendCode _ _ _) fun _ => coreOk_sendExtra _ _)

theorem coreOk_sendTokens (lLens lCodes dLens dCodes : List Nat) (i n : Nat) :
    Keeps State.CoreOk (sendTokens lLens lCodes dLens dCodes i n) := by
  induction n generalizing i with
  | zero => exact keeps_pure _
  | succ n ih => exact keeps_get_bind fun s h => keeps_bind (coreOk_sendToken _ _ _ _ _ _) (fun _ => ih _) s h

theorem coreOk_compressBlock (lLens lCodes dLens dCodes : List Nat) :
    Keeps State.CoreOk (compressBlock lLens lCodes dLens dCodes) :=
  keeps_get_bind fun s h => keeps_bind (coreOk_sendTokens _ _ _ _ _ _) (fun _ => coreOk_sendCode _ _ _) s h

theorem coreOk_staticBlock (last : Bool) : Keeps State.CoreOk (staticBlock last) :=
  keeps_bind (coreOk_sendBits _ _) fun _ => coreOk_compressBlock _ _ _ _

theorem coreOk_sendItems (bl : BuiltTree) (items : List BlItem) : Keeps State.CoreOk (sendItems bl items) := by
  induction items with
  | nil => exact keeps_pure _
  | cons x xs ih => exact keeps_bind (coreOk_sendCode _ _ _) fun _ => keeps_bind (coreOk_sendExtra _ _) fun _ => ih

theorem coreOk_sendBlLengths (bl : BuiltTree) (symbols : List Nat) : Keeps State.CoreOk (sendBlLengths bl symbols) := by
  induction symbols with
  | nil => exact keeps_pure _
  | cons x xs ih => exact keeps_bind (coreOk_sendBits _ _) fun _ => ih

theorem coreOk_dynamicBlock (l d bl : BuiltTree) (maxIndex : Nat) (last : Bool) :
    Keeps State.CoreOk (dynamicBlock l d bl maxIndex last) :=
  keeps_bind (coreOk_sendBits _ _) fun _ => keeps_bind (keeps_require _ _) fun _ =>
    keeps_bind (coreOk_sendBits _ _) fun _ => keeps_bind (coreOk_sendBits _ _) fun _ =>
    keeps_bind (coreOk_sendBits _ _) fun _ => keeps_bind (coreOk_sendBlLengths _ _) fun _ =>
    keeps_bind (coreOk_sendItems _ _) fun _ => keeps_bind (coreOk_sendItems _ _) fun _ => coreOk_compressBlock _ _ _ _

theorem coreOk_emitBlock (l d bl : BuiltTree) (maxIndex : Nat) (last : Bool) :
    Keeps State.CoreOk (emitBlock l d bl maxIndex last) := by
  refine keeps_get_bind fun s h => ?_
  cases chooseBlock s with
  | stored => exact coreOk_storedBlock _ _ _ s h
  | static => exact coreOk_staticBlock _ s h
  | dynamic => exact coreOk_dynamicBlock _ _ _ _ _ s h

end Sys2Proof.Laws
end

