-- ==== Sys2Proof/Laws/HuffmanBounds.lean ====
section
/-!
SUPPORT. No code length exceeds the cap of its tree (R139 item 1), so no bit-length symbol leaves its alphabet.
-/

namespace Sys2Proof.Laws

open Sys2Proof.Machine

theorem assoc_get_nil (n : Nat) : Assoc.get [] n = 0 := rfl

theorem assoc_get_cons (a : Assoc) (k v n : Nat) :
    Assoc.get ((k, v) :: a) n = if n = k then v else Assoc.get a n := by
  unfold Assoc.get
  by_cases h : n = k
  · simp [List.lookup, h]
  · have : (n == k) = false := by simpa using h
    simp [List.lookup, this, h]

/-- Every entry of the array is at most `b`. -/
def Assoc.Le (b : Nat) (a : Assoc) : Prop := ∀ n, a.get n ≤ b

theorem Assoc.le_nil (b : Nat) : Assoc.Le b [] := fun _ => Nat.zero_le _

theorem Assoc.le_cons {b k v : Nat} {a : Assoc} (h : Assoc.Le b a) (hv : v ≤ b) : Assoc.Le b ((k, v) :: a) := fun n => by
  rw [assoc_get_cons]
  split
  · exact hv
  · exact h n

theorem visit_len_le (k : TreeKind) (maxCode : Int) (up : Nat) (n : Node) (s : Lengths)
    (h : Assoc.Le k.maxLength s.len) : Assoc.Le k.maxLength (s.visit k maxCode up n).len := by
  have : Assoc.Le k.maxLength ((n.idx, min (up + 1) k.maxLength) :: s.len) := Assoc.le_cons h (Nat.min_le_right _ _)
  unfold Lengths.visit
  dsimp only
  split <;> exact this

theorem foldl_visit_len_le (k : TreeKind) (maxCode : Int) (up : Lengths → Node → Nat) (rest : List Node) (s : Lengths)
    (h : Assoc.Le k.maxLength s.len) :
    Assoc.Le k.maxLength (rest.foldl (fun s n => s.visit k maxCode (up s n) n) s).len := by
  induction rest generalizing s with
  | nil => exact h
  | cons n rest ih => exact ih _ (visit_len_le k maxCode (up s n) n s h)

theorem firstLengths_le (k : TreeKind) (maxCode : Int) (m : MergeResult) :
    Assoc.Le k.maxLength (firstLengths k maxCode m).len := by
  unfold firstLengths
  split
  · exact Assoc.le_nil _
  · exact foldl_visit_len_le k maxCode (fun s n => s.len.get (Assoc.get m.parents n.idx)) _ _
      (Assoc.le_cons (Assoc.le_nil _) (Nat.zero_le _))

theorem assign_le {b bits : Nat} {s : Reassigned} (m : Node) (h : Assoc.Le b s.len) (hb : bits ≤ b) :
    Assoc.Le b (s.assign bits m).len := by
  unfold Reassigned.assign
  split
  · exact h
  · exact Assoc.le_cons h hb

theorem reassignLevel_le {b bits : Nat} (maxCode : Int) (hb : bits ≤ b) (rest : List Node) (count : Nat)
    (s : Reassigned) (h : Assoc.Le b s.len) : Assoc.Le b (reassignLevel maxCode bits count rest s).2.len := by
  induction rest generalizing count s with
  | nil => cases count <;> exact h
  | cons m rest ih =>
    cases count with
    | zero => exact h
    | succ count =>
      unfold reassignLevel
      split
      · exact ih _ _ h
      · exact ih _ _ (assign_le m h hb)

theorem reassignLengths_le {b : Nat} (maxCode : Int) (blCount : List Nat) (bits : Nat) (hb : bits ≤ b)
    (rest : List Node) (s : Reassigned) (h : Assoc.Le b s.len) :
    Assoc.Le b (reassignLengths maxCode blCount bits rest s).len := by
  induction bits generalizing rest s with
  | zero => exact h
  | succ bits ih => exact ih (by omega) _ _ (reassignLevel_le maxCode hb rest _ s h)

theorem cappedLengths_le {k : TreeKind} {maxCode : Int} {m : MergeResult} {s : Lengths} {r : Reassigned}
    (h : Assoc.Le k.maxLength s.len) (hr : cappedLengths k maxCode m s = some r) : Assoc.Le k.maxLength r.len := by
  unfold cappedLengths at hr
  split at hr
  · cases hr; exact h
  · split at hr
    · cases hr
    · cases hr
      exact reassignLengths_le maxCode _ _ (Nat.le_refl _) _ _ h

/-- The lengths of a built tree: one for each symbol of the alphabet, each at most the cap (R139 item 1). -/
theorem builtTree_lens {tie : HeapTie} {k : TreeKind} {freq : Memory 16} {t : BuiltTree}
    (h : builtTree tie k freq = some t) : t.lens.length = k.elems ∧ ∀ l ∈ t.lens, l ≤ k.maxLength := by
  unfold builtTree at h
  simp only [Option.map_eq_some_iff] at h
  obtain ⟨r, hr, rfl⟩ := h
  refine ⟨by simp, fun l hl => ?_⟩
  simp only [List.mem_map] at hl
  obtain ⟨n, -, rfl⟩ := hl
  exact cappedLengths_le (firstLengths_le _ _ _) hr n

theorem maxLength_le (k : TreeKind) : k.maxLength ≤ 15 := by cases k <;> decide

/-! ### The run-length items -/

theorem runItems_symbol_lt {prevlen : Option Nat} {cur count minc : Nat} (hc : cur ≤ 15) {x : BlItem}
    (h : x ∈ runItems prevlen cur count minc) : x.symbol < BL_CODES := by
  have hBL : BL_CODES = 19 := rfl
  have h1 : REP_3_6 = 16 := rfl
  have h2 : REPZ_3_10 = 17 := rfl
  have h3 : REPZ_11_138 = 18 := rfl
  unfold runItems at h
  split at h
  · rw [(List.mem_replicate.mp h).2]
    show cur < BL_CODES
    omega
  · split at h
    · split at h
      · simp only [List.mem_singleton] at h
        subst h
        show REP_3_6 < BL_CODES
        omega
      · simp only [List.mem_cons, List.not_mem_nil, or_false] at h
        rcases h with rfl | rfl
        · show cur < BL_CODES
          omega
        · show REP_3_6 < BL_CODES
          omega
    · split at h <;> simp only [List.mem_singleton] at h <;> subst h
      · show REPZ_3_10 < BL_CODES
        omega
      · show REPZ_11_138 < BL_CODES
        omega

theorem scanRuns_symbol_lt {lens : List Nat} (hl : ∀ l ∈ lens, l ≤ 15) (prevlen : Option Nat) (count : Nat)
    (limits : Nat × Nat) {x : BlItem} (h : x ∈ scanRuns prevlen count limits lens) : x.symbol < BL_CODES := by
  induction lens generalizing prevlen count limits with
  | nil => cases h
  | cons cur rest ih =>
    have ih := @ih (fun l h => hl l (List.mem_cons_of_mem _ h))
    unfold scanRuns at h
    split at h
    · exact ih _ _ _ h
    · rcases List.mem_append.mp h with h | h
      · exact runItems_symbol_lt (hl cur List.mem_cons_self) h
      · exact ih _ _ _ h

/-- Every item that describes lengths of at most 15 is a symbol of the bit-length alphabet (R83). -/
theorem blItems_symbol_lt {lens : List Nat} (hl : ∀ l ∈ lens, l ≤ 15) (maxCode : Nat) {x : BlItem}
    (h : x ∈ blItems lens maxCode) : x.symbol < BL_CODES :=
  scanRuns_symbol_lt (fun l h => hl l (List.mem_of_mem_take h)) _ _ _ h

theorem wf_foldl_bump {size : Nat} {m : Memory 16} {items : List BlItem} (hm : m.wf size = true)
    (h : ∀ x ∈ items, x.symbol < size) : (items.foldl (fun f x => bump f x.symbol) m).wf size = true := by
  induction items generalizing m with
  | nil => exact hm
  | cons x xs ih => exact ih (wf_bump hm (h x List.mem_cons_self)) fun y hy => h y (List.mem_cons_of_mem _ hy)

end Sys2Proof.Laws
end

