-- ==== Sys2Proof/Laws/Merge.lean ====
section
/-!
SUPPORT. Both merges (R133, R138) are one relation: two nodes of the queue are removed and joined until one node is
left. What the tree proofs need follows from that alone, whatever the ties.
-/

namespace Sys2Proof.Laws

open Sys2Proof.Machine

/-- `r` is the record of a merge of the queue `q` that numbers its joins from `next` on. -/
inductive Merges : Nat → List Node → MergeResult → Prop where
  | root (next : Nat) (n : Node) : Merges next [n] ⟨[n], []⟩
  | join {next : Nat} {q rest q' : List Node} {a b : Node} {r : MergeResult} (hq : q.Perm (a :: b :: rest))
      (hq' : q'.Perm (Node.join next a b :: rest)) (hr : Merges (next + 1) q' r) : Merges next q (r.cons a b next)

/-! ### The merge of DOC_ORDER -/

theorem foldl_least_mem (q : List Node) (a : Node) :
    q.foldl (fun m n => if n.before m then n else m) a ∈ a :: q := by
  induction q generalizing a with
  | nil => exact List.mem_cons_self
  | cons n q ih =>
    rw [List.foldl_cons]
    have h := ih (if n.before a then n else a)
    rcases List.mem_cons.mp h with h | h
    · rw [h]
      split
      · exact List.mem_cons_of_mem _ List.mem_cons_self
      · exact List.mem_cons_self
    · exact List.mem_cons_of_mem _ (List.mem_cons_of_mem _ h)

/-- Taking the least node leaves the others. -/
theorem popLeast_perm {q q' : List Node} {a : Node} (h : popLeast q = some (a, q')) : q.Perm (a :: q') := by
  cases q with
  | nil => cases h
  | cons n q =>
    simp only [popLeast, Option.some.injEq, Prod.mk.injEq] at h
    obtain ⟨rfl, rfl⟩ := h
    exact List.perm_cons_erase (foldl_least_mem q n)

theorem popLeast_isSome {q : List Node} (h : q ≠ []) : ∃ a q', popLeast q = some (a, q') := by
  cases q with
  | nil => exact absurd rfl h
  | cons n q => exact ⟨_, _, rfl⟩

theorem merges_mergeDoc (fuel next : Nat) (q : List Node) (h0 : q ≠ []) (h : q.length ≤ fuel + 1) :
    Merges next q (mergeDoc fuel next q) := by
  induction fuel generalizing next q with
  | zero =>
    obtain ⟨n, rfl⟩ := List.length_eq_one_iff.mp (Nat.le_antisymm h (List.length_pos_iff.mpr h0))
    exact .root next n
  | succ fuel ih =>
    obtain ⟨a, q1, h1⟩ := popLeast_isSome h0
    have p1 := popLeast_perm h1
    have l1 := p1.length_eq
    unfold mergeDoc
    rw [h1]
    by_cases he : q1 = []
    · subst he
      rw [List.perm_singleton.mp p1]
      exact .root next a
    · obtain ⟨b, q2, h2⟩ := popLeast_isSome he
      have p2 := popLeast_perm h2
      have l2 := p2.length_eq
      simp only [h2]
      refine .join (rest := q2) (p1.trans (p2.cons a)) (List.perm_append_singleton _ _) (ih _ _ (by simp) ?_)
      simp only [List.length_cons, List.length_append, List.length_nil] at l1 l2 ⊢
      omega

/-! ### The zlib heap -/

theorem set_swap_perm {h : List Node} {i j : Nat} (v : Node) (hi : i < h.length) (hj : j < h.length) (hne : i ≠ j) :
    ((h.set i (h.getD j ⟨0, 0, 0⟩)).set j v).Perm (h.set i v) := by
  have h1 : i < (h.set i v).length := by simpa using hi
  have h2 : j < (h.set i v).length := by simpa using hj
  have := List.set_set_perm h1 h2
  rw [List.getElem_set_self, List.getElem_set_ne hne, List.set_set] at this
  rwa [List.getD_eq_getElem _ _ hj]

/-- DownHeap only moves nodes (R138). -/
theorem downHeap_perm (v : Node) (fuel k : Nat) (h : List Node) (hk : 1 ≤ k) (hl : k ≤ h.length) :
    (downHeap v fuel k h).Perm (h.set (k - 1) v) := by
  induction fuel generalizing k h with
  | zero => exact List.Perm.refl _
  | succ fuel ih =>
    unfold downHeap
    split
    · rename_i h2
      split
      · exact List.Perm.refl _
      · have hc : heapChild h k = 2 * k ∨ heapChild h k = 2 * k + 1 ∧ 2 * k < h.length := by
          unfold heapChild
          split
          · exact .inr ⟨rfl, (‹_ ∧ _›).1⟩
          · exact .inl rfl
        refine (ih _ _ (by omega) (by rw [List.length_set]; omega)).trans ?_
        exact set_swap_perm v (by omega) (by omega) (by omega)
    · exact List.Perm.refl _

theorem siftDown_perm {k : Nat} {h : List Node} (hk : 1 ≤ k) (hl : k ≤ h.length) : (siftDown k h).Perm h := by
  refine (downHeap_perm _ _ k h hk hl).trans ?_
  have hlt : k - 1 < h.length := by omega
  unfold heapAt
  rw [List.getD_eq_getElem _ _ hlt, List.set_getElem_self]

theorem heapify_perm (k : Nat) (h : List Node) (hl : k ≤ h.length) : (heapify k h).Perm h := by
  induction k generalizing h with
  | zero => exact List.Perm.refl _
  | succ k ih =>
    have hp := siftDown_perm (Nat.succ_pos k) hl
    exact (ih _ (by rw [hp.length_eq]; omega)).trans hp

/-- The root of the heap leaves it, and the last node takes its place (R138). -/
theorem takeRoot_perm {h : List Node} (h2 : 2 ≤ h.length) :
    h.Perm (heapAt h 1 :: (h.set 0 (heapAt h h.length)).dropLast) := by
  cases h with
  | nil => simp at h2
  | cons a t =>
    have ht : t ≠ [] := by rintro rfl; simp at h2
    obtain ⟨u, l, rfl⟩ : ∃ u l, t = u ++ [l] := ⟨t.dropLast, t.getLast ht, (List.dropLast_append_getLast ht).symm⟩
    have hl : heapAt (a :: (u ++ [l])) (a :: (u ++ [l])).length = l := by
      unfold heapAt
      simp
    have hd : ((a :: (u ++ [l])).set 0 l).dropLast = l :: u := by
      rw [List.set_cons_zero, ← List.cons_append, List.dropLast_concat]
    rw [hl, hd]
    exact (List.perm_append_singleton l u).cons a

theorem merges_mergeZlib (fuel next : Nat) (h : List Node) (h0 : h ≠ []) (hf : h.length ≤ fuel + 1) :
    Merges next h (mergeZlib fuel next h) := by
  induction fuel generalizing next h with
  | zero =>
    obtain ⟨n, rfl⟩ := List.length_eq_one_iff.mp (Nat.le_antisymm hf (List.length_pos_iff.mpr h0))
    exact .root next n
  | succ fuel ih =>
    have hpos := List.length_pos_iff.mpr h0
    unfold mergeZlib
    split
    · obtain ⟨n, rfl⟩ := List.length_eq_one_iff.mp (show h.length = 1 by omega)
      exact .root next n
    · have p1 := takeRoot_perm (h := h) (by omega)
      have l1 : ((h.set 0 (heapAt h h.length)).dropLast).length = h.length - 1 := by simp
      have p2 := siftDown_perm (k := 1) (h := (h.set 0 (heapAt h h.length)).dropLast) (Nat.le_refl 1) (by omega)
      have l2 := p2.length_eq
      have p := p1.trans (p2.symm.cons _)
      dsimp only
      revert p p2 l2
      generalize siftDown 1 ((h.set 0 (heapAt h h.length)).dropLast) = h1
      intro p2 l2 p
      cases h1 with
      | nil => simp at l2; omega
      | cons b rest =>
        have hset : ∀ x, (b :: rest).set 0 x = x :: rest := fun _ => rfl
        have p3 := siftDown_perm (k := 1) (h := Node.join next (heapAt h 1) b :: rest) (Nat.le_refl 1) (by simp)
        have l3 := p3.length_eq
        simp only [List.length_cons] at l2 l3
        exact .join p p3 (ih _ _ (by rintro he; rw [he] at l3; simp at l3) (by omega))

/-- The merge under either tie rule (R130, R133, R138). -/
theorem merges_merge (tie : HeapTie) (k : TreeKind) (leaves : List Node) (h : leaves ≠ []) :
    ∃ q, q.Perm leaves ∧ Merges k.elems q (merge tie k leaves) := by
  cases tie with
  | docOrder => exact ⟨leaves, List.Perm.refl _, merges_mergeDoc _ _ _ h (Nat.le_succ _)⟩
  | zlibHeap =>
    have hp := heapify_perm (leaves.length / 2) leaves (Nat.div_le_self _ _)
    refine ⟨_, hp, merges_mergeZlib _ _ _ (fun he => h ?_) (by rw [hp.length_eq]; omega)⟩
    rw [he] at hp
    exact List.nil_perm.mp hp

end Sys2Proof.Laws
end

