-- ==== Sys2Proof/Laws/TreeLengths.lean ====
section
/-!
SUPPORT. What FirstLengths leaves (R134), for any merge: the Kraft sum of the clamped lengths exceeds 1 by half of
`overflow`, every leaf has a length, and the level counts and the static cost are those of the leaves.
-/

namespace Sys2Proof.Laws

open Sys2Proof.Machine

variable {k : TreeKind} {mc : Int} {next : Nat} {q : List Node} {r : MergeResult}

/-- Is the node a leaf? (R134: the internal nodes are numbered above `max_code`.) -/
abbrev isLeaf (mc : Int) (n : Node) : Bool := decide ((n.idx : Int) ≤ mc)

/-! ### One visit -/

theorem visit_len (up : Nat) (n : Node) (s : Lengths) :
    (s.visit k mc up n).len = (n.idx, min (up + 1) k.maxLength) :: s.len := by
  unfold Lengths.visit
  dsimp only
  split <;> rfl

theorem visit_overflow (up : Nat) (n : Node) (s : Lengths) :
    (s.visit k mc up n).overflow = if k.maxLength < up + 1 then s.overflow + 1 else s.overflow := by
  unfold Lengths.visit
  dsimp only
  split <;> rfl

theorem visit_static (up : Nat) (n : Node) (s : Lengths) :
    (s.visit k mc up n).static = s.static + if isLeaf mc n then n.freq * staticCost k n.idx else 0 := by
  unfold Lengths.visit
  dsimp only
  by_cases h : (n.idx : Int) ≤ mc <;> simp [h]

theorem countUp_length (c : List Nat) (b : Nat) : (countUp c b).length = c.length := by simp [countUp]

theorem getD_set (c : List Nat) (i j v : Nat) :
    (c.set i v).getD j 0 = if i = j ∧ i < c.length then v else c.getD j 0 := by
  simp only [List.getD_eq_getElem?_getD, List.getElem?_set]
  by_cases h : i = j
  · subst h
    by_cases hl : i < c.length
    · simp [hl]
    · simp [hl]
  · simp [h]

theorem visit_blCount_length (up : Nat) (n : Node) (s : Lengths) :
    (s.visit k mc up n).blCount.length = s.blCount.length := by
  unfold Lengths.visit
  dsimp only
  split
  · exact countUp_length _ _
  · rfl

theorem visit_blCount (up : Nat) (n : Node) (s : Lengths) (hl : s.blCount.length = 16) (i : Nat) :
    (s.visit k mc up n).blCount.getD i 0 =
      s.blCount.getD i 0 + if isLeaf mc n ∧ min (up + 1) k.maxLength = i then 1 else 0 := by
  have hM := maxLength_le k
  have hb : min (up + 1) k.maxLength < s.blCount.length := by omega
  unfold Lengths.visit
  dsimp only
  by_cases h : (n.idx : Int) ≤ mc
  · simp only [h, if_true, isLeaf, decide_true, true_and, countUp, getD_set, hb, and_true]
    split
    · subst_vars; rfl
    · rfl
  · simp [h, isLeaf]

/-! ### The removal list -/

theorem merges_removal_ne (h : Merges next q r) : r.removal ≠ [] := by
  cases h <;> simp [MergeResult.cons]

theorem merges_removal_mem (h : Merges next q r) : ∀ n ∈ r.removal, n ∈ q ∨ next ≤ n.idx := by
  induction h with
  | root next n => exact fun m hm => .inl hm
  | @join next q rest q' a b r hq hq' hr ih =>
    intro n hn
    simp only [MergeResult.cons, List.mem_cons] at hn
    rcases hn with rfl | rfl | hn
    · exact .inl (hq.mem_iff.mpr List.mem_cons_self)
    · exact .inl (hq.mem_iff.mpr (List.mem_cons_of_mem _ List.mem_cons_self))
    · rcases ih n hn with h | h
      · rcases List.mem_cons.mp (hq'.mem_iff.mp h) with rfl | h
        · exact .inr (Nat.le_refl _)
        · exact .inl (hq.mem_iff.mpr (List.mem_cons_of_mem _ (List.mem_cons_of_mem _ h)))
      · exact .inr (by omega)

/-- The nodes of a queue are distinct and numbered below `next`. -/
def FreshQueue (next : Nat) (q : List Node) : Prop := (q.map Node.idx).Nodup ∧ ∀ n ∈ q, n.idx < next

theorem FreshQueue.perm {q' : List Node} (h : FreshQueue next q) (hp : q.Perm q') : FreshQueue next q' :=
  ⟨(hp.map _).nodup_iff.mp h.1, fun n hn => h.2 n (hp.mem_iff.mpr hn)⟩

theorem FreshQueue.join {rest : List Node} {a b : Node} (h : FreshQueue next (a :: b :: rest)) :
    FreshQueue (next + 1) (Node.join next a b :: rest) := by
  obtain ⟨h1, h2⟩ := h
  simp only [List.map_cons, List.nodup_cons, List.mem_cons, List.mem_map, not_or, not_exists, not_and] at h1
  refine ⟨?_, fun n hn => ?_⟩
  · simp only [List.map_cons, List.nodup_cons, List.mem_map, not_exists, not_and]
    refine ⟨fun n hn he => ?_, h1.2.2⟩
    have := h2 n (List.mem_cons_of_mem _ (List.mem_cons_of_mem _ hn))
    have : (Node.join next a b).idx = next := rfl
    omega
  · rcases List.mem_cons.mp hn with rfl | hn
    · exact Nat.lt_succ_self _
    · have := h2 n (List.mem_cons_of_mem _ (List.mem_cons_of_mem _ hn))
      omega

/-- The leaves of the removal list are the leaves of the queue. -/
theorem merges_leaves (h : Merges next q r) (hmc : mc < next) :
    (r.removal.filter (isLeaf mc)).Perm (q.filter (isLeaf mc)) := by
  induction h with
  | root next n => exact List.Perm.refl _
  | @join next q rest q' a b r hq hq' hr ih =>
    have ih := (ih (by omega)).trans (hq'.filter _)
    have hj : isLeaf mc (Node.join next a b) = false := by
      have : (Node.join next a b).idx = next := rfl
      simp only [isLeaf, this, decide_eq_false_iff_not]
      omega
    rw [List.filter_cons, hj] at ih
    refine List.Perm.trans ?_ (hq.filter _).symm
    simp only [MergeResult.cons, List.filter_cons]
    split <;> split <;> simp_all

/-! ### FirstLengths -/

/-- FirstLengths reads the removal list from its end, so a join adds the visits of its two nodes (R134). -/
theorem firstLengths_cons {q' : List Node} {a b : Node} (hr : Merges (next + 1) q' r) (hab : a.idx ≠ b.idx)
    (hbn : b.idx ≠ next) (hd : ∀ n ∈ r.removal, n.idx ≠ a.idx ∧ n.idx ≠ b.idx) :
    firstLengths k mc (r.cons a b next) =
      ((firstLengths k mc r).visit k mc ((firstLengths k mc r).len.get next) b).visit k mc
        ((firstLengths k mc r).len.get next) a := by
  obtain ⟨root, rest, hrev⟩ : ∃ root rest, r.removal.reverse = root :: rest := by
    cases hx : r.removal.reverse with
    | nil => exact absurd (by simpa using hx) (merges_removal_ne hr)
    | cons root rest => exact ⟨root, rest, rfl⟩
  have hmem : ∀ n ∈ rest, n ∈ r.removal := fun n hn => by
    have : n ∈ r.removal.reverse := hrev ▸ List.mem_cons_of_mem _ hn
    simpa using this
  have hrev' : (r.cons a b next).removal.reverse = root :: (rest ++ [b, a]) := by
    simp [MergeResult.cons, hrev]
  unfold firstLengths
  rw [hrev', hrev]
  simp only [List.foldl_append, List.foldl_cons, List.foldl_nil]
  have hp : ∀ i, Assoc.get (r.cons a b next).parents i =
      if i = a.idx then next else if i = b.idx then next else Assoc.get r.parents i := fun i => by
    simp only [MergeResult.cons, assoc_get_cons]
  have hcong : ∀ (l : List Node) (s : Lengths), (∀ n ∈ l, n ∈ r.removal) →
      l.foldl (fun s n => s.visit k mc (s.len.get (Assoc.get (r.cons a b next).parents n.idx)) n) s =
        l.foldl (fun s n => s.visit k mc (s.len.get (Assoc.get r.parents n.idx)) n) s := by
    intro l
    induction l with
    | nil => intros; rfl
    | cons n l ih =>
      intro s hl
      have hn := hd n (hl n List.mem_cons_self)
      rw [List.foldl_cons, List.foldl_cons, hp n.idx, if_neg hn.1, if_neg hn.2]
      exact ih _ fun m hm => hl m (List.mem_cons_of_mem _ hm)
  rw [hcong rest _ hmem, hp b.idx, if_neg (Ne.symm hab), if_pos rfl, hp a.idx, if_pos rfl, visit_len, assoc_get_cons,
    if_neg (Ne.symm hbn)]

/-- What is known of the lengths of the nodes of a queue after the merge has been read back to it. -/
structure TreeInv (k : TreeKind) (mc : Int) (next : Nat) (q : List Node) (s : Lengths) : Prop where
  kraft : 2 * (q.map fun n => 2 ^ (k.maxLength - s.len.get n.idx)).sum = 2 * 2 ^ k.maxLength + s.overflow
  deep : s.overflow ≤ 2 * q.countP fun n => decide (s.len.get n.idx = k.maxLength)
  pos : 2 ≤ q.length → ∀ n ∈ q, 1 ≤ s.len.get n.idx
  unlisted : ∀ i < next, (∀ n ∈ q, n.idx ≠ i) → s.len.get i = 0
  counted : s.blCount.length = 16
  counts : (2 ≤ q.length ∨ ∀ n ∈ q, isLeaf mc n = false) → ∀ i,
    s.blCount.getD i 0 = q.countP fun n => isLeaf mc n && decide (s.len.get n.idx = i)
  static : (2 ≤ q.length ∨ ∀ n ∈ q, isLeaf mc n = false) →
    s.static = (q.map fun n => if isLeaf mc n then n.freq * staticCost k n.idx else 0).sum

theorem TreeInv.perm {q' : List Node} {s : Lengths} (h : TreeInv k mc next q s) (hp : q.Perm q') :
    TreeInv k mc next q' s where
  kraft := by rw [← h.kraft, (hp.map _).sum_eq]
  deep := by rw [← hp.countP_eq]; exact h.deep
  pos hl n hn := h.pos (by rw [hp.length_eq]; exact hl) n (hp.mem_iff.mpr hn)
  unlisted i hi hn := h.unlisted i hi fun n h' => hn n (hp.mem_iff.mp h')
  counted := h.counted
  counts hc i := by
    rw [h.counts ?_ i, hp.countP_eq]
    rw [hp.length_eq]
    exact hc.imp_right fun h n hn => h n (hp.mem_iff.mp hn)
  static hc := by
    rw [h.static ?_, (hp.map _).sum_eq]
    rw [hp.length_eq]
    exact hc.imp_right fun h n hn => h n (hp.mem_iff.mp hn)

theorem treeInv_root (n : Node) : TreeInv k mc next [n] (firstLengths k mc ⟨[n], []⟩) := by
  have hs : firstLengths k mc ⟨[n], []⟩ = ⟨[(n.idx, 0)], List.replicate 16 0, 0, 0, 0⟩ := rfl
  have h0 : Assoc.get [(n.idx, 0)] n.idx = 0 := by rw [assoc_get_cons, if_pos rfl]
  rw [hs]
  refine ⟨?_, Nat.zero_le _, fun h => absurd h (by simp), fun i _ hne => ?_, rfl, fun hc i => ?_, fun hc => ?_⟩
  · simp [h0]
  · rw [assoc_get_cons, if_neg (Ne.symm (hne n List.mem_cons_self)), assoc_get_nil]
  · have hl : isLeaf mc n = false := (hc.resolve_left (by simp)) n List.mem_cons_self
    have h16 : (List.replicate 16 0).getD i 0 = 0 := by
      simp only [List.getD_eq_getElem?_getD, List.getElem?_replicate]
      split <;> rfl
    refine h16.trans ?_
    rw [List.countP_cons, hl]
    rfl
  · have hl : isLeaf mc n = false := (hc.resolve_left (by simp)) n List.mem_cons_self
    rw [List.map_cons, hl]
    rfl

/-- One join: if the invariant holds of the queue with the joined node, it holds of the queue with its two parts. -/
theorem treeInv_join {rest : List Node} {a b : Node} {s : Lengths} (hmc : mc < next)
    (hf : FreshQueue next (a :: b :: rest)) (hle : Assoc.Le k.maxLength s.len)
    (h : TreeInv k mc (next + 1) (Node.join next a b :: rest) s) :
    TreeInv k mc next (a :: b :: rest) ((s.visit k mc (s.len.get next) b).visit k mc (s.len.get next) a) := by
  obtain ⟨hnd, hlt⟩ := hf
  simp only [List.map_cons, List.nodup_cons, List.mem_cons, List.mem_map, not_or, not_exists, not_and] at hnd
  obtain ⟨⟨hab, har⟩, hbr, -⟩ := hnd
  have hjoin : (Node.join next a b).idx = next := rfl
  have hjl : isLeaf mc (Node.join next a b) = false := by
    simp only [isLeaf, hjoin, decide_eq_false_iff_not]
    omega
  generalize hl : s.len.get next = l
  have hlM : l ≤ k.maxLength := hl ▸ hle next
  have hM1 : 1 ≤ k.maxLength := by cases k <;> decide
  have hlen : ∀ i, ((s.visit k mc l b).visit k mc l a).len.get i =
      if i = a.idx then min (l + 1) k.maxLength else if i = b.idx then min (l + 1) k.maxLength else s.len.get i := by
    intro i
    rw [visit_len, assoc_get_cons, visit_len, assoc_get_cons]
  have ha : ((s.visit k mc l b).visit k mc l a).len.get a.idx = min (l + 1) k.maxLength := by rw [hlen, if_pos rfl]
  have hb : ((s.visit k mc l b).visit k mc l a).len.get b.idx = min (l + 1) k.maxLength := by
    rw [hlen, if_neg (Ne.symm hab), if_pos rfl]
  have hrest : ∀ n ∈ rest, ((s.visit k mc l b).visit k mc l a).len.get n.idx = s.len.get n.idx := by
    intro n hn
    rw [hlen, if_neg (har n hn), if_neg (hbr n hn)]
  have hcond : 2 ≤ (Node.join next a b :: rest).length ∨
      ∀ n ∈ Node.join next a b :: rest, isLeaf mc n = false := by
    cases rest with
    | nil =>
      refine .inr fun n hn => ?_
      rw [List.mem_singleton.mp hn]
      exact hjl
    | cons m rest => exact .inl (by simp)
  refine ⟨?_, ?_, fun _ n hn => ?_, fun i hi hne => ?_, ?_, fun _ i => ?_, fun _ => ?_⟩
  · have hk := h.kraft
    simp only [List.map_cons, List.sum_cons, hjoin, hl] at hk
    simp only [List.map_cons, List.sum_cons, ha, hb]
    rw [List.map_congr_left fun n hn => by rw [hrest n hn], visit_overflow, visit_overflow]
    by_cases hc : l < k.maxLength
    · have e : k.maxLength - l = (k.maxLength - min (l + 1) k.maxLength) + 1 := by omega
      rw [if_neg (by omega), if_neg (by omega)]
      rw [e, Nat.pow_succ] at hk
      omega
    · have e1 : k.maxLength - l = 0 := by omega
      have e2 : k.maxLength - min (l + 1) k.maxLength = 0 := by omega
      rw [if_pos (by omega), if_pos (by omega), e2]
      rw [e1] at hk
      simp only [Nat.pow_zero] at hk ⊢
      omega
  · have hd := h.deep
    rw [List.countP_cons] at hd
    rw [List.countP_cons, List.countP_cons, visit_overflow, visit_overflow]
    have e : rest.countP (fun n => decide (((s.visit k mc l b).visit k mc l a).len.get n.idx = k.maxLength)) =
        rest.countP fun n => decide (s.len.get n.idx = k.maxLength) :=
      List.countP_congr fun n hn => by rw [hrest n hn]
    rw [e, ha, hb]
    simp only [hjoin, hl, decide_eq_true_eq] at hd ⊢
    split at hd <;> repeat' split
    all_goals omega
  · rcases List.mem_cons.mp hn with rfl | hn
    · rw [ha]; omega
    · rcases List.mem_cons.mp hn with rfl | hn
      · rw [hb]; omega
      · rw [hrest n hn]
        refine h.pos ?_ n (List.mem_cons_of_mem _ hn)
        have := List.length_pos_of_mem hn
        simp only [List.length_cons]
        omega
  · have h1 := hne a List.mem_cons_self
    have h2 := hne b (List.mem_cons_of_mem _ List.mem_cons_self)
    rw [hlen, if_neg (Ne.symm h1), if_neg (Ne.symm h2)]
    refine h.unlisted i (by omega) fun n hn => ?_
    rcases List.mem_cons.mp hn with rfl | hn
    · rw [hjoin]; omega
    · exact hne n (List.mem_cons_of_mem _ (List.mem_cons_of_mem _ hn))
  · rw [visit_blCount_length, visit_blCount_length, h.counted]
  · have hc := h.counts hcond i
    rw [List.countP_cons] at hc
    rw [visit_blCount _ _ _ (by rw [visit_blCount_length, h.counted]), visit_blCount _ _ _ h.counted, hc,
      List.countP_cons, List.countP_cons]
    have e : rest.countP (fun n => isLeaf mc n &&
          decide (((s.visit k mc l b).visit k mc l a).len.get n.idx = i)) =
        rest.countP fun n => isLeaf mc n && decide (s.len.get n.idx = i) :=
      List.countP_congr fun n hn => by rw [hrest n hn]
    rw [e, ha, hb, hjl]
    simp only [Bool.false_and, Bool.false_eq_true, if_false, Bool.and_eq_true, decide_eq_true_eq]
    omega
  · have hs := h.static hcond
    simp only [List.map_cons, List.sum_cons, hjl, Bool.false_eq_true, if_false, zero_add] at hs
    rw [visit_static, visit_static, hs]
    simp only [List.map_cons, List.sum_cons]
    omega

/-- FirstLengths after a merge (R134). -/
theorem treeInv_firstLengths (h : Merges next q r) (hf : FreshQueue next q) (hmc : mc < next) :
    TreeInv k mc next q (firstLengths k mc r) := by
  induction h with
  | root next n => exact treeInv_root n
  | @join next q rest q' a b r hq hq' hr ih =>
    have hf' := hf.perm hq
    have hfj := hf'.join
    have ih := (ih (hfj.perm hq'.symm) (by omega)).perm hq'
    refine TreeInv.perm ?_ hq.symm
    have hfc := hf'
    obtain ⟨hnd, hlt⟩ := hfc
    simp only [List.map_cons, List.nodup_cons, List.mem_cons, List.mem_map, not_or, not_exists, not_and] at hnd
    obtain ⟨⟨hab, har⟩, hbr, -⟩ := hnd
    have hla := hlt a List.mem_cons_self
    have hlb := hlt b (List.mem_cons_of_mem _ List.mem_cons_self)
    rw [firstLengths_cons hr hab (by omega) fun n hn => ?_]
    · exact treeInv_join hmc hf' (firstLengths_le k mc r) ih
    · rcases merges_removal_mem hr n hn with h | h
      · rcases List.mem_cons.mp (hq'.mem_iff.mp h) with rfl | h
        · have : (Node.join next a b).idx = next := rfl
          omega
        · exact ⟨har n h, hbr n h⟩
      · omega

end Sys2Proof.Laws
end

