-- ==== Sys2Proof/Laws/TreeOk.lean ====
section
/-!
SUPPORT. What BuildTree leaves (R139): CorrectOverflow always ends (R135), every used symbol has a length, and the
lengths fill the code space exactly.
-/

namespace Sys2Proof.Laws

open Sys2Proof.Machine

variable {mc : Int}

/-! ### CorrectOverflow -/

/-- The Kraft sum of level counts, in units of the deepest level. -/
def levelKraft (M : Nat) (c : List Nat) : Nat := ∑ i ∈ Finset.range (M + 1), c.getD i 0 * 2 ^ (M - i)

/-- The leaves at levels 0..`M`. -/
def levelTotal (M : Nat) (c : List Nat) : Nat := ∑ i ∈ Finset.range (M + 1), c.getD i 0

theorem findLevel_some {c : List Nat} {b r : Nat} (h : findLevel c b = some r) : 1 ≤ r ∧ r ≤ b ∧ c.getD r 0 ≠ 0 := by
  induction b with
  | zero => cases h
  | succ b ih =>
    unfold findLevel at h
    split at h
    · have := ih h
      exact ⟨this.1, by omega, this.2.2⟩
    · cases h
      exact ⟨by omega, Nat.le_refl _, ‹_›⟩

theorem findLevel_none {c : List Nat} {b : Nat} (h : findLevel c b = none) : ∀ i, 1 ≤ i → i ≤ b → c.getD i 0 = 0 := by
  induction b with
  | zero => intro i h1 h2; omega
  | succ b ih =>
    unfold findLevel at h
    split at h
    · intro i h1 h2
      by_cases hi : i = b + 1
      · subst hi; assumption
      · exact ih h i h1 (by omega)
    · cases h

theorem moveLeaf_length (M bits : Nat) (c : List Nat) : (moveLeaf M bits c).length = c.length := by simp [moveLeaf]

/-- One round of CorrectOverflow, level by level. -/
theorem moveLeaf_getD {M bits : Nat} {c : List Nat} (hc : c.length = 16) (hM : M ≤ 15) (hb : bits + 1 ≤ M)
    (h1 : c.getD bits 0 ≠ 0) (hm : 1 ≤ c.getD M 0) (i : Nat) :
    c.getD i 0 + (if i = bits + 1 then 2 else 0) =
      (moveLeaf M bits c).getD i 0 + (if i = bits then 1 else 0) + (if i = M then 1 else 0) := by
  have e1 : bits < 16 := by omega
  have e2 : bits + 1 < 16 := by omega
  have e3 : M < 16 := by omega
  simp only [moveLeaf, getD_set, List.length_set, hc, e1, e2, e3, and_true]
  have g1 : i = M → c.getD i 0 = c.getD M 0 := by rintro rfl; rfl
  have g2 : i = bits → c.getD i 0 = c.getD bits 0 := by rintro rfl; rfl
  have g3 : i = bits + 1 → c.getD i 0 = c.getD (bits + 1) 0 := by rintro rfl; rfl
  have g4 : bits + 1 = M → c.getD (bits + 1) 0 = c.getD M 0 := by rintro rfl; rfl
  split_ifs <;> omega

theorem moveLeaf_sum {M bits : Nat} {c : List Nat} (hc : c.length = 16) (hM : M ≤ 15) (hb : bits + 1 ≤ M)
    (h1 : c.getD bits 0 ≠ 0) (hm : 1 ≤ c.getD M 0) (w : Nat → Nat) :
    (∑ i ∈ Finset.range (M + 1), c.getD i 0 * w i) + 2 * w (bits + 1) =
      (∑ i ∈ Finset.range (M + 1), (moveLeaf M bits c).getD i 0 * w i) + w bits + w M := by
  have e : ∀ (j v : Nat), j ≤ M → ∑ i ∈ Finset.range (M + 1), (if i = j then v else 0) * w i = v * w j := by
    intro j v hj
    rw [Finset.sum_eq_single j]
    · simp
    · intro i _ hi
      simp [hi]
    · intro hn
      exact absurd (Finset.mem_range.mpr (by omega)) hn
  have h : ∑ i ∈ Finset.range (M + 1), (c.getD i 0 + (if i = bits + 1 then 2 else 0)) * w i =
      ∑ i ∈ Finset.range (M + 1),
        ((moveLeaf M bits c).getD i 0 + (if i = bits then 1 else 0) + (if i = M then 1 else 0)) * w i :=
    Finset.sum_congr rfl fun i _ => by rw [moveLeaf_getD hc hM hb h1 hm i]
  simp only [Nat.add_mul, Finset.sum_add_distrib] at h
  rw [e _ _ hb, e _ _ (by omega), e _ _ (Nat.le_refl M)] at h
  omega

/-- CorrectOverflow ends with a full code, whatever it starts from (R135: it never reaches `bits = 0`). -/
theorem correctOverflow_spec {M : Nat} (hM1 : 1 ≤ M) (hM : M ≤ 15) (fuel overflow : Nat) (c : List Nat)
    (hfuel : overflow ≤ fuel) (hc : c.length = 16) (h0 : c.getD 0 0 = 0)
    (hk : 2 * levelKraft M c = 2 * 2 ^ M + overflow) (hd : overflow ≤ 2 * c.getD M 0) (hn : levelTotal M c < 2 ^ M) :
    ∃ c', correctOverflow M fuel overflow c = some c' ∧ c'.getD 0 0 = 0 ∧ levelKraft M c' = 2 ^ M ∧
      levelTotal M c' = levelTotal M c := by
  induction fuel generalizing overflow c with
  | zero =>
    have : overflow = 0 := by omega
    subst this
    exact ⟨c, rfl, h0, by omega, rfl⟩
  | succ fuel ih =>
    unfold correctOverflow
    by_cases hz : overflow = 0
    · subst hz
      exact ⟨c, by simp, h0, by omega, rfl⟩
    · rw [if_neg hz]
      cases hf : findLevel c (M - 1) with
      | none =>
        exfalso
        have hall := findLevel_none hf
        have hzero : ∀ i ∈ Finset.range M, c.getD i 0 = 0 := by
          intro i hi
          rw [Finset.mem_range] at hi
          by_cases hi0 : i = 0
          · subst hi0; exact h0
          · exact hall i (by omega) (by omega)
        have hk' : levelKraft M c = c.getD M 0 := by
          unfold levelKraft
          rw [Finset.sum_range_succ, Finset.sum_eq_zero fun i hi => by rw [hzero i hi, Nat.zero_mul]]
          simp
        have hn' : levelTotal M c = c.getD M 0 := by
          unfold levelTotal
          rw [Finset.sum_range_succ, Finset.sum_eq_zero hzero, Nat.zero_add]
        omega
      | some bits =>
        obtain ⟨hb1, hb2, hb3⟩ := findLevel_some hf
        have hbM : bits + 1 ≤ M := by omega
        have hm : 1 ≤ c.getD M 0 := by omega
        have hks := moveLeaf_sum hc hM hbM hb3 hm fun i => 2 ^ (M - i)
        have hns := moveLeaf_sum hc hM hbM hb3 hm fun _ => 1
        simp only [Nat.mul_one] at hns
        have ew : 2 ^ (M - bits) = 2 * 2 ^ (M - (bits + 1)) := by
          have : M - bits = M - (bits + 1) + 1 := by omega
          rw [this, Nat.pow_succ]
          omega
        have eM : 2 ^ (M - M) = 1 := by simp
        have hk2 : levelKraft M (moveLeaf M bits c) + 1 = levelKraft M c := by
          unfold levelKraft
          omega
        have hn2 : levelTotal M (moveLeaf M bits c) = levelTotal M c := by
          unfold levelTotal
          omega
        have hg0 := moveLeaf_getD hc hM hbM hb3 hm 0
        have hgM := moveLeaf_getD hc hM hbM hb3 hm M
        have hz0 : ¬ 0 = bits := by omega
        have hz1 : ¬ 0 = bits + 1 := by omega
        have hz2 : ¬ 0 = M := by omega
        have hz3 : ¬ M = bits := by omega
        simp only [hz0, hz1, hz2, if_false, Nat.add_zero] at hg0
        simp only [hz3, if_false, Nat.add_zero, if_true] at hgM
        obtain ⟨c', h1, h2, h3, h4⟩ := ih (overflow - 2) (moveLeaf M bits c) (by omega)
          (by rw [moveLeaf_length, hc]) (by omega) (by omega) (by split at hgM <;> omega) (by omega)
        have hall : moveAllowed M bits c = true := by
          simp only [moveAllowed, Bool.or_eq_true, decide_eq_true_eq]
          exact .inr hm
        exact ⟨c', by simpa only [hall, if_true] using h1, h2, h3, h4.trans hn2⟩

/-! ### ReassignLengths -/

theorem assign_get (s : Reassigned) (bits : Nat) (m : Node) (i : Nat) :
    (s.assign bits m).len.get i = if i = m.idx then bits else s.len.get i := by
  unfold Reassigned.assign
  split
  · split
    · subst_vars; rfl
    · rfl
  · exact assoc_get_cons _ _ _ _

/-- One length of R136: the next `count` leaves get it, and the leaves after them are left. -/
theorem reassignLevel_spec (bits : Nat) (rest : List Node) (count : Nat) (s : Reassigned) :
    (reassignLevel mc bits count rest s).1.filter (isLeaf mc) = (rest.filter (isLeaf mc)).drop count ∧
      ∀ i, (reassignLevel mc bits count rest s).2.len.get i =
        if i ∈ ((rest.filter (isLeaf mc)).take count).map Node.idx then bits else s.len.get i := by
  induction rest generalizing count s with
  | nil => cases count <;> simp [reassignLevel]
  | cons m rest ih =>
    cases count with
    | zero => simp [reassignLevel]
    | succ count =>
      unfold reassignLevel
      by_cases hl : mc < m.idx
      · have hf : isLeaf mc m = false := by
          simp only [isLeaf, decide_eq_false_iff_not]
          omega
        rw [if_pos hl, List.filter_cons, hf]
        exact ih (count + 1) s
      · have hf : isLeaf mc m = true := by
          simp only [isLeaf, decide_eq_true_eq]
          omega
        rw [if_neg hl, List.filter_cons, hf]
        obtain ⟨h1, h2⟩ := ih count (s.assign bits m)
        refine ⟨by simpa using h1, fun i => ?_⟩
        rw [h2, assign_get]
        simp only [if_true, List.take_succ_cons, List.map_cons, List.mem_cons]
        by_cases hi : i = m.idx <;> simp [hi]

theorem levels_succ (c : List Nat) (bits : Nat) (w : Nat → Nat) :
    ∑ b ∈ Finset.range (bits + 1), c.getD (b + 1) 0 * w (b + 1) =
      (∑ b ∈ Finset.range bits, c.getD (b + 1) 0 * w (b + 1)) + c.getD (bits + 1) 0 * w (bits + 1) :=
  Finset.sum_range_succ _ _

/-- ReassignLengths (R136) gives each leaf a length of at least 1, as many of each length as the counts say. -/
theorem reassignLengths_spec (c : List Nat) (bits : Nat) (rest : List Node) (s : Reassigned)
    (hnd : ((rest.filter (isLeaf mc)).map Node.idx).Nodup)
    (hlen : (rest.filter (isLeaf mc)).length = ∑ b ∈ Finset.range bits, c.getD (b + 1) 0) :
    (∀ n ∈ rest.filter (isLeaf mc), 1 ≤ (reassignLengths mc c bits rest s).len.get n.idx) ∧
      (∀ i, i ∉ (rest.filter (isLeaf mc)).map Node.idx →
        (reassignLengths mc c bits rest s).len.get i = s.len.get i) ∧
      ∀ w : Nat → Nat, ((rest.filter (isLeaf mc)).map fun n => w ((reassignLengths mc c bits rest s).len.get n.idx)).sum =
        ∑ b ∈ Finset.range bits, c.getD (b + 1) 0 * w (b + 1) := by
  induction bits generalizing rest s with
  | zero =>
    have : rest.filter (isLeaf mc) = [] := List.length_eq_zero_iff.mp (by simpa using hlen)
    rw [this]
    exact ⟨fun n hn => absurd hn List.not_mem_nil, fun i _ => rfl, fun w => rfl⟩
  | succ bits ih =>
    obtain ⟨h1, h2⟩ := reassignLevel_spec (mc := mc) (bits + 1) rest (c.getD (bits + 1) 0) s
    unfold reassignLengths
    revert h1 h2
    generalize reassignLevel mc (bits + 1) (c.getD (bits + 1) 0) rest s = p
    obtain ⟨rest', s'⟩ := p
    intro h1 h2
    simp only at h1 h2
    dsimp only
    generalize hL : rest.filter (isLeaf mc) = L at *
    rw [Finset.sum_range_succ] at hlen
    have hsplit : L = L.take (c.getD (bits + 1) 0) ++ L.drop (c.getD (bits + 1) 0) := (List.take_append_drop _ L).symm
    have hnd' : ((rest'.filter (isLeaf mc)).map Node.idx).Nodup := by
      rw [h1]
      exact hnd.sublist ((List.drop_sublist _ L).map _)
    obtain ⟨ih1, ih2, ih3⟩ := ih rest' s' hnd' (by rw [h1, List.length_drop]; omega)
    rw [h1] at ih1 ih2 ih3
    have hdisj : ∀ n ∈ L.take (c.getD (bits + 1) 0), n.idx ∉ (L.drop (c.getD (bits + 1) 0)).map Node.idx := by
      intro n hn hm
      rw [hsplit, List.map_append, List.nodup_append] at hnd
      exact hnd.2.2 _ (List.mem_map_of_mem hn) _ hm rfl
    have htake : ∀ n ∈ L.take (c.getD (bits + 1) 0),
        (reassignLengths mc c bits rest' s').len.get n.idx = bits + 1 := by
      intro n hn
      rw [ih2 _ (hdisj n hn), h2, if_pos (List.mem_map_of_mem hn)]
    refine ⟨fun n hn => ?_, fun i hi => ?_, fun w => ?_⟩
    · rw [hsplit] at hn
      rcases List.mem_append.mp hn with hn | hn
      · rw [htake n hn]; omega
      · exact ih1 n hn
    · rw [hsplit, List.map_append, List.mem_append, not_or] at hi
      rw [ih2 i hi.2, h2, if_neg hi.1]
    · rw [levels_succ, ← ih3 w]
      conv_lhs => rw [hsplit]
      rw [List.map_append, List.sum_append, List.map_congr_left fun n hn => by rw [htake n hn]]
      rw [List.map_const', List.sum_replicate, List.length_take]
      have : min (c.getD (bits + 1) 0) L.length = c.getD (bits + 1) 0 := by omega
      rw [this, smul_eq_mul]
      omega

end Sys2Proof.Laws
end

