-- ==== Sys2Proof/Laws/BuiltTree.lean ====
section
/-!
SUPPORT. BuildTree from its frequencies (R130 to R139): what every tree it returns satisfies, under either tie rule.
-/

namespace Sys2Proof.Laws

open Sys2Proof.Machine

variable {k : TreeKind} {freq : Memory 16}

/-! ### The leaves -/

/-- The leaves of the symbols in `l`. -/
def leavesIn (freq : Memory 16) (l : List Nat) : List Node :=
  l.filterMap fun n => if freq.read n = 0 then none else some ⟨n, (freq.read n).toNat, 0⟩

theorem leavesIn_cons (n : Nat) (l : List Nat) :
    leavesIn freq (n :: l) =
      if freq.read n = 0 then leavesIn freq l else ⟨n, (freq.read n).toNat, 0⟩ :: leavesIn freq l := by
  unfold leavesIn
  rw [List.filterMap_cons]
  split <;> split at * <;> simp_all

theorem leavesIn_map_idx (l : List Nat) :
    (leavesIn freq l).map Node.idx = l.filter fun n => decide (freq.read n ≠ 0) := by
  induction l with
  | nil => rfl
  | cons n l ih =>
    rw [leavesIn_cons, List.filter_cons]
    by_cases h : freq.read n = 0
    · rw [if_pos h, ih, if_neg (by simpa using h)]
    · rw [if_neg h, List.map_cons, ih, if_pos (by simpa using h)]

theorem leavesIn_sum (l : List Nat) (f : Nat → Int) :
    ((leavesIn freq l).map fun n => (n.freq : Int) * f n.idx).sum =
      (l.map fun n => ((freq.read n).toNat : Int) * f n).sum := by
  induction l with
  | nil => rfl
  | cons n l ih =>
    rw [leavesIn_cons]
    by_cases h : freq.read n = 0
    · rw [if_pos h, ih, List.map_cons, List.sum_cons, h]
      simp
    · rw [if_neg h, List.map_cons, List.sum_cons, ih, List.map_cons, List.sum_cons]

theorem mem_leaves_idx (n : Nat) :
    n ∈ (leavesOf k freq).map Node.idx ↔ n < k.elems ∧ freq.read n ≠ 0 := by
  have h : leavesOf k freq = leavesIn freq (List.range k.elems) := rfl
  rw [h, leavesIn_map_idx, List.mem_filter, List.mem_range, decide_eq_true_eq]

theorem leaves_nodup : ((leavesOf k freq).map Node.idx).Nodup := by
  have h : leavesOf k freq = leavesIn freq (List.range k.elems) := rfl
  rw [h, leavesIn_map_idx]
  exact List.nodup_range.filter _

theorem foldl_max_ge (l : List Node) (m : Int) :
    m ≤ l.foldl (fun m n => max m (n.idx : Int)) m ∧ ∀ n ∈ l, (n.idx : Int) ≤ l.foldl (fun m n => max m (n.idx : Int)) m := by
  induction l generalizing m with
  | nil => exact ⟨Int.le_refl m, fun n hn => absurd hn List.not_mem_nil⟩
  | cons x l ih =>
    have h := ih (max m x.idx)
    simp only [List.foldl_cons]
    refine ⟨by omega, fun n hn => ?_⟩
    rcases List.mem_cons.mp hn with rfl | hn
    · omega
    · exact h.2 n hn

theorem foldl_max_lt (l : List Node) (m b : Int) (hm : m < b) (h : ∀ n ∈ l, (n.idx : Int) < b) :
    l.foldl (fun m n => max m (n.idx : Int)) m < b := by
  induction l generalizing m with
  | nil => exact hm
  | cons x l ih =>
    have := h x List.mem_cons_self
    exact ih (max m x.idx) (by omega) fun n hn => h n (List.mem_cons_of_mem _ hn)

/-- A leaf that CompleteDegenerate adds (R132). -/
def forcedNode (n : Nat) : Node := ⟨n, 1, 0⟩

/-- CompleteDegenerate (R132): at least two leaves, the added ones among symbols 0, 1 and 2. -/
theorem completeDegenerate_spec (k : TreeKind) (freq : Memory 16) :
    ∃ (extra : List Nat) (mc : Int), completeDegenerate 2 (leavesOf k freq) (maxCodeOf (leavesOf k freq)) =
        (leavesOf k freq ++ extra.map forcedNode, mc, extra) ∧
      (∀ n ∈ extra, n ≤ 2) ∧ FreshQueue k.elems (leavesOf k freq ++ extra.map forcedNode) ∧
      2 ≤ (leavesOf k freq ++ extra.map forcedNode).length ∧
      (∀ n ∈ leavesOf k freq ++ extra.map forcedNode, (n.idx : Int) ≤ mc) ∧ 0 ≤ mc ∧ mc < k.elems := by
  have hlt : ∀ n ∈ leavesOf k freq, n.idx < k.elems := fun n hn =>
    ((mem_leaves_idx n.idx).mp (List.mem_map_of_mem hn)).1
  have hnd := leaves_nodup (k := k) (freq := freq)
  have hge := (foldl_max_ge (leavesOf k freq) (-1)).2
  have hmx : List.foldl (fun m (n : Node) => max m (n.idx : Int)) (-1) (leavesOf k freq) < (k.elems : Nat) :=
    foldl_max_lt _ _ _ (by omega) fun n hn => by
      have := hlt n hn
      omega
  have h19 : 19 ≤ k.elems := by cases k <;> decide
  unfold maxCodeOf
  generalize leavesOf k freq = L at *
  match L, hlt, hnd, hge, hmx with
  | [], _, _, _, _ =>
    refine ⟨[0, 1], 1, rfl, by decide, ⟨by simp [forcedNode], fun n hn => ?_⟩, by decide, by decide, by decide, by omega⟩
    simp only [List.nil_append, List.map_cons, List.map_nil, List.mem_cons, List.not_mem_nil, or_false] at hn
    rcases hn with rfl | rfl
    · show 0 < k.elems
      omega
    · show 1 < k.elems
      omega
  | [x], hlt, _, _, _ =>
    have hx := hlt x List.mem_cons_self
    have hm : List.foldl (fun m (n : Node) => max m (n.idx : Int)) (-1) [x] = x.idx := by
      simp only [List.foldl_cons, List.foldl_nil]
      omega
    rw [hm]
    by_cases h2 : (x.idx : Int) < 2
    · refine ⟨[x.idx + 1], x.idx + 1, ?_, by simp; omega, ⟨by simp [forcedNode], fun n hn => ?_⟩, by simp, fun n hn => ?_,
        by omega, by omega⟩
      · simp [completeDegenerate, forcedLeaf, forcedNode, h2]
      · simp only [List.map_cons, List.map_nil, List.cons_append, List.nil_append, List.mem_cons, List.not_mem_nil,
          or_false] at hn
        rcases hn with rfl | rfl
        · exact hx
        · show x.idx + 1 < k.elems
          omega
      · simp only [List.map_cons, List.map_nil, List.cons_append, List.nil_append, List.mem_cons, List.not_mem_nil,
          or_false] at hn
        rcases hn with rfl | rfl
        · omega
        · show ((x.idx + 1 : Nat) : Int) ≤ x.idx + 1
          omega
    · refine ⟨[0], x.idx, ?_, by simp, ⟨by simp [forcedNode]; omega, fun n hn => ?_⟩, by simp, fun n hn => ?_, by omega, by omega⟩
      · simp [completeDegenerate, forcedLeaf, forcedNode, h2]
      · simp only [List.map_cons, List.map_nil, List.cons_append, List.nil_append, List.mem_cons, List.not_mem_nil,
          or_false] at hn
        rcases hn with rfl | rfl
        · exact hx
        · show 0 < k.elems
          omega
      · simp only [List.map_cons, List.map_nil, List.cons_append, List.nil_append, List.mem_cons, List.not_mem_nil,
          or_false] at hn
        rcases hn with rfl | rfl
        · omega
        · show ((0 : Nat) : Int) ≤ x.idx
          omega
  | x :: y :: L, hlt, hnd, hge, hmx =>
    have hx := hge x List.mem_cons_self
    exact ⟨[], _, by simp [completeDegenerate], by simp, ⟨by simpa using hnd, by simpa using hlt⟩, by simp,
      by simpa using hge, by omega, hmx⟩

/-! ### The tree -/

theorem elems_lt_pow (k : TreeKind) : k.elems < 2 ^ k.maxLength := by cases k <;> decide

theorem staticCost_forced {n : Nat} (h : n ≤ 2) : staticCost k n = ((k.staticLength n).getD 0 : Nat) := by
  have : ∀ k : TreeKind, ∀ n ≤ 2, staticCost k n = ((k.staticLength n).getD 0 : Nat) := by
    intro k
    cases k <;> decide
  exact this k n h

theorem sum_countP {α : Type} (L : List α) (f : α → Nat) (w : Nat → Nat) (M : Nat) (h : ∀ n ∈ L, f n ≤ M) :
    ∑ i ∈ Finset.range (M + 1), L.countP (fun n => decide (f n = i)) * w i = (L.map fun n => w (f n)).sum := by
  induction L with
  | nil => simp
  | cons n L ih =>
    have ih := ih fun m hm => h m (List.mem_cons_of_mem _ hm)
    have hn := h n List.mem_cons_self
    simp only [List.countP_cons, Nat.add_mul, Finset.sum_add_distrib, List.map_cons, List.sum_cons, ih]
    rw [Nat.add_comm]
    congr 1
    rw [Finset.sum_eq_single (f n)]
    · simp
    · intro i _ hi
      simp [Ne.symm hi]
    · intro hn'
      exact absurd (Finset.mem_range.mpr (by omega)) hn'

theorem sum_range_of_nodup (L : List Node) (g : Nat → Nat) (size : Nat) (hnd : (L.map Node.idx).Nodup)
    (hlt : ∀ n ∈ L, n.idx < size) (hz : ∀ i, i ∉ L.map Node.idx → g i = 0) :
    ((List.range size).map g).sum = (L.map fun n => g n.idx).sum := by
  have h1 : ((List.range size).map g).sum = ∑ i ∈ Finset.range size, g i := by
    rw [← List.sum_toFinset g List.nodup_range, List.toFinset_range]
  have h2 : (L.map fun n => g n.idx).sum = ∑ i ∈ (L.map Node.idx).toFinset, g i := by
    rw [List.sum_toFinset g hnd, List.map_map]
    rfl
  rw [h1, h2]
  symm
  refine Finset.sum_subset (fun i hi => ?_) fun i _ hi => hz i (by simpa using hi)
  obtain ⟨n, hn, rfl⟩ := List.mem_map.mp (List.mem_toFinset.mp hi)
  exact Finset.mem_range.mpr (hlt n hn)

/-- Every tree that BuildTree returns (R130, R139), and it always returns one (R135). -/
structure GoodTree (k : TreeKind) (freq : Memory 16) (t : BuiltTree) : Prop where
  used : ∀ n < k.elems, freq.read n ≠ 0 → 1 ≤ t.lens.getD n 0
  space : codeSpace k.maxLength t.lens = 2 ^ k.maxLength
  maxCode_lt : t.maxCode < k.elems
  le_maxCode : ∀ n < k.elems, freq.read n ≠ 0 → n ≤ t.maxCode
  static : t.staticAdd = ((List.range k.elems).map fun n => ((freq.read n).toNat : Int) * staticCost k n).sum

theorem cappedLengths_spec {mc : Int} {L q : List Node} {r : MergeResult} (hmc : mc < k.elems)
    (hp : q.Perm L) (hf : FreshQueue k.elems q) (hr : Merges k.elems q r) (h2 : 2 ≤ L.length)
    (hl : ∀ n ∈ L, (n.idx : Int) ≤ mc) :
    ∃ c, cappedLengths k mc r (firstLengths k mc r) = some c ∧
      (∀ n ∈ L, 1 ≤ c.len.get n.idx) ∧ (∀ i < k.elems, i ∉ L.map Node.idx → c.len.get i = 0) ∧
      (L.map fun n => 2 ^ (k.maxLength - c.len.get n.idx)).sum = 2 ^ k.maxLength ∧
      (firstLengths k mc r).static = (L.map fun n => (n.freq : Int) * staticCost k n.idx).sum := by
  have hmc' : mc < (k.elems : Nat) := hmc
  have inv : TreeInv k mc k.elems L (firstLengths k mc r) := (treeInv_firstLengths hr hf hmc').perm hp
  have hle := firstLengths_le k mc r
  have hfL := hf.perm hp
  have hall : ∀ n ∈ L, isLeaf mc n = true := fun n hn => decide_eq_true (hl n hn)
  have hst : (firstLengths k mc r).static = (L.map fun n => (n.freq : Int) * staticCost k n.idx).sum := by
    rw [inv.static (.inl h2)]
    congr 1
    exact List.map_congr_left fun n hn => by rw [hall n hn, if_pos rfl]
  have hcounts : ∀ i, (firstLengths k mc r).blCount.getD i 0 =
      L.countP fun n => decide ((firstLengths k mc r).len.get n.idx = i) := fun i => by
    rw [inv.counts (.inl h2) i]
    exact List.countP_congr fun n hn => by rw [hall n hn, Bool.true_and]
  have hun : ∀ i < k.elems, i ∉ L.map Node.idx → (firstLengths k mc r).len.get i = 0 := fun i hi hn =>
    inv.unlisted i hi fun n hm he => hn (he ▸ List.mem_map_of_mem hm)
  unfold cappedLengths
  by_cases h0 : (firstLengths k mc r).overflow = 0
  · rw [if_pos h0]
    refine ⟨_, rfl, inv.pos h2, hun, ?_, hst⟩
    have := inv.kraft
    rw [h0] at this
    show (L.map fun n => 2 ^ (k.maxLength - (firstLengths k mc r).len.get n.idx)).sum = _
    omega
  · rw [if_neg h0]
    have hM1 : 1 ≤ k.maxLength := by cases k <;> decide
    have hK : levelKraft k.maxLength (firstLengths k mc r).blCount =
        (L.map fun n => 2 ^ (k.maxLength - (firstLengths k mc r).len.get n.idx)).sum := by
      unfold levelKraft
      rw [← sum_countP L (fun n => (firstLengths k mc r).len.get n.idx) (fun i => 2 ^ (k.maxLength - i)) k.maxLength
        fun n _ => hle n.idx]
      exact Finset.sum_congr rfl fun i _ => by rw [hcounts i]
    have hN : levelTotal k.maxLength (firstLengths k mc r).blCount = L.length := by
      unfold levelTotal
      have := sum_countP L (fun n => (firstLengths k mc r).len.get n.idx) (fun _ => 1) k.maxLength fun n _ => hle n.idx
      simp only [Nat.mul_one, List.map_const', List.sum_replicate, smul_eq_mul] at this
      rw [← this]
      exact Finset.sum_congr rfl fun i _ => hcounts i
    have hz : (firstLengths k mc r).blCount.getD 0 0 = 0 := by
      rw [hcounts 0, List.countP_eq_zero]
      intro n hn
      have := inv.pos h2 n hn
      simp only [decide_eq_true_eq]
      omega
    have hLlen : L.length ≤ k.elems := by
      have h1 := (List.Nodup.subperm hfL.1 (l₂ := List.range k.elems) fun i hi => by
        obtain ⟨n, hn, rfl⟩ := List.mem_map.mp hi
        exact List.mem_range.mpr (hfL.2 n hn)).length_le
      simpa using h1
    have hpow := elems_lt_pow k
    have hdeep := inv.deep
    rw [← hcounts k.maxLength] at hdeep
    obtain ⟨c', hc', hz', hk', hn'⟩ := correctOverflow_spec hM1 (maxLength_le k) _ _ _ (Nat.le_refl _) inv.counted hz
      (by rw [hK]; exact inv.kraft) hdeep (by omega)
    rw [hc']
    have hleaves : (r.removal.filter (isLeaf mc)).Perm L := by
      have h1 := (merges_leaves hr (by omega : mc < (k.elems : Nat))).trans (hp.filter _)
      rwa [List.filter_eq_self.mpr hall] at h1
    have hshift : ∀ w : Nat → Nat, ∑ b ∈ Finset.range k.maxLength, c'.getD (b + 1) 0 * w (b + 1) =
        ∑ i ∈ Finset.range (k.maxLength + 1), c'.getD i 0 * w i := fun w => by
      rw [Finset.sum_range_succ', hz', Nat.zero_mul, Nat.add_zero]
    have hsh1 := hshift fun _ => 1
    simp only [Nat.mul_one] at hsh1
    obtain ⟨s1, s2, s3⟩ := reassignLengths_spec (mc := mc) c' k.maxLength r.removal
      ⟨(firstLengths k mc r).len, (firstLengths k mc r).opt⟩ ((hleaves.map Node.idx).nodup_iff.mpr hfL.1) (by
        rw [hleaves.length_eq, hsh1, ← hN, ← hn']
        rfl)
    refine ⟨_, rfl, fun n hn => s1 n (hleaves.mem_iff.mpr hn), fun i hi hn => ?_, ?_, hst⟩
    · rw [s2 i fun h => hn ((hleaves.map Node.idx).mem_iff.mp h)]
      exact hun i hi hn
    · rw [← hk', ← (hleaves.map _).sum_eq]
      exact (s3 fun l => 2 ^ (k.maxLength - l)).trans (hshift fun l => 2 ^ (k.maxLength - l))

/-- BuildTree always returns a tree, and a good one. -/
theorem builtTree_good (tie : HeapTie) (k : TreeKind) (freq : Memory 16) :
    ∃ t, builtTree tie k freq = some t ∧ GoodTree k freq t := by
  obtain ⟨extra, mc, hcd, hex, hfresh, h2, hle, hmc0, hmc⟩ := completeDegenerate_spec k freq
  unfold builtTree
  dsimp only
  rw [hcd]
  dsimp only
  generalize hL : leavesOf k freq ++ extra.map forcedNode = L at *
  have hne : L ≠ [] := fun h => by rw [h] at h2; exact absurd h2 (by decide)
  obtain ⟨q, hq, hr⟩ := merges_merge tie k L hne
  obtain ⟨c, hc, hpos, hzero, hkraft, hstat⟩ := cappedLengths_spec hmc hq (hfresh.perm hq.symm) hr h2 hle
  rw [hc]
  have hmem : ∀ n < k.elems, freq.read n ≠ 0 → n ∈ L.map Node.idx := fun n hn hf => by
    rw [← hL, List.map_append]
    exact List.mem_append_left _ ((mem_leaves_idx n).mpr ⟨hn, hf⟩)
  refine ⟨_, rfl, fun n hn hf => ?_, ?_, ?_, fun n hn hf => ?_, ?_⟩
  · obtain ⟨m, hm, rfl⟩ := List.mem_map.mp (hmem n hn hf)
    simp only [List.getD_eq_getElem?_getD, List.getElem?_map, List.getElem?_range hn, Option.map_some,
      Option.getD_some]
    exact hpos m hm
  · unfold codeSpace
    dsimp only
    rw [List.map_map]
    have h := sum_range_of_nodup L (fun i => if c.len.get i = 0 then 0 else 2 ^ (k.maxLength - c.len.get i)) k.elems
    have e : ((List.range k.elems).map ((fun l => if l = 0 then 0 else 2 ^ (k.maxLength - l)) ∘ c.len.get)).sum =
        ((List.range k.elems).map fun i =>
          if i ∈ L.map Node.idx then (if c.len.get i = 0 then 0 else 2 ^ (k.maxLength - c.len.get i)) else 0).sum := by
      congr 1
      refine List.map_congr_left fun i hi => ?_
      simp only [Function.comp_apply]
      split
      · split <;> simp_all
      · split
        · rfl
        · rename_i h1 h2
          exact absurd (hzero i (List.mem_range.mp hi) h2) h1
    rw [e, sum_range_of_nodup L _ k.elems hfresh.1 hfresh.2 fun i hi => if_neg hi, ← hkraft]
    congr 1
    refine List.map_congr_left fun n hn => ?_
    have := hpos n hn
    rw [if_pos (List.mem_map_of_mem hn), if_neg (by omega)]
  · show mc.toNat < k.elems
    omega
  · obtain ⟨m, hm, rfl⟩ := List.mem_map.mp (hmem n hn hf)
    have := hle m hm
    show m.idx ≤ mc.toNat
    omega
  · show (firstLengths k mc (merge tie k L)).static - forcedStatic k extra = _
    rw [hstat, ← hL, List.map_append, List.sum_append]
    have hlv : leavesOf k freq = leavesIn freq (List.range k.elems) := rfl
    rw [hlv, leavesIn_sum]
    have : ((extra.map forcedNode).map fun n => (n.freq : Int) * staticCost k n.idx).sum =
        forcedStatic k extra := by
      unfold forcedStatic
      rw [List.map_map]
      congr 1
      refine List.map_congr_left fun n hn => ?_
      simp only [Function.comp_apply, forcedNode, staticCost_forced (hex n hn)]
      omega
    rw [this]
    omega

end Sys2Proof.Laws
end

