-- ==== Sys2Proof/Laws/Emits.lean ====
section
/-!
SUPPORT. What the emitter touches: the accumulator, the output stream and the sink's answers, and nothing else. Each
lemma is stated for any `F`: with `F := True` it speaks of runs without a fault, with `F := False` it says that there
is no fault, and then it asks for the operands to be in range.
-/

namespace Sys2Proof.Laws

open Sys2Proof.Machine

variable {α β : Type} {F : Prop}

/-- `t` differs from `s` in the accumulator, the output stream and the sink's answers alone, and `bi_valid` stays in its
range (R28). -/
structure EmitFrame (s t : State) : Prop where
  eq : t = { s with biBuf := t.biBuf, biValid := t.biValid, out := t.out, sink := t.sink }
  valid : s.biValid ≤ 16 → t.biValid ≤ 16

theorem EmitFrame.refl (s : State) : EmitFrame s s := ⟨rfl, id⟩

theorem EmitFrame.trans {s t u : State} (h : EmitFrame s t) (h' : EmitFrame t u) : EmitFrame s u :=
  ⟨by rw [h'.eq, h.eq], fun hs => h'.valid (h.valid hs)⟩

/-- `m` only emits, and from a `bi_valid` in its range it faults only if `F`. -/
def Emits (F : Prop) (m : M α) : Prop :=
  ∀ s, F ∨ s.biValid ≤ 16 → wp m (fun _ t => EmitFrame s t) (fun _ _ => True) F s

theorem emits_pure (a : α) : Emits F (pure a : M α) := fun s _ => (wp_pure a).mpr (EmitFrame.refl s)

theorem emits_bind {m : M α} {f : α → M β} (hm : Emits F m) (hf : ∀ a, Emits F (f a)) : Emits F (m >>= f) := by
  intro s hv
  rw [wp_bind]
  exact wp_imp (hm s hv) fun a t ht => wp_imp (hf a t (hv.imp_right ht.valid)) fun _ _ h => ht.trans h

/-- A program that reads the state first; it may use that `bi_valid` is in its range. -/
theorem emits_get_bind {f : State → M β}
    (hf : ∀ s, F ∨ s.biValid ≤ 16 → wp (f s) (fun _ t => EmitFrame s t) (fun _ _ => True) F s) :
    Emits F (get >>= f) := fun s hv => by
  rw [wp_bind, wp_get]
  exact hf s hv

theorem emits_ite {c : Prop} [Decidable c] {m n : M α} (hm : c → Emits F m) (hn : ¬ c → Emits F n) :
    Emits F (if c then m else n) := by
  split
  · exact hm ‹_›
  · exact hn ‹_›

theorem emits_require {ok : Bool} {c : InternalCondition} (h : F ∨ ok = true) : Emits F (require ok c) := by
  intro s _
  rw [wp_require]
  refine ⟨fun _ => EmitFrame.refl s, fun hf => ?_⟩
  rcases h with h | h
  · exact h
  · rw [h] at hf; cases hf

theorem emits_checkPacker : Emits F checkPacker := fun s hv =>
  (wp_checkPacker _).mpr ⟨fun _ => EmitFrame.refl s, fun hn => hv.resolve_right hn⟩

theorem emits_outByte (b : Byte) : Emits F (outByte b) := fun _ _ =>
  wp_outByte b _ (fun _ => ⟨rfl, id⟩) fun _ => trivial

theorem emits_putShortLE (w : Half) : Emits F (putShortLE w) :=
  emits_bind (emits_outByte _) fun _ => emits_outByte _

theorem emits_putShortMSB (w : Half) : Emits F (putShortMSB w) :=
  emits_bind (emits_outByte _) fun _ => emits_outByte _

theorem emits_clearBits : Emits F clearBits := fun _ _ => (wp_clearBits _).mpr ⟨rfl, fun _ => Nat.zero_le _⟩

theorem emits_sendBits {value length : Nat} (h : F ∨ sendBitsOperandOk value length = true) :
    Emits F (sendBits value length) := by
  intro s hv
  rw [sendBits, wp_bind, wp_require]
  refine ⟨fun hok => ?_, fun hn => h.resolve_right fun h => by rw [h] at hn; cases hn⟩
  rw [sendBitsOperandOk_iff] at hok
  rw [wp_bind, wp_checkPacker]
  refine ⟨fun hs => ?_, fun hn => hv.resolve_right hn⟩
  rw [wp_bind, wp_get, wp_ite, wp_bind, wp_set]
  refine ⟨fun _ => wp_imp (emits_putShortLE _ s hv) fun _ t ht => ?_, fun hc => ⟨rfl, fun _ => ?_⟩⟩
  · rw [wp_modify]
    refine ht.trans ⟨rfl, fun _ => ?_⟩
    show s.biValid + length - 16 ≤ 16
    omega
  · show s.biValid + length ≤ 16
    omega

/-- A code table whose codes fit their lengths, none longer than 15 (R137). -/
def CodesOk (lens codes : List Nat) : Prop :=
  ∀ n, lens.getD n 0 ≤ 15 ∧ codes.getD n 0 < 2 ^ lens.getD n 0

/-- A symbol that can be sent (R149). -/
def Sendable (lens : List Nat) (symbol : Nat) : Prop := 1 ≤ lens.getD symbol 0

theorem emits_sendCode {lens codes : List Nat} {symbol : Nat} (hc : F ∨ CodesOk lens codes)
    (h : F ∨ Sendable lens symbol) : Emits F (sendCode lens codes symbol) := by
  refine emits_bind (emits_require (h.imp_right fun h => decide_eq_true h)) fun _ => emits_sendBits ?_
  rcases hc with hc | hc
  · exact .inl hc
  · refine h.imp_right fun h => ?_
    rw [sendBitsOperandOk_iff]
    exact ⟨h, Nat.le_trans (hc symbol).1 (by decide), (hc symbol).2⟩

theorem emits_drainBits : Emits F drainBits := by
  exact emits_bind emits_checkPacker fun _ => emits_get_bind fun s hv => emits_ite (fun _ => emits_putShortLE _)
    (fun _ => emits_ite (fun _ => emits_outByte _) fun _ => emits_pure _) s hv

theorem emits_align : Emits F align := emits_bind emits_drainBits fun _ => emits_clearBits

/-- EndFlush (R151): it only emits, and at most 7 bits stay pending. -/
theorem endFlush_spec (s : State) (hv : F ∨ s.biValid ≤ 16) :
    wp endFlush (fun _ t => EmitFrame s t ∧ t.biValid ≤ 7) (fun _ _ => True) F s := by
  rw [endFlush, wp_bind, wp_checkPacker]
  refine ⟨fun hs => ?_, fun hn => hv.resolve_right hn⟩
  rw [wp_bind, wp_get, wp_ite, wp_ite, wp_bind, wp_bind, wp_pure]
  refine ⟨fun _ => wp_imp (emits_putShortLE _ s hv) fun _ t ht => ?_, fun h16 => ⟨fun h8 => ?_, fun h8 => ?_⟩⟩
  · rw [wp_clearBits]
    exact ⟨ht.trans ⟨rfl, fun _ => Nat.zero_le _⟩, Nat.zero_le _⟩
  · refine wp_imp (emits_outByte _ s hv) fun _ t ht => (wp_modify _ _).mpr ⟨ht.trans ⟨rfl, fun _ => ?_⟩, ?_⟩
    · show s.biValid - 8 ≤ 16
      omega
    · show s.biValid - 8 ≤ 7
      omega
  · exact ⟨EmitFrame.refl s, by omega⟩

theorem emits_readWindow {p : Int} (h : F ∨ 0 ≤ p ∧ p < WIN) : Emits F (readWindow p) := fun s _ => by
  rw [wp_readWindow]
  exact ⟨fun _ => EmitFrame.refl s, fun hn => h.resolve_right hn⟩

theorem emits_copyWindow {p : Int} {n : Nat} (h : F ∨ 0 ≤ p ∧ p + n ≤ WIN) : Emits F (copyWindow p n) := by
  induction n generalizing p with
  | zero => exact emits_pure _
  | succ n ih =>
    exact emits_bind (emits_readWindow (h.imp_right fun h => by omega)) fun _ =>
      emits_bind (emits_outByte _) fun _ => ih (h.imp_right fun h => by omega)

theorem emits_storedBlock {start n : Int} {last : Bool}
    (h : F ∨ 0 ≤ start ∧ 0 ≤ n ∧ n ≤ 65535 ∧ start + n ≤ WIN) : Emits F (storedBlock start n last) := by
  refine emits_bind (emits_require (h.imp_right fun h => ?_)) fun _ => emits_bind (emits_sendBits (.inr ?_)) fun _ =>
    emits_bind emits_align fun _ => emits_bind (emits_putShortLE _) fun _ => emits_bind (emits_putShortLE _) fun _ =>
      emits_copyWindow (h.imp_right fun h => by omega)
  · simp only [Bool.and_eq_true, decide_eq_true_eq]
    omega
  · cases last <;> decide

theorem emits_sendExtra {value bits : Nat} (h : F ∨ bits ≤ 16 ∧ value < 2 ^ bits) : Emits F (sendExtra value bits) :=
  emits_ite (fun hb => emits_sendBits (h.imp_right fun h => (sendBitsOperandOk_iff _ _).mpr ⟨hb, h.1, h.2⟩))
    fun _ => emits_pure _

/-- A token whose symbols have codes and whose extra bits fit (R158). -/
def TokenSendable (lLens dLens : List Nat) (dist lc : Nat) : Prop :=
  if dist = 0 then Sendable lLens lc
  else Sendable lLens (lengthCode (lc + 3)) ∧ Sendable dLens (distCode dist) ∧
    lc + 3 - lengthBase (lengthCode (lc + 3) - 257) < 2 ^ lengthExtra (lengthCode (lc + 3) - 257) ∧
    dist - distBase (distCode dist) < 2 ^ distExtra (distCode dist)

theorem lengthExtra_le (c : Nat) : lengthExtra c ≤ 5 := by
  by_cases h : c < 29
  · have : ∀ c < 29, lengthExtra c ≤ 5 := by decide
    exact this c h
  · have : lengthExtra c = 0 := by
      unfold lengthExtra
      rw [List.getD_eq_default]
      exact Nat.le_of_not_lt h
    omega

theorem distExtra_le (c : Nat) : distExtra c ≤ 13 := by
  by_cases h : c < 30
  · have : ∀ c < 30, distExtra c ≤ 13 := by decide
    exact this c h
  · have : distExtra c = 0 := by
      unfold distExtra
      rw [List.getD_eq_default]
      exact Nat.le_of_not_lt h
    omega

theorem emits_sendToken {lLens lCodes dLens dCodes : List Nat} {dist lc : Nat} (hl : F ∨ CodesOk lLens lCodes)
    (hd : F ∨ CodesOk dLens dCodes) (h : F ∨ TokenSendable lLens dLens dist lc) :
    Emits F (sendToken lLens lCodes dLens dCodes dist lc) := by
  refine emits_ite (fun h0 => emits_sendCode hl (h.imp_right fun h => ?_)) fun h0 => ?_
  · rwa [TokenSendable, if_pos h0] at h
  · have h : F ∨ _ := h.imp_right fun h => by rwa [TokenSendable, if_neg h0] at h
    exact emits_bind (emits_sendCode hl (h.imp_right fun h => h.1)) fun _ =>
      emits_bind (emits_sendExtra (h.imp_right fun h => ⟨Nat.le_trans (lengthExtra_le _) (by decide), h.2.2.1⟩)) fun _ =>
      emits_bind (emits_sendCode hd (h.imp_right fun h => h.2.1)) fun _ =>
      emits_sendExtra (h.imp_right fun h => ⟨Nat.le_trans (distExtra_le _) (by decide), h.2.2.2⟩)

theorem emits_sendTokens {lLens lCodes dLens dCodes : List Nat} (hl : F ∨ CodesOk lLens lCodes)
    (hd : F ∨ CodesOk dLens dCodes) (n i : Nat) (s : State) (hv : F ∨ s.biValid ≤ 16)
    (h : F ∨ ∀ j, i ≤ j → j < i + n →
      TokenSendable lLens dLens (s.tokDist.read j).toNat (s.tokLc.read j).toNat) :
    wp (sendTokens lLens lCodes dLens dCodes i n) (fun _ t => EmitFrame s t) (fun _ _ => True) F s := by
  induction n generalizing i s with
  | zero => exact emits_pure _ s hv
  | succ n ih =>
    rw [sendTokens, wp_bind, wp_get, wp_bind]
    refine wp_imp (emits_sendToken hl hd (h.imp_right fun h => h i (Nat.le_refl i) (by omega)) s hv) fun _ t ht => ?_
    have h1 : t.tokDist = s.tokDist := by rw [ht.eq]
    have h2 : t.tokLc = s.tokLc := by rw [ht.eq]
    refine wp_imp (ih (i + 1) t (hv.imp_right ht.valid) (h.imp_right fun h j hj hj' => ?_)) fun _ _ hu => ht.trans hu
    rw [h1, h2]
    exact h j (by omega) (by omega)

theorem emits_compressBlock {lLens lCodes dLens dCodes : List Nat} (hl : F ∨ CodesOk lLens lCodes)
    (hd : F ∨ CodesOk dLens dCodes) (s : State) (hv : F ∨ s.biValid ≤ 16) (hend : F ∨ Sendable lLens END_BLOCK)
    (h : F ∨ ∀ j < s.lastLit, TokenSendable lLens dLens (s.tokDist.read j).toNat (s.tokLc.read j).toNat) :
    wp (compressBlock lLens lCodes dLens dCodes) (fun _ t => EmitFrame s t) (fun _ _ => True) F s := by
  rw [compressBlock, wp_bind, wp_get, wp_bind]
  refine wp_imp (emits_sendTokens hl hd s.lastLit 0 s hv (h.imp_right fun h j _ hj => h j (by omega))) fun _ t ht => ?_
  exact wp_imp (emits_sendCode hl hend t (hv.imp_right ht.valid)) fun _ _ hu => ht.trans hu

/-- An item of a run-length list that can be sent. -/
def ItemSendable (lens : List Nat) (x : BlItem) : Prop :=
  Sendable lens x.symbol ∧ x.extraBits ≤ 16 ∧ x.extraValue < 2 ^ x.extraBits

theorem emits_sendItems {bl : BuiltTree} (hc : F ∨ CodesOk bl.lens bl.codes) {items : List BlItem}
    (h : F ∨ ∀ x ∈ items, ItemSendable bl.lens x) : Emits F (sendItems bl items) := by
  induction items with
  | nil => exact emits_pure _
  | cons x xs ih =>
    have hx : F ∨ ItemSendable bl.lens x := h.imp_right fun h => h x List.mem_cons_self
    exact emits_bind (emits_sendCode hc (hx.imp_right fun h => h.1)) fun _ =>
      emits_bind (emits_sendExtra (hx.imp_right fun h => h.2)) fun _ =>
      ih (h.imp_right fun h y hy => h y (List.mem_cons_of_mem _ hy))

theorem emits_sendBlLengths {bl : BuiltTree} (h : F ∨ ∀ n, bl.lens.getD n 0 < 8) (symbols : List Nat) :
    Emits F (sendBlLengths bl symbols) := by
  induction symbols with
  | nil => exact emits_pure _
  | cons x xs ih =>
    exact emits_bind (emits_sendBits (h.imp_right fun h => (sendBitsOperandOk_iff _ _).mpr
      ⟨by decide, by decide, h x⟩)) fun _ => ih

end Sys2Proof.Laws
end

