-- ==== Sys2Proof/Laws/Codes.lean ====
section
/-!
SUPPORT. The code tables: every code fits its length (R137), the length and distance codes of R89 and R90 are the
last base at or below their argument, and their extra bits fit.
-/

namespace Sys2Proof.Laws

open Sys2Proof.Machine

theorem bitrev_lt (c n : Nat) : bitrev c n < 2 ^ n := by
  induction n generalizing c with
  | zero => simp [bitrev]
  | succ n ih =>
    have h1 := ih (c / 2)
    have h2 : c % 2 < 2 := Nat.mod_lt _ (by decide)
    have h3 : c % 2 * 2 ^ n ≤ 1 * 2 ^ n := Nat.mul_le_mul_right _ (by omega)
    rw [bitrev, Nat.pow_succ]
    omega

theorem assignCodes_getD_lt (next lens : List Nat) (n : Nat) :
    (assignCodes next lens).getD n 0 < 2 ^ lens.getD n 0 := by
  induction lens generalizing next n with
  | nil => simp [assignCodes]
  | cons l lens ih =>
    unfold assignCodes
    split
    · cases n with
      | zero => simp_all
      | succ n => simpa using ih next n
    · cases n with
      | zero => simpa using bitrev_lt _ l
      | succ n => simpa using ih _ n

theorem getD_le_of_forall {lens : List Nat} {b : Nat} (h : ∀ l ∈ lens, l ≤ b) (n : Nat) : lens.getD n 0 ≤ b := by
  by_cases hn : n < lens.length
  · rw [List.getD_eq_getElem _ _ hn]
    exact h _ (List.getElem_mem hn)
  · rw [List.getD_eq_default _ _ (Nat.le_of_not_lt hn)]
    exact Nat.zero_le _

theorem codesOk_canonicalCodes {lens : List Nat} (h : ∀ l ∈ lens, l ≤ 15) : CodesOk lens (canonicalCodes lens) :=
  fun n => ⟨getD_le_of_forall h n, assignCodes_getD_lt _ _ n⟩

theorem codesOk_builtTree {tie : HeapTie} {k : TreeKind} {freq : Memory 16} {t : BuiltTree}
    (h : builtTree tie k freq = some t) : CodesOk t.lens t.codes := by
  have hl := builtTree_lens h
  unfold builtTree at h
  simp only [Option.map_eq_some_iff] at h
  obtain ⟨r, hr, rfl⟩ := h
  exact codesOk_canonicalCodes fun l h => Nat.le_trans (hl.2 l h) (maxLength_le k)

/-! ### The static trees -/

theorem getD_map_range {f : Nat → Nat} {size n : Nat} (h : n < size) : ((List.range size).map f).getD n 0 = f n := by
  rw [List.getD_eq_getElem _ _ (by simpa using h)]
  simp

theorem staticLitLens_getD {n : Nat} (h : n < 288) : staticLitLens.getD n 0 = staticLitLenLength n := getD_map_range h

theorem staticLitLenLength_range (n : Nat) : 7 ≤ staticLitLenLength n ∧ staticLitLenLength n ≤ 9 := by
  unfold staticLitLenLength
  repeat' split
  all_goals decide

theorem sendable_staticLit {n : Nat} (h : n < 288) : Sendable staticLitLens n := by
  unfold Sendable
  rw [staticLitLens_getD h]
  have := (staticLitLenLength_range n).1
  omega

theorem sendable_staticDist {n : Nat} (h : n < D_CODES) : Sendable staticDistLens n := by
  unfold Sendable staticDistLens
  rw [getD_map_range h]
  show 1 ≤ 5
  decide

theorem codesOk_staticLit : CodesOk staticLitLens staticLitCodes :=
  codesOk_canonicalCodes fun l h => by
    simp only [staticLitLens, List.mem_map] at h
    obtain ⟨n, -, rfl⟩ := h
    have := (staticLitLenLength_range n).2
    omega

theorem codesOk_staticDist : CodesOk staticDistLens staticDistCodes := fun n => by
  by_cases h : n < D_CODES
  · unfold staticDistLens staticDistCodes
    rw [getD_map_range h, getD_map_range (f := fun d => bitrev d 5) h]
    exact ⟨by show 5 ≤ 15; decide, bitrev_lt n 5⟩
  · rw [List.getD_eq_default _ _ (by simpa [staticDistLens] using h),
      List.getD_eq_default _ _ (by simpa [staticDistCodes] using h)]
    decide

/-! ### The length and distance codes -/

theorem takeWhile_getD {bases : List Nat} {x n : Nat}
    (h : n < (bases.takeWhile fun b => decide (b ≤ x)).length) : bases.getD n 0 ≤ x := by
  induction bases generalizing n with
  | nil => simp at h
  | cons b bs ih =>
    rw [List.takeWhile_cons] at h
    split at h
    · rename_i hb
      cases n with
      | zero => simpa using hb
      | succ n => simpa using ih (by simpa using h)
    · simp at h

theorem takeWhile_stop {bases : List Nat} {x : Nat}
    (h : (bases.takeWhile fun b => decide (b ≤ x)).length < bases.length) :
    x < bases.getD (bases.takeWhile fun b => decide (b ≤ x)).length 0 := by
  induction bases with
  | nil => simp at h
  | cons b bs ih =>
    rw [List.takeWhile_cons] at h ⊢
    split at h
    · rename_i hb
      simp only [hb, if_true, List.length_cons, List.getD_cons_succ] at h ⊢
      exact ih (by omega)
    · rename_i hb
      simp only [hb, Bool.false_eq_true, if_false, List.length_nil, List.getD_cons_zero]
      simpa using hb

/-- The last base at or below `x` (R89, R90). -/
theorem lastBaseLe_spec {b : Nat} {bs : List Nat} {x : Nat} (h0 : b ≤ x) :
    (b :: bs).getD (lastBaseLe (b :: bs) x) 0 ≤ x ∧
      (lastBaseLe (b :: bs) x + 1 < (b :: bs).length → x < (b :: bs).getD (lastBaseLe (b :: bs) x + 1) 0) := by
  have hpos : 0 < ((b :: bs).takeWhile fun b => decide (b ≤ x)).length := by
    rw [List.takeWhile_cons]
    simp [h0]
  unfold lastBaseLe
  refine ⟨takeWhile_getD (by omega), fun h => ?_⟩
  have e : ((b :: bs).takeWhile fun b => decide (b ≤ x)).length - 1 + 1 =
    ((b :: bs).takeWhile fun b => decide (b ≤ x)).length := by omega
  rw [e] at h ⊢
  exact takeWhile_stop h

/-- Distance code `DistCode(d)` is the last one whose base is at most `d` (R90), and the rest fits its extra bits. -/
theorem distCode_spec {d : Nat} (h1 : 1 ≤ d) (h2 : d ≤ 32768) :
    distBase (distCode d) ≤ d ∧ d - distBase (distCode d) < 2 ^ distExtra (distCode d) := by
  have h := lastBaseLe_spec (b := 1) (bs := distBases.tail) h1
  have hc : distCode d < 30 := distCode_lt d
  change distBase (distCode d) ≤ d ∧ (distCode d + 1 < 30 → d < distBase (distCode d + 1)) at h
  refine ⟨h.1, ?_⟩
  have hstep : ∀ c < 30, c + 1 < 30 → distBase (c + 1) ≤ distBase c + 2 ^ distExtra c := by decide
  by_cases hl : distCode d + 1 < 30
  · have := hstep _ hc hl
    have := h.2 hl
    omega
  · have h29 : distCode d = 29 := by omega
    have hb : distBase 29 = 24577 := rfl
    have he : 2 ^ distExtra 29 = 8192 := rfl
    rw [h29] at h ⊢
    omega

/-- The extra bits of every length fit (R80, R89). -/
theorem lengthCode_extra {lc : Nat} (h : lc < 256) :
    lc + 3 - lengthBase (lengthCode (lc + 3) - 257) < 2 ^ lengthExtra (lengthCode (lc + 3) - 257) := by
  have : ∀ lc < 256, lc + 3 - lengthBase (lengthCode (lc + 3) - 257) < 2 ^ lengthExtra (lengthCode (lc + 3) - 257) := by
    decide +kernel
  exact this lc h

theorem tokenSendable_static {dist lc : Nat} (hd : dist ≤ 32768) (hlc : lc < 256) :
    TokenSendable staticLitLens staticDistLens dist lc := by
  unfold TokenSendable
  split
  · exact sendable_staticLit (by omega)
  · have h := (lengthCode_lt (lc + 3)).2
    have hL : L_CODES = 286 := rfl
    exact ⟨sendable_staticLit (by omega), sendable_staticDist (distCode_lt dist), lengthCode_extra hlc,
      (distCode_spec (by omega) hd).2⟩

end Sys2Proof.Laws
end

