-- ==== Sys2Proof/Laws/Frame.lean ====
section
/-!
SUPPORT. What no operation inside a command touches: the parameters, `FRAMING`, the input port, the host's
queue and its last response; the output stream only grows, and the sink's answers are only used up. Such an operation
raises nothing but StreamError, and only where the sink refuses a byte.
-/

namespace Sys2Proof.Laws

open Sys2Proof.Machine

variable {α β : Type}

/-- What a run from `s` to `t` leaves alone wherever it ends. -/
structure Outer (s t : State) : Prop where
  cfg : t.cfg = s.cfg
  framing : t.framing = s.framing
  payload : t.payload = s.payload
  inputs : t.inputs = s.inputs
  response : t.response = s.response
  out : s.out <+: t.out
  sink : t.sink <:+ s.sink

theorem Outer.refl (s : State) : Outer s s := ⟨rfl, rfl, rfl, rfl, rfl, List.prefix_rfl, List.suffix_rfl⟩

theorem Outer.trans {s t u : State} (h : Outer s t) (h' : Outer t u) : Outer s u where
  cfg := h'.cfg.trans h.cfg
  framing := h'.framing.trans h.framing
  payload := h'.payload.trans h.payload
  inputs := h'.inputs.trans h.inputs
  response := h'.response.trans h.response
  out := h.out.trans h'.out
  sink := h'.sink.trans h.sink

/-- A run that ends with a value also leaves `FAILED`, `RESULT` and `STATE` alone. -/
def Frame (s t : State) : Prop := Outer s t ∧ t.failed = s.failed ∧ t.result = s.result ∧ t.phase = s.phase

/-- A run that raises: StreamError, `FAILED` is set, and the sink refused a byte (R183, R185). -/
def Broken (s : State) (e : ResultCode) (t : State) : Prop :=
  Outer s t ∧ e = .streamError ∧ t.failed = true ∧ false ∈ s.sink ∧ t.phase = s.phase

/-- `m` has the frame of an operation inside a command. -/
def Framed (m : M α) : Prop := ∀ s, wp m (fun _ t => Frame s t) (Broken s) True s

theorem Frame.refl (s : State) : Frame s s := ⟨Outer.refl s, rfl, rfl, rfl⟩

theorem Frame.trans {s t u : State} (h : Frame s t) (h' : Frame t u) : Frame s u :=
  ⟨h.1.trans h'.1, h'.2.1.trans h.2.1, h'.2.2.1.trans h.2.2.1, h'.2.2.2.trans h.2.2.2⟩

theorem Frame.broken {s t u : State} {e : ResultCode} (h : Frame s t) (h' : Broken t e u) : Broken s e u :=
  ⟨h.1.trans h'.1, h'.2.1, h'.2.2.1, h.1.sink.mem h'.2.2.2.1, h'.2.2.2.2.trans h.2.2.2⟩

theorem framed_bind {m : M α} {f : α → M β} (hm : Framed m) (hf : ∀ a, Framed (f a)) : Framed (m >>= f) := by
  intro s
  rw [wp_bind]
  refine wp_imp (hm s) fun a t ht => ?_
  exact wp_mono (hf a t) (fun _ _ h => ht.trans h) (fun _ _ h => ht.broken h) id

theorem framed_pure (a : α) : Framed (pure a : M α) := fun s => (wp_pure a).mpr (Frame.refl s)

theorem framed_get_bind {f : State → M β} (hf : ∀ s, Framed (f s)) : Framed (get >>= f) := fun s => by
  rw [wp_bind, wp_get]
  exact hf s s

theorem framed_ite {c : Prop} [Decidable c] {m n : M α} (hm : Framed m) (hn : Framed n) :
    Framed (if c then m else n) := by split <;> assumption

theorem framed_doIf (c : Bool) {m : M Unit} (hm : Framed m) : Framed (doIf c m) := framed_ite hm (framed_pure _)

/-- An update that writes none of the outer fields. -/
theorem framed_update {m : M α} (h : ∀ s, ∃ a t, m s = .ok a t ∧ Frame s t) : Framed m := fun s => by
  obtain ⟨a, t, hm, ht⟩ := h s
  unfold wp
  rw [hm]
  exact ht

theorem framed_modify {f : State → State} (h : ∀ s, Frame s (f s)) : Framed (modify f : M PUnit) :=
  framed_update fun s => ⟨⟨⟩, f s, rfl, h s⟩

theorem framed_internalFault (c : InternalCondition) : Framed (internalFault c : M α) := fun _ =>
  (wp_internalFault c).mpr trivial

theorem framed_require (ok : Bool) (c : InternalCondition) : Framed (require ok c) := fun s =>
  (wp_require ok c _).mpr ⟨fun _ => Frame.refl s, fun _ => trivial⟩

theorem framed_readWindow (p : Int) : Framed (readWindow p) := fun s => by
  rw [wp_readWindow]
  exact ⟨fun _ => Frame.refl s, fun _ => trivial⟩

theorem frame_inner (s t : State) (h : t = { t with
    cfg := s.cfg, phase := s.phase, failed := s.failed, framing := s.framing, result := s.result,
    payload := s.payload, inputs := s.inputs, sink := s.sink, out := s.out, response := s.response }) : Frame s t := by
  have hs : t.sink = s.sink := by rw [h]
  have ho : t.out = s.out := by rw [h]
  exact ⟨⟨by rw [h], by rw [h], by rw [h], by rw [h], by rw [h], ho ▸ List.prefix_rfl, hs ▸ List.suffix_rfl⟩,
    by rw [h], by rw [h], by rw [h]⟩

theorem framed_writeWindow (p : Nat) (b : Byte) : Framed (writeWindow p b) := fun _ => by
  rw [wp_writeWindow]
  exact ⟨fun _ => frame_inner _ _ rfl, fun _ => trivial⟩

theorem framed_outByte (b : Byte) : Framed (outByte b) := fun s => by
  unfold wp outByte
  cases hs : s.sink with
  | nil =>
    exact ⟨⟨rfl, rfl, rfl, rfl, rfl, List.prefix_append _ _, hs ▸ List.suffix_rfl⟩, rfl, rfl, rfl⟩
  | cons a rest =>
    have hsuf : rest <:+ s.sink := hs ▸ List.suffix_cons a rest
    cases a with
    | true => exact ⟨⟨rfl, rfl, rfl, rfl, rfl, List.prefix_append _ _, hsuf⟩, rfl, rfl, rfl⟩
    | false =>
      refine ⟨⟨rfl, rfl, rfl, rfl, rfl, List.prefix_rfl, hsuf⟩, rfl, ?_, hs ▸ List.mem_cons_self, rfl⟩
      simp [ResultCode.setsFailed]

theorem framed_putShortLE (w : Half) : Framed (putShortLE w) :=
  framed_bind (framed_outByte _) fun _ => framed_outByte _

theorem framed_putShortMSB (w : Half) : Framed (putShortMSB w) :=
  framed_bind (framed_outByte _) fun _ => framed_outByte _

/-! ### The window, the chains and the matcher -/

theorem framed_inRead : Framed inRead := fun _ =>
  wp_inRead _ (fun _ _ _ => frame_inner _ _ rfl) fun _ => trivial

theorem framed_adlerUpdate (x : Byte) : Framed (adlerUpdate x) :=
  framed_update fun _ => ⟨(), _, rfl, frame_inner _ _ rfl⟩

theorem framed_readBytes (p n : Nat) : Framed (readBytes p n) := by
  induction n generalizing p with
  | zero => exact framed_pure _
  | succ n ih =>
    exact framed_bind framed_inRead fun b => framed_bind (framed_writeWindow p b) fun _ =>
      framed_bind (framed_adlerUpdate b) fun _ => ih (p + 1)

theorem framed_readBuf (size : Nat) : Framed (readBuf size) :=
  framed_get_bind fun _ => framed_bind (framed_readBytes _ _) fun _ => framed_pure _

theorem framed_slide : Framed slide := framed_update fun _ => ⟨(), _, rfl, frame_inner _ _ rfl⟩

theorem framed_growLookahead (n : Nat) : Framed (growLookahead n) :=
  framed_update fun _ => ⟨(), _, rfl, frame_inner _ _ rfl⟩

theorem framed_setHash (h : BitVec 15) : Framed (setHash h) :=
  framed_update fun _ => ⟨(), _, rfl, frame_inner _ _ rfl⟩

theorem framed_reseedHash : Framed reseedHash :=
  framed_get_bind fun _ => framed_ite
    (framed_bind (framed_readWindow _) fun _ => framed_bind (framed_readWindow _) fun _ => framed_setHash _)
    (framed_pure _)

theorem framed_fillPass : Framed fillPass :=
  framed_get_bind fun _ => framed_bind (framed_require _ _) fun _ => framed_bind (framed_doIf _ framed_slide) fun _ =>
    framed_get_bind fun _ => framed_ite (framed_pure _) <| framed_bind (framed_readBuf _) fun _ =>
      framed_bind (framed_growLookahead _) fun _ => framed_bind framed_reseedHash fun _ =>
        framed_get_bind fun _ => framed_pure _

theorem framed_fillLoop (fuel : Nat) : Framed (fillLoop fuel) := by
  induction fuel with
  | zero => exact framed_internalFault _
  | succ fuel ih => exact framed_bind framed_fillPass fun _ => framed_ite ih (framed_pure _)

theorem framed_fillWindow : Framed fillWindow := framed_get_bind fun _ => framed_fillLoop _

theorem framed_linkPosition (p : Nat) (b : Byte) : Framed (linkPosition p b) :=
  framed_update fun _ => ⟨_, _, rfl, frame_inner _ _ rfl⟩

theorem framed_insertString (p : Nat) : Framed (insertString p) :=
  framed_bind (framed_readWindow _) fun _ => framed_linkPosition _ _

theorem framed_insertHere : Framed insertHere :=
  framed_get_bind fun _ => framed_ite (framed_insertString _) (framed_pure _)

theorem framed_matchBytes (c p k n : Nat) : Framed (matchBytes c p k n) := by
  induction n generalizing k with
  | zero => exact framed_pure _
  | succ n ih =>
    exact framed_bind (framed_readWindow _) fun _ => framed_bind (framed_readWindow _) fun _ =>
      framed_ite (ih _) (framed_pure _)

theorem framed_setMatchStart (c : Nat) : Framed (setMatchStart c) :=
  framed_update fun _ => ⟨(), _, rfl, frame_inner _ _ rfl⟩

theorem framed_setMatchLength (n : Nat) : Framed (setMatchLength n) :=
  framed_update fun _ => ⟨(), _, rfl, frame_inner _ _ rfl⟩

theorem framed_walkChain (limit nice chain c best : Nat) : Framed (walkChain limit nice chain c best) := by
  induction chain generalizing c best with
  | zero => exact framed_pure _
  | succ chain ih =>
    exact framed_bind (framed_get_bind fun _ => framed_matchBytes _ _ _ _) fun _ =>
      framed_ite (framed_bind (framed_setMatchStart _) fun _ => framed_pure _)
        (framed_bind (framed_doIf _ (framed_setMatchStart _)) fun _ =>
          framed_get_bind fun _ => framed_ite (ih _ _) (framed_pure _))

theorem framed_longestMatch (c : Nat) : Framed (longestMatch c) :=
  framed_get_bind fun _ => framed_bind (framed_walkChain _ _ _ _ _) fun _ => framed_pure _

theorem framed_deferMatch : Framed deferMatch := framed_update fun _ => ⟨(), _, rfl, frame_inner _ _ rfl⟩

theorem framed_evaluatePosition : Framed evaluatePosition :=
  framed_bind framed_insertHere fun _ => framed_bind framed_deferMatch fun _ => framed_get_bind fun _ =>
    framed_ite (framed_bind (framed_longestMatch _) fun _ => framed_bind (framed_setMatchLength _) fun _ =>
      framed_get_bind fun _ => framed_doIf _ (framed_setMatchLength _)) (framed_pure _)

/-! ### The tally and the trees -/

theorem framed_set {f : State → State} (h : ∀ s, Frame s (f s)) (s : State) :
    wp (set (f s) : M PUnit) (fun _ t => Frame s t) (Broken s) True s := (wp_set _ _).mpr (h s)

theorem framed_tallyLiteral (c : Byte) : Framed (tallyLiteral c) := by
  intro s
  simp only [Sys2Proof.Machine.tallyLiteral, wp_bind, wp_get, wp_require, wp_set, wp_pure]
  exact ⟨fun _ => ⟨fun _ => frame_inner _ _ rfl, fun _ => trivial⟩, fun _ => trivial⟩

theorem framed_tallyDistance (d : Int) (lc : Nat) : Framed (tallyDistance d lc) := by
  intro s
  simp only [Sys2Proof.Machine.tallyDistance, wp_bind, wp_get, wp_require, wp_set, wp_pure]
  exact ⟨fun _ => ⟨fun _ => ⟨fun _ => frame_inner _ _ rfl, fun _ => trivial⟩, fun _ => trivial⟩, fun _ => trivial⟩

theorem framed_buildTree (k : TreeKind) : Framed (buildTree k) := fun _ =>
  wp_buildTree k _ (fun _ _ => frame_inner _ _ rfl) fun _ => trivial

theorem framed_scanTree (lens : List Nat) (maxCode : Nat) : Framed (scanTree lens maxCode) := fun _ =>
  (wp_scanTree _ _ _).mpr ⟨fun _ => frame_inner _ _ rfl, fun _ => trivial⟩

theorem framed_buildBlTree (l d : BuiltTree) : Framed (buildBlTree l d) :=
  framed_bind (framed_scanTree _ _) fun _ => framed_bind (framed_scanTree _ _) fun _ =>
    framed_bind (framed_buildTree _) fun _ => framed_bind (framed_modify fun _ => frame_inner _ _ rfl) fun _ =>
      framed_pure _

/-! ### The emitter -/

theorem framed_checkPacker : Framed checkPacker := framed_get_bind fun _ => framed_require _ _

theorem framed_sendBits (value length : Nat) : Framed (sendBits value length) := by
  refine framed_bind (framed_require _ _) fun _ => framed_bind framed_checkPacker fun _ s => ?_
  rw [wp_bind, wp_get, wp_ite]
  refine ⟨fun _ => ?_, fun _ => (wp_set _ _).mpr (frame_inner _ _ rfl)⟩
  exact framed_bind (framed_putShortLE _) (fun _ => framed_modify fun _ => frame_inner _ _ rfl) s

theorem framed_sendCode (lens codes : List Nat) (symbol : Nat) : Framed (sendCode lens codes symbol) :=
  framed_bind (framed_require _ _) fun _ => framed_sendBits _ _

theorem framed_clearBits : Framed clearBits := framed_update fun _ => ⟨(), _, rfl, frame_inner _ _ rfl⟩

theorem framed_align : Framed align :=
  framed_bind (framed_bind framed_checkPacker fun _ => framed_get_bind fun _ => framed_ite (framed_putShortLE _)
    (framed_ite (framed_outByte _) (framed_pure _))) fun _ => framed_clearBits

theorem framed_endFlush : Framed endFlush :=
  framed_bind framed_checkPacker fun _ => framed_get_bind fun _ => framed_ite (framed_bind (framed_putShortLE _) fun _ => framed_clearBits)
    (framed_ite (framed_bind (framed_outByte _) fun _ => framed_modify fun _ => frame_inner _ _ rfl) (framed_pure _))

theorem framed_copyWindow (p : Int) (n : Nat) : Framed (copyWindow p n) := by
  induction n generalizing p with
  | zero => exact framed_pure _
  | succ n ih => exact framed_bind (framed_readWindow _) fun _ => framed_bind (framed_outByte _) fun _ => ih _

theorem framed_storedBlock (start n : Int) (last : Bool) : Framed (storedBlock start n last) :=
  framed_bind (framed_require _ _) fun _ => framed_bind (framed_sendBits _ _) fun _ => framed_bind framed_align fun _ =>
    framed_bind (framed_putShortLE _) fun _ => framed_bind (framed_putShortLE _) fun _ => framed_copyWindow _ _

theorem framed_sendExtra (value bits : Nat) : Framed (sendExtra value bits) :=
  framed_ite (framed_sendBits _ _) (framed_pure _)

theorem framed_sendToken (lLens lCodes dLens dCodes : List Nat) (dist lc : Nat) :
    Framed (sendToken lLens lCodes dLens dCodes dist lc) :=
  framed_ite (framed_sendCode _ _ _) (framed_bind (framed_sendCode _ _ _) fun _ =>
    framed_bind (framed_sendExtra _ _) fun _ => framed_bind (framed_sendCode _ _ _) fun _ => framed_sendExtra _ _)

theorem framed_sendTokens (lLens lCodes dLens dCodes : List Nat) (i n : Nat) :
    Framed (sendTokens lLens lCodes dLens dCodes i n) := by
  induction n generalizing i with
  | zero => exact framed_pure _
  | succ n ih => exact framed_get_bind fun _ => framed_bind (framed_sendToken _ _ _ _ _ _) fun _ => ih _

theorem framed_compressBlock (lLens lCodes dLens dCodes : List Nat) :
    Framed (compressBlock lLens lCodes dLens dCodes) :=
  framed_get_bind fun _ => framed_bind (framed_sendTokens _ _ _ _ _ _) fun _ => framed_sendCode _ _ _

theorem framed_staticBlock (last : Bool) : Framed (staticBlock last) :=
  framed_bind (framed_sendBits _ _) fun _ => framed_compressBlock _ _ _ _

theorem framed_sendItems (bl : BuiltTree) (items : List BlItem) : Framed (sendItems bl items) := by
  induction items with
  | nil => exact framed_pure _
  | cons x xs ih => exact framed_bind (framed_sendCode _ _ _) fun _ => framed_bind (framed_sendExtra _ _) fun _ => ih

theorem framed_sendBlLengths (bl : BuiltTree) (symbols : List Nat) : Framed (sendBlLengths bl symbols) := by
  induction symbols with
  | nil => exact framed_pure _
  | cons x xs ih => exact framed_bind (framed_sendBits _ _) fun _ => ih

theorem framed_dynamicBlock (l d bl : BuiltTree) (maxIndex : Nat) (last : Bool) :
    Framed (dynamicBlock l d bl maxIndex last) :=
  framed_bind (framed_sendBits _ _) fun _ => framed_bind (framed_require _ _) fun _ =>
    framed_bind (framed_sendBits _ _) fun _ => framed_bind (framed_sendBits _ _) fun _ =>
    framed_bind (framed_sendBits _ _) fun _ => framed_bind (framed_sendBlLengths _ _) fun _ =>
    framed_bind (framed_sendItems _ _) fun _ => framed_bind (framed_sendItems _ _) fun _ => framed_compressBlock _ _ _ _

theorem framed_emitBlock (l d bl : BuiltTree) (maxIndex : Nat) (last : Bool) :
    Framed (emitBlock l d bl maxIndex last) := by
  refine framed_get_bind fun s => ?_
  cases chooseBlock s with
  | stored => exact framed_storedBlock _ _ _
  | static => exact framed_staticBlock _
  | dynamic => exact framed_dynamicBlock _ _ _ _ _

theorem framed_initBlock : Framed initBlock := framed_update fun _ => ⟨(), _, rfl, frame_inner _ _ rfl⟩

theorem framed_startBlock : Framed startBlock := framed_update fun _ => ⟨(), _, rfl, frame_inner _ _ rfl⟩

theorem framed_flushBlock (last : Bool) : Framed (flushBlock last) :=
  framed_bind (framed_buildTree _) fun _ => framed_bind (framed_buildTree _) fun _ =>
    framed_bind (framed_buildBlTree _ _) fun _ => framed_bind (framed_emitBlock _ _ _ _ _) fun _ =>
      framed_bind framed_initBlock fun _ => framed_bind (framed_doIf _ framed_align) fun _ => framed_startBlock

/-! ### The lazy loop's emissions -/

theorem framed_advance : Framed advance := by
  intro s
  simp only [advance, wp_bind, wp_get, wp_require, wp_set]
  exact ⟨fun _ => frame_inner _ _ rfl, fun _ => trivial⟩

theorem framed_emitPendingLiteral : Framed emitPendingLiteral :=
  framed_get_bind fun _ => framed_bind (framed_readWindow _) fun _ => framed_bind (framed_tallyLiteral _) fun _ =>
    framed_bind (framed_doIf _ (framed_flushBlock _)) fun _ => framed_advance

theorem framed_insertNext (maxInsert : Int) : Framed (insertNext maxInsert) :=
  framed_bind (framed_modify fun _ => frame_inner _ _ rfl) fun _ => framed_get_bind fun _ =>
    framed_ite (framed_bind (framed_insertString _) fun _ => framed_pure _) (framed_pure _)

theorem framed_insertCovered (maxInsert : Int) (n : Nat) : Framed (insertCovered maxInsert n) := by
  induction n with
  | zero => exact framed_pure _
  | succ n ih => exact framed_bind (framed_insertNext _) fun _ => ih

theorem framed_shrinkLookahead (n : Nat) : Framed (shrinkLookahead n) := by
  intro s
  simp only [shrinkLookahead, wp_bind, wp_get, wp_require, wp_set]
  exact ⟨fun _ => frame_inner _ _ rfl, fun _ => trivial⟩

theorem framed_closeMatch : Framed closeMatch := framed_update fun _ => ⟨(), _, rfl, frame_inner _ _ rfl⟩

theorem framed_emitDeferredMatch : Framed emitDeferredMatch :=
  framed_get_bind fun _ => framed_bind (framed_tallyDistance _ _) fun _ => framed_bind (framed_shrinkLookahead _) fun _ =>
    framed_bind (framed_insertCovered _ _) fun _ => framed_bind framed_closeMatch fun _ =>
      framed_doIf _ (framed_flushBlock _)

theorem framed_deferByte : Framed deferByte :=
  framed_bind (framed_modify fun _ => frame_inner _ _ rfl) fun _ => framed_advance

theorem framed_emitPosition : Framed emitPosition :=
  framed_get_bind fun _ => framed_ite framed_emitDeferredMatch (framed_ite framed_emitPendingLiteral framed_deferByte)

theorem framed_drainPending : Framed drainPending :=
  framed_get_bind fun _ => framed_ite (framed_bind (framed_readWindow _) fun _ => framed_bind (framed_tallyLiteral _)
    fun _ => framed_modify fun _ => frame_inner _ _ rfl) (framed_pure _)

theorem framed_finishDrain : Framed finishDrain := framed_bind framed_drainPending fun _ => framed_flushBlock _

theorem framed_loopTop (finish : Bool) : Framed (loopTop finish) :=
  framed_get_bind fun _ => framed_bind (framed_require _ _) fun _ =>
    framed_ite (framed_bind framed_fillWindow fun _ => framed_get_bind fun _ =>
      framed_ite (framed_pure _) (framed_ite (framed_pure _) (framed_pure _))) (framed_pure _)

theorem framed_trailer : Framed trailer :=
  framed_get_bind fun _ => framed_ite (framed_bind (framed_putShortMSB _) fun _ => framed_putShortMSB _) (framed_pure _)

theorem framed_loadFeed : Framed loadFeed := framed_update fun _ => ⟨(), _, rfl, frame_inner _ _ rfl⟩

/-! ### Operations that write `STATE` -/

/-- `m` has the frame of an operation inside a command, and does not set `STATE` to DONE. -/
def Runs (m : M α) : Prop := ∀ s, s.phase ≠ .done →
  wp m (fun _ t => Outer s t ∧ t.failed = s.failed ∧ t.result = s.result ∧ t.phase ≠ .done)
    (fun e t => Outer s t ∧ e = .streamError ∧ t.failed = true ∧ false ∈ s.sink ∧ t.phase ≠ .done) True s

theorem runs_framed {m : M α} (h : Framed m) : Runs m := fun s hs =>
  wp_mono (h s) (fun _ _ ⟨h1, h2, h3, h4⟩ => ⟨h1, h2, h3, h4 ▸ hs⟩)
    (fun _ _ ⟨h1, h2, h3, h4, h5⟩ => ⟨h1, h2, h3, h4, h5 ▸ hs⟩) id

theorem runs_bind {m : M α} {f : α → M β} (hm : Runs m) (hf : ∀ a, Runs (f a)) : Runs (m >>= f) := by
  intro s hs
  rw [wp_bind]
  refine wp_imp (hm s hs) fun a t ⟨h1, h2, h3, h4⟩ => ?_
  exact wp_mono (hf a t h4) (fun _ _ ⟨g1, g2, g3, g4⟩ => ⟨h1.trans g1, g2.trans h2, g3.trans h3, g4⟩)
    (fun _ _ ⟨g1, g2, g3, g4, g5⟩ => ⟨h1.trans g1, g2, g3, h1.sink.mem g4, g5⟩) id

theorem runs_setPhase {p : Phase} (h : p ≠ .done) : Runs (setPhase p) := fun s _ => by
  rw [wp_setPhase]
  exact ⟨⟨rfl, rfl, rfl, rfl, rfl, List.prefix_rfl, List.suffix_rfl⟩, rfl, rfl, h⟩

theorem runs_get_bind {f : State → M β} (hf : ∀ s, Runs (f s)) : Runs (get >>= f) := fun s hs => by
  rw [wp_bind, wp_get]
  exact hf s s hs

theorem runs_ite {c : Prop} [Decidable c] {m n : M α} (hm : Runs m) (hn : Runs n) : Runs (if c then m else n) := by
  split <;> assumption

theorem runs_deflateFrom (finish : Bool) (fuel : Nat) : Runs (deflateFrom finish fuel) := by
  induction fuel with
  | zero => exact runs_framed (framed_internalFault _)
  | succ fuel ih =>
    refine runs_bind (runs_framed (framed_loopTop finish)) fun top => ?_
    cases top with
    | needsInput => exact runs_framed (framed_pure _)
    | consumed => exact runs_bind (runs_setPhase (by decide)) fun _ => runs_framed framed_finishDrain
    | position =>
      exact runs_bind (runs_framed framed_evaluatePosition) fun _ =>
        runs_bind (runs_framed framed_emitPosition) fun _ => ih

theorem runs_deflateLoop (finish : Bool) : Runs (deflateLoop finish) :=
  runs_get_bind fun _ => runs_deflateFrom _ _

theorem runs_enterBusy : Runs enterBusy :=
  runs_get_bind fun _ => runs_ite
    (runs_bind (runs_framed (framed_doIf _ (framed_bind (framed_outByte _) fun _ => framed_outByte _)))
      fun _ => runs_setPhase (by decide)) (runs_framed (framed_pure _))

end Sys2Proof.Laws
end

