-- ==== Sys2Proof/Laws/Fill.lean ====
section
/-!
SUPPORT. FillWindow never faults (R97): what it leaves, and that distances between positions survive a slide.
-/

namespace Sys2Proof.Laws

open Sys2Proof.Machine

variable {s t u : State} {R : ResultCode → State → Prop} {F : Prop}

/-! ### Chains of positions below a bound -/

theorem prevIndex_eq (c : Nat) : prevIndex c = c % W := Nat.and_two_pow_sub_one_eq_mod c 15

/-- The entry of a position in `S` is NIL or a position in `S`. -/
def Chained (S : Nat → Prop) (m : Memory 16) : Prop :=
  ∀ c, S c → m.read (prevIndex c) ≠ 0 → S (m.read (prevIndex c)).toNat

/-- Every position on the chain of a bucket lies below `b`: some set of such positions holds the heads and is closed under
the entries of `prev`. -/
def Linked (b : Nat) (head prev : Memory 16) : Prop :=
  ∃ S : Nat → Prop, (∀ c, S c → c < b) ∧ (∀ h, head.read h ≠ 0 → S (head.read h).toNat) ∧ Chained S prev

theorem linked_mono {b b' : Nat} {head prev : Memory 16} (h : Linked b head prev) (hb : b ≤ b') :
    Linked b' head prev := by
  obtain ⟨S, h1, h2⟩ := h
  exact ⟨S, fun c hc => Nat.lt_of_lt_of_le (h1 c hc) hb, h2⟩

theorem toNat_ne_zero {v : Half} (h : 0 < v.toNat) : v ≠ 0 := by
  rintro rfl
  exact absurd h (by decide)

theorem toNat_pos {v : Half} (h : v ≠ 0) : 0 < v.toNat :=
  Nat.pos_of_ne_zero fun h0 => h (BitVec.eq_of_toNat_eq (by rw [h0]; rfl))

/-- A chain that starts in a closed set stays in it. -/
theorem chainFrom_closed {S : Nat → Prop} {m : Memory 16} (h : Chained S m) (limit n : Nat) :
    ∀ {c : Nat}, S c → ∀ x ∈ chainFrom m limit n c, S x := by
  induction n with
  | zero => exact fun _ x hx => absurd hx List.not_mem_nil
  | succ n ih =>
    intro c hc x hx
    rw [chainFrom] at hx
    rcases List.mem_cons.mp hx with rfl | hx
    · exact hc
    split at hx
    · next hl =>
      have := h c hc
      rw [prevIndex_eq] at this
      exact ih (this (toNat_ne_zero (by omega))) x hx
    · exact absurd hx List.not_mem_nil

/-- The entry of a position on a chain is on the chain, one position further. -/
theorem chainFrom_next {m : Memory 16} (n : Nat) :
    ∀ {c x : Nat}, x ∈ chainFrom m NIL n c → m.read (x % W) ≠ 0 →
      (m.read (x % W)).toNat ∈ chainFrom m NIL (n + 1) c := by
  induction n with
  | zero => exact fun hx => absurd hx List.not_mem_nil
  | succ n ih =>
    intro c x hx h0
    rw [chainFrom] at hx ⊢
    rcases List.mem_cons.mp hx with rfl | hx
    · rw [if_pos (show NIL < _ from toNat_pos h0), chainFrom]
      exact List.mem_cons_of_mem _ List.mem_cons_self
    · split at hx
      · next hl =>
        rw [if_pos hl]
        exact List.mem_cons_of_mem _ (ih hx h0)
      · exact absurd hx List.not_mem_nil

theorem chainsBehind_iff : s.ChainsBehind ↔ Linked s.strstart s.head s.prev := by
  constructor
  · intro h
    refine ⟨fun c => ∃ a n, s.head.read a ≠ 0 ∧ c ∈ chainFrom s.prev NIL n (s.head.read a).toNat,
      fun c ⟨a, n, ha, hc⟩ => h a n ha c hc, fun a ha => ⟨a, 1, ha, ?_⟩, fun c ⟨a, n, ha, hc⟩ h0 => ?_⟩
    · rw [chainFrom]
      exact List.mem_cons_self
    · rw [prevIndex_eq] at h0 ⊢
      exact ⟨a, n + 1, ha, chainFrom_next n hc h0⟩
  · rintro ⟨S, h1, h2, h3⟩ a n ha c hc
    exact h1 c (chainFrom_closed h3 NIL n (h2 a ha) c hc)

/-- A session without positions in `head` has no chains. -/
theorem chainsBehind_of_empty (h : s.head = []) : s.ChainsBehind := fun a n ha => absurd (by rw [h]; rfl) ha

/-- InsertString keeps a closed set that holds the former head (R103). -/
theorem chained_insert {S : Nat → Prop} {m : Memory 16} (h : Chained S m) (hm : m.wf W = true) (p : Nat) {r : Half}
    (hr : r ≠ 0 → S r.toNat) : Chained S (m.write (prevIndex p) r) := by
  intro c hc
  rw [read_write hm]
  split
  · exact hr
  · exact h c hc

/-- The chains after `InsertString(p)` (R103). -/
theorem linked_insert {b p a : Nat} {head prev : Memory 16} (h : Linked b head prev) (hb : b ≤ p + 1)
    (hh : head.wf HASH_SIZE = true) (hm : prev.wf W = true) :
    Linked (p + 1) (head.write a (BitVec.ofNat 16 p)) (prev.write (prevIndex p) (head.read a)) := by
  obtain ⟨S, h1, h2, h3⟩ := h
  have hp : (BitVec.ofNat 16 p).toNat ≤ p := by
    rw [BitVec.toNat_ofNat]
    exact Nat.mod_le _ _
  refine ⟨fun c => S c ∨ c = (BitVec.ofNat 16 p).toNat, fun c hc => ?_, fun x hx => ?_, fun c hc h0 => ?_⟩
  · rcases hc with hc | rfl
    · exact Nat.lt_of_lt_of_le (h1 c hc) hb
    · omega
  · rw [read_write hh] at hx ⊢
    split at hx
    · next he => rw [if_pos he]; exact .inr rfl
    · next he => rw [if_neg he]; exact .inl (h2 x hx)
  · rw [read_write hm] at h0 ⊢
    split at h0
    · next he => rw [if_pos he]; exact .inl (h2 a h0)
    · next he =>
      rw [if_neg he]
      rcases hc with hc | rfl
      · exact .inl (h3 c hc h0)
      · refine absurd ?_ he
        rw [prevIndex_eq, prevIndex_eq, BitVec.toNat_ofNat]
        exact Nat.mod_mod_of_dvd p (by decide)

/-- The chains after a slide (R95). -/
theorem linked_rebase {b : Nat} {head prev : Memory 16} (h : Linked b head prev) (hh : head.wf HASH_SIZE = true)
    (hm : prev.wf W = true) : Linked (b - W) head.rebase prev.rebase := by
  obtain ⟨S, h1, h2, h3⟩ := h
  have down : ∀ v : Half, rebasePosition v ≠ 0 → v ≠ 0 ∧ (rebasePosition v).toNat + W = v.toNat := fun v hv => by
    have h := rebasePosition_toNat v
    have h0 := toNat_pos hv
    split at h
    · exact ⟨toNat_ne_zero (by omega), by omega⟩
    · omega
  refine ⟨fun c => S (c + W), fun c hc => ?_, fun a ha => ?_, fun c hc h0 => ?_⟩
  · have := h1 _ hc
    omega
  · rw [read_rebase hh] at ha ⊢
    obtain ⟨h4, h5⟩ := down _ ha
    show S (_ + W)
    rw [h5]
    exact h2 a h4
  · rw [read_rebase hm] at h0 ⊢
    obtain ⟨h4, h5⟩ := down _ h0
    show S (_ + W)
    rw [h5]
    have e : prevIndex (c + W) = prevIndex c := by rw [prevIndex_eq, prevIndex_eq, Nat.add_mod_right]
    rw [← e] at h4 ⊢
    exact h3 _ hc h4

/-! ### One pass -/

/-- What FillWindow changes, and what it keeps (R94 to R97). -/
structure Filled (s t : State) : Prop where
  frame : t = { s with
    window := t.window, matchStart := t.matchStart, strstart := t.strstart, blockStart := t.blockStart,
    head := t.head, prev := t.prev, insH := t.insH, adlerA := t.adlerA, adlerB := t.adlerB, feed := t.feed,
    lookahead := t.lookahead }
  stored : storedLength t = storedLength s
  back : (t.strstart : Int) - t.matchStart = s.strstart - s.matchStart
  grows : s.lookahead ≤ t.lookahead
  total : t.lookahead + t.feed.length = s.lookahead + s.feed.length
  behind : s.ChainsBehind → t.ChainsBehind
  pos : 1 ≤ s.strstart → 1 ≤ t.strstart

theorem Filled.refl (s : State) : Filled s s := ⟨rfl, rfl, rfl, Nat.le_refl _, rfl, id, id⟩

theorem Filled.trans (h : Filled s t) (h' : Filled t u) : Filled s u where
  frame := by
    have e1 := h.frame
    have e2 := h'.frame
    rw [e1] at e2
    exact e2
  stored := h'.stored.trans h.stored
  back := h'.back.trans h.back
  grows := Nat.le_trans h.grows h'.grows
  total := h'.total.trans h.total
  behind := fun x => h'.behind (h.behind x)
  pos := fun x => h'.pos (h.pos x)

theorem readBytes_spec (p n : Nat) (s : State) (hn : n ≤ s.feed.length) (hp : p + n ≤ WIN) :
    wp (readBytes p n)
      (fun _ t => t = { s with window := t.window, adlerA := t.adlerA, adlerB := t.adlerB, feed := s.feed.drop n })
      R F s := by
  induction n generalizing p s with
  | zero =>
    rw [readBytes, wp_pure]
    rfl
  | succ n ih =>
    rw [readBytes, wp_bind]
    refine wp_inRead _ (fun b rest hf => ?_) (fun h => by rw [h] at hn; exact absurd hn (Nat.not_succ_le_zero n))
    rw [wp_bind, wp_writeWindow]
    refine ⟨fun _ => ?_, fun hp' => absurd (by omega) hp'⟩
    rw [wp_bind, wp_adlerUpdate]
    have hl : rest.length = s.feed.length - 1 := by rw [hf]; rfl
    refine wp_imp (ih (p + 1) _ (by show n ≤ rest.length; omega) (by omega)) fun _ t ht => ?_
    rw [hf, List.drop_succ_cons]
    exact ht

theorem slid_stored (s : State) (h : slideDue s = true) : storedLength s.slid = storedLength s := by
  have : W + MAX_DIST ≤ s.strstart := of_decide_eq_true h
  unfold storedLength
  rw [slid_strstart, slid_blockStart]
  omega

/-- The slide (R94, R95) keeps every distance. -/
theorem filled_slid (hc : s.CoreOk) (h : slideDue s = true) : Filled s s.slid where
  frame := rfl
  stored := slid_stored s h
  back := by
    have : W + MAX_DIST ≤ s.strstart := of_decide_eq_true h
    rw [slid_strstart, slid_matchStart]
    omega
  grows := Nat.le_refl _
  total := rfl
  behind := by
    intro hb
    have e : s.slid.strstart = s.strstart - W := by
      rw [slid_strstart]
      omega
    rw [chainsBehind_iff] at hb ⊢
    rw [e, slid_head, slid_prev]
    exact linked_rebase hb hc.2.1.2.1 hc.2.1.2.2.1
  pos := by
    intro _
    have h1 : W + MAX_DIST ≤ s.strstart := of_decide_eq_true h
    have h2 : MAX_DIST = 32506 := rfl
    rw [slid_strstart]
    omega

theorem wp_reseedHash (Q : Unit → State → Prop) (hW : MIN_MATCH ≤ s.lookahead → s.strstart + 1 < WIN)
    (h : ∀ x, Q () { s with insH := x }) : wp reseedHash Q R F s := by
  rw [reseedHash, wp_bind, wp_get, wp_ite]
  refine ⟨fun hl => ?_, fun _ => (wp_pure _).mpr (h s.insH)⟩
  have h1 := hW hl
  rw [wp_bind, wp_readWindow]
  refine ⟨fun _ => ?_, fun hn => absurd (by omega) hn⟩
  rw [wp_bind, wp_readWindow]
  refine ⟨fun _ => (wp_setHash _ _).mpr (h _), fun hn => absurd (by omega) hn⟩

/-- The rest of a pass once the slide has been made: there is room for a byte. -/
theorem fillPass_read (hw : s.strstart + s.lookahead < WIN) :
    wp (do
        let s ← get
        if s.feed = [] then pure false
        else do
          let n ← readBuf (freeSpace s)
          growLookahead n
          reseedHash
          let s ← get
          pure (decide (s.lookahead < MIN_LOOKAHEAD) && decide (s.feed ≠ [])) : M Bool)
      (fun again t => Filled s t ∧
        (again = true → t.lookahead < MIN_LOOKAHEAD ∧ t.feed ≠ [] ∧ t.feed.length < s.feed.length) ∧
        (again = false → t.lookahead < MIN_LOOKAHEAD → t.feed = [])) R F s := by
  rw [wp_bind, wp_get, wp_ite]
  refine ⟨fun hf => (wp_pure _).mpr ⟨Filled.refl s, fun h => (by cases h), fun _ _ => hf⟩, fun hf => ?_⟩
  have hfl : 0 < s.feed.length := List.length_pos_iff.mpr hf
  have hfree : freeSpace s = WIN - s.lookahead - s.strstart := rfl
  rw [wp_bind, readBuf, wp_bind, wp_get, wp_bind]
  refine wp_imp (readBytes_spec _ _ s (Nat.min_le_left _ _) (by omega)) fun _ t ht => ?_
  have e1 : t.strstart = s.strstart := by rw [ht]
  have e2 : t.lookahead = s.lookahead := by rw [ht]
  have e3 : t.feed = s.feed.drop (min s.feed.length (freeSpace s)) := by rw [ht]
  have hlen : t.feed.length = s.feed.length - min s.feed.length (freeSpace s) := by rw [e3, List.length_drop]
  rw [wp_pure, wp_bind, wp_growLookahead, wp_bind]
  refine wp_reseedHash _ (fun h3 => ?_) fun x => ?_
  · have h3 : MIN_MATCH ≤ t.lookahead + min s.feed.length (freeSpace s) := h3
    have hm : MIN_MATCH = 3 := rfl
    show t.strstart + 1 < WIN
    omega
  rw [wp_bind, wp_get, wp_pure]
  refine ⟨⟨?_, ?_, ?_, ?_, ?_, ?_, ?_⟩, fun h => ?_, fun h hl => ?_⟩
  · rw [ht]
  · have e4 : t.blockStart = s.blockStart := by rw [ht]
    show (t.strstart : Int) - t.blockStart = s.strstart - s.blockStart
    rw [e1, e4]
  · have e5 : t.matchStart = s.matchStart := by rw [ht]
    show (t.strstart : Int) - t.matchStart = s.strstart - s.matchStart
    rw [e1, e5]
  · show s.lookahead ≤ t.lookahead + _
    omega
  · show t.lookahead + min s.feed.length (freeSpace s) + t.feed.length = _
    omega
  · intro hb
    have e6 : t.head = s.head := by rw [ht]
    have e7 : t.prev = s.prev := by rw [ht]
    rw [chainsBehind_iff] at hb ⊢
    show Linked t.strstart t.head t.prev
    rw [e1, e6, e7]
    exact hb
  · intro h
    show 1 ≤ t.strstart
    rw [e1]
    exact h
  · simp only [Bool.and_eq_true, decide_eq_true_eq] at h
    refine ⟨h.1, h.2, ?_⟩
    show t.feed.length < s.feed.length
    omega
  · simp only [Bool.and_eq_false_iff, decide_eq_false_iff_not] at h
    rcases h with h | h
    · exact absurd hl h
    · exact not_not.mp h

/-- One pass of FillWindow never faults, and a pass that goes on has taken a byte. -/
theorem fillPass_spec (hc : s.CoreOk) (hl : s.lookahead < MIN_LOOKAHEAD) :
    wp fillPass
      (fun again t => Filled s t ∧
        (again = true → t.lookahead < MIN_LOOKAHEAD ∧ t.feed ≠ [] ∧ t.feed.length < s.feed.length) ∧
        (again = false → t.lookahead < MIN_LOOKAHEAD → t.feed = [])) R F s := by
  have hsum := hc.2.2.1
  have hML : MIN_LOOKAHEAD = 262 := rfl
  have hWIN : WIN = 65536 := rfl
  have hW : W = 32768 := rfl
  have hMD : MAX_DIST = 32506 := rfl
  rw [fillPass, wp_bind, wp_get, wp_bind, wp_require]
  refine ⟨fun _ => ?_, fun h => by rw [decide_eq_false_iff_not] at h; exact absurd hsum h⟩
  rw [wp_bind, wp_doIf, wp_slide]
  refine ⟨fun hd => ?_, fun hd => ?_⟩
  · have hd' : W + MAX_DIST ≤ s.strstart := of_decide_eq_true hd
    have e : s.slid.strstart = s.strstart - W := by
      rw [slid_strstart]
      omega
    refine wp_imp (fillPass_read (s := s.slid) (by rw [e, slid_lookahead]; omega)) fun again t ⟨h1, h2, h3⟩ => ?_
    exact ⟨(filled_slid hc hd).trans h1, h2, h3⟩
  · have hd' : ¬ W + MAX_DIST ≤ s.strstart := of_decide_eq_false hd
    exact fillPass_read (by omega)

theorem fillLoop_spec (fuel : Nat) (hc : s.CoreOk) (hl : s.lookahead < MIN_LOOKAHEAD)
    (hfuel : s.feed.length < fuel) :
    wp (fillLoop fuel) (fun _ t => Filled s t ∧ (t.lookahead < MIN_LOOKAHEAD → t.feed = [])) (fun _ _ => False) F s := by
  induction fuel generalizing s with
  | zero => exact absurd hfuel (Nat.not_lt_zero _)
  | succ fuel ih =>
    rw [fillLoop, wp_bind]
    refine wp_mono (wp_and (coreOk_fillPass s hc) (fillPass_spec (R := fun _ _ => False) (F := F) hc hl))
      (fun again t ⟨hct, h1, h2, h3⟩ => ?_) (fun _ _ h => h.2) fun h => h.2
    rw [wp_ite]
    refine ⟨fun ha => ?_, fun ha => (wp_pure _).mpr ⟨h1, h3 (by simpa using ha)⟩⟩
    obtain ⟨g1, -, g3⟩ := h2 ha
    exact wp_imp (ih hct g1 (by omega)) fun _ u ⟨hu, hu'⟩ => ⟨h1.trans hu, hu'⟩

/-- FillWindow (R97): it never faults, and it ends with enough lookahead or an empty feed. -/
theorem fillWindow_spec (hc : s.CoreOk) (hl : s.lookahead < MIN_LOOKAHEAD) :
    wp fillWindow (fun _ t => Filled s t ∧ (t.lookahead < MIN_LOOKAHEAD → t.feed = [])) (fun _ _ => False) F s := by
  rw [fillWindow, wp_bind, wp_get]
  exact fillLoop_spec _ hc hl (Nat.lt_succ_self _)

end Sys2Proof.Laws
end

