-- ==== Sys2Proof/Laws/Search.lean ====
section
/-!
SUPPORT. The search never faults (R107 to R112), and a longer match than the deferred one is at a distance of
1..`MAX_DIST`.
-/

namespace Sys2Proof.Laws

open Sys2Proof.Machine

variable {s t : State} {R : ResultCode → State → Prop} {F : Prop}

/-- A position in the window that a match at `strstart` may refer to (R112). -/
def InReach (s : State) (p : Int) : Prop := 1 ≤ (s.strstart : Int) - p ∧ (s.strstart : Int) - p ≤ MAX_DIST

theorem matchBytes_spec (c p k n : Nat) (hc : c + k + n ≤ WIN) (hp : p + k + n ≤ WIN) :
    wp (matchBytes c p k n) (fun _ t => t = s) R F s := by
  induction n generalizing k with
  | zero =>
    rw [matchBytes, wp_pure]
  | succ n ih =>
    rw [matchBytes, wp_bind, wp_readWindow]
    refine ⟨fun _ => ?_, fun h => absurd (by omega) h⟩
    rw [wp_bind, wp_readWindow]
    refine ⟨fun _ => ?_, fun h => absurd (by omega) h⟩
    rw [wp_ite]
    exact ⟨fun _ => ih (k + 1) (by omega) (by omega), fun _ => (wp_pure _).mpr rfl⟩

/-- What the walk does to `match_start`: nothing while no longer match is found, else it is in reach. -/
def WalkResult (s : State) (best l : Nat) (t : State) : Prop :=
  (l = best → t.matchStart = s.matchStart) ∧ (best < l → InReach s t.matchStart)

theorem walkChain_spec (limit nice chain c best : Nat) (hsum : s.strstart + s.lookahead ≤ WIN) (hc : InReach s c)
    (hlim : ∀ c' : Nat, limit < c' → c' < s.strstart → InReach s c') {S : Nat → Prop}
    (hS : ∀ c, S c → c < s.strstart) (hprev : Chained S s.prev) (hcS : S c) :
    wp (walkChain limit nice chain c best) (fun l t => WalkResult s best l t) (fun _ _ => False) F s := by
  induction chain generalizing c best s with
  | zero =>
    rw [walkChain, wp_pure]
    exact ⟨fun _ => rfl, fun h => absurd h (Nat.lt_irrefl _)⟩
  | succ chain ih =>
    have hcs : c < s.strstart := by
      have := hc.1
      omega
    rw [walkChain, wp_bind, matchLen, wp_bind, wp_get]
    refine wp_mono (wp_and (matchBytes_spec (R := fun _ _ => False) (F := F) (s := s) c s.strstart 0
      (min MAX_MATCH s.lookahead) (by omega) (by omega)) (wp_matchBytes c s.strstart 0 (min MAX_MATCH s.lookahead) s))
      (fun len t ⟨ht, _, hlen⟩ => ?_) (fun _ _ h => h.1) fun h => h.1
    rw [ht]
    rw [wp_ite]
    have hmax : ∀ l, max best len ≤ l → best < len → best < l := fun l h1 h2 => by omega
    have tail : ∀ x : Int, (best < len → x = c) → (¬ best < len → x = s.matchStart) →
        wp (do
          let s ← get
          let c' := (s.prev.read (prevIndex c)).toNat
          if limit < c' then walkChain limit nice chain c' (max best len) else pure (max best len))
        (fun l t => WalkResult s best l t) (fun _ _ => False) F { s with matchStart := x } := by
      intro x h1 h2
      have conv : ∀ l t, WalkResult { s with matchStart := x } (max best len) l t → max best len ≤ l →
          WalkResult s best l t := by
        intro l t ⟨hw1, hw2⟩ hge
        refine ⟨fun he => ?_, fun hlt => ?_⟩
        · have hb : ¬ best < len := by omega
          rw [hw1 (by omega), h2 hb]
        · by_cases hl : max best len < l
          · exact hw2 hl
          · have hlen : best < len := by omega
            have := hw1 (by omega)
            rw [this]
            show InReach s x
            rw [h1 hlen]
            exact hc
      rw [wp_bind, wp_get]
      refine (wp_ite _ _).mpr ⟨fun hl => ?_, fun _ => ?_⟩
      · have hn := hprev c hcS (toNat_ne_zero (Nat.lt_of_le_of_lt (Nat.zero_le _) hl))
        refine wp_mono (wp_and (ih _ _ hsum (hlim _ hl (hS _ hn)) hlim hS hprev hn) (wp_walkChain _ _ _ _ _ _))
          (fun l t ⟨h3, _, h4, _⟩ => conv l t h3 h4) (fun _ _ h => h.1) fun h => h.1
      · rw [wp_pure]
        exact conv _ _ ⟨fun _ => rfl, fun h => absurd h (Nat.lt_irrefl _)⟩ (Nat.le_refl _)
    refine ⟨fun hb => ?_, fun hb => ?_⟩
    · rw [wp_bind, wp_setMatchStart, wp_pure]
      exact ⟨fun h => absurd h (by omega), fun _ => hc⟩
    · rw [wp_bind, wp_doIf, wp_setMatchStart]
      exact ⟨fun h => tail c (fun _ => rfl) fun h' => absurd (of_decide_eq_true h) h',
        fun h => tail s.matchStart (fun h' => absurd h' (of_decide_eq_false h)) fun _ => rfl⟩

/-- LongestMatch never faults from a candidate in reach; a result above the deferred length is a match in reach. -/
theorem longestMatch_spec (c : Nat) (hsum : s.strstart + s.lookahead ≤ WIN) (hc : InReach s c)
    {S : Nat → Prop} (hS : ∀ c, S c → c < s.strstart) (hprev : Chained S s.prev) (hcS : S c) :
    wp (longestMatch c) (fun l t => s.prevLength < l → InReach s t.matchStart) (fun _ _ => False) F s := by
  rw [longestMatch, wp_bind, wp_get, wp_bind]
  refine wp_imp (walkChain_spec _ _ _ c s.prevLength hsum hc (fun c' h1 h2 => ?_) hS hprev hcS) fun l t h => ?_
  · have hN : NIL = 0 := rfl
    have hM : MAX_DIST = 32506 := rfl
    unfold chainLimit at h1
    unfold InReach
    split at h1 <;> omega
  · rw [wp_pure]
    exact fun h' => h.2 (by omega)

/-! ### The lazy step -/

/-- The state between EvaluatePosition and the emission (R113, R114): the deferred match ends at `strstart - 1` plus
its length, and a longer match at `strstart` is in reach. -/
structure Evaluated (s : State) : Prop where
  linked : Linked (s.strstart + 1) s.head s.prev
  avail : s.matchAvailable = true → 1 ≤ s.strstart
  deferred : MIN_MATCH ≤ s.prevLength → s.matchAvailable = true ∧ s.prevLength ≤ s.lookahead + 1 ∧
    1 ≤ (s.strstart : Int) - 1 - s.prevMatch ∧ (s.strstart : Int) - 1 - s.prevMatch ≤ MAX_DIST
  longer : s.prevLength < s.matchLength → s.matchLength ≤ s.lookahead ∧ InReach s s.matchStart
  two : 2 ≤ s.prevLength

/-- What EvaluatePosition writes. -/
def EvalFrame (s t : State) : Prop :=
  t = { s with
    insH := t.insH, head := t.head, prev := t.prev, prevLength := s.matchLength, prevMatch := s.matchStart,
    matchLength := t.matchLength, matchStart := t.matchStart }

/-- InsertString at `strstart` (R114): the former head and the positions on its chain lie below `strstart`. -/
theorem insertHere_spec (hc : s.CoreOk) (hb : s.ChainsBehind) (h1 : 1 ≤ s.lookahead) :
    wp insertHere (fun n t => t = { s with insH := t.insH, head := t.head, prev := t.prev } ∧
      (n ≠ NIL → ∃ S : Nat → Prop, (∀ c, S c → c < s.strstart) ∧ Chained S t.prev ∧ S n) ∧
      Linked (s.strstart + 1) t.head t.prev) (fun _ _ => False) F s := by
  have hM : MIN_MATCH = 3 := rfl
  have hsum := hc.2.2.1
  rw [chainsBehind_iff] at hb
  rw [insertHere, wp_bind, wp_get, wp_ite, wp_insertString, wp_pure]
  refine ⟨fun h3 => ⟨fun _ => ?_, fun h => absurd (by omega) h⟩, fun _ => ?_⟩
  · generalize updateHash s.insH (s.window.read (s.strstart + 2)) = x
    refine ⟨rfl, fun hn => ?_, linked_insert hb (Nat.le_succ _) hc.2.1.2.1 hc.2.1.2.2.1⟩
    obtain ⟨S, h4, h5, h6⟩ := hb
    have h0 : s.head.read x.toNat ≠ 0 := fun h0 => hn (by rw [h0]; rfl)
    exact ⟨S, h4, chained_insert h6 hc.2.1.2.2.1 _ (h5 _), h5 _ h0⟩
  · exact ⟨rfl, fun h => absurd rfl h, linked_mono hb (Nat.le_succ _)⟩

/-- EvaluatePosition never faults (R114). -/
theorem evaluatePosition_spec (hc : s.CoreOk) (hb : s.ChainsBehind) (hm : s.MatchHeld) (h1 : 1 ≤ s.lookahead) :
    wp evaluatePosition (fun _ t => EvalFrame s t ∧ Evaluated t) (fun _ _ => False) F s := by
  have hsum := hc.2.2.1
  have hlen := hc.2.2.2.1
  rw [evaluatePosition, wp_bind]
  refine wp_imp (insertHere_spec hc hb h1) fun n u ⟨hu, hn, hl⟩ => ?_
  have e1 : u.strstart = s.strstart := by rw [hu]
  have e2 : u.lookahead = s.lookahead := by rw [hu]
  have e3 : u.matchAvailable = s.matchAvailable := by rw [hu]
  have e4 : u.matchLength = s.matchLength := by rw [hu]
  have e5 : u.matchStart = s.matchStart := by rw [hu]
  rw [wp_bind, wp_deferMatch, wp_bind, wp_get]
  -- what holds whatever the search finds
  have fin : ∀ (len : Nat) (x : Int), (s.matchLength < len → len ≤ s.lookahead ∧ InReach s x) →
      EvalFrame s { u with prevLength := u.matchLength, prevMatch := u.matchStart, matchLength := len, matchStart := x } ∧
      Evaluated { u with prevLength := u.matchLength, prevMatch := u.matchStart, matchLength := len, matchStart := x } := by
    intro len x hx
    refine ⟨?_, ?_, ?_, ?_, ?_, ?_⟩
    · unfold EvalFrame
      rw [hu]
    · show Linked (u.strstart + 1) u.head u.prev
      rw [e1]; exact hl
    · show u.matchAvailable = true → 1 ≤ u.strstart
      rw [e1, e3]; exact hm.1
    · show MIN_MATCH ≤ u.matchLength → u.matchAvailable = true ∧ u.matchLength ≤ u.lookahead + 1 ∧
        1 ≤ (u.strstart : Int) - 1 - u.matchStart ∧ (u.strstart : Int) - 1 - u.matchStart ≤ MAX_DIST
      rw [e1, e2, e3, e4, e5]; exact hm.2
    · show u.matchLength < len → len ≤ u.lookahead ∧ 1 ≤ (u.strstart : Int) - x ∧ (u.strstart : Int) - x ≤ MAX_DIST
      rw [e1, e2, e4]; exact hx
    · show 2 ≤ u.matchLength
      rw [e4]; exact hlen
  refine (wp_ite _ _).mpr ⟨fun hs => ?_, fun _ => ?_⟩
  · simp only [searchAllowed, Bool.and_eq_true, decide_eq_true_eq] at hs
    obtain ⟨⟨hs1, -⟩, hs3⟩ := hs
    obtain ⟨S, hS, hprev, hnS⟩ := hn hs1
    have hns := hS n hnS
    rw [← e1] at hS
    rw [wp_bind]
    have hreach : InReach ({ u with
        prevLength := u.matchLength, prevMatch := u.matchStart, matchLength := MIN_MATCH - 1 } : State) n := by
      refine ⟨?_, hs3⟩
      show 1 ≤ (u.strstart : Int) - n
      omega
    refine wp_mono (wp_and (longestMatch_spec (F := F) n (by show u.strstart + u.lookahead ≤ WIN; omega) hreach
      hS hprev hnS) (wp_longestMatch n _))
      (fun l t ⟨h5, ht, _, _, h6⟩ => ?_) (fun _ _ h => h.1) fun h => h.1
    rw [wp_bind, wp_setMatchLength, wp_bind, wp_get, wp_doIf, wp_setMatchLength]
    have h5 : u.matchLength < l → InReach s t.matchStart := fun h => by
      have := h5 h
      unfold InReach at this ⊢
      rw [← e1]
      exact this
    have h6 : l ≤ u.lookahead := h6
    have ht' : ∀ len : Nat, ({ t with matchLength := len } : State) =
        { u with prevLength := u.matchLength, prevMatch := u.matchStart, matchLength := len,
                 matchStart := t.matchStart } := fun len => by rw [ht]
    refine ⟨fun _ => ?_, fun _ => ?_⟩
    · have := fin (MIN_MATCH - 1) t.matchStart fun h => absurd h (by have : MIN_MATCH = 3 := rfl; omega)
      have e := ht' (MIN_MATCH - 1)
      show EvalFrame s { t with matchLength := MIN_MATCH - 1 } ∧ Evaluated { t with matchLength := MIN_MATCH - 1 }
      rw [e]
      exact this
    · rw [ht' l]
      exact fin l t.matchStart fun h => ⟨by omega, h5 (by omega)⟩
  · rw [wp_pure]
    exact fin (MIN_MATCH - 1) u.matchStart fun h => absurd h (by have : MIN_MATCH = 3 := rfl; omega)

end Sys2Proof.Laws
end

