-- ==== Sys2Proof/Laws/Items.lean ====
section
/-!
SUPPORT. The run-length items of a dynamic header (R140, R157): their extra values fit, they are no more than the
lengths they stand for, every used length above 0 is sent as a symbol, and ScanTree counts them exactly.
-/

namespace Sys2Proof.Laws

open Sys2Proof.Machine

/-! ### Extra values -/

/-- The extra value of an item fits its extra bits. -/
def ItemFits (x : BlItem) : Prop := x.extraBits ≤ 16 ∧ x.extraValue < 2 ^ x.extraBits

theorem runItems_fits {prevlen : Option Nat} {cur count : Nat}
    (h : count ≤ (runLimits prevlen (some cur)).1) {x : BlItem}
    (hx : x ∈ runItems prevlen cur count (runLimits prevlen (some cur)).2) : ItemFits x := by
  have hplain : ∀ c, ItemFits ⟨c, 0, 0⟩ := fun c => ⟨by show 0 ≤ 16; decide, by show 0 < 1; decide⟩
  unfold runItems at hx
  unfold runLimits at h hx
  by_cases h0 : cur = 0
  · subst h0
    simp only [if_true] at h hx
    split at hx
    · rw [(List.mem_replicate.mp hx).2]
      exact hplain 0
    · simp only [ne_eq, not_true_eq_false, if_false] at hx
      split at hx <;> simp only [List.mem_singleton] at hx <;> subst hx
      · exact ⟨by show 3 ≤ 16; decide, by show count - 3 < 8; omega⟩
      · exact ⟨by show 7 ≤ 16; decide, by show count - 11 < 128; omega⟩
  · have hne : ¬ (some cur : Option Nat) = some 0 := by simpa using h0
    by_cases hp : prevlen = some cur
    · subst hp
      simp only [hne, if_false, Option.isSome_some, and_self, if_true] at h hx
      split at hx
      · rw [(List.mem_replicate.mp hx).2]
        exact hplain cur
      · simp only [List.mem_singleton] at hx
        subst hx
        exact ⟨by show 2 ≤ 16; decide, by show count - 3 < 4; omega⟩
    · simp only [hne, if_false, hp, and_false] at h hx
      split at hx
      · rw [(List.mem_replicate.mp hx).2]
        exact hplain cur
      · simp only [List.mem_cons, List.not_mem_nil, or_false] at hx
        rcases hx with rfl | rfl
        · exact hplain cur
        · exact ⟨by show 2 ≤ 16; decide, by show count - 1 - 3 < 4; omega⟩

theorem runLimits_fst_pos (prevlen : Option Nat) (next : Option Nat) : 1 ≤ (runLimits prevlen next).1 := by
  unfold runLimits
  split
  · decide
  · split <;> decide

theorem scanRuns_fits {lens : List Nat} (prevlen : Option Nat) (count : Nat)
    (hc : count + 1 ≤ (runLimits prevlen lens.head?).1) {x : BlItem}
    (h : x ∈ scanRuns prevlen count (runLimits prevlen lens.head?) lens) : ItemFits x := by
  induction lens generalizing prevlen count with
  | nil => cases h
  | cons cur rest ih =>
    unfold scanRuns at h
    split at h
    · rename_i hcont
      have e : runLimits prevlen (cur :: rest).head? = runLimits prevlen rest.head? := by rw [hcont.2]; rfl
      rw [e] at h hcont
      exact ih prevlen (count + 1) (by omega) h
    · rcases List.mem_append.mp h with h | h
      · exact runItems_fits hc h
      · exact ih (some cur) 0 (by simpa using runLimits_fst_pos (some cur) rest.head?) h

theorem blItems_fits (lens : List Nat) (maxCode : Nat) {x : BlItem} (h : x ∈ blItems lens maxCode) : ItemFits x :=
  scanRuns_fits none 0 (by simpa using runLimits_fst_pos none _) h

/-! ### How many items -/

theorem runLimits_snd (prevlen : Option Nat) (next : Option Nat) : 3 ≤ (runLimits prevlen next).2 := by
  unfold runLimits
  split
  · decide
  · split <;> decide

theorem runItems_length {prevlen : Option Nat} {cur count minc : Nat} (hm : 3 ≤ minc) :
    (runItems prevlen cur count minc).length ≤ count := by
  unfold runItems
  split
  · simp
  · split
    · split <;> simp only [List.length_cons, List.length_nil] <;> omega
    · split <;> simp only [List.length_cons, List.length_nil] <;> omega

theorem scanRuns_length {lens : List Nat} (prevlen : Option Nat) (count : Nat) (limits : Nat × Nat)
    (hm : 3 ≤ limits.2) : (scanRuns prevlen count limits lens).length ≤ count + lens.length := by
  induction lens generalizing prevlen count limits with
  | nil => exact Nat.zero_le _
  | cons cur rest ih =>
    unfold scanRuns
    split
    · have := ih prevlen (count + 1) limits hm
      simp only [List.length_cons]
      omega
    · have h1 := runItems_length (prevlen := prevlen) (cur := cur) (count := count + 1) hm
      have h2 := ih (some cur) 0 (runLimits (some cur) rest.head?) (runLimits_snd _ _)
      simp only [List.length_append, List.length_cons]
      omega

theorem blItems_length (lens : List Nat) (maxCode : Nat) : (blItems lens maxCode).length ≤ lens.length := by
  have h := scanRuns_length (lens := lens.take (maxCode + 1)) none 0
    (runLimits none (lens.take (maxCode + 1)).head?) (runLimits_snd _ _)
  have h2 : (lens.take (maxCode + 1)).length ≤ lens.length := by
    rw [List.length_take]
    omega
  unfold blItems
  dsimp only
  omega

/-! ### A used length is sent as a symbol -/

theorem scanRuns_symbol {lens : List Nat} (prevlen : Option Nat) (count : Nat) (limits : Nat × Nat)
    (h : ∃ l ∈ lens, l ≠ 0) :
    (∃ x ∈ scanRuns prevlen count limits lens, x.symbol ∈ lens ∧ x.symbol ≠ 0) ∨ ∃ c, prevlen = some c ∧ c ≠ 0 := by
  induction lens generalizing prevlen count limits with
  | nil => obtain ⟨l, hl, -⟩ := h; cases hl
  | cons cur rest ih =>
    unfold scanRuns
    have lift : (∃ x ∈ scanRuns prevlen (count + 1) limits rest, x.symbol ∈ rest ∧ x.symbol ≠ 0) →
        ∃ x ∈ scanRuns prevlen (count + 1) limits rest, x.symbol ∈ cur :: rest ∧ x.symbol ≠ 0 :=
      fun ⟨x, hx, hm, h0⟩ => ⟨x, hx, List.mem_cons_of_mem _ hm, h0⟩
    split
    · rename_i hcont
      have hcr : cur ∈ rest := by
        cases rest with
        | nil => simp at hcont
        | cons y rest =>
          simp only [List.head?_cons, Option.some.injEq] at hcont
          rw [hcont.2]
          exact List.mem_cons_self
      obtain ⟨l, hl, hl0⟩ := h
      have : l ∈ rest := by
        rcases List.mem_cons.mp hl with rfl | hl
        · exact hcr
        · exact hl
      exact (ih prevlen (count + 1) limits ⟨l, this, hl0⟩).imp_left lift
    · by_cases h0 : cur = 0
      · subst h0
        obtain ⟨l, hl, hl0⟩ := h
        have hl : l ∈ rest := by
          rcases List.mem_cons.mp hl with rfl | hl
          · exact absurd rfl hl0
          · exact hl
        rcases ih (some 0) 0 (runLimits (some 0) rest.head?) ⟨l, hl, hl0⟩ with ⟨x, hx, hm, hx0⟩ | ⟨c, hc, hc0⟩
        · exact .inl ⟨x, List.mem_append_right _ hx, List.mem_cons_of_mem _ hm, hx0⟩
        · cases hc
          exact absurd rfl hc0
      · unfold runItems
        split
        · exact .inl ⟨⟨cur, 0, 0⟩, List.mem_append_left _ (List.mem_replicate.mpr ⟨by omega, rfl⟩),
            List.mem_cons_self, h0⟩
        · split
          · rename_i hp
            exact .inr ⟨cur, hp, h0⟩
          · exact .inl ⟨⟨cur, 0, 0⟩, List.mem_append_left _ List.mem_cons_self, List.mem_cons_self, h0⟩

/-- A length list with a length above 0 has an item whose symbol is such a length. -/
theorem blItems_symbol {lens : List Nat} {maxCode : Nat} (h : ∃ l ∈ lens.take (maxCode + 1), l ≠ 0) :
    ∃ x ∈ blItems lens maxCode, x.symbol ∈ lens ∧ x.symbol ≠ 0 := by
  rcases scanRuns_symbol none 0 (runLimits none (lens.take (maxCode + 1)).head?) h with ⟨x, hx, hm, h0⟩ | ⟨c, hc, -⟩
  · exact ⟨x, hx, List.mem_of_mem_take hm, h0⟩
  · cases hc

/-! ### ScanTree counts the items -/

theorem foldl_bump_read {size : Nat} {m : Memory 16} (items : List BlItem) (hm : m.wf size = true)
    (hs : ∀ x ∈ items, x.symbol < size) (n : Nat) (hb : (m.read n).toNat + items.length < 2 ^ 16) :
    ((items.foldl (fun f x => bump f x.symbol) m).read n).toNat =
      (m.read n).toNat + items.countP fun x => decide (x.symbol = n) := by
  induction items generalizing m with
  | nil => rfl
  | cons x xs ih =>
    simp only [List.length_cons] at hb
    have hx := hs x List.mem_cons_self
    have hr : (bump m x.symbol).read n = if n = x.symbol then m.read x.symbol + 1 else m.read n :=
      read_write hm x.symbol n _
    have hrn : ((bump m x.symbol).read n).toNat = (m.read n).toNat + if x.symbol = n then 1 else 0 := by
      rw [hr]
      by_cases h : n = x.symbol
      · subst h
        rw [if_pos rfl, if_pos rfl, BitVec.toNat_add]
        have : (1 : BitVec 16).toNat = 1 := rfl
        rw [this, Nat.mod_eq_of_lt (by omega)]
      · rw [if_neg h, if_neg (Ne.symm h), Nat.add_zero]
    rw [List.foldl_cons, ih (wf_bump hm hx) (fun y hy => hs y (List.mem_cons_of_mem _ hy)) (by
      rw [hrn]; split <;> omega), hrn, List.countP_cons]
    simp only [decide_eq_true_eq]
    omega

/-! ### The last bit-length code length sent -/

theorem maxBlIndex_le (lens : List Nat) (r : Nat) : maxBlIndex lens r ≤ r := by
  induction r with
  | zero => exact Nat.le_refl 0
  | succ r ih =>
    unfold maxBlIndex
    split
    · omega
    · exact Nat.le_refl _

theorem le_maxBlIndex {lens : List Nat} {r j : Nat} (hj : j ≤ r)
    (hl : lens.getD (bitLengthOrder.getD j 0) 0 ≠ 0) : j ≤ maxBlIndex lens r := by
  induction r with
  | zero => exact hj
  | succ r ih =>
    unfold maxBlIndex
    split
    · rename_i h
      by_cases he : j = r + 1
      · subst he
        exact absurd h.2 hl
      · exact ih (by omega)
    · exact hj

/-- A used symbol 1..15 of the bit-length alphabet stands late enough in `BL_ORDER` for `HCLEN >= 0` (R141, R156). -/
theorem three_le_maxBlIndex {lens : List Nat} {n : Nat} (h1 : 1 ≤ n) (h2 : n ≤ 15) (hl : lens.getD n 0 ≠ 0) :
    3 ≤ maxBlIndex lens 18 := by
  have hpos : ∀ n ≤ 15, 1 ≤ n → ∃ j ≤ 18, 3 ≤ j ∧ bitLengthOrder.getD j 0 = n := by decide
  obtain ⟨j, hj, hj3, hjn⟩ := hpos n h2 h1
  exact Nat.le_trans hj3 (le_maxBlIndex hj (by rw [hjn]; exact hl))

end Sys2Proof.Laws
end

