-- ==== Sys2Proof/Laws/Flush.lean ====
section
/-!
SUPPORT. FlushBlock (R160): what it leaves, and that it never faults on a block whose counters are exact.
-/

namespace Sys2Proof.Laws

open Sys2Proof.Machine

variable {F : Prop} {s : State}

/-! ### `CoreOk` -/

theorem coreOk_buildTree (k : TreeKind) : Keeps State.CoreOk (buildTree k) := fun _ h =>
  wp_buildTree k _ (fun _ _ => h) fun _ => trivial

theorem coreOk_scanTree {lens : List Nat} (maxCode : Nat) (hl : ∀ l ∈ lens, l ≤ 15) :
    Keeps State.CoreOk (scanTree lens maxCode) := fun s h => by
  rw [wp_scanTree]
  refine ⟨fun _ => ?_, fun _ => trivial⟩
  exact ⟨h.1, ⟨h.2.1.1, h.2.1.2.1, h.2.1.2.2.1, h.2.1.2.2.2.1, h.2.1.2.2.2.2.1, h.2.1.2.2.2.2.2.1,
    h.2.1.2.2.2.2.2.2.1, wf_foldl_bump h.2.1.2.2.2.2.2.2.2 fun _ hx => blItems_symbol_lt hl maxCode hx⟩, h.2.2⟩

theorem coreOk_modify_optLen (f : State → Int) :
    Keeps State.CoreOk (modify fun s => { s with optLen := f s } : M PUnit) := keeps_modify fun _ h => h

theorem coreOk_buildBlTree {l d : BuiltTree} (hl : ∀ x ∈ l.lens, x ≤ 15) (hd : ∀ x ∈ d.lens, x ≤ 15) :
    Keeps State.CoreOk (buildBlTree l d) :=
  keeps_bind (coreOk_scanTree _ hl) fun _ => keeps_bind (coreOk_scanTree _ hd) fun _ =>
    keeps_bind (coreOk_buildTree _) fun _ => keeps_bind (coreOk_modify_optLen _) fun _ => keeps_pure _

/-- What `buildTree` answers: the tree of its frequencies. -/
theorem wp_buildTree_eq (k : TreeKind) (s : State) :
    wp (buildTree k) (fun t u => builtTree s.cfg.heapTie k (s.freqOf k) = some t ∧
        u = { s with optLen := s.optLen + t.optAdd, staticLen := s.staticLen + t.staticAdd })
      (fun _ _ => False) F s := by
  obtain ⟨t, ht, -⟩ := builtTree_good s.cfg.heapTie k (s.freqOf k)
  exact wp_buildTree k _ (fun t' h => ⟨h, rfl⟩) fun h => by rw [ht] at h; cases h

theorem lens_le_15 {tie : HeapTie} {k : TreeKind} {freq : Memory 16} {t : BuiltTree}
    (h : builtTree tie k freq = some t) : ∀ l ∈ t.lens, l ≤ 15 := fun l hl =>
  Nat.le_trans ((builtTree_lens h).2 l hl) (maxLength_le k)

theorem coreOk_initBlock : Keeps State.CoreOk initBlock := fun _ h => (wp_initBlock _).mpr (coreOk_blockCleared h)

theorem coreOk_startBlock : Keeps State.CoreOk startBlock := fun _ h => (wp_startBlock _).mpr h

theorem coreOk_flushBlock (last : Bool) : Keeps State.CoreOk (flushBlock last) := by
  intro s h
  rw [flushBlock, wp_bind]
  refine wp_mono (wp_and (coreOk_buildTree .litLen s h) (wp_buildTree_eq (F := True) .litLen s))
    (fun l t ⟨ht, hl, _⟩ => ?_) (fun _ _ h => h.1) fun h => h.1
  rw [wp_bind]
  refine wp_mono (wp_and (coreOk_buildTree .dist t ht) (wp_buildTree_eq (F := True) .dist t))
    (fun d t ⟨ht, hd, _⟩ => ?_) (fun _ _ h => h.1) fun h => h.1
  exact keeps_bind (coreOk_buildBlTree (lens_le_15 hl) (lens_le_15 hd)) (fun _ =>
    keeps_bind (coreOk_emitBlock _ _ _ _ _) fun _ => keeps_bind coreOk_initBlock fun _ =>
      keeps_bind (keeps_doIf _ coreOk_align) fun _ => coreOk_startBlock) t ht

/-! ### What a flush needs -/

/-- A block that FlushBlock can send without a fault: its counters are exact, its costs are clear, and it does not
start after `strstart`. -/
def FlushReady (s : State) : Prop :=
  s.CoreOk ∧ s.TallyExact ∧ s.CostsClear ∧ s.blockStart ≤ s.strstart

theorem half_toNat_eq_zero (x : Half) : x.toNat = 0 ↔ x = 0 := by
  rw [← BitVec.toNat_inj]
  rfl

theorem read_ne_zero {x : Half} (h : 1 ≤ x.toNat) : x ≠ 0 := by
  rintro rfl
  exact absurd h (by decide)

theorem litSymbol_lt (dist : Half) (lc : Byte) : litSymbol dist lc < L_CODES := by
  unfold litSymbol
  split
  · exact Nat.lt_trans lc.isLt (by decide)
  · exact (lengthCode_lt _).2

theorem countP_pos_of {n i : Nat} {p : Nat → Bool} (hi : i < n) (hp : p i = true) : 1 ≤ (List.range n).countP p :=
  List.countP_pos_iff.mpr ⟨i, List.mem_range.mpr hi, hp⟩

/-- A tallied literal/length symbol has a frequency above 0. -/
theorem tally_lit_used (h : s.TallyExact) {i : Nat} (hi : i < s.lastLit) :
    s.dynLfreq.read (litSymbol (s.tokDist.read i) (s.tokLc.read i)) ≠ 0 := by
  refine read_ne_zero ?_
  rw [h.1 _ (litSymbol_lt _ _)]
  have := countP_pos_of (p := fun j => decide (litSymbol (s.tokDist.read j) (s.tokLc.read j) =
    litSymbol (s.tokDist.read i) (s.tokLc.read i))) hi (by simp)
  unfold State.litCount
  omega

theorem tally_dist_used (h : s.TallyExact) {i : Nat} (hi : i < s.lastLit) (hd : s.tokDist.read i ≠ 0) :
    s.dynDfreq.read (distCode (s.tokDist.read i).toNat) ≠ 0 := by
  refine read_ne_zero ?_
  rw [h.2.1 _ (distCode_lt _)]
  exact countP_pos_of (p := fun j => decide (s.tokDist.read j ≠ 0) &&
    decide (distCode (s.tokDist.read j).toNat = distCode (s.tokDist.read i).toNat)) hi (by simpa using hd)

theorem tally_end_used (h : s.TallyExact) : s.dynLfreq.read END_BLOCK ≠ 0 := by
  refine read_ne_zero ?_
  rw [h.1 END_BLOCK (by decide), if_pos rfl]
  omega

theorem tokenSendable_of_used {l d : BuiltTree} (h : s.TallyExact) (hl : GoodTree .litLen s.dynLfreq l)
    (hd : GoodTree .dist s.dynDfreq d) {i : Nat} (hi : i < s.lastLit) :
    TokenSendable l.lens d.lens (s.tokDist.read i).toNat (s.tokLc.read i).toNat := by
  have hlit := hl.used _ (litSymbol_lt (s.tokDist.read i) (s.tokLc.read i)) (tally_lit_used h hi)
  unfold TokenSendable
  unfold litSymbol at hlit
  by_cases h0 : s.tokDist.read i = 0
  · rw [if_pos h0] at hlit
    rw [if_pos ((half_toNat_eq_zero _).mpr h0)]
    exact hlit
  · rw [if_neg h0] at hlit
    have hne := (half_toNat_eq_zero (s.tokDist.read i)).not.mpr h0
    rw [if_neg hne]
    have hpos : 1 ≤ (s.tokDist.read i).toNat := by omega
    have hmax : MAX_DIST = 32506 := rfl
    have := h.2.2 i hi
    exact ⟨hlit, hd.used _ (distCode_lt _) (tally_dist_used h hi h0), lengthCode_extra (s.tokLc.read i).isLt,
      (distCode_spec hpos (by omega)).2⟩

/-! ### The size of a block in the static form -/

theorem sum_mul_le (size c : Nat) (f : Nat → Nat) (g : Nat → Int) (hg : ∀ n, g n ≤ c) :
    ((List.range size).map fun n => (f n : Int) * g n).sum ≤ (c : Int) * (((List.range size).map f).sum : Nat) := by
  induction size with
  | zero => simp
  | succ size ih =>
    rw [List.range_succ, List.map_append, List.map_append, List.sum_append, List.sum_append]
    simp only [List.map_cons, List.map_nil, List.sum_cons, List.sum_nil, add_zero, Nat.cast_add, mul_add]
    have h1 : (f size : Int) * g size ≤ f size * c := Int.mul_le_mul_of_nonneg_left (hg size) (by omega)
    rw [Int.mul_comm (f size : Int) c] at h1
    omega

theorem list_sum_range (size : Nat) (f : Nat → Nat) :
    ((List.range size).map f).sum = ∑ n ∈ Finset.range size, f n := by
  rw [← List.sum_toFinset f List.nodup_range, List.toFinset_range]

theorem sum_litCount (s : State) : ((List.range L_CODES).map s.litCount).sum = s.lastLit := by
  have h := sum_countP (List.range s.lastLit) (fun i => litSymbol (s.tokDist.read i) (s.tokLc.read i)) (fun _ => 1)
    (L_CODES - 1) fun i _ => by
      have := litSymbol_lt (s.tokDist.read i) (s.tokLc.read i)
      omega
  simp only [Nat.mul_one, List.map_const', List.sum_replicate, smul_eq_mul, List.length_range] at h
  rw [list_sum_range]
  exact h

theorem sum_distCount (s : State) : ((List.range D_CODES).map s.distCount).sum ≤ s.lastLit := by
  have h := sum_countP (List.range s.lastLit) (fun i => distCode (s.tokDist.read i).toNat) (fun _ => 1) (D_CODES - 1)
    fun i _ => by
      have := distCode_lt (s.tokDist.read i).toNat
      omega
  simp only [Nat.mul_one, List.map_const', List.sum_replicate, smul_eq_mul, List.length_range] at h
  rw [list_sum_range]
  refine Nat.le_trans (Finset.sum_le_sum fun n _ => ?_) (Nat.le_of_eq h)
  unfold State.distCount
  refine List.countP_mono_left fun i _ hi => ?_
  simp only [Bool.and_eq_true] at hi
  exact hi.2

theorem sum_lfreq (h : s.TallyExact) :
    ((List.range L_CODES).map fun n => (s.dynLfreq.read n).toNat).sum = s.lastLit + 1 := by
  rw [← sum_litCount s, list_sum_range, list_sum_range, Finset.sum_congr rfl fun n hn => h.1 n (Finset.mem_range.mp hn),
    Finset.sum_add_distrib, Finset.sum_ite_eq' (Finset.range L_CODES) END_BLOCK fun _ => 1,
    if_pos (Finset.mem_range.mpr (by decide))]

theorem sum_dfreq (h : s.TallyExact) :
    ((List.range D_CODES).map fun n => (s.dynDfreq.read n).toNat).sum ≤ s.lastLit := by
  refine Nat.le_trans (Nat.le_of_eq ?_) (sum_distCount s)
  rw [list_sum_range, list_sum_range]
  exact Finset.sum_congr rfl fun n hn => h.2.1 n (Finset.mem_range.mp hn)

theorem staticCost_lit_le (n : Nat) : staticCost .litLen n ≤ (14 : Nat) := by
  have h1 := (staticLitLenLength_range n).2
  have h2 : TreeKind.extra .litLen n ≤ 5 := by
    show (if 257 ≤ n then lengthExtra (n - 257) else 0) ≤ 5
    split
    · exact lengthExtra_le _
    · exact Nat.zero_le 5
  show (staticLitLenLength n : Int) + (TreeKind.extra .litLen n : Nat) ≤ _
  omega

theorem staticCost_dist_le (n : Nat) : staticCost .dist n ≤ (18 : Nat) := by
  have h := distExtra_le n
  show ((5 : Nat) : Int) + (distExtra n : Nat) ≤ _
  omega

/-- A block of at most 16383 tokens costs at most 65535 bytes in the static form (R144). -/
theorem static_bytes_le {l d : BuiltTree} (h : s.TallyExact) (hc : s.CoreOk) (hl : GoodTree .litLen s.dynLfreq l)
    (hd : GoodTree .dist s.dynDfreq d) : bytesOf (l.staticAdd + d.staticAdd) ≤ 65535 := by
  have h1 := sum_mul_le L_CODES 14 (fun n => (s.dynLfreq.read n).toNat) (staticCost .litLen) staticCost_lit_le
  have h2 := sum_mul_le D_CODES 18 (fun n => (s.dynDfreq.read n).toNat) (staticCost .dist) staticCost_dist_le
  have e1 : l.staticAdd ≤ _ := hl.static.le.trans h1
  have e2 : d.staticAdd ≤ _ := hd.static.le.trans h2
  rw [sum_lfreq h] at e1
  have h3 := sum_dfreq h
  have h4 := tokenLimit_lt hc
  have h5 : s.lastLit ≤ s.cfg.tokenLimit := hc.2.2.2.2.2.2.2.2.2
  have h6 : s.cfg.litBufsize ≤ 16384 := by
    have := hc.1
    simp only [Config.ok, Bool.and_eq_true, decide_eq_true_eq] at this
    exact this.2
  unfold bytesOf
  omega

/-! ### The header of a dynamic block -/

/-- The symbol counts of the bit-length alphabet after both scans (R140, R141). -/
def scanned (l d : BuiltTree) : Memory 16 :=
  (blItems d.lens d.maxCode).foldl (fun f x => bump f x.symbol)
    ((blItems l.lens l.maxCode).foldl (fun f x => bump f x.symbol) [])

theorem scanned_eq (l d : BuiltTree) : scanned l d =
    (blItems l.lens l.maxCode ++ blItems d.lens d.maxCode).foldl (fun f x => bump f x.symbol) [] := by
  unfold scanned
  rw [List.foldl_append]

theorem scanned_used {l d : BuiltTree} (hl : l.lens.length = L_CODES ∧ ∀ x ∈ l.lens, x ≤ 15)
    (hd : d.lens.length = D_CODES ∧ ∀ x ∈ d.lens, x ≤ 15) {x : BlItem}
    (hx : x ∈ blItems l.lens l.maxCode ++ blItems d.lens d.maxCode) :
    x.symbol < BL_CODES ∧ (scanned l d).read x.symbol ≠ 0 := by
  have hs : ∀ y ∈ blItems l.lens l.maxCode ++ blItems d.lens d.maxCode, y.symbol < BL_CODES := fun y hy => by
    rcases List.mem_append.mp hy with hy | hy
    · exact blItems_symbol_lt hl.2 _ hy
    · exact blItems_symbol_lt hd.2 _ hy
  refine ⟨hs x hx, read_ne_zero ?_⟩
  have hlen : (blItems l.lens l.maxCode ++ blItems d.lens d.maxCode).length ≤ 316 := by
    have h1 := blItems_length l.lens l.maxCode
    have h2 := blItems_length d.lens d.maxCode
    have h3 : L_CODES = 286 := rfl
    have h4 : D_CODES = 30 := rfl
    rw [List.length_append]
    omega
  have hz : (Memory.read ([] : Memory 16) x.symbol).toNat = 0 := rfl
  rw [scanned_eq, foldl_bump_read _ (wf_nil BL_CODES) hs x.symbol (by rw [hz]; omega), hz, Nat.zero_add]
  exact List.countP_pos_iff.mpr ⟨x, hx, by simp⟩

/-- Both scans fit the counters of the bit-length alphabet: they send no more symbols than there are lengths (R31). -/
theorem scans_fit {l d : BuiltTree} (hl : l.lens.length = L_CODES ∧ ∀ x ∈ l.lens, x ≤ 15)
    (hd : d.lens.length = D_CODES) :
    scanFits [] (blItems l.lens l.maxCode) = true ∧
      scanFits ((blItems l.lens l.maxCode).foldl (fun f x => bump f x.symbol) []) (blItems d.lens d.maxCode) = true := by
  have h1 := blItems_length l.lens l.maxCode
  have h2 := blItems_length d.lens d.maxCode
  have h3 : L_CODES = 286 := rfl
  have h4 : D_CODES = 30 := rfl
  have hz : ∀ n, (Memory.read ([] : Memory 16) n).toNat = 0 := fun _ => rfl
  have hn : ∀ (items : List BlItem) (n : Nat), items.countP (fun x => decide (x.symbol = n)) ≤ items.length :=
    fun _ _ => List.countP_le_length
  simp only [scanFits, countFits, List.all_eq_true, List.mem_range, decide_eq_true_eq]
  refine ⟨fun n _ => ?_, fun n _ => ?_⟩
  · have := hn (blItems l.lens l.maxCode) n
    rw [hz]
    omega
  · have g1 := hn (blItems l.lens l.maxCode) n
    have g2 := hn (blItems d.lens d.maxCode) n
    rw [foldl_bump_read _ (wf_nil BL_CODES) (fun _ hx => blItems_symbol_lt hl.2 _ hx) n (by rw [hz]; omega), hz]
    omega

/-- BuildBlTree (R141): the tree of both scans, `max_blindex`, and the costs they add. It faults on no trees that
BuildTree returned. -/
theorem buildBlTree_spec (l d : BuiltTree) (s : State) (h : F ∨ s.blFreq = [] ∧
      (l.lens.length = L_CODES ∧ ∀ x ∈ l.lens, x ≤ 15) ∧ d.lens.length = D_CODES) :
    wp (buildBlTree l d) (fun r u =>
        builtTree s.cfg.heapTie .bitLen
          ((s.scanned (blItems l.lens l.maxCode)).scanned (blItems d.lens d.maxCode)).blFreq = some r.1 ∧
        r.2 = maxBlIndex r.1.lens 18 ∧
        u = { s with
          optLen := s.optLen + r.1.optAdd + (3 * ((r.2 : Int) + 1) + 5 + 5 + 4)
          staticLen := s.staticLen + r.1.staticAdd
          blFreq := ((s.scanned (blItems l.lens l.maxCode)).scanned (blItems d.lens d.maxCode)).blFreq })
      (fun _ _ => False) F s := by
  rw [buildBlTree, wp_bind, wp_scanTree]
  refine ⟨fun _ => ?_, fun hn => h.resolve_right fun ⟨hb, hl, hd⟩ => ?_⟩
  swap
  · rw [hb, (scans_fit hl hd).1] at hn
    cases hn
  rw [wp_bind, wp_scanTree]
  refine ⟨fun _ => ?_, fun hn => h.resolve_right fun ⟨hb, hl, hd⟩ => ?_⟩
  swap
  · simp only [State.scanned, hb, (scans_fit hl hd).2] at hn
    cases hn
  rw [wp_bind]
  refine wp_mono (wp_buildTree_eq (F := F) .bitLen _) (fun bl v ⟨hb, hv⟩ => ?_) (fun _ _ h => h.elim) id
  rw [wp_bind, wp_modify, wp_pure, hv]
  exact ⟨hb, rfl, rfl⟩

/-- What the dynamic form of a block needs to be sent. -/
structure DynamicReady (s : State) (l d bl : BuiltTree) (maxIndex : Nat) : Prop where
  lCodes : CodesOk l.lens l.codes
  dCodes : CodesOk d.lens d.codes
  blCodes : CodesOk bl.lens bl.codes
  lMax : 256 ≤ l.maxCode ∧ l.maxCode < 286
  dMax : d.maxCode < 30
  index : 3 ≤ maxIndex ∧ maxIndex ≤ 18
  blShort : ∀ n, bl.lens.getD n 0 < 8
  lItems : ∀ x ∈ blItems l.lens l.maxCode, ItemSendable bl.lens x
  dItems : ∀ x ∈ blItems d.lens d.maxCode, ItemSendable bl.lens x
  tokens : ∀ i < s.lastLit, TokenSendable l.lens d.lens (s.tokDist.read i).toNat (s.tokLc.read i).toNat
  endBlock : Sendable l.lens END_BLOCK

theorem dynamicReady {tie : HeapTie} {l d bl : BuiltTree} (h : s.TallyExact)
    (hl : builtTree tie .litLen s.dynLfreq = some l) (hd : builtTree tie .dist s.dynDfreq = some d)
    (hb : builtTree tie .bitLen (scanned l d) = some bl) : DynamicReady s l d bl (maxBlIndex bl.lens 18) := by
  have good : ∀ {k : TreeKind} {freq : Memory 16} {t : BuiltTree}, builtTree tie k freq = some t → GoodTree k freq t := by
    intro k freq t ht
    obtain ⟨t', ht', hg⟩ := builtTree_good tie k freq
    rw [ht] at ht'
    cases ht'
    exact hg
  have gl := good hl
  have gd := good hd
  have gb := good hb
  have ll : l.lens.length = L_CODES ∧ ∀ x ∈ l.lens, x ≤ 15 := ⟨(builtTree_lens hl).1, lens_le_15 hl⟩
  have ld : d.lens.length = D_CODES ∧ ∀ x ∈ d.lens, x ≤ 15 := ⟨(builtTree_lens hd).1, lens_le_15 hd⟩
  have hend := tally_end_used h
  have hE : END_BLOCK < TreeKind.elems .litLen := by decide
  have hend1 := gl.used END_BLOCK hE hend
  have hmax : 256 ≤ l.maxCode := gl.le_maxCode END_BLOCK hE hend
  have hitem : ∀ x ∈ blItems l.lens l.maxCode ++ blItems d.lens d.maxCode, ItemFits x → ItemSendable bl.lens x :=
    fun x hx hf => ⟨gb.used _ (scanned_used ll ld hx).1 (scanned_used ll ld hx).2, hf⟩
  refine ⟨codesOk_builtTree hl, codesOk_builtTree hd, codesOk_builtTree hb, ⟨hmax, gl.maxCode_lt⟩, gd.maxCode_lt,
    ⟨?_, maxBlIndex_le _ _⟩, fun n => ?_, fun x hx => hitem x (List.mem_append_left _ hx) (blItems_fits _ _ hx),
    fun x hx => hitem x (List.mem_append_right _ hx) (blItems_fits _ _ hx),
    fun i hi => tokenSendable_of_used h gl gd hi, hend1⟩
  · have hlt : END_BLOCK < l.lens.length := by rw [ll.1]; exact hE
    obtain ⟨x, hx, hm, h0⟩ := blItems_symbol (lens := l.lens) (maxCode := l.maxCode) ⟨l.lens.getD END_BLOCK 0, by
      rw [List.getD_eq_getElem _ _ hlt]
      have h256 : END_BLOCK = 256 := rfl
      exact List.mem_take_iff_getElem.mpr ⟨END_BLOCK, by omega, rfl⟩, by omega⟩
    have hu := hitem x (List.mem_append_left _ hx) (blItems_fits _ _ hx)
    have h15 := ll.2 _ hm
    have h1 : 1 ≤ bl.lens.getD x.symbol 0 := hu.1
    exact three_le_maxBlIndex (by omega) h15 (by omega)
  · have := getD_le_of_forall (builtTree_lens hb).2 n
    have h7 : TreeKind.maxLength .bitLen = 7 := rfl
    omega

theorem emits_dynamicBlock {l d bl : BuiltTree} {maxIndex : Nat} (last : Bool) (s : State)
    (hv : F ∨ s.biValid ≤ 16) (h : F ∨ DynamicReady s l d bl maxIndex) :
    wp (dynamicBlock l d bl maxIndex last) (fun _ t => EmitFrame s t) (fun _ _ => True) F s := by
  have head : ∀ m : M Unit, Emits F m → ∀ rest : M Unit,
      (∀ t, EmitFrame s t → wp rest (fun _ u => EmitFrame s u) (fun _ _ => True) F t) →
      ∀ t, EmitFrame s t → wp (m >>= fun _ => rest) (fun _ u => EmitFrame s u) (fun _ _ => True) F t := by
    intro m hm rest hrest t ht
    rw [wp_bind]
    exact wp_imp (hm t (hv.imp_right ht.valid)) fun _ u hu => hrest u (ht.trans hu)
  have e5 : 2 ^ 5 = 32 := rfl
  have e4 : 2 ^ 4 = 16 := rfl
  unfold dynamicBlock
  refine head _ (emits_sendBits (.inr (by cases last <;> decide))) _ ?_ s (EmitFrame.refl s)
  refine head _ (emits_require (h.imp_right fun h => ?_)) _ ?_
  · have h1 := h.lMax
    have h2 := h.index
    simp only [Bool.and_eq_true, decide_eq_true_eq]
    omega
  refine head _ (emits_sendBits (h.imp_right fun h => ?_)) _ ?_
  · have h1 := h.lMax
    rw [sendBitsOperandOk_iff]
    omega
  refine head _ (emits_sendBits (h.imp_right fun h => ?_)) _ ?_
  · have h1 := h.dMax
    rw [sendBitsOperandOk_iff]
    omega
  refine head _ (emits_sendBits (h.imp_right fun h => ?_)) _ ?_
  · have h1 := h.index
    rw [sendBitsOperandOk_iff]
    omega
  refine head _ (emits_sendBlLengths (h.imp_right fun h => h.blShort) _) _ ?_
  refine head _ (emits_sendItems (h.imp_right fun h => h.blCodes) (h.imp_right fun h => h.lItems)) _ ?_
  refine head _ (emits_sendItems (h.imp_right fun h => h.blCodes) (h.imp_right fun h => h.dItems)) _ ?_
  intro t ht
  have e1 : t.lastLit = s.lastLit := by rw [ht.eq]
  have e2 : t.tokDist = s.tokDist := by rw [ht.eq]
  have e3 : t.tokLc = s.tokLc := by rw [ht.eq]
  refine wp_imp (emits_compressBlock (h.imp_right fun h => h.lCodes) (h.imp_right fun h => h.dCodes) t
    (hv.imp_right ht.valid) (h.imp_right fun h => h.endBlock) (h.imp_right fun h i hi => ?_)) fun _ u hu => ht.trans hu
  rw [e2, e3]
  exact h.tokens i (by omega)

theorem emits_staticBlock (last : Bool) (s : State) (hv : F ∨ s.biValid ≤ 16) (h : F ∨ s.TallyExact) :
    wp (staticBlock last) (fun _ t => EmitFrame s t) (fun _ _ => True) F s := by
  rw [staticBlock, wp_bind]
  refine wp_imp (emits_sendBits (F := F) (.inr (by cases last <;> decide)) s hv) fun _ t ht => ?_
  have e1 : t.lastLit = s.lastLit := by rw [ht.eq]
  have e2 : t.tokDist = s.tokDist := by rw [ht.eq]
  refine wp_imp (emits_compressBlock (.inr codesOk_staticLit) (.inr codesOk_staticDist) t
    (hv.imp_right ht.valid) (.inr (sendable_staticLit (by decide))) (h.imp_right fun h i hi => ?_)) fun _ u hu => ht.trans hu
  rw [e1] at hi
  rw [e2]
  have hmax : MAX_DIST = 32506 := rfl
  have := h.2.2 i hi
  exact tokenSendable_static (by omega) (t.tokLc.read i).isLt

/-! ### FlushBlock -/

/-- What FlushBlock leaves (R43, R160). -/
def Flushed (s t : State) : Prop :=
  t = { s with
    biBuf := t.biBuf, biValid := t.biValid, out := t.out, sink := t.sink, dynLfreq := [(END_BLOCK, 1)],
    dynDfreq := [], blFreq := [], optLen := 0, staticLen := 0, lastLit := 0, blockStart := s.strstart }

/-- The block is sent without a fault, and `t` is the state with its trees built. -/
theorem emits_emitBlock {l d bl : BuiltTree} {maxIndex : Nat} (last : Bool) (s : State)
    (hv : F ∨ s.biValid ≤ 16) (h : F ∨ DynamicReady s l d bl maxIndex ∧ s.TallyExact ∧ s.blockStart ≤ s.strstart ∧ s.strstart ≤ WIN ∧
      bytesOf s.staticLen ≤ 65535) :
    wp (emitBlock l d bl maxIndex last) (fun _ t => EmitFrame s t) (fun _ _ => True) F s := by
  rw [emitBlock, wp_bind, wp_get]
  cases hc : chooseBlock s with
  | dynamic => exact emits_dynamicBlock last s hv (h.imp_right fun h => h.1)
  | static => exact emits_staticBlock last s hv (h.imp_right fun h => h.2.1)
  | stored =>
    refine emits_storedBlock (h.imp_right fun ⟨_, _, h1, h2, h3⟩ => ?_) s hv
    unfold chooseBlock at hc
    dsimp only at hc
    split at hc
    · rename_i hs
      unfold storedLength at hs ⊢
      omega
    · split at hc <;> cases hc

theorem flush_spec (last : Bool) (s : State) (h : F ∨ FlushReady s) :
    wp (flushBlock last) (fun _ t => Flushed s t ∧ (last = true → t.biBuf = 0 ∧ t.biValid = 0)) (fun _ _ => True) F
      s := by
  rw [flushBlock, wp_bind]
  refine wp_mono (wp_buildTree_eq (F := F) .litLen s) (fun l t ⟨hl, ht⟩ => ?_) (fun _ _ h => h.elim) id
  rw [wp_bind]
  refine wp_mono (wp_buildTree_eq (F := F) .dist t) (fun d u ⟨hd, hu⟩ => ?_) (fun _ _ h => h.elim) id
  have ebl : u.blFreq = s.blFreq := by rw [hu, ht]
  rw [wp_bind]
  refine wp_mono (buildBlTree_spec (F := F) l d u (h.imp_right fun h => ⟨ebl.trans h.2.2.1.1,
    ⟨(builtTree_lens hl).1, lens_le_15 hl⟩, (builtTree_lens hd).1⟩)) (fun ⟨bl, maxIndex⟩ v ⟨hb, hmi, hv⟩ => ?_)
    (fun _ _ h => h.elim) id
  simp only at hb hmi hv
  rw [wp_bind]
  have hv' : v = { s with
      optLen := v.optLen, staticLen := s.staticLen + l.staticAdd + d.staticAdd + bl.staticAdd, blFreq := v.blFreq } := by
    rw [hv, hu, ht]
  rw [hv']
  refine wp_imp (emits_emitBlock last _ (h.imp_right fun h => h.1.2.2.2.2.2.2.1.1)
    (h.imp_right fun ⟨hc, hx, ⟨hb0, _, hs0⟩, hbs⟩ => ?_)) fun _ w hw => ?_
  swap
  · have e1 : t.cfg = s.cfg := by rw [ht]
    have e2 : t.freqOf .dist = s.dynDfreq := by rw [ht]; rfl
    have e3 : u.cfg = s.cfg := by rw [hu, ht]
    rw [e1, e2] at hd
    have hb2 : builtTree s.cfg.heapTie .bitLen (scanned l d) = some bl := by
      simp only [State.scanned, ebl.trans hb0, e3] at hb
      exact hb
    have hready := hmi ▸ dynamicReady hx hl hd hb2
    have hgood : ∀ {k : TreeKind} {freq : Memory 16} {t : BuiltTree},
        builtTree s.cfg.heapTie k freq = some t → GoodTree k freq t := by
      intro k freq t ht
      obtain ⟨t', ht', hg⟩ := builtTree_good s.cfg.heapTie k freq
      rw [ht] at ht'
      cases ht'
      exact hg
    have hbz : bl.staticAdd = 0 := by
      have : ∀ n : Nat, staticCost .bitLen n = 0 := fun _ => rfl
      rw [(hgood hb2).static]
      simp [this]
    refine ⟨⟨hready.lCodes, hready.dCodes, hready.blCodes, hready.lMax, hready.dMax, hready.index, hready.blShort,
      hready.lItems, hready.dItems, hready.tokens, hready.endBlock⟩, hx, hbs, ?_, ?_⟩
    · have := hc.2.2.1
      show s.strstart ≤ WIN
      omega
    · show bytesOf (s.staticLen + l.staticAdd + d.staticAdd + bl.staticAdd) ≤ 65535
      have := static_bytes_le hx hc (hgood hl) (hgood hd)
      rw [hbz, hs0, Int.add_zero, Int.zero_add]
      exact this
  · have hw16 : F ∨ w.biValid ≤ 16 := h.imp_right fun h => hw.valid h.1.2.2.2.2.2.2.1.1
    rw [wp_bind, wp_initBlock, wp_bind, wp_doIf]
    refine ⟨fun hlast => ?_, fun hlast => ?_⟩
    · rw [align, wp_bind]
      refine wp_imp (emits_drainBits (F := F) _ hw16) fun _ x hx => ?_
      rw [wp_clearBits, wp_startBlock]
      refine ⟨?_, fun _ => ⟨rfl, rfl⟩⟩
      unfold Flushed
      rw [hx.eq, hw.eq]
      rfl
    · rw [wp_startBlock]
      refine ⟨?_, fun h => absurd h (by rw [hlast]; decide)⟩
      unfold Flushed
      rw [hw.eq]
      rfl

end Sys2Proof.Laws
end

