-- ==== Sys2Proof/Laws/TallyOk.lean ====
section
/-!
SUPPORT. A tally keeps the counters exact and the block covered (R119, R122 to R126).
-/

namespace Sys2Proof.Laws

open Sys2Proof.Machine

variable {s : State}

/-- The token buffers are canonical and have room for one more token. -/
structure TokenRoom (s : State) : Prop where
  dist : s.tokDist.wf s.cfg.litBufsize = true
  lc : s.tokLc.wf s.cfg.litBufsize = true
  room : s.lastLit + 1 < s.cfg.litBufsize
  small : s.cfg.litBufsize ≤ 16384

theorem tokenRoom (h : s.CoreOk) (hroom : s.lastLit < s.cfg.tokenLimit) : TokenRoom s where
  dist := h.2.1.2.2.2.1
  lc := h.2.1.2.2.2.2.1
  room := by
    unfold Config.tokenLimit at hroom
    omega
  small := by
    have := h.1
    simp only [Config.ok, Bool.and_eq_true, decide_eq_true_eq] at this
    exact this.2

theorem pushToken_dist (h : TokenRoom s) (d : Half) (x : Byte) (i : Nat) :
    (s.pushToken d x).tokDist.read i = if i = s.lastLit then d else s.tokDist.read i := read_write h.dist _ _ _

theorem pushToken_lc (h : TokenRoom s) (d : Half) (x : Byte) (i : Nat) :
    (s.pushToken d x).tokLc.read i = if i = s.lastLit then x else s.tokLc.read i := read_write h.lc _ _ _

theorem litCount_push (h : TokenRoom s) (d : Half) (x : Byte) (n : Nat) :
    (s.pushToken d x).litCount n = s.litCount n + if litSymbol d x = n then 1 else 0 := by
  unfold State.litCount
  rw [pushToken_lastLit, List.range_succ, List.countP_append]
  congr 1
  · refine List.countP_congr fun i hi => ?_
    have : i < s.lastLit := List.mem_range.mp hi
    rw [pushToken_dist h, pushToken_lc h, if_neg (by omega), if_neg (by omega)]
  · rw [List.countP_singleton, pushToken_dist h, pushToken_lc h, if_pos rfl, if_pos rfl]
    simp only [decide_eq_true_eq]

theorem distCount_push (h : TokenRoom s) (d : Half) (x : Byte) (n : Nat) :
    (s.pushToken d x).distCount n = s.distCount n + if d ≠ 0 ∧ distCode d.toNat = n then 1 else 0 := by
  unfold State.distCount
  rw [pushToken_lastLit, List.range_succ, List.countP_append]
  congr 1
  · refine List.countP_congr fun i hi => ?_
    have : i < s.lastLit := List.mem_range.mp hi
    rw [pushToken_dist h, if_neg (by omega)]
  · rw [List.countP_singleton, pushToken_dist h, if_pos rfl]
    simp only [Bool.and_eq_true, decide_eq_true_eq]

theorem blockSpan_push (h : TokenRoom s) (d : Half) (x : Byte) :
    (s.pushToken d x).blockSpan = s.blockSpan + tokenSpan d x := by
  unfold State.blockSpan
  rw [pushToken_lastLit, List.range_succ, List.map_append, List.sum_append]
  congr 1
  · congr 1
    refine List.map_congr_left fun i hi => ?_
    have : i < s.lastLit := List.mem_range.mp hi
    rw [pushToken_dist h, pushToken_lc h, if_neg (by omega), if_neg (by omega)]
  · simp only [List.map_cons, List.map_nil, List.sum_cons, List.sum_nil]
    rw [pushToken_dist h, pushToken_lc h, if_pos rfl, if_pos rfl, Nat.add_zero]

theorem bump_read {size : Nat} {m : Memory 16} (hm : m.wf size = true) (n i : Nat)
    (hb : (m.read i).toNat + 1 < 2 ^ 16) :
    ((bump m n).read i).toNat = (m.read i).toNat + if n = i then 1 else 0 := by
  have hr : (bump m n).read i = if i = n then m.read n + 1 else m.read i := read_write hm n i _
  rw [hr]
  by_cases h : i = n
  · subst h
    have h1 : (1 : BitVec 16).toNat = 1 := rfl
    rw [if_pos rfl, if_pos rfl, BitVec.toNat_add, h1, Nat.mod_eq_of_lt hb]
  · rw [if_neg h, if_neg (Ne.symm h), Nat.add_zero]

theorem litCount_le (s : State) (n : Nat) : s.litCount n ≤ s.lastLit := by
  have := List.countP_le_length
    (p := fun i => decide (litSymbol (s.tokDist.read i) (s.tokLc.read i) = n)) (l := List.range s.lastLit)
  rwa [List.length_range] at this

theorem distCount_le (s : State) (n : Nat) : s.distCount n ≤ s.lastLit := by
  have := List.countP_le_length (p := fun i =>
    decide (s.tokDist.read i ≠ 0) && decide (distCode (s.tokDist.read i).toNat = n)) (l := List.range s.lastLit)
  rwa [List.length_range] at this

theorem lfreq_small (h : s.TallyExact) (hr : TokenRoom s) {n : Nat} (hn : n < L_CODES) :
    (s.dynLfreq.read n).toNat + 1 < 2 ^ 16 := by
  have h1 := h.1 n hn
  have h2 := litCount_le s n
  have h3 := hr.room
  have h4 := hr.small
  split at h1 <;> omega

theorem dfreq_small (h : s.TallyExact) (hr : TokenRoom s) {n : Nat} (hn : n < D_CODES) :
    (s.dynDfreq.read n).toNat + 1 < 2 ^ 16 := by
  have h1 := h.2.1 n hn
  have h2 := distCount_le s n
  have h3 := hr.room
  have h4 := hr.small
  omega

/-- In a block whose counters are exact, a token more fits them (R31). -/
theorem countFits_literal (h : s.TallyExact) (hr : TokenRoom s) (c : Byte) : countFits s.dynLfreq c.toNat 1 = true :=
  decide_eq_true (lfreq_small h hr (Nat.lt_trans c.isLt (by decide)))

theorem matchFits_of (h : s.TallyExact) (hr : TokenRoom s) (d lc : Nat) : matchFits s d lc = true := by
  unfold matchFits
  rw [Bool.and_eq_true]
  exact ⟨decide_eq_true (lfreq_small h hr (lengthCode_lt _).2), decide_eq_true (dfreq_small h hr (distCode_lt _))⟩

/-- A literal's tally is exact (R123). -/
theorem tallyExact_literal (hc : s.CoreOk) (hr : TokenRoom s) (h : s.TallyExact) (c : Byte) :
    (s.tallyLiteral c).TallyExact := by
  have hcl : ∀ n, (s.tallyLiteral c).litCount n = (s.pushToken 0 c).litCount n := fun _ => rfl
  have hcd : ∀ n, (s.tallyLiteral c).distCount n = (s.pushToken 0 c).distCount n := fun _ => rfl
  refine ⟨fun n hn => ?_, fun n hn => ?_, fun i hi => ?_⟩
  · rw [hcl, litCount_push hr]
    have hsym : litSymbol 0 c = c.toNat := rfl
    rw [hsym]
    have := bump_read (n := c.toNat) hc.2.1.2.2.2.2.2.1 n (lfreq_small h hr hn)
    have h1 := h.1 n hn
    show ((bump s.dynLfreq c.toNat).read n).toNat = _
    omega
  · rw [hcd, distCount_push hr, if_neg (fun h => h.1 rfl), Nat.add_zero]
    exact h.2.1 n hn
  · have : ((s.pushToken 0 c).tokDist.read i).toNat ≤ MAX_DIST := by
      rw [pushToken_dist hr]
      split
      · exact Nat.zero_le _
      · refine h.2.2 i ?_
        have : i < s.lastLit + 1 := hi
        omega
    exact this

/-- A match's tally is exact (R124). -/
theorem tallyExact_distance (hc : s.CoreOk) (hr : TokenRoom s) (h : s.TallyExact) {d lc : Nat} (hd1 : 1 ≤ d)
    (hd2 : d ≤ MAX_DIST) (hlc : lc ≤ 255) : (s.tallyDistance d lc).TallyExact := by
  have hcl : ∀ n, (s.tallyDistance d lc).litCount n =
    (s.pushToken (BitVec.ofNat 16 d) (BitVec.ofNat 8 lc)).litCount n := fun _ => rfl
  have hcd : ∀ n, (s.tallyDistance d lc).distCount n =
    (s.pushToken (BitVec.ofNat 16 d) (BitVec.ofNat 8 lc)).distCount n := fun _ => rfl
  have hM : MAX_DIST = 32506 := rfl
  have hdn : (BitVec.ofNat 16 d).toNat = d := by
    rw [BitVec.toNat_ofNat]
    omega
  have hlcn : (BitVec.ofNat 8 lc).toNat = lc := by
    rw [BitVec.toNat_ofNat]
    omega
  have hd0 : BitVec.ofNat 16 d ≠ 0 := read_ne_zero (by rw [hdn]; exact hd1)
  refine ⟨fun n hn => ?_, fun n hn => ?_, fun i hi => ?_⟩
  · rw [hcl, litCount_push hr]
    have hsym : litSymbol (BitVec.ofNat 16 d) (BitVec.ofNat 8 lc) = lengthCode (lc + MIN_MATCH) := by
      unfold litSymbol
      rw [if_neg hd0, hlcn]
    rw [hsym]
    have := bump_read (n := lengthCode (lc + MIN_MATCH)) hc.2.1.2.2.2.2.2.1 n (lfreq_small h hr hn)
    have h1 := h.1 n hn
    show ((bump s.dynLfreq (lengthCode (lc + MIN_MATCH))).read n).toNat = _
    omega
  · rw [hcd, distCount_push hr, hdn]
    have := bump_read (n := distCode d) hc.2.1.2.2.2.2.2.2.1 n (dfreq_small h hr hn)
    have h1 := h.2.1 n hn
    show ((bump s.dynDfreq (distCode d)).read n).toNat = _
    rw [this, h1]
    congr 1
    simp only [hd0, ne_eq, not_false_eq_true, true_and]
  · have : ((s.pushToken (BitVec.ofNat 16 d) (BitVec.ofNat 8 lc)).tokDist.read i).toNat ≤ MAX_DIST := by
      rw [pushToken_dist hr]
      split
      · rw [hdn]; exact hd2
      · refine h.2.2 i ?_
        have : i < s.lastLit + 1 := hi
        omega
    exact this

theorem span_literal (hr : TokenRoom s) (c : Byte) : (s.tallyLiteral c).blockSpan = s.blockSpan + 1 := by
  have : (s.tallyLiteral c).blockSpan = (s.pushToken 0 c).blockSpan := rfl
  rw [this, blockSpan_push hr]
  rfl

theorem span_distance (hr : TokenRoom s) {d lc : Nat} (hd1 : 1 ≤ d) (hd2 : d ≤ MAX_DIST) (hlc : lc ≤ 255) :
    (s.tallyDistance d lc).blockSpan = s.blockSpan + (lc + MIN_MATCH) := by
  have e : (s.tallyDistance d lc).blockSpan =
    (s.pushToken (BitVec.ofNat 16 d) (BitVec.ofNat 8 lc)).blockSpan := rfl
  have hM : MAX_DIST = 32506 := rfl
  have hdn : (BitVec.ofNat 16 d).toNat = d := by
    rw [BitVec.toNat_ofNat]
    omega
  have hd0 : BitVec.ofNat 16 d ≠ 0 := read_ne_zero (by rw [hdn]; exact hd1)
  have hlcn : (BitVec.ofNat 8 lc).toNat = lc := by
    rw [BitVec.toNat_ofNat]
    omega
  rw [e, blockSpan_push hr]
  unfold tokenSpan
  rw [if_neg hd0, hlcn]

/-- An empty block is exact (R43). -/
theorem tallyExact_empty (h1 : s.dynLfreq = [(END_BLOCK, 1)]) (h2 : s.dynDfreq = []) (h3 : s.lastLit = 0) :
    s.TallyExact := by
  refine ⟨fun n _ => ?_, fun n _ => ?_, fun i hi => ?_⟩
  · unfold State.litCount
    rw [h1, h3, List.range_zero, List.countP_nil, Nat.zero_add, read_cons]
    split <;> rfl
  · unfold State.distCount
    rw [h2, h3]
    rfl
  · rw [h3] at hi
    exact absurd hi (Nat.not_lt_zero _)

theorem blockSpan_empty (h : s.lastLit = 0) : s.blockSpan = 0 := by
  unfold State.blockSpan
  rw [h]
  rfl

end Sys2Proof.Laws
end

