-- ==== Sys2Proof/Laws/Positions.lean ====
section
/-!
SUPPORT. The three emissions of the lazy loop (R115, R116, R117) and the final drain (R118): each keeps `CoreOk`, and
none faults from an evaluated position of a session.
-/

namespace Sys2Proof.Laws

open Sys2Proof.Machine

variable {s t : State} {F : Prop}

/-! ### A tally and the flush after it -/

/-- `t` differs from `s` in what a tally and a flush write alone. -/
def SameMatcher (s t : State) : Prop :=
  t = { s with
    biBuf := t.biBuf, biValid := t.biValid, out := t.out, sink := t.sink, lastLit := t.lastLit, tokDist := t.tokDist,
    tokLc := t.tokLc, dynLfreq := t.dynLfreq, dynDfreq := t.dynDfreq, blFreq := t.blFreq, optLen := t.optLen,
    staticLen := t.staticLen, blockStart := t.blockStart }

/-- The counters of a block under way are exact, and its costs are still clear. -/
def Tallied (s : State) : Prop := s.TallyExact ∧ s.CostsClear

theorem tokenLimit_pos (h : s.CoreOk) : 0 < s.cfg.tokenLimit := by
  have := h.1
  simp only [Config.ok, Bool.and_eq_true, decide_eq_true_eq] at this
  unfold Config.tokenLimit
  omega

theorem flushed_tallied (h : Flushed s t) : Tallied t ∧ storedLength t = t.blockSpan := by
  have e1 : t.dynLfreq = [(END_BLOCK, 1)] := by rw [h]
  have e2 : t.dynDfreq = [] := by rw [h]
  have e3 : t.lastLit = 0 := by rw [h]
  have e4 : t.blFreq = [] := by rw [h]
  have e5 : t.optLen = 0 := by rw [h]
  have e6 : t.staticLen = 0 := by rw [h]
  have e7 : t.blockStart = t.strstart := by rw [h]
  refine ⟨⟨tallyExact_empty e1 e2 e3, e4, e5, e6⟩, ?_⟩
  rw [blockSpan_empty e3]
  unfold storedLength
  omega

theorem flushed_sameMatcher (h : Flushed s t) : SameMatcher s t := by
  unfold SameMatcher
  rw [h]

/-- A flush of a block that is covered exactly (R119, R125, R160). -/
theorem flush_covered (last : Bool) (hc : s.CoreOk) (h : F ∨ Tallied s ∧ storedLength s = s.blockSpan) :
    wp (flushBlock last) (fun _ t => t.CoreOk ∧ Flushed s t ∧ (last = true → t.biBuf = 0 ∧ t.biValid = 0))
      (fun _ t => t.CoreOk) F s := by
  refine wp_mono (wp_and (coreOk_flushBlock last s hc) (flush_spec last s (F := F) (h.imp_right fun h => ?_)))
    (fun _ t h => ⟨h.1, h.2.1, h.2.2⟩) (fun _ _ h => h.1) fun h => h.2
  refine ⟨hc, h.1.1, h.1.2, ?_⟩
  have := h.2
  unfold storedLength at this
  omega

/-- The flush that a full block asks for (R125). -/
theorem flushIfFull (hc : s.CoreOk) (h : F ∨ Tallied s ∧ storedLength s = s.blockSpan) :
    wp (doIf (blockFull s) (flushBlock false))
      (fun _ t => t.CoreOk ∧ t.lastLit < t.cfg.tokenLimit ∧ SameMatcher s t ∧
        (Tallied s → storedLength s = s.blockSpan → Tallied t ∧ storedLength t = t.blockSpan))
      (fun _ t => t.CoreOk) F s := by
  rw [wp_doIf]
  refine ⟨fun _ => ?_, fun hf => ?_⟩
  · refine wp_imp (flush_covered false hc h) fun _ t ⟨h1, h2, _⟩ => ?_
    have e : t.lastLit = 0 := by rw [h2]
    exact ⟨h1, by rw [e]; exact tokenLimit_pos h1, flushed_sameMatcher h2, fun _ _ => flushed_tallied h2⟩
  · have h1 : s.lastLit ≠ s.cfg.tokenLimit := of_decide_eq_false hf
    have h2 := hc.2.2.2.2.2.2.2.2.2
    exact ⟨hc, Nat.lt_of_le_of_ne h2 h1, rfl, fun h3 h4 => ⟨h3, h4⟩⟩

/-! ### The emissions -/

/-- A position to emit (R113): evaluated, with its block covered, and with a byte of lookahead. -/
structure Ready (s : State) : Prop where
  evaluated : Evaluated s
  tallied : Tallied s
  covered : s.BlockCovered
  look : 1 ≤ s.lookahead

/-- The loop invariant of a session (R40, R119). -/
def Settled (s : State) : Prop := s.ChainsBehind ∧ s.MatchHeld ∧ s.TallyExact ∧ s.BlockCovered ∧ s.CostsClear

/-- What an emission leaves. -/
structure Emitted (s t : State) : Prop where
  core : t.CoreOk
  room : t.lastLit < t.cfg.tokenLimit
  less : t.lookahead < s.lookahead
  feed : t.feed = s.feed
  settled : Ready s → Settled t

theorem covered_pending (h : s.BlockCovered) (hav : s.matchAvailable = true) :
    storedLength s = (s.blockSpan : Int) + 1 := by
  have h : storedLength s = (s.blockSpan : Int) + if s.matchAvailable = true then 1 else 0 := h
  rwa [if_pos hav] at h

theorem covered_exact (h : s.BlockCovered) (hav : s.matchAvailable = false) : storedLength s = s.blockSpan := by
  have h : storedLength s = (s.blockSpan : Int) + if s.matchAvailable = true then 1 else 0 := h
  rwa [hav, if_neg (by decide), Int.add_zero] at h

theorem coreOk_advance {u : State} (h : u.CoreOk) (h1 : 1 ≤ u.lookahead) :
    State.CoreOk { u with strstart := u.strstart + 1, lookahead := u.lookahead - 1 } := by
  refine ⟨h.1, h.2.1, ?_, h.2.2.2⟩
  have := h.2.2.1
  show u.strstart + 1 + (u.lookahead - 1) ≤ WIN
  omega

theorem wp_advance {R : ResultCode → State → Prop} (Q : Unit → State → Prop) :
    wp advance Q R F s ↔
      (1 ≤ s.lookahead → Q () { s with strstart := s.strstart + 1, lookahead := s.lookahead - 1 }) ∧
        (¬ 1 ≤ s.lookahead → F) := by
  rw [advance, wp_bind, wp_get, wp_bind, wp_require, wp_set, decide_eq_true_eq, decide_eq_false_iff_not]

/-- What a literal's or a deferred byte's advance leaves settled (R115, R117). -/
theorem settled_advance {u : State} (he : Evaluated u) (hgo : ¬ (MIN_MATCH ≤ u.prevLength ∧ u.matchLength ≤ u.prevLength))
    (hav : u.matchAvailable = true) (ht : Tallied u) (hst : storedLength u = u.blockSpan) (h1 : 1 ≤ u.lookahead) :
    Settled { u with strstart := u.strstart + 1, lookahead := u.lookahead - 1 } := by
  have h3 : MIN_MATCH = 3 := rfl
  refine ⟨chainsBehind_iff.mpr he.linked, ⟨fun _ => Nat.succ_le_succ (Nat.zero_le _), fun hm => ?_⟩, ht.1, ?_, ht.2⟩
  · have hm : MIN_MATCH ≤ u.matchLength := hm
    have h2 := he.two
    obtain ⟨hl, hr1, hr2⟩ := he.longer (by omega)
    refine ⟨hav, ?_, ?_, ?_⟩
    · show u.matchLength ≤ u.lookahead - 1 + 1
      omega
    · show 1 ≤ ((u.strstart + 1 : Nat) : Int) - 1 - u.matchStart
      omega
    · show ((u.strstart + 1 : Nat) : Int) - 1 - u.matchStart ≤ MAX_DIST
      omega
  · show ((u.strstart + 1 : Nat) : Int) - u.blockStart = (u.blockSpan : Int) + if u.matchAvailable = true then 1 else 0
    unfold storedLength at hst
    rw [if_pos hav]
    omega

/-- EmitPendingLiteral (R115). -/
theorem emitPendingLiteral_spec (hc : s.CoreOk) (hroom : s.lastLit < s.cfg.tokenLimit) (hav : s.matchAvailable = true)
    (hgo : ¬ (MIN_MATCH ≤ s.prevLength ∧ s.matchLength ≤ s.prevLength)) (h : F ∨ Ready s) :
    wp emitPendingLiteral (fun _ t => Emitted s t) (fun _ t => t.CoreOk) F s := by
  rw [emitPendingLiteral, wp_bind, wp_get, wp_bind, wp_readWindow]
  refine ⟨fun _ => ?_, fun hn => h.resolve_right fun h => hn ?_⟩
  swap
  · have h1 := h.evaluated.avail hav
    have h2 := hc.2.2.1
    have h3 := h.look
    omega
  generalize s.window.read ((s.strstart : Int) - 1).toNat = b
  rw [wp_bind, wp_tallyLiteral]
  have hr := tokenRoom hc hroom
  refine ⟨fun _ => ⟨fun _ => ?_, fun hn => h.resolve_right fun h => ?_⟩, fun hn => absurd hroom hn⟩
  swap
  · rw [countFits_literal h.tallied.1 hr] at hn
    cases hn
  have hc1 := coreOk_literal hc hroom b
  have hcov : Ready s → Tallied (s.tallyLiteral b) ∧ storedLength (s.tallyLiteral b) = (s.tallyLiteral b).blockSpan := by
    intro h
    refine ⟨⟨tallyExact_literal hc hr h.tallied.1 b, h.tallied.2⟩, ?_⟩
    have hst : storedLength (s.tallyLiteral b) = storedLength s := rfl
    rw [hst, span_literal hr, covered_pending h.covered hav]
    rfl
  rw [wp_bind]
  refine wp_imp (flushIfFull hc1 (h.imp_right hcov)) fun _ u ⟨hu1, hu2, hu3, hu4⟩ => ?_
  have e1 : u.lookahead = s.lookahead := by rw [hu3]; rfl
  have e2 : u.feed = s.feed := by rw [hu3]; rfl
  have e3 : u.strstart = s.strstart := by rw [hu3]; rfl
  have e4 : u.matchLength = s.matchLength := by rw [hu3]; rfl
  have e5 : u.matchAvailable = s.matchAvailable := by rw [hu3]; rfl
  have e6 : u.prevLength = s.prevLength := by rw [hu3]; rfl
  have e7 : u.head = s.head := by rw [hu3]; rfl
  have e8 : u.prev = s.prev := by rw [hu3]; rfl
  have e9 : u.matchStart = s.matchStart := by rw [hu3]; rfl
  have e10 : u.prevMatch = s.prevMatch := by rw [hu3]; rfl
  rw [wp_advance]
  refine ⟨fun h1 => ⟨coreOk_advance hu1 h1, hu2, ?_, e2, fun hrd => ?_⟩, fun hn => h.resolve_right fun h => hn ?_⟩
  · show u.lookahead - 1 < s.lookahead
    omega
  · obtain ⟨ht, hst⟩ := hu4 (hcov hrd).1 (hcov hrd).2
    have he := hrd.evaluated
    refine settled_advance ⟨?_, ?_, ?_, ?_, ?_⟩ ?_ ?_ ht hst h1
    · rw [e3, e7, e8]; exact he.linked
    · rw [e3, e5]; exact he.avail
    · rw [e1, e3, e5, e6, e10]; exact he.deferred
    · unfold InReach
      rw [e1, e3, e4, e6, e9]
      exact he.longer
    · rw [e6]; exact he.two
    · rw [e4, e6]; exact hgo
    · rw [e5]; exact hav
  · rw [e1]; exact h.look

/-- Defer (R117). -/
theorem deferByte_spec (hc : s.CoreOk) (hroom : s.lastLit < s.cfg.tokenLimit) (hav : s.matchAvailable = false)
    (hgo : ¬ (MIN_MATCH ≤ s.prevLength ∧ s.matchLength ≤ s.prevLength)) (h : F ∨ Ready s) :
    wp deferByte (fun _ t => Emitted s t) (fun _ t => t.CoreOk) F s := by
  rw [deferByte, wp_bind, wp_modify, wp_advance]
  have hc' : State.CoreOk { s with matchAvailable := true } := hc
  refine ⟨fun h1 => ⟨coreOk_advance hc' h1, hroom, ?_, rfl, fun hrd => ?_⟩, fun hn => h.resolve_right fun h => hn h.look⟩
  · have h1 : 1 ≤ s.lookahead := h1
    show s.lookahead - 1 < s.lookahead
    omega
  · have he := hrd.evaluated
    have h1 : 1 ≤ s.lookahead := h1
    have h3 : MIN_MATCH = 3 := rfl
    have hst : storedLength s = s.blockSpan := covered_exact hrd.covered hav
    refine ⟨chainsBehind_iff.mpr he.linked, ⟨fun _ => Nat.succ_le_succ (Nat.zero_le _), fun hm => ?_⟩, hrd.tallied.1, ?_,
      hrd.tallied.2⟩
    · have hm : MIN_MATCH ≤ s.matchLength := hm
      have h2 := he.two
      obtain ⟨hl, hr1, hr2⟩ := he.longer (by omega)
      refine ⟨rfl, ?_, ?_, ?_⟩
      · show s.matchLength ≤ s.lookahead - 1 + 1
        omega
      · show 1 ≤ ((s.strstart + 1 : Nat) : Int) - 1 - s.matchStart
        omega
      · show ((s.strstart + 1 : Nat) : Int) - 1 - s.matchStart ≤ MAX_DIST
        omega
    · show ((s.strstart + 1 : Nat) : Int) - s.blockStart = (s.blockSpan : Int) + if true = true then 1 else 0
      unfold storedLength at hst
      rw [if_pos rfl]
      omega

/-! ### The deferred match -/

/-- The insertions of the positions a match covers (R116). -/
structure Inserted (s t : State) (n : Nat) : Prop where
  frame : t = { s with strstart := s.strstart + n, insH := t.insH, head := t.head, prev := t.prev }
  headWf : s.head.wf HASH_SIZE = true → t.head.wf HASH_SIZE = true
  prevWf : s.prev.wf W = true → t.prev.wf W = true
  behind : s.head.wf HASH_SIZE = true → s.prev.wf W = true → Linked (s.strstart + 1) s.head s.prev →
    Linked (t.strstart + 1) t.head t.prev

theorem insertNext_spec (maxInsert : Int) (h : F ∨ maxInsert + 2 < WIN) (s : State) :
    wp (insertNext maxInsert) (fun _ t => Inserted s t 1) (fun _ _ => False) F s := by
  rw [insertNext, wp_bind, wp_modify, wp_bind, wp_get, wp_ite, wp_bind, wp_insertString, wp_pure, wp_pure]
  refine ⟨fun hle => ⟨fun _ => ?_, fun hn => h.resolve_right fun h => hn ?_⟩, fun _ => ?_⟩
  · generalize updateHash _ _ = x
    refine ⟨rfl, fun hw => wf_write _ hw (hash_lt x), fun hw => wf_write _ hw (prevIndex_lt _), fun h1 h2 h3 => ?_⟩
    exact linked_insert h3 (Nat.le_succ _) h1 h2
  · have hle : ((s.strstart + 1 : Nat) : Int) ≤ maxInsert := hle
    show s.strstart + 1 + 2 < WIN
    omega
  · exact ⟨rfl, id, id, fun _ _ h3 => linked_mono h3 (Nat.le_succ _)⟩

theorem insertCovered_spec (maxInsert : Int) (h : F ∨ maxInsert + 2 < WIN) (n : Nat) (s : State) :
    wp (insertCovered maxInsert n) (fun _ t => Inserted s t n) (fun _ _ => False) F s := by
  induction n generalizing s with
  | zero =>
    rw [insertCovered, wp_pure]
    exact ⟨rfl, id, id, fun _ _ h3 => h3⟩
  | succ n ih =>
    rw [insertCovered, wp_bind]
    refine wp_imp (insertNext_spec maxInsert h s) fun _ u hu => wp_imp (ih u) fun _ t ht => ?_
    have e1 : u.strstart = s.strstart + 1 := by rw [hu.frame]
    refine ⟨?_, fun hw => ht.headWf (hu.headWf hw), fun hw => ht.prevWf (hu.prevWf hw), fun h1 h2 h3 => ?_⟩
    · have f1 := hu.frame
      have f2 := ht.frame
      rw [e1] at f2
      rw [f1] at f2
      have : s.strstart + 1 + n = s.strstart + (n + 1) := by omega
      rw [this] at f2
      exact f2
    · exact ht.behind (hu.headWf h1) (hu.prevWf h2) (hu.behind h1 h2 h3)

/-- EmitDeferredMatch (R116). -/
theorem emitDeferredMatch_spec (hc : s.CoreOk) (hroom : s.lastLit < s.cfg.tokenLimit)
    (hlen : MIN_MATCH ≤ s.prevLength) (h : F ∨ Ready s) :
    wp emitDeferredMatch (fun _ t => Emitted s t) (fun _ t => t.CoreOk) F s := by
  have h3 : MIN_MATCH = 3 := rfl
  have h258 : MAX_MATCH = 258 := rfl
  have hsum := hc.2.2.1
  have hpl := hc.2.2.2.2.2.1
  rw [emitDeferredMatch, wp_bind, wp_get, wp_bind, wp_tallyDistance]
  have hop : Ready s → tallyOperandOk ((s.strstart : Int) - 1 - s.prevMatch) (s.prevLength - MIN_MATCH) = true := by
    intro h
    obtain ⟨-, -, h4, h5⟩ := h.evaluated.deferred hlen
    simp only [tallyOperandOk, Bool.and_eq_true, decide_eq_true_eq]
    omega
  have hr := tokenRoom hc hroom
  refine ⟨fun hok => ⟨fun _ => ⟨fun _ => ?_, fun hn => h.resolve_right fun h => ?_⟩, fun hn => absurd hroom hn⟩,
    fun hn => h.resolve_right fun h => by rw [hop h] at hn; cases hn⟩
  swap
  · rw [matchFits_of h.tallied.1 hr] at hn
    cases hn
  have hc1 := coreOk_distance hc hroom ((s.strstart : Int) - 1 - s.prevMatch).toNat (s.prevLength - MIN_MATCH)
  simp only [tallyOperandOk, Bool.and_eq_true, decide_eq_true_eq] at hok
  generalize hd : (s.strstart : Int) - 1 - s.prevMatch = d at *
  -- the state after the tally
  generalize hv : s.tallyDistance d.toNat (s.prevLength - MIN_MATCH) = v at *
  have v1 : v.lookahead = s.lookahead := by rw [← hv]; rfl
  have v2 : v.strstart = s.strstart := by rw [← hv]; rfl
  have v3 : v.feed = s.feed := by rw [← hv]; rfl
  have v4 : v.head = s.head := by rw [← hv]; rfl
  have v5 : v.prev = s.prev := by rw [← hv]; rfl
  have v6 : v.blockStart = s.blockStart := by rw [← hv]; rfl
  rw [wp_bind, shrinkLookahead, wp_bind, wp_get, wp_bind, wp_require, wp_set]
  refine ⟨fun hle => ?_, fun hn => h.resolve_right fun h => ?_⟩
  swap
  · have := of_decide_eq_false hn
    have := (h.evaluated.deferred hlen).2.1
    omega
  have hle : s.prevLength - 1 ≤ v.lookahead := of_decide_eq_true hle
  rw [wp_bind]
  refine wp_mono (insertCovered_spec _ (h.imp_right fun _ => ?_) _ _) (fun _ u hu => ?_) (fun _ _ h => h.elim) id
  · omega
  have f := hu.frame
  have u1 : u.strstart = s.strstart + (s.prevLength - 2) := by rw [f, ← v2]
  have u2 : u.lookahead = s.lookahead - (s.prevLength - 1) := by rw [f, ← v1]
  have u3 : u.feed = s.feed := by rw [f, ← v3]
  have u6 : u.blockStart = s.blockStart := by rw [f, ← v6]
  rw [wp_bind, wp_closeMatch]
  generalize hw : ({ u with
    prevLength := 0, matchAvailable := false, matchLength := MIN_MATCH - 1, strstart := u.strstart + 1 } : State) = w
  have hwc : w.CoreOk := by
    obtain ⟨g1, ⟨g2, g3, g4, g5⟩, -, -, -, -, g6⟩ := hc1
    subst hw
    rw [f]
    refine ⟨g1, ⟨g2, hu.headWf g3, hu.prevWf g4, g5⟩, ?_, by show 2 ≤ 2; decide, by show 2 ≤ 258; decide,
      Nat.zero_le _, g6⟩
    show v.strstart + (s.prevLength - 2) + 1 + (v.lookahead - (s.prevLength - 1)) ≤ WIN
    omega
  have hfull : blockFull v = blockFull w := by
    subst hw
    rw [f]
    rfl
  have hcov : Ready s → Tallied w ∧ storedLength w = w.blockSpan := by
    intro hrd
    have hx := tallyExact_distance hc hr hrd.tallied.1 (d := d.toNat) (lc := s.prevLength - MIN_MATCH) (by omega)
      (by omega) (by omega)
    have hs := span_distance hr (d := d.toNat) (lc := s.prevLength - MIN_MATCH) (by omega) (by omega) (by omega)
    have hcc := hrd.tallied.2
    have hav := (hrd.evaluated.deferred hlen).1
    have hb := covered_pending hrd.covered hav
    rw [hv] at hx hs
    have hvc : v.CostsClear := by rw [← hv]; exact hcc
    refine ⟨?_, ?_⟩
    · subst hw
      rw [f]
      exact ⟨hx, hvc⟩
    · have e1 : w.blockSpan = v.blockSpan := by
        subst hw
        rw [f]
        rfl
      have e2 : storedLength w = storedLength s + (s.prevLength - 1 : Nat) := by
        subst hw
        show ((u.strstart + 1 : Nat) : Int) - u.blockStart = (s.strstart : Int) - s.blockStart + (s.prevLength - 1 : Nat)
        rw [u1, u6]
        omega
      rw [e1, e2, hs, hb]
      omega
  rw [hfull]
  refine wp_imp (flushIfFull hwc (h.imp_right hcov)) fun _ x ⟨hx1, hx2, hx3, hx4⟩ => ?_
  have x1 : x.lookahead = s.lookahead - (s.prevLength - 1) := by rw [hx3, ← u2, ← hw]
  have x2 : x.feed = s.feed := by rw [hx3, ← u3, ← hw]
  refine ⟨hx1, hx2, by omega, x2, fun hrd => ?_⟩
  obtain ⟨ht, hst⟩ := hx4 (hcov hrd).1 (hcov hrd).2
  have hbh := hu.behind hc1.2.1.2.1 hc1.2.1.2.2.1
    (by show Linked (v.strstart + 1) v.head v.prev; rw [v2, v4, v5]; exact hrd.evaluated.linked)
  have y1 : x.strstart = u.strstart + 1 := by rw [hx3, ← hw]
  have y2 : x.head = u.head := by rw [hx3, ← hw]
  have y3 : x.prev = u.prev := by rw [hx3, ← hw]
  have y4 : x.matchAvailable = false := by rw [hx3, ← hw]
  have y5 : x.matchLength = MIN_MATCH - 1 := by rw [hx3, ← hw]
  refine ⟨chainsBehind_iff.mpr ?_, ⟨fun h => ?_, fun h => ?_⟩, ht.1, ?_, ht.2⟩
  · rw [y1, y2, y3]; exact hbh
  · rw [y4] at h; cases h
  · rw [y5] at h; omega
  · show storedLength x = (x.blockSpan : Int) + if x.matchAvailable = true then 1 else 0
    rw [hst, y4]
    simp

/-- The three branches of the loop (R113). -/
theorem emitPosition_spec (hc : s.CoreOk) (hroom : s.lastLit < s.cfg.tokenLimit) (h : F ∨ Ready s) :
    wp emitPosition (fun _ t => Emitted s t) (fun _ t => t.CoreOk) F s := by
  rw [emitPosition, wp_bind, wp_get, wp_ite, wp_ite]
  refine ⟨fun hd => emitDeferredMatch_spec hc hroom hd.1 h, fun hgo => ⟨fun hav => ?_, fun hav => ?_⟩⟩
  · exact emitPendingLiteral_spec hc hroom hav hgo h
  · exact deferByte_spec hc hroom (by simpa using hav) hgo h

/-! ### The final drain -/

/-- The literal still waiting at the end (R118). -/
theorem drainPending_spec (hc : s.CoreOk) (hroom : s.lastLit < s.cfg.tokenLimit) (h : F ∨ Settled s) :
    wp drainPending (fun _ t => t.CoreOk ∧ t.lookahead = s.lookahead ∧ t.matchAvailable = false ∧
        (Settled s → t.ChainsBehind ∧ Tallied t ∧ storedLength t = t.blockSpan) ∧
        SameMatcher s { t with matchAvailable := s.matchAvailable })
      (fun _ _ => False) F s := by
  rw [drainPending, wp_bind, wp_get, wp_ite]
  refine ⟨fun hav => ?_, fun hav => ?_⟩
  · rw [wp_bind, wp_readWindow]
    refine ⟨fun _ => ?_, fun hn => h.resolve_right fun h => hn ?_⟩
    · generalize s.window.read ((s.strstart : Int) - 1).toNat = b
      rw [wp_bind, wp_tallyLiteral]
      have hr := tokenRoom hc hroom
      refine ⟨fun _ => ⟨fun _ => ?_, fun hn => h.resolve_right fun h => ?_⟩, fun hn => absurd hroom hn⟩
      swap
      · rw [countFits_literal h.2.2.1 hr] at hn
        cases hn
      rw [wp_modify]
      have hc1 := coreOk_literal hc hroom b
      refine ⟨hc1, rfl, rfl, fun hs => ⟨hs.1, ⟨?_, hs.2.2.2.2⟩, ?_⟩, rfl⟩
      · exact tallyExact_literal hc hr hs.2.2.1 b
      · have hcv := covered_pending hs.2.2.2.1 hav
        have e := span_literal hr b
        show storedLength s = ((s.tallyLiteral b).blockSpan : Int)
        rw [e, hcv]
        rfl
    · have h1 := h.2.1.1 hav
      have h2 := hc.2.2.1
      have hW : WIN = 65536 := rfl
      omega
  · rw [wp_pure]
    have hav : s.matchAvailable = false := by simpa using hav
    refine ⟨hc, rfl, hav, fun hs => ⟨hs.1, ⟨hs.2.2.1, hs.2.2.2.2⟩, ?_⟩, rfl⟩
    exact covered_exact hs.2.2.2.1 hav

end Sys2Proof.Laws
end

