-- ==== Sys2Proof/Laws/Loop.lean ====
section
/-!
SUPPORT. DeflateLoop (R113): it keeps `CoreOk`, and in a session it never faults and ends.
-/

namespace Sys2Proof.Laws

open Sys2Proof.Machine

variable {s t : State} {F : Prop}

theorem filled_settled (h : Filled s t) (hs : Settled s) : Settled t := by
  obtain ⟨h1, ⟨h2, h3⟩, h4, h5, h6⟩ := hs
  have f := h.frame
  have e1 : t.matchAvailable = s.matchAvailable := by rw [f]
  have e2 : t.matchLength = s.matchLength := by rw [f]
  have e3 : t.blockSpan = s.blockSpan := by rw [f]; rfl
  have hg := h.grows
  have hb := h.back
  refine ⟨h.behind h1, ⟨fun ha => h.pos (h2 (e1 ▸ ha)), fun hl => ?_⟩, ?_, ?_, ?_⟩
  · obtain ⟨g1, g2, g3, g4⟩ := h3 (e2 ▸ hl)
    exact ⟨e1 ▸ g1, by omega, by omega, by omega⟩
  · rw [f]; exact h4
  · show storedLength t = (t.blockSpan : Int) + if t.matchAvailable = true then 1 else 0
    rw [h.stored, e1, e3]
    exact h5
  · rw [f]; exact h6

/-- The top of the loop (R113). -/
theorem loopTop_spec (finish : Bool) (hc : s.CoreOk) :
    wp (loopTop finish) (fun top t => t.CoreOk ∧ Filled s t ∧
        match top with
        | .needsInput => t.lookahead < MIN_LOOKAHEAD ∧ finish = false
        | .consumed => t.lookahead = 0 ∧ finish = true
        | .position => 1 ≤ t.lookahead)
      (fun _ _ => False) F s := by
  have hML : MIN_LOOKAHEAD = 262 := rfl
  rw [loopTop, wp_bind, wp_get, wp_bind, wp_require]
  refine ⟨fun _ => ?_, fun hn => absurd hc.2.2.1 (of_decide_eq_false hn)⟩
  rw [wp_ite]
  refine ⟨fun hl => ?_, fun hl => (wp_pure _).mpr ⟨hc, Filled.refl s, by omega⟩⟩
  rw [wp_bind]
  refine wp_mono (wp_and (coreOk_fillWindow s hc) (fillWindow_spec (F := F) hc hl))
    (fun _ t ⟨hct, hf, _⟩ => ?_) (fun _ _ h => h.2) fun h => h.2
  rw [wp_bind, wp_get, wp_ite]
  refine ⟨fun hn => (wp_pure _).mpr ⟨hct, hf, hn⟩, fun hn => ?_⟩
  rw [wp_ite]
  refine ⟨fun h0 => (wp_pure _).mpr ⟨hct, hf, h0, ?_⟩, fun h0 => (wp_pure _).mpr ⟨hct, hf, by omega⟩⟩
  cases finish with
  | true => rfl
  | false => exact absurd ⟨by omega, rfl⟩ hn

/-- An evaluated position is ready to emit. -/
theorem ready_of_evaluated {u : State} (hs : Settled s) (hf : EvalFrame s u) (he : Evaluated u) (h1 : 1 ≤ s.lookahead) :
    Ready u := by
  obtain ⟨-, -, h4, h5, h6⟩ := hs
  refine ⟨he, ⟨?_, ?_⟩, ?_, ?_⟩
  · rw [hf]; exact h4
  · rw [hf]; exact h6
  · rw [hf]; exact h5
  · rw [hf]; exact h1

/-- What EvaluatePosition leaves alone (R114). -/
theorem evaluate_frame (s : State) :
    wp evaluatePosition (fun _ t => t.lookahead = s.lookahead ∧ t.feed = s.feed ∧ t.lastLit = s.lastLit ∧ t.cfg = s.cfg)
      (fun _ _ => True) True s := by
  rw [evaluatePosition, wp_bind, insertHere, wp_bind, wp_get]
  have tail : ∀ (n : Nat) (u : State),
      u.lookahead = s.lookahead ∧ u.feed = s.feed ∧ u.lastLit = s.lastLit ∧ u.cfg = s.cfg →
      wp (do
          deferMatch
          let s ← get
          if searchAllowed s n then do
            let len ← longestMatch n
            setMatchLength len
            let s ← get
            doIf (tooFar s) (setMatchLength (MIN_MATCH - 1))
          else pure ())
        (fun _ t => t.lookahead = s.lookahead ∧ t.feed = s.feed ∧ t.lastLit = s.lastLit ∧ t.cfg = s.cfg)
        (fun _ _ => True) True u := by
    intro n u hu
    rw [wp_bind, wp_deferMatch, wp_bind, wp_get, wp_ite, wp_pure]
    refine ⟨fun _ => ?_, fun _ => hu⟩
    rw [wp_bind]
    refine wp_mono (wp_longestMatch n _) (fun len t ⟨ht, _⟩ => ?_) (fun _ _ _ => trivial) id
    have e : t.lookahead = s.lookahead ∧ t.feed = s.feed ∧ t.lastLit = s.lastLit ∧ t.cfg = s.cfg := by
      rw [ht]
      exact hu
    rw [wp_bind, wp_setMatchLength, wp_bind, wp_get, wp_doIf, wp_setMatchLength]
    exact ⟨fun _ => e, fun _ => e⟩
  rw [wp_ite, wp_insertString, wp_pure]
  exact ⟨fun _ => ⟨fun _ => tail _ _ ⟨rfl, rfl, rfl, rfl⟩, fun _ => trivial⟩, fun _ => tail _ _ ⟨rfl, rfl, rfl, rfl⟩⟩

/-- EvaluatePosition in a session or out of one. -/
theorem evaluate_any (hc : s.CoreOk) (h : F ∨ Settled s ∧ 1 ≤ s.lookahead) :
    wp evaluatePosition (fun _ t => t.CoreOk ∧ t.lookahead = s.lookahead ∧ t.feed = s.feed ∧ t.lastLit = s.lastLit ∧
        t.cfg = s.cfg ∧ (Settled s → 1 ≤ s.lookahead → Ready t)) (fun _ t => t.CoreOk) F s := by
  have hk := coreOk_evaluatePosition s hc
  have hfr := evaluate_frame s
  by_cases hs : Settled s ∧ 1 ≤ s.lookahead
  · refine wp_mono (wp_and hk (evaluatePosition_spec (F := F) hc hs.1.1 hs.1.2.1 hs.2))
      (fun _ t ⟨h1, h2, h3⟩ => ?_) (fun _ _ h => h.1) fun h => h.2
    exact ⟨h1, by rw [h2], by rw [h2], by rw [h2], by rw [h2], fun hs h1 => ready_of_evaluated hs h2 h3 h1⟩
  · have hF : F := h.resolve_right hs
    refine wp_mono (wp_and hk hfr) (fun _ t ⟨h1, h2, h3, h4, h5⟩ => ?_) (fun _ _ h => h.1) fun _ => hF
    exact ⟨h1, h2, h3, h4, h5, fun a b => absurd ⟨a, b⟩ hs⟩

/-- FinishDrain (R118): the last block is sent, and nothing is pending. -/
theorem finishDrain_spec (hc : s.CoreOk) (hroom : s.lastLit < s.cfg.tokenLimit) (h : F ∨ Settled s) :
    wp finishDrain (fun _ t => t.CoreOk ∧ t.lastLit < t.cfg.tokenLimit ∧ t.lookahead = s.lookahead ∧
        t.matchAvailable = false ∧ t.biBuf = 0 ∧ t.biValid = 0 ∧ (s.lookahead = 0 → Settled s → Settled t))
      (fun _ t => t.CoreOk) F s := by
  rw [finishDrain, wp_bind]
  refine wp_mono (drainPending_spec hc hroom h) (fun _ u ⟨hu1, hu2, hu3, hu4, hu5⟩ => ?_) (fun _ _ h => h.elim) id
  have hpre : F ∨ Tallied u ∧ storedLength u = u.blockSpan := h.imp_right fun h => (hu4 h).2
  refine wp_imp (flush_covered true hu1 hpre) fun _ t ⟨ht1, ht2, ht3⟩ => ?_
  have e1 : t.lastLit = 0 := by rw [ht2]
  have e2 : t.lookahead = u.lookahead := by rw [ht2]
  have e3 : t.matchAvailable = u.matchAvailable := by rw [ht2]
  have e4 : t.matchLength = u.matchLength := by rw [ht2]
  have e5 : u.matchLength = s.matchLength := by
    have : ({ u with matchAvailable := s.matchAvailable } : State).matchLength = s.matchLength := by rw [hu5]
    exact this
  refine ⟨ht1, by rw [e1]; exact tokenLimit_pos ht1, by rw [e2, hu2], by rw [e3, hu3], (ht3 rfl).1, (ht3 rfl).2,
    fun hz hs => ?_⟩
  have hfl := flushed_tallied ht2
  have hcb := (hu4 hs).1
  refine ⟨?_, ⟨fun ha => ?_, fun hl => ?_⟩, hfl.1.1, ?_, hfl.1.2⟩
  · rw [ht2]; exact hcb
  · rw [e3, hu3] at ha
    cases ha
  · rw [e4, e5] at hl
    have := (hs.2.1.2 hl).2.1
    have h3 : MIN_MATCH = 3 := rfl
    omega
  · show storedLength t = (t.blockSpan : Int) + if t.matchAvailable = true then 1 else 0
    rw [e3, hu3, hfl.2]
    simp

/-- DeflateLoop (R113) from any state: what it leaves. With fuel for every byte it never faults in a session. -/
theorem deflateFrom_spec (finish : Bool) (fuel : Nat) (hc : s.CoreOk) (hroom : s.lastLit < s.cfg.tokenLimit)
    (h : F ∨ Settled s ∧ s.lookahead + s.feed.length < fuel) :
    wp (deflateFrom finish fuel) (fun _ t => t.CoreOk ∧ t.lastLit < t.cfg.tokenLimit ∧
        (finish = false → t.lookahead < MIN_LOOKAHEAD ∧ t.phase = s.phase) ∧
        (finish = true → t.phase = .finish ∧ t.lookahead = 0 ∧ t.matchAvailable = false ∧ t.biBuf = 0 ∧ t.biValid = 0) ∧
        (Settled s → Settled t))
      (fun _ t => t.CoreOk) F s := by
  induction fuel generalizing s with
  | zero =>
    rw [deflateFrom, wp_internalFault]
    exact h.resolve_right fun h => absurd h.2 (Nat.not_lt_zero _)
  | succ fuel ih =>
    rw [deflateFrom, wp_bind]
    refine wp_mono (wp_and (loopTop_spec (F := F) finish hc) (framed_loopTop finish s))
      (fun top u ⟨⟨hu1, hu2, hu3⟩, hu4⟩ => ?_) (fun _ _ h => h.1.elim) fun h => h.1
    have hul : u.lastLit = s.lastLit := by rw [hu2.frame]
    have huc : u.cfg = s.cfg := by rw [hu2.frame]
    have hus := filled_settled hu2
    have hur : u.lastLit < u.cfg.tokenLimit := by rw [hul, huc]; exact hroom
    have htot := hu2.total
    cases top with
    | needsInput =>
      show wp (pure ()) _ _ F u
      rw [wp_pure]
      exact ⟨hu1, hur, fun _ => ⟨hu3.1, hu4.2.2.2⟩, fun hf => (by rw [hu3.2] at hf; cases hf), hus⟩
    | consumed =>
      show wp (setPhase .finish >>= fun _ => finishDrain) _ _ F u
      rw [wp_bind, wp_setPhase]
      have hcp : State.CoreOk { u with phase := .finish } := hu1
      have hsp : Settled u → Settled { u with phase := .finish } := fun h => h
      refine wp_mono (wp_and (finishDrain_spec (F := F) hcp hur (h.imp_right fun h => hsp (hus h.1)))
        (framed_finishDrain { u with phase := .finish })) (fun _ t ⟨⟨h1, h2, h3, h4, h5, h6, h7⟩, h8⟩ => ?_)
        (fun _ _ h => h.1) fun h => h.1
      have h3 : t.lookahead = u.lookahead := h3
      refine ⟨h1, h2, fun hf => (by rw [hu3.2] at hf; cases hf), fun _ => ⟨h8.2.2.2, by rw [h3]; exact hu3.1, h4, h5, h6⟩,
        fun hs => h7 hu3.1 (hsp (hus hs))⟩
    | position =>
      show wp (evaluatePosition >>= fun _ => emitPosition >>= fun _ => deflateFrom finish fuel) _ _ F u
      rw [wp_bind]
      refine wp_mono (wp_and (evaluate_any (F := F) hu1 (h.imp_right fun h => ⟨hus h.1, hu3⟩))
        (framed_evaluatePosition u)) (fun _ v ⟨⟨hv1, hv2, hv3, hv4, hv5, hv6⟩, hv7⟩ => ?_) (fun _ _ h => h.1) fun h => h.1
      rw [wp_bind]
      refine wp_mono (wp_and (emitPosition_spec (F := F) hv1 (by rw [hv4, hv5]; exact hur)
        (h.imp_right fun h => hv6 (hus h.1) hu3)) (framed_emitPosition v)) (fun _ w ⟨hw, hwf⟩ => ?_)
        (fun _ _ h => h.1) fun h => h.1
      have hless := hw.less
      have hfeed : w.feed.length = u.feed.length := by rw [hw.feed, hv3]
      refine wp_imp (ih hw.core hw.room (h.imp_right fun h => ⟨hw.settled (hv6 (hus h.1) hu3), by omega⟩))
        fun _ t ⟨h1, h2, h3, h4, h5⟩ => ?_
      refine ⟨h1, h2, fun hf => ⟨(h3 hf).1, ?_⟩, h4, fun hs => h5 (hw.settled (hv6 (hus hs) hu3))⟩
      rw [(h3 hf).2, hwf.2.2.2, hv7.2.2.2, hu4.2.2.2]

end Sys2Proof.Laws
end

