-- ==== Sys2Proof/Laws/Commands.lean ====
section
/-!
SUPPORT. The four commands (R164 to R176): each keeps the invariant, and in a session PROCESS and FINALIZE never fault.
-/

namespace Sys2Proof.Laws

open Sys2Proof.Machine

variable {s t u : State} {F : Prop}

/-! ### Running a command -/

/-- A command whose body cannot fault answers a next state. -/
theorem runCommand_completes {need : Nat} {body : M ResultCode} {Q R : ResultCode → State → Prop}
    (hl : s.payload.length = need) (h : wp body Q R False s) :
    (∃ code t, Q code t ∧ runCommand need body s = .next (t.complete s.out code)) ∨
      ∃ e t, R e t ∧ runCommand need body s = .next (t.complete s.out e) := by
  unfold wp at h
  unfold runCommand
  rw [if_pos hl]
  cases hb : body s with
  | ok code t =>
    rw [hb] at h
    exact .inl ⟨code, t, h, rfl⟩
  | error e t =>
    rw [hb] at h
    cases e with
    | raised e => exact .inr ⟨e, t, h, rfl⟩
    | fault f => exact h.elim

/-- What a next state of a command is. -/
theorem runCommand_next {need : Nat} {body : M ResultCode} {Q R : ResultCode → State → Prop}
    (h : wp body Q R True s) (hn : runCommand need body s = .next u) :
    s.payload.length = need ∧
      ((∃ code t, Q code t ∧ u = t.complete s.out code) ∨ ∃ e t, R e t ∧ u = t.complete s.out e) := by
  unfold wp at h
  unfold runCommand at hn
  split at hn
  · refine ⟨‹_›, ?_⟩
    cases hb : body s with
    | ok code t =>
      rw [hb] at h hn
      cases hn
      exact .inl ⟨code, t, h, rfl⟩
    | error e t =>
      rw [hb] at h hn
      cases e with
      | raised e =>
        cases hn
        exact .inr ⟨e, t, h, rfl⟩
      | fault f => cases hn
  · cases hn

/-! ### The steps of PROCESS and FINALIZE -/

theorem wp_checkSession {R : ResultCode → State → Prop} (Q : Unit → State → Prop) :
    wp checkSession Q R F s ↔
      (s.failed = true → F) ∧ (s.failed = false → s.phase.accepts = true → Q () s) ∧
        (s.failed = false → s.phase.accepts = false → R .invalidState (s.raiseError .invalidState)) := by
  rw [checkSession, wp_bind, wp_get, wp_ite, wp_commandAfterError, wp_ite, wp_pure, wp_raise]
  cases s.failed <;> cases s.phase.accepts <;> simp

theorem settled_emit (h : Settled s) (he : EmitFrame s t) : Settled t := by
  rw [he.eq]
  exact h

theorem coreOk_enterBusy : Keeps State.CoreOk enterBusy := by
  intro s h
  rw [enterBusy, wp_bind, wp_get, wp_ite]
  refine ⟨fun _ => ?_, fun _ => (wp_pure _).mpr h⟩
  rw [wp_bind]
  refine wp_imp (keeps_doIf _ (keeps_bind (coreOk_outByte _) fun _ => coreOk_outByte _) s h) fun _ t ht => ?_
  exact (wp_setPhase _ _).mpr ht

/-- `m` writes the output stream and the sink's answers alone, and never faults. -/
def Puts (m : M Unit) : Prop := ∀ (F : Prop) (s : State),
  wp m (fun _ t => t = { s with out := t.out, sink := t.sink }) (fun _ _ => True) F s

theorem puts_outByte (b : Byte) : Puts (outByte b) := fun _ _ => wp_outByte b _ (fun _ => rfl) fun _ => trivial

theorem puts_bind {m n : M Unit} (hm : Puts m) (hn : Puts n) : Puts (m >>= fun _ => n) := by
  intro F s
  rw [wp_bind]
  refine wp_imp (hm F s) fun _ t ht => wp_imp (hn F t) fun _ u hu => ?_
  rw [hu, ht]

theorem puts_putShortMSB (w : Half) : Puts (putShortMSB w) := puts_bind (puts_outByte _) (puts_outByte _)

theorem puts_trailer : Puts trailer := by
  intro F s
  rw [trailer, wp_bind, wp_get, wp_ite]
  exact ⟨fun _ => puts_bind (puts_putShortMSB _) (puts_putShortMSB _) F s, fun _ => (wp_pure _).mpr rfl⟩

/-- EnterBusy (R168) writes the output stream and `STATE` alone. -/
theorem enterBusy_spec (s : State) (ha : s.phase.accepts = true) :
    wp enterBusy (fun _ t => t = { s with out := t.out, sink := t.sink, phase := .busy }) (fun _ _ => True) F s := by
  rw [enterBusy, wp_bind, wp_get, wp_ite]
  refine ⟨fun _ => ?_, fun hn => ?_⟩
  · have fin : ∀ u : State, u = { s with out := u.out, sink := u.sink } →
        wp (setPhase .busy) (fun _ t => t = { s with out := t.out, sink := t.sink, phase := .busy })
          (fun _ _ => True) F u := by
      intro u hu
      rw [wp_setPhase, hu]
    rw [wp_bind, wp_doIf]
    refine ⟨fun _ => ?_, fun _ => fin s rfl⟩
    exact wp_imp (puts_bind (puts_outByte _) (puts_outByte _) F s) fun _ u hu => fin u hu
  · rw [wp_pure]
    cases hp : s.phase with
    | init => exact absurd hp hn
    | busy => rw [← hp]
    | finish => rw [hp] at ha; cases ha
    | done => rw [hp] at ha; cases ha

theorem coreOk_trailer : Keeps State.CoreOk trailer :=
  keeps_get_bind fun s h => keeps_ite (keeps_bind (coreOk_putShortMSB _) fun _ => coreOk_putShortMSB _) (keeps_pure _) s h

/-- How the body of PROCESS or FINALIZE ends by an error: InvalidState with nothing but `RESULT` written, or StreamError
(R184, R185). -/
def EndsBadly (s : State) (e : ResultCode) (t : State) : Prop :=
  (e = .invalidState ∧ s.failed = false ∧ s.phase.accepts = false ∧ t = s.raiseError .invalidState) ∨
    (e = .streamError ∧ s.failed = false ∧ s.phase.accepts = true ∧ t.CoreOk ∧ t.failed = true ∧ t.phase ≠ .done ∧
      Outer s t ∧ false ∈ s.sink)

theorem accepts_ne_done {p : Phase} (h : p.accepts = true) : p ≠ .done := by
  rintro rfl
  cases h

/-- The body of PROCESS (R172). -/
theorem processBody_spec (hc : s.CoreOk) (hroom : s.failed = false → s.lastLit < s.cfg.tokenLimit)
    (h : F ∨ s.failed = false ∧ (s.phase.accepts = true → Settled s)) :
    wp processBody
      (fun code t => code = .ok ∧ s.failed = false ∧ s.phase.accepts = true ∧
        (s.payload = [] → t = s) ∧
        (s.payload ≠ [] → t.CoreOk ∧ t.failed = false ∧ t.phase = .busy ∧ t.biValid ≤ 7 ∧
          t.lastLit < t.cfg.tokenLimit ∧ t.lookahead < MIN_LOOKAHEAD ∧ Outer s t ∧ (Settled s → Settled t)))
      (EndsBadly s) F s := by
  rw [processBody, wp_bind, wp_checkSession]
  refine ⟨fun hx => h.resolve_right fun h => (by rw [h.1] at hx; cases hx), fun hnf hacc => ?_, fun hnf hacc =>
    .inl ⟨rfl, hnf, hacc, rfl⟩⟩
  rw [wp_bind, wp_get, wp_ite, wp_pure]
  refine ⟨fun hp => ⟨rfl, hnf, hacc, fun _ => rfl, fun hn => absurd hp hn⟩, fun hp => ?_⟩
  have hfr := runs_bind runs_enterBusy fun _ => runs_bind (runs_framed framed_loadFeed) fun _ =>
    runs_bind (runs_deflateLoop false) fun _ => runs_bind (runs_framed framed_endFlush) fun _ =>
      runs_framed (framed_pure ResultCode.ok)
  have core : wp (enterBusy >>= fun _ => loadFeed >>= fun _ => deflateLoop false >>= fun _ => endFlush >>= fun _ =>
      (pure .ok : M ResultCode))
      (fun code t => code = .ok ∧ t.CoreOk ∧ t.phase = .busy ∧ t.biValid ≤ 7 ∧ t.lastLit < t.cfg.tokenLimit ∧
        t.lookahead < MIN_LOOKAHEAD ∧ (Settled s → Settled t)) (fun _ t => t.CoreOk) F s := by
    rw [wp_bind]
    refine wp_mono (wp_and (coreOk_enterBusy s hc) (enterBusy_spec (F := F) s hacc)) (fun _ t ⟨ht, he⟩ => ?_)
      (fun _ _ h => h.1) fun h => h.2
    rw [wp_bind, wp_loadFeed, wp_bind, deflateLoop, wp_bind, wp_get]
    have e1 : t.lastLit = s.lastLit := by rw [he]
    have e2 : t.cfg = s.cfg := by rw [he]
    have e3 : t.phase = .busy := by rw [he]
    have hst : Settled s → Settled t := fun h => by rw [he]; exact h
    have hst' : Settled t → Settled { t with feed := t.payload } := fun h => h
    refine wp_imp (deflateFrom_spec (s := { t with feed := t.payload }) false _ ht (by
      show t.lastLit < t.cfg.tokenLimit
      rw [e1, e2]
      exact hroom hnf) (h.imp_right fun h => ⟨hst' (hst (h.2 hacc)), Nat.lt_succ_self _⟩))
      fun _ v ⟨h1, h2, h3, _, h5⟩ => ?_
    rw [wp_bind]
    refine wp_mono (wp_and (coreOk_endFlush v h1) (endFlush_spec (F := F) v (.inr h1.2.2.2.2.2.2.1.1)))
      (fun _ w ⟨hw1, hw2, hw3⟩ => ?_) (fun _ _ h => h.1) fun h => h.2
    rw [wp_pure]
    have w1 : w.phase = v.phase := by rw [hw2.eq]
    have w2 : w.lastLit = v.lastLit := by rw [hw2.eq]
    have w3 : w.cfg = v.cfg := by rw [hw2.eq]
    have w4 : w.lookahead = v.lookahead := by rw [hw2.eq]
    refine ⟨rfl, hw1, ?_, hw3, by rw [w2, w3]; exact h2, by rw [w4]; exact (h3 rfl).1,
      fun hs => settled_emit (h5 (hst' (hst hs))) hw2⟩
    rw [w1, (h3 rfl).2]
    exact e3
  refine wp_mono (wp_and core (hfr s (accepts_ne_done hacc)))
    (fun code t ⟨⟨h1, h2, h3, h4, h5, h6, h7⟩, g1, g2, _, _⟩ => ?_) (fun e t ⟨h1, g1, g2, g3, g4, g5⟩ => ?_)
    fun h => h.1
  · exact ⟨h1, hnf, hacc, fun h => absurd h hp, fun _ => ⟨h2, g2.trans hnf, h3, h4, h5, h6, g1, h7⟩⟩
  · exact .inr ⟨g2, hnf, hacc, h1, g3, g5, g1, g4⟩

/-- The body of FINALIZE (R174). -/
theorem finalizeBody_spec (hc : s.CoreOk) (hroom : s.failed = false → s.lastLit < s.cfg.tokenLimit)
    (h : F ∨ s.failed = false ∧ (s.phase.accepts = true → Settled s)) :
    wp finalizeBody
      (fun code t => code = .ok ∧ s.failed = false ∧ s.phase.accepts = true ∧ t.CoreOk ∧ t.failed = false ∧
        t.phase = .done ∧ t.biValid = 0 ∧ t.lastLit < t.cfg.tokenLimit ∧ t.lookahead = 0 ∧ t.matchAvailable = false ∧
        Outer s t ∧ (Settled s → Settled t))
      (EndsBadly s) F s := by
  rw [finalizeBody, wp_bind, wp_checkSession]
  refine ⟨fun hx => h.resolve_right fun h => (by rw [h.1] at hx; cases hx), fun hnf hacc => ?_, fun hnf hacc =>
    .inl ⟨rfl, hnf, hacc, rfl⟩⟩
  have hfr := runs_bind runs_enterBusy fun _ => runs_bind (runs_deflateLoop true) fun _ => runs_framed framed_trailer
  have core : wp (enterBusy >>= fun _ => deflateLoop true >>= fun _ => trailer)
      (fun _ t => t.CoreOk ∧ t.biValid = 0 ∧ t.lastLit < t.cfg.tokenLimit ∧
        t.lookahead = 0 ∧ t.matchAvailable = false ∧ (Settled s → Settled t)) (fun _ t => t.CoreOk) F s := by
    rw [wp_bind]
    refine wp_mono (wp_and (coreOk_enterBusy s hc) (enterBusy_spec (F := F) s hacc)) (fun _ t ⟨ht, he⟩ => ?_)
      (fun _ _ h => h.1) fun h => h.2
    rw [wp_bind, deflateLoop, wp_bind, wp_get]
    have e1 : t.lastLit = s.lastLit := by rw [he]
    have e2 : t.cfg = s.cfg := by rw [he]
    have hst : Settled s → Settled t := fun h => by rw [he]; exact h
    refine wp_imp (deflateFrom_spec (s := t) true _ ht (by rw [e1, e2]; exact hroom hnf)
      (h.imp_right fun h => ⟨hst (h.2 hacc), Nat.lt_succ_self _⟩)) fun _ v ⟨h1, h2, _, h4, h5⟩ => ?_
    obtain ⟨-, v1, v2, -, v3⟩ := h4 rfl
    refine wp_mono (wp_and (coreOk_trailer v h1) (puts_trailer F v)) (fun _ w ⟨hw1, hw2⟩ => ?_)
      (fun _ _ h => h.1) fun h => h.2
    have w1 : w.biValid = v.biValid := by rw [hw2]
    have w2 : w.lastLit = v.lastLit := by rw [hw2]
    have w3 : w.cfg = v.cfg := by rw [hw2]
    have w4 : w.lookahead = v.lookahead := by rw [hw2]
    have w5 : w.matchAvailable = v.matchAvailable := by rw [hw2]
    refine ⟨hw1, by rw [w1]; exact v3, by rw [w2, w3]; exact h2, by rw [w4]; exact v1, by rw [w5]; exact v2,
      fun hs => ?_⟩
    have h6 := h5 (hst hs)
    rw [hw2]
    exact h6
  have whole : wp ((enterBusy >>= fun _ => deflateLoop true >>= fun _ => trailer) >>= fun _ =>
      setPhase .done >>= fun _ => (pure .ok : M ResultCode))
      (fun code t => code = .ok ∧ s.failed = false ∧ s.phase.accepts = true ∧ t.CoreOk ∧ t.failed = false ∧
        t.phase = .done ∧ t.biValid = 0 ∧ t.lastLit < t.cfg.tokenLimit ∧ t.lookahead = 0 ∧ t.matchAvailable = false ∧
        Outer s t ∧ (Settled s → Settled t)) (EndsBadly s) F s := by
    rw [wp_bind]
    refine wp_mono (wp_and core (hfr s (accepts_ne_done hacc)))
      (fun _ t ⟨⟨h1, h2, h3, h4, h5, h6⟩, g1, g2, _, _⟩ => ?_) (fun e t ⟨h1, g1, g2, g3, g4, g5⟩ => ?_) fun h => h.1
    · rw [wp_bind, wp_setPhase, wp_pure]
      have o : Outer s { t with phase := .done } := ⟨g1.cfg, g1.framing, g1.payload, g1.inputs, g1.response, g1.out, g1.sink⟩
      exact ⟨rfl, hnf, hacc, h1, g2.trans hnf, rfl, h2, h3, h4, h5, o, fun hs => h6 hs⟩
    · exact .inr ⟨g2, hnf, hacc, h1, g3, g5, g1, g4⟩
  simpa only [wp_bind] using whole

/-! ### The invariant -/

/-- The part of `State.Inv` that a command meets while its data list is on the port. -/
def Issued (s : State) : Prop := s.CoreOk ∧ s.feed = [] ∧ s.ControlConsistent

theorem issued_issue (h : s.Inv) (data : List Byte) : Issued (s.issue data) := ⟨h.1, h.2.1.2, h.2.2⟩

/-- The state at the start of a session, whatever the unspecified memories hold (R41, R201). -/
theorem coreOk_start {c : Config} (h : c.ok = true) {framing : Bool} (hu : (State.fresh c framing).Unspecified t) :
    t.CoreOk := by
  obtain ⟨hm, hu⟩ := hu
  rw [hu] at hm ⊢
  exact ⟨h, hm,
    by show 0 ≤ WIN; exact Nat.zero_le _, by show 2 ≤ 2; decide, by show 2 ≤ 258; decide, by show 2 ≤ 258; decide,
    ⟨by show 0 ≤ 16; decide, by show 0 < 1; decide⟩, by show 1 < 65521; decide, by show 0 < 65521; decide,
    Nat.zero_le _⟩

theorem settled_start {c : Config} {framing : Bool} (hu : (State.fresh c framing).Unspecified t) : Settled t := by
  have f := hu.2
  have e1 : t.head = [] := by rw [f]; rfl
  have e2 : t.matchAvailable = false := by rw [f]; rfl
  have e3 : t.matchLength = 2 := by rw [f]; rfl
  have e4 : t.lastLit = 0 := by rw [f]; rfl
  refine ⟨chainsBehind_of_empty e1, ⟨fun h => ?_, fun h => ?_⟩,
    tallyExact_empty (by rw [f]; rfl) (by rw [f]; rfl) e4, ?_, by rw [f]; rfl, by rw [f]; rfl, by rw [f]; rfl⟩
  · rw [e2] at h
    cases h
  · rw [e3] at h
    exact absurd h (by decide)
  · show (t.strstart : Int) - t.blockStart = (t.blockSpan : Int) + if t.matchAvailable = true then 1 else 0
    rw [blockSpan_empty e4, e2, f]
    rfl

/-- The model's own contents are an instance of any. -/
theorem unspecified_fresh (c : Config) (framing : Bool) : (State.fresh c framing).Unspecified (State.fresh c framing) :=
  ⟨⟨rfl, rfl, rfl, rfl, rfl, (by decide : Memory.wf L_CODES [(END_BLOCK, (1 : Half))] = true), rfl, rfl⟩, rfl⟩

theorem coreOk_fresh {c : Config} (h : c.ok = true) (framing : Bool) : (State.fresh c framing).CoreOk :=
  coreOk_start h (unspecified_fresh c framing)

theorem control_fresh {c : Config} (h : c.ok = true) (framing : Bool) : (State.fresh c framing).ControlConsistent := by
  refine ⟨by simp [State.fresh], by simp [State.fresh], by simp [State.fresh], fun _ => ⟨by simp [State.fresh], ?_, ?_, ?_, ?_⟩⟩
  · show 0 ≤ 7
    decide
  · exact tokenLimit_pos (coreOk_fresh h framing)
  · intro hb
    cases hb
  · intro hd
    cases hd

theorem settled_fresh (c : Config) (framing : Bool) : Settled (State.fresh c framing) :=
  settled_start (unspecified_fresh c framing)

/-- INIT keeps the invariant. -/
theorem inv_execInit {framing : Bool} (h : Issued s) (hn : execInit framing s = .next t) : t.Inv ∧ t.SessionInv := by
  unfold execInit runCommand initBody at hn
  split at hn
  · cases hn
    exact ⟨⟨coreOk_fresh h.1.1 framing, ⟨rfl, rfl⟩, control_fresh h.1.1 framing⟩, fun _ => settled_fresh s.cfg framing⟩
  · cases hn

/-- STATUS keeps the invariant. -/
theorem inv_execStatus (h : Issued s) (hn : execStatus s = .next t) :
    t.Inv ∧ (s.SessionInv → t.SessionInv) := by
  unfold execStatus at hn
  split at hn
  · cases hn
    exact ⟨⟨h.1, ⟨List.length_eq_zero_iff.mp ‹_›, h.2.1⟩, h.2.2⟩, fun hs => hs⟩
  · cases hn

/-- A hardware reset keeps the invariant. -/
theorem inv_hardwareReset (h : s.CoreOk) : s.hardwareReset.Inv ∧ s.hardwareReset.SessionInv :=
  ⟨⟨coreOk_fresh h.1 s.cfg.resetFraming, ⟨rfl, rfl⟩, control_fresh h.1 s.cfg.resetFraming⟩,
    fun _ => settled_fresh s.cfg s.cfg.resetFraming⟩

/-- A command that ends by an error keeps the invariant. -/
theorem inv_endsBadly {e : ResultCode} {before : List Byte} (h : Issued s) (hb : EndsBadly s e u) :
    (u.complete before e).Inv ∧ (s.SessionInv → (u.complete before e).SessionInv) := by
  rcases hb with ⟨rfl, hnf, hacc, rfl⟩ | ⟨rfl, hnf, hacc, hc, hf, hp, -, -⟩
  · obtain ⟨hc, -, h1, h2, h3, h4⟩ := h
    have hff : (s.failed || ResultCode.setsFailed .invalidState) = s.failed := by
      rw [hnf]
      rfl
    refine ⟨⟨hc, ⟨rfl, rfl⟩, (by decide : ResultCode.invalidState ≠ .outOfMemory), ?_, ?_, ?_⟩, ?_⟩
    · show (s.failed || ResultCode.setsFailed .invalidState) = true ↔ ResultCode.invalidState = .streamError
      rw [hff, hnf]
      decide
    · show (s.failed || ResultCode.setsFailed .invalidState) = true → s.phase ≠ .done
      rw [hff]; exact h3
    · show (s.failed || ResultCode.setsFailed .invalidState) = false → _
      rw [hff]; exact h4
    · intro hs
      show (s.failed || ResultCode.setsFailed .invalidState) = false → _
      rw [hff]; exact hs
  · refine ⟨⟨hc, ⟨rfl, rfl⟩, (by decide : ResultCode.streamError ≠ .outOfMemory), ⟨fun _ => rfl, fun _ => hf⟩,
      fun _ => hp, fun hx => ?_⟩, fun _ hx => ?_⟩
    · have : u.failed = false := hx
      rw [hf] at this; cases this
    · have : u.failed = false := hx
      rw [hf] at this; cases this

/-- PROCESS keeps the invariant. -/
theorem inv_processOk {before : List Byte} (h : Issued s) (hnf : s.failed = false)
    (hnil : s.payload = [] → u = s)
    (hdata : s.payload ≠ [] → u.CoreOk ∧ u.failed = false ∧ u.phase = .busy ∧ u.biValid ≤ 7 ∧
      u.lastLit < u.cfg.tokenLimit ∧ u.lookahead < MIN_LOOKAHEAD ∧ Outer s u ∧ (Settled s → Settled u)) :
    (u.complete before .ok).Inv ∧ (s.SessionInv → (u.complete before .ok).SessionInv) := by
  by_cases hp : s.payload = []
  · rw [hnil hp]
    obtain ⟨hc, -, h1, h2, h3, h4⟩ := h
    refine ⟨⟨hc, ⟨rfl, rfl⟩, (by decide : ResultCode.ok ≠ .outOfMemory), ?_, h3, h4⟩, fun hs => hs⟩
    show s.failed = true ↔ ResultCode.ok = .streamError
    rw [hnf]
    decide
  · obtain ⟨g1, g2, g3, g4, g5, g6, -, g8⟩ := hdata hp
    refine ⟨⟨g1, ⟨rfl, rfl⟩, (by decide : ResultCode.ok ≠ .outOfMemory), ?_, fun hx => ?_, fun _ => ⟨?_, g4, g5,
      fun _ => g6, fun hx => ?_⟩⟩, fun hs _ => g8 (hs hnf)⟩
    · show u.failed = true ↔ ResultCode.ok = .streamError
      rw [g2]
      decide
    · have : u.failed = true := hx
      rw [g2] at this; cases this
    · show u.phase ≠ .finish
      rw [g3]; decide
    · have : u.phase = .done := hx
      rw [g3] at this; cases this

theorem inv_execProcess {len : Nat} (h : Issued s) (hn : execProcess len s = .next t) :
    t.Inv ∧ (s.SessionInv → t.SessionInv) := by
  have hspec := processBody_spec (F := True) h.1 (fun hf => (h.2.2.2.2.2 hf).2.2.1) (.inl trivial)
  obtain ⟨-, ⟨code, u, ⟨rfl, hnf, -, hnil, hdata⟩, rfl⟩ | ⟨e, u, hb, rfl⟩⟩ := runCommand_next hspec hn
  · exact inv_processOk h hnf hnil hdata
  · exact inv_endsBadly h hb

/-- FINALIZE keeps the invariant. -/
theorem inv_execFinalize (h : Issued s) (hn : execFinalize s = .next t) :
    t.Inv ∧ (s.SessionInv → t.SessionInv) := by
  have hspec := finalizeBody_spec (F := True) h.1 (fun hf => (h.2.2.2.2.2 hf).2.2.1) (.inl trivial)
  obtain ⟨-, ⟨code, u, ⟨rfl, hnf, -, g1, g2, g3, g4, g5, g6, g7, -, g9⟩, rfl⟩ | ⟨e, u, hb, rfl⟩⟩ :=
    runCommand_next hspec hn
  · refine ⟨⟨g1, ⟨rfl, rfl⟩, (by decide : ResultCode.ok ≠ .outOfMemory), ?_, fun hx => ?_, fun _ => ⟨?_, ?_, g5,
      fun hx => ?_, fun _ => ⟨g6, g7, g4⟩⟩⟩, fun hs _ => g9 (hs hnf)⟩
    · show u.failed = true ↔ ResultCode.ok = .streamError
      rw [g2]
      decide
    · have : u.failed = true := hx
      rw [g2] at this; cases this
    · show u.phase ≠ .finish
      rw [g3]; decide
    · show u.biValid ≤ 7
      omega
    · have : u.phase = .busy := hx
      rw [g3] at this; cases this
  · exact inv_endsBadly h hb

/-! ### Completion -/

/-- PROCESS answers a next state in every session without an error (R172, R184, R185). -/
theorem execProcess_completes {len : Nat} (h : Issued s) (hs : s.SessionInv) (hnf : s.failed = false)
    (hl : s.payload.length = len) :
    ∃ code u, (code = .ok ∨ EndsBadly s code u) ∧ execProcess len s = .next (u.complete s.out code) := by
  have hspec := processBody_spec (F := False) h.1 (fun hf => (h.2.2.2.2.2 hf).2.2.1)
    (.inr ⟨hnf, fun _ => hs hnf⟩)
  rcases runCommand_completes hl hspec with ⟨code, u, hq, he⟩ | ⟨e, u, hb, he⟩
  · exact ⟨code, u, .inl hq.1, he⟩
  · exact ⟨e, u, .inr hb, he⟩

/-- FINALIZE answers a next state in every session without an error (R174, R184, R185). -/
theorem execFinalize_completes (h : Issued s) (hs : s.SessionInv) (hnf : s.failed = false) (hl : s.payload.length = 0) :
    ∃ code u, (code = .ok ∨ EndsBadly s code u) ∧ execFinalize s = .next (u.complete s.out code) := by
  have hspec := finalizeBody_spec (F := False) h.1 (fun hf => (h.2.2.2.2.2 hf).2.2.1) (.inr ⟨hnf, fun _ => hs hnf⟩)
  rcases runCommand_completes hl hspec with ⟨code, u, hq, he⟩ | ⟨e, u, hb, he⟩
  · exact ⟨code, u, .inl hq.1, he⟩
  · exact ⟨e, u, .inr hb, he⟩

end Sys2Proof.Laws
end

