-- ==== Sys2Proof/Laws/Decode.lean ====
section
/-!
SUPPORT. The decoder: what each command word decodes to, and that a table word decodes alike alone and with its data.
-/

namespace Sys2Proof.Laws

open Sys2Proof.Machine

/-- With as many data bytes as its word asks for, a command decodes as its word does (R165). -/
theorem decode_of_length {w : Word} {data : List Byte} {i : Instr} (h : decodeWord w = .ok i)
    (hl : data.length = i.payloadLength) : decode ⟨w, data⟩ = .ok i := by
  unfold decode
  simp only [h]
  rw [if_pos hl]

/-- A table word decodes alike alone and as the host issues it. -/
theorem decode_zeroPayload (nbits w : Nat) : (decode (tableCommand nbits w)).toOption = decodeTableWord nbits w := by
  unfold decodeTableWord tableCommand
  cases h : decodeWord (tableWord nbits w) with
  | ok i =>
    rw [decode_of_length h (by simp)]
  | error r =>
    unfold decode
    simp only [h]

/-- What a decoded command says of its data list (R165). -/
theorem decode_length {c : Command} {i : Instr} (h : decode c = .ok i) :
    decodeWord c.word = .ok i ∧ c.data.length = i.payloadLength := by
  unfold decode at h
  split at h
  · split at h
    · cases h
      exact ⟨‹_›, ‹_›⟩
    · cases h
  · cases h

/-- A table word that decodes is executed by the very next step. -/
theorem step_withFetchWord {s : State} {nbits w : Nat} {i : Instr} (h : decodeTableWord nbits w = some i) :
    step (s.withFetchWord nbits w) =
      exec i ((s.withFetchWord nbits w).issue (List.replicate i.payloadLength 0)) := by
  have hw : decodeWord (tableWord nbits w) = .ok i := by
    unfold decodeTableWord at h
    cases hx : decodeWord (tableWord nbits w) with
    | ok j => rw [hx] at h; cases h; rfl
    | error r => rw [hx] at h; cases h
  have hc : tableCommand nbits w = ⟨tableWord nbits w, List.replicate i.payloadLength 0⟩ := by
    unfold tableCommand
    rw [hw]
  unfold step State.withFetchWord
  simp only [hc]
  rw [decode_of_length hw (by simp)]

end Sys2Proof.Laws
end

