-- ==== Sys2Proof/Laws/Heap.lean ====
section
/-!
SUPPORT. The least node of a queue under both tie orders: `popLeast` takes it (R131, R133), and the root of a heap is one
(R138).
-/

namespace Sys2Proof.Laws

open Sys2Proof.Machine

/-! ### The order of R131 -/

theorem before_iff (a b : Node) :
    a.before b = true ↔ a.freq < b.freq ∨ a.freq = b.freq ∧ (a.depth < b.depth ∨ a.depth = b.depth ∧ a.idx < b.idx) := by
  simp [Node.before]

theorem foldl_least_not_before (q : List Node) (a : Node) :
    ∀ c ∈ a :: q, c.before (q.foldl (fun m n => if n.before m then n else m) a) = false := by
  induction q generalizing a with
  | nil =>
    intro c hc
    rw [List.mem_singleton.mp hc, List.foldl_nil, Bool.eq_false_iff, ne_eq, before_iff]
    omega
  | cons n q ih =>
    intro c hc
    rw [List.foldl_cons]
    have hm := ih (if n.before a then n else a)
    have h0 := hm _ List.mem_cons_self
    rcases List.mem_cons.mp hc with rfl | hc
    · split at h0
      · next hn =>
        rw [if_pos hn]
        rw [Bool.eq_false_iff, ne_eq, before_iff] at h0 ⊢
        rw [before_iff] at hn
        omega
      · next hn => rwa [if_neg hn]
    · rcases List.mem_cons.mp hc with rfl | hc
      · split at h0
        · next hn => rwa [if_pos hn]
        · next hn =>
          rw [if_neg hn]
          rw [before_iff] at hn
          rw [Bool.eq_false_iff, ne_eq, before_iff] at h0 ⊢
          omega
      · exact hm c (List.mem_cons_of_mem _ hc)

/-- `popLeast` takes a node that none of the queue comes before (R131, R133). -/
theorem popLeast_least {q q' : List Node} {a : Node} (h : popLeast q = some (a, q')) : ∀ c ∈ q, c.before a = false := by
  cases q with
  | nil => cases h
  | cons n q =>
    simp only [popLeast, Option.some.injEq, Prod.mk.injEq] at h
    obtain ⟨rfl, rfl⟩ := h
    exact foldl_least_not_before q n

/-! ### The order of R138 -/

theorem smaller_iff (a b : Node) : a.smaller b = true ↔ a.freq < b.freq ∨ a.freq = b.freq ∧ a.depth ≤ b.depth := by
  simp [Node.smaller]

theorem smaller_refl (a : Node) : a.smaller a = true := (smaller_iff a a).mpr (.inr ⟨rfl, Nat.le_refl _⟩)

theorem smaller_trans {a b c : Node} (h : a.smaller b = true) (h' : b.smaller c = true) : a.smaller c = true := by
  rw [smaller_iff] at *
  omega

theorem smaller_total {a b : Node} (h : ¬ a.smaller b = true) : b.smaller a = true := by
  rw [smaller_iff] at *
  omega

/-! ### The heap -/

theorem heapAt_set {h : List Node} {j k : Nat} (v : Node) (hj : 1 ≤ j) (hk : 1 ≤ k) (hl : k ≤ h.length) :
    heapAt (h.set (k - 1) v) j = if j = k then v else heapAt h j := by
  unfold heapAt
  rw [List.getD_eq_getElem?_getD, List.getD_eq_getElem?_getD, List.getElem?_set]
  by_cases he : j = k
  · rw [if_pos he, if_pos (by omega), if_pos (by omega)]
    rfl
  · rw [if_neg he, if_neg (by omega)]

/-- From slot `k` on, no node is greater than a child of it. -/
def HeapFrom (k : Nat) (h : List Node) : Prop :=
  ∀ j c, k ≤ j → c / 2 = j → c ≤ h.length → (heapAt h j).smaller (heapAt h c) = true

/-- The child that DownHeap compares with is a child, and no greater than the other one. -/
theorem heapChild_spec {h : List Node} {k : Nat} (hl : 2 * k ≤ h.length) :
    heapChild h k / 2 = k ∧ heapChild h k ≤ h.length ∧
      ∀ c, c / 2 = k → c ≤ h.length → (heapAt h (heapChild h k)).smaller (heapAt h c) = true := by
  unfold heapChild
  split
  · next hc =>
    refine ⟨by omega, by omega, fun c h1 h2 => ?_⟩
    rcases (by omega : c = 2 * k ∨ c = 2 * k + 1) with rfl | rfl
    · exact hc.2
    · exact smaller_refl _
  · next hc =>
    refine ⟨by omega, by omega, fun c h1 h2 => ?_⟩
    rcases (by omega : c = 2 * k ∨ c = 2 * k + 1) with rfl | rfl
    · exact smaller_refl _
    · exact smaller_total fun h => hc ⟨by omega, h⟩

/-- DownHeap with a hole at slot `k`: the rest is a heap from `k0` on, and the value may stand below the hole's parent. -/
theorem downHeap_heap (v : Node) (k0 fuel k : Nat) (h : List Node) (h0 : 1 ≤ k0) (hk0 : k0 ≤ k) (hl : k ≤ h.length)
    (hf : h.length ≤ k + fuel)
    (i1 : ∀ j c, k0 ≤ j → j ≠ k → c ≠ k → c / 2 = j → c ≤ h.length → (heapAt h j).smaller (heapAt h c) = true)
    (i2 : k0 ≤ k / 2 → ∀ c, c / 2 = k → c ≤ h.length → (heapAt h (k / 2)).smaller (heapAt h c) = true)
    (i3 : k0 ≤ k / 2 → (heapAt h (k / 2)).smaller v = true) :
    HeapFrom k0 (downHeap v fuel k h) := by
  -- the value may stand in the hole if no child is smaller
  have stop : (∀ c, c / 2 = k → c ≤ h.length → v.smaller (heapAt h c) = true) → HeapFrom k0 (h.set (k - 1) v) := by
    intro hv j c hj hc hcl
    rw [List.length_set] at hcl
    rw [heapAt_set v (by omega) (by omega) hl, heapAt_set v (by omega) (by omega) hl]
    by_cases hjk : j = k
    · rw [if_pos hjk, if_neg (by omega)]
      exact hv c (by omega) hcl
    · rw [if_neg hjk]
      by_cases hck : c = k
      · rw [if_pos hck, ← hc, hck]
        exact i3 (by omega)
      · rw [if_neg hck]
        exact i1 j c hj hjk hck hc hcl
  induction fuel generalizing k h with
  | zero => exact stop fun c h1 h2 => by omega
  | succ fuel ih =>
    unfold downHeap
    split
    · next h2 =>
      obtain ⟨g1, g2, g3⟩ := heapChild_spec (h := h) (k := k) h2
      split
      · next hv => exact stop fun c hc hcl => smaller_trans hv (g3 c hc hcl)
      · next hv =>
        have hat : ∀ j, 1 ≤ j → heapAt (h.set (k - 1) (heapAt h (heapChild h k))) j =
            if j = k then heapAt h (heapChild h k) else heapAt h j := fun j hj => heapAt_set _ hj (by omega) hl
        have j1 : ∀ j c, k0 ≤ j → j ≠ heapChild h k → c ≠ heapChild h k → c / 2 = j →
            c ≤ (h.set (k - 1) (heapAt h (heapChild h k))).length →
            (heapAt (h.set (k - 1) (heapAt h (heapChild h k))) j).smaller
              (heapAt (h.set (k - 1) (heapAt h (heapChild h k))) c) = true := by
          intro j c hj hjn hcn hc hcl
          rw [List.length_set] at hcl
          rw [hat j (by omega), hat c (by omega)]
          by_cases hjk : j = k
          · rw [if_pos hjk, if_neg (by omega)]
            exact g3 c (by omega) hcl
          · rw [if_neg hjk]
            by_cases hck : c = k
            · rw [if_pos hck, ← hc, hck]
              exact i2 (by omega) _ g1 g2
            · rw [if_neg hck]
              exact i1 j c hj hjk hck hc hcl
        have j2 : ∀ c, c / 2 = heapChild h k → c ≤ (h.set (k - 1) (heapAt h (heapChild h k))).length →
            (heapAt (h.set (k - 1) (heapAt h (heapChild h k))) (heapChild h k / 2)).smaller
              (heapAt (h.set (k - 1) (heapAt h (heapChild h k))) c) = true := by
          intro c hc hcl
          rw [List.length_set] at hcl
          rw [g1, hat k (by omega), if_pos rfl, hat c (by omega), if_neg (by omega)]
          exact i1 _ c (by omega) (by omega) (by omega) hc hcl
        have j3 : (heapAt (h.set (k - 1) (heapAt h (heapChild h k))) (heapChild h k / 2)).smaller v = true := by
          rw [g1, hat k (by omega), if_pos rfl]
          exact smaller_total hv
        refine ih (heapChild h k) _ (by omega) (by rw [List.length_set]; omega) (by rw [List.length_set]; omega) j1
          (fun _ => j2) (fun _ => j3) ?_
        intro hv' j c hj hc hcl
        rw [List.length_set] at hcl
        rw [heapAt_set v (by omega) (by omega) (by rw [List.length_set]; omega),
          heapAt_set v (by omega) (by omega) (by rw [List.length_set]; omega)]
        by_cases hjk : j = heapChild h k
        · rw [if_pos hjk, if_neg (by omega)]
          exact hv' c (by omega) hcl
        · rw [if_neg hjk]
          by_cases hck : c = heapChild h k
          · rw [if_pos hck, ← hc, hck]
            exact j3
          · rw [if_neg hck]
            exact j1 j c hj hjk hck hc hcl
    · exact stop fun c h1 h2 => by omega

/-- DownHeap makes a heap from its slot on, if there was one from the next slot on (R138). -/
theorem siftDown_heap {k : Nat} {h : List Node} (hk : 1 ≤ k) (hl : k ≤ h.length) (hh : HeapFrom (k + 1) h) :
    HeapFrom k (siftDown k h) :=
  downHeap_heap _ k _ k h hk (Nat.le_refl k) hl (by omega)
    (fun j c hj hjk _ hc hcl => hh j c (by omega) hc hcl) (fun h => absurd h (by omega)) fun h => absurd h (by omega)

theorem heapify_heap (k : Nat) (h : List Node) (hl : k ≤ h.length) (hh : HeapFrom (k + 1) h) :
    HeapFrom 1 (heapify k h) := by
  induction k generalizing h with
  | zero => exact hh
  | succ k ih =>
    have hp := siftDown_perm (Nat.succ_pos k) hl
    exact ih _ (by rw [hp.length_eq]; omega) (siftDown_heap (Nat.succ_pos k) hl hh)

/-- The heap that the merge of R138 starts from. -/
theorem heapify_start (leaves : List Node) : HeapFrom 1 (heapify (leaves.length / 2) leaves) :=
  heapify_heap _ _ (Nat.div_le_self _ _) fun j c hj hc hcl => by omega

/-- The root of a heap is smaller than every node, ties included (R138). -/
theorem heapRoot_smaller {h : List Node} (hh : HeapFrom 1 h) : ∀ c ∈ h, (heapAt h 1).smaller c = true := by
  have slots : ∀ j, 1 ≤ j → j ≤ h.length → (heapAt h 1).smaller (heapAt h j) = true := by
    intro j
    induction j using Nat.strongRecOn with
    | ind j ih =>
      intro h1 hl
      by_cases hj : j = 1
      · rw [hj]
        exact smaller_refl _
      · exact smaller_trans (ih (j / 2) (by omega) (by omega) (by omega)) (hh (j / 2) j (by omega) rfl hl)
  intro c hc
  obtain ⟨i, hi, rfl⟩ := List.mem_iff_getElem.mp hc
  have := slots (i + 1) (Nat.succ_pos i) hi
  rwa [show heapAt h (i + 1) = h[i] from List.getD_eq_getElem _ _ hi] at this

/-- What stands below the root stays a heap when the root is replaced and the last slot is dropped (R138). -/
theorem heapFrom_takeRoot {h : List Node} (v : Node) (h2 : 2 ≤ h.length) (hh : HeapFrom 1 h) :
    HeapFrom 2 (h.set 0 v).dropLast ∧ HeapFrom 2 (h.set 0 v) := by
  have hs : HeapFrom 2 (h.set 0 v) := by
    intro j c hj hc hcl
    rw [List.length_set] at hcl
    have e : ∀ i, 2 ≤ i → heapAt (h.set 0 v) i = heapAt h i := fun i hi => by
      have := heapAt_set (h := h) (j := i) (k := 1) v (by omega) (Nat.le_refl 1) (by omega)
      rwa [if_neg (by omega)] at this
    rw [e j hj, e c (by omega)]
    exact hh j c (by omega) hc hcl
  refine ⟨fun j c hj hc hcl => ?_, hs⟩
  rw [List.length_dropLast] at hcl
  have e : ∀ i, 1 ≤ i → i ≤ (h.set 0 v).length - 1 → heapAt (h.set 0 v).dropLast i = heapAt (h.set 0 v) i := by
    intro i h1 hi
    unfold heapAt
    rw [List.getD_eq_getElem?_getD, List.getD_eq_getElem?_getD, List.getElem?_dropLast, if_pos (by omega)]
  rw [e j (by omega) (by omega), e c (by omega) hcl]
  exact hs j c hj hc (by omega)

end Sys2Proof.Laws
end

