-- ==== Sys2Proof/Laws/PerInstr.lean ====
section
/-!
SUPPORT. Statements made of each command: the word of a command lies in its row of the opcode table.
-/

namespace Sys2Proof.Laws.Encoding

open Sys2Proof

/-- The encoded word of a well-formed command matches its row: its pattern under its mask (R64 to R67). -/
def Statement (i : Instr) : Prop := i.wellFormed = true → encode i &&& i.mask = i.pattern

theorem init (framing : Bool) : Statement (.init framing) := fun _ => by cases framing <;> decide

theorem process (len : Nat) : Statement (.process len) := fun _ => by
  apply BitVec.eq_of_getLsbD_eq
  intro i hi
  simp only [encode, Instr.mask, Instr.pattern, Instr.operandBits, BitVec.getLsbD_and, BitVec.getLsbD_or,
    BitVec.getLsbD_setWidth, hi, decide_true, Bool.true_and]
  by_cases h : i < 28
  · have : ∀ i < 28, (0x20000000 : Word).getLsbD i = false ∧ (0xF0000000 : Word).getLsbD i = false := by decide
    obtain ⟨h1, h2⟩ := this i h
    rw [h1, h2, Bool.and_false]
  · have h28 : (BitVec.ofNat 28 len).getLsbD i = false := BitVec.getLsbD_of_ge _ _ (Nat.le_of_not_lt h)
    have : ∀ i < 32, 28 ≤ i → (0xF0000000 : Word).getLsbD i = true := by decide
    rw [h28, this i hi (Nat.le_of_not_lt h), Bool.or_false, Bool.and_true]

theorem finalize : Statement .finalize := fun _ => by decide

theorem status : Statement .status := fun _ => by decide

end Sys2Proof.Laws.Encoding
end

