-- ==== Sys2Proof/Tests/Slice0.lean ====
section
/-!
SUPPORT. The model's own tests. The expected values are those of spec/95_test_vectors.md and of the worked examples of
the rules named; the witnesses show that the hypotheses of each statement can be met.
-/

namespace Sys2Proof.Tests

open Sys2Proof Sys2Proof.Machine

/-! ### Small states -/

/-- The state a command answers, if it answers one. -/
def nextOf (o : Host.Outcome State Fault Refusal) : Option State :=
  match o with
  | .next t => some t
  | .fault _ => none
  | .refused _ => none

theorem next_of {o : Host.Outcome State Fault Refusal} (h : (nextOf o).isSome = true) : ∃ t, o = .next t := by
  cases o with
  | next t => exact ⟨t, rfl⟩
  | fault _ => cases h
  | refused _ => cases h

/-- The fault a command ends in, if it does. -/
def faultOf (o : Host.Outcome State Fault Refusal) : Option Fault :=
  match o with
  | .next _ => none
  | .fault f => some f
  | .refused _ => none

/-- The bytes that the last command delivered. -/
def delivered (o : Host.Outcome State Fault Refusal) : Option (List Byte) :=
  (nextOf o).bind fun t => t.response.map Response.delivered

/-- The status word after a command. -/
def wordAfter (o : Host.Outcome State Fault Refusal) : Option Word := (nextOf o).map statusWord

/-- Reset with the data of a command on the input port. -/
def ported (data : List Byte) : State := State.reset.issue data

/-- Reset with commands waiting. -/
def queued (c : Command) : State := { State.reset with inputs := [.command c] }

/-- Reset with other control registers. -/
def control (phase : Phase) (failed framing : Bool) (result : ResultCode) : State :=
  { State.reset with phase := phase, failed := failed, framing := framing, result := result }

/-- The state after INIT framing=0 in a core with the default parameters. -/
def idle : State := State.fresh Config.default false

/-- The bytes "abcabcabc" (R120). -/
def nine : List Byte := [0x61, 0x62, 0x63, 0x61, 0x62, 0x63, 0x61, 0x62, 0x63]

/-- The state after the two PROCESS commands of R180: 9 bytes of lookahead (values of 95_test_vectors.md W2). -/
def waiting : State := { State.reset with
  phase := .busy
  window := [(0, 0x61), (1, 0x62), (2, 0x63), (3, 0x61), (4, 0x62), (5, 0x63), (6, 0x61), (7, 0x62), (8, 0x63)]
  lookahead := 9
  insH := 0x0C42
  adlerA := 0x0373
  adlerB := 0x113D }

/-! ### Well-formedness, decoding, encoding -/

theorem test_wellFormed_refuses_long_process : (Instr.process (LEN_MAX + 1)).wellFormed = false := by decide
theorem test_wellFormed_accepts_longest_process : (Instr.process LEN_MAX).wellFormed = true := by decide
theorem test_wellFormed_others :
    (Instr.init true).wellFormed = true ∧ Instr.finalize.wellFormed = true ∧ Instr.status.wellFormed = true := by decide

/-- R64: `0001`, 27 zeros, `F`. -/
theorem test_decode_init : decodeWord 0b00010000000000000000000000000001 = .ok (.init true) := by decide
/-- R65: `0010`, then `LEN`; here 9. -/
theorem test_decode_process : decodeWord 0b00100000000000000000000000001001 = .ok (.process 9) := by decide
/-- R65: the top bit of `LEN` is bit 27. -/
theorem test_decode_process_top : decodeWord 0b00101000000000000000000000000000 = .ok (.process (2 ^ 27)) := by decide
/-- R66: `0011`, 28 zeros. -/
theorem test_decode_finalize : decodeWord 0b00110000000000000000000000000000 = .ok .finalize := by decide
/-- R67: `0100`, 28 zeros. -/
theorem test_decode_status : decodeWord 0b01000000000000000000000000000000 = .ok .status := by decide
theorem test_encode_words : [Instr.init false, .init true, .process 9, .finalize, .status].map encode =
    [0x10000000, 0x10000001, 0x20000009, 0x30000000, 0x40000000] := by decide
theorem test_table_word : decodeTableWord 32 0x20000009 = some (.process 9) ∧ decodeTableWord 32 0x30000001 = none := by
  decide

/-- R70, R71: `PROCESS "abc"` is `PROCESS 3, 61 62 63`; COMPRESS without bytes has no PROCESS. -/
theorem test_assemble :
    assemble [.processText ['a', 'b', 'c'], .compress false []] =
      [.command ⟨0x20000003, [0x61, 0x62, 0x63]⟩, .command ⟨0x10000000, []⟩, .command ⟨0x30000000, []⟩] := by decide

/-! ### One step of each command -/

/-- 95_test_vectors.md P4 step 7: INIT framing=0 after an error in the final block leaves the status word 0x00. -/
theorem test_init_recovers : wordAfter (exec (.init false) (control .finish true true .streamError)) = some 0x00 := by
  decide
/-- P1 step 1: INIT framing=1 leaves the status word 0x08. -/
theorem test_init_word : wordAfter (step (queued ⟨0x10000001, []⟩)) = some 0x08 := by decide
/-- R172: after INIT framing=1, `PROCESS "abc"` offers `78 DA`. -/
theorem test_process_header : delivered (step (queued ⟨0x20000003, [0x61, 0x62, 0x63]⟩)) = some [0x78, 0xDA] := by
  decide +kernel
/-- P3 step 2: a sink that refuses the first byte leaves the status word 0x3C. -/
theorem test_process_refused :
    wordAfter (exec (.process 1) { ported [0x61] with sink := [false] }) = some 0x3C := by decide +kernel
/-- R180: FINALIZE after the nine bytes (R120, R163). -/
theorem test_finalize_nine : delivered (exec .finalize waiting) =
    some [0x4B, 0x4C, 0x4A, 0x4E, 0x04, 0x23, 0x00, 0x11, 0x3D, 0x03, 0x73] := by decide +kernel
/-- P5 step 2: FINALIZE without data. -/
theorem test_finalize_empty : delivered (step (queued ⟨0x30000000, []⟩)) =
    some [0x78, 0xDA, 0x03, 0x00, 0x00, 0x00, 0x00, 0x01] := by decide +kernel
/-- P1 step 7: the word 0x1B after InvalidState in DONE. -/
theorem test_status_done : ((nextOf (exec .status (control .done false true .invalidState))).bind State.response) =
    some ⟨.ok, some 0x1B, []⟩ := by decide
/-- P4 step 6: the word 0x3E after a StreamError in the final block. -/
theorem test_status_failed : ((nextOf (exec .status (control .finish true true .streamError))).bind State.response) =
    some ⟨.ok, some 0x3E, []⟩ := by decide
/-- P4 steps 2 to 4: a reserved word and a malformed PROCESS are refused. -/
theorem test_refusals : nextOf (step (queued ⟨0x10000002, []⟩)) = none ∧
    nextOf (step (queued ⟨0x20000002, [0x61, 0x62, 0x63]⟩)) = none := by decide
/-- A table word placed by `withFetchWord` is the next command run. -/
theorem test_withFetchWord : wordAfter (step (State.reset.withFetchWord 32 0x10000000)) = some 0x00 := by decide

/-! ### Operations, by the examples of the rules -/

/-- The examples of R102. -/
theorem test_updateHash : updateHash 0x61 0x62 = 0x0C42 ∧ updateHash 0x0C42 0x63 = 0x0823 := by decide
/-- 95_test_vectors.md section 2.2. -/
theorem test_hash3 : hash3 0x41 0x62 0x63 = 0x0823 ∧ hash3 0xFF 0xFF 0xFF = 0x631F ∧ hash3 0x78 0x79 0x7A = 0x6F5A := by
  decide
/-- 95_test_vectors.md W2. -/
theorem test_adler : adlerOver (1, 0) nine = (0x0373, 0x113D) := by decide
/-- The examples of R94 and R95. -/
theorem test_slide : State.slid { State.reset with window := [(40000, 0x41)], head := [(1, 40000), (2, 12000)] } =
    { State.reset with
      window := [(7232, 0x41), (40000, 0x41)], head := [(1, 7232)], matchStart := -32768, blockStart := -32768 } := by
  decide
/-- The L tree of R146: the lengths of symbols 97, 98, 99, 256 and 259. -/
theorem test_buildTree_lengths :
    (builtTree .docOrder .litLen [(97, 2), (98, 1), (99, 1), (256, 1), (259, 1)]).map
      (fun t => (([97, 98, 99, 256, 259].map fun n => t.lens.getD n 0), t.optAdd, t.staticAdd)) =
      some ([2, 3, 3, 2, 2], 14, 46) := by decide +kernel
/-- 95_test_vectors.md H2: two forced leaves. -/
theorem test_buildTree_forced :
    (builtTree .docOrder .dist []).map (fun t => (t.lens.take 3, t.maxCode)) = some ([1, 1, 0], 1) := by decide +kernel
/-- The example of R154. -/
theorem test_storedBlock :
    (match storedBlock 0 3 true { State.reset with window := [(0, 0x61), (1, 0x62), (2, 0x63)] } with
      | .ok _ t => some t.out
      | .error _ _ => none) = some [0x01, 0x03, 0x00, 0xFC, 0xFF, 0x61, 0x62, 0x63] := by decide +kernel
/-- The final block of 95_test_vectors.md V7 (W3) with its whole counts, two literals 0, 271 matches `(1, 258)` and one
`(1, 80)`, but only the first 10 of its tokens. -/
def zeros : State := { State.reset with
  strstart := 37232
  blockStart := -32768
  lastLit := 10
  tokDist := (List.range 8).map fun i => (i + 2, 1)
  tokLc := (List.range 8).map fun i => (i + 2, 255)
  dynLfreq := [(0, 2), (256, 1), (277, 1), (285, 271)]
  dynDfreq := [(0, 272)] }
/-- V7: the dynamic block begins with its header and tree description, the bytes from `ED` on (R82, R156, R157). -/
theorem test_dynamicBlock :
    (match flushBlock true zeros with
      | .ok _ t => some (t.out.take 15)
      | .error _ _ => none) =
      some [0xED, 0xC1, 0x31, 0x01, 0x00, 0x00, 0x00, 0xC2, 0xA0, 0xF5, 0x4F, 0x6D, 0x09, 0x4F, 0xA0] := by
  decide +kernel
/-- R9: a full counter, a packer out of range and a window overrun are faults. -/
theorem test_counter_ranges :
    (match tallyLiteral 0x61 { State.reset with dynLfreq := [(0x61, 0xFFFF), (256, 1)] } with
      | .ok _ _ => none
      | .error e _ => some e) = some (.fault (.internalInvariant .counterRange)) ∧
    faultOf (exec (.process 1) { ported [0x61] with biValid := 17 }) = some (.internalInvariant .counterRange) ∧
    faultOf (exec (.process 1) { ported [0x61] with strstart := 65530, lookahead := 300 }) =
      some (.internalInvariant .windowOverrun) := by decide +kernel
/-- The example of R148. -/
theorem test_sendBits :
    (match sendBits 0b011 3 State.reset with
      | .ok _ t => some (t.biBuf, t.biValid)
      | .error _ _ => none) = some (0x0003, 3) := by decide

/-! ### Witnesses: the hypotheses of the statements can be met -/

theorem witness_DecodeEncodeRoundTrip : (Instr.process LEN_MAX).wellFormed = true ∧
    (Instr.process 2).wellFormed = true ∧ [(1 : Byte), 2].length = (Instr.process 2).payloadLength := by decide
theorem witness_EncodeDecodeRoundTrip : decodeWord 0x2FFFFFFF = .ok (.process LEN_MAX) := by decide
theorem witness_DecodeByMatchAndMask :
    (0x10000001 : Word) &&& 0xFFFFFFFE = 0x10000000 ∧ (0x2FFFFFFF : Word) &&& 0xF0000000 = 0x20000000 ∧
      (0x30000000 : Word) &&& 0xFFFFFFFF = 0x30000000 ∧ (0x40000000 : Word) &&& 0xFFFFFFFF = 0x40000000 ∧
      ((0x10000002 : Word) &&& 0xFFFFFFFE ≠ 0x10000000 ∧ (0x10000002 : Word) &&& 0xF0000000 ≠ 0x20000000 ∧
        (0x10000002 : Word) &&& 0xFFFFFFFF ≠ 0x30000000 ∧ (0x10000002 : Word) &&& 0xFFFFFFFF ≠ 0x40000000) := by decide
theorem witness_CompressExpands : ([] : List Byte).length ≤ LEN_MAX ∧ nine.length ≤ LEN_MAX := by decide
theorem witness_StepRunsDecodedCommand :
    (queued ⟨0x20000009, nine⟩).inputs = .command ⟨0x20000009, nine⟩ :: [] ∧
      decode ⟨0x20000009, nine⟩ = .ok (.process 9) := by decide
theorem witness_IdleStepHoldsState : State.reset.inputs = [] := by decide
/-- One word for each clause: `OPC` 0, 5 and 15, INIT, FINALIZE, STATUS, and a malformed PROCESS. -/
theorem witness_ReservedAndMalformedRefused :
    (queued ⟨0x0FFFFFFF, []⟩).inputs = .command ⟨0x0FFFFFFF, []⟩ :: [] ∧ (0x0FFFFFFF : Word).toNat / 2 ^ 28 = 0 ∧
      5 ≤ (0x50000000 : Word).toNat / 2 ^ 28 ∧ 5 ≤ (0xFFFFFFFF : Word).toNat / 2 ^ 28 ∧
      ((0x10000002 : Word).toNat / 2 ^ 28 = 1 ∧ (0x10000002 : Word).toNat % 2 ^ 28 / 2 ≠ 0) ∧
      ((0x30000001 : Word).toNat / 2 ^ 28 = 3 ∧ (0x30000001 : Word).toNat % 2 ^ 28 ≠ 0) ∧
      ((0x48000000 : Word).toNat / 2 ^ 28 = 4 ∧ (0x48000000 : Word).toNat % 2 ^ 28 ≠ 0) ∧
      ((0x20000002 : Word).toNat / 2 ^ 28 = 2 ∧ nine.length ≠ (0x20000002 : Word).toNat % 2 ^ 28) := by decide
theorem witness_OnlyRejectedCommandsRefused :
    step (queued ⟨0x30000000, nine⟩) = .refused (.rejectedCommand .payloadLength) := by rfl
theorem witness_TableAfterResetAndInit : ∃ t, exec (.init false) waiting = .next t := next_of (by decide)
theorem witness_InitStartsSession : waiting.payload = [] ∧ (control .done true false .streamError).payload = [] := by
  decide
theorem witness_HardwareResetIsInit : ({ waiting with inputs := [.reset] } : State).inputs = .reset :: [] ∧
    (nextOf (exec (.init true) { waiting with inputs := [], payload := [] })).isSome = true := by decide
theorem witness_StatusReturnsWord : (control .finish true true .streamError).payload = [] := by decide
theorem witness_ProcessZeroIsNoOp : ∀ p ∈ [Phase.init, .busy],
    (control p false true .ok).failed = false ∧
      ((control p false true .ok).phase = .init ∨ (control p false true .ok).phase = .busy) ∧
      (control p false true .ok).payload = [] ∧ (control p false true .ok).feed = [] := by decide
theorem witness_InvalidStateChangesResultOnly : ∀ p ∈ [Phase.finish, .done],
    (control p false true .ok).failed = false ∧
      ((control p false true .ok).phase = .finish ∨ (control p false true .ok).phase = .done) ∧
      (control p false true .ok).feed = [] ∧ (control p false true .ok).payload = [] := by decide
theorem witness_CommandsAfterError :
    (control .busy true true .streamError).failed = true ∧ (control .busy true true .streamError).payload = [] := by
  decide
/-- Each command answers a next state: the hypothesis of ResultHoldsReturnedCode, FailedOnlyByStreamError,
PhaseTransitions and OutputIsDelivered. -/
theorem witness_commands_answer :
    (∃ t, exec (.init true) waiting = .next t) ∧ (∃ t, exec (.process 1) (ported [0x61]) = .next t) ∧
      (∃ t, exec .finalize waiting = .next t) ∧ ∃ t, exec .status waiting = .next t :=
  ⟨next_of (by decide), next_of (by decide +kernel), next_of (by decide +kernel), next_of (by decide)⟩
theorem witness_PhaseTransitions_invalidState :
    ∃ t, exec .finalize (control .done false true .ok) = .next t ∧ t.result = .invalidState := ⟨_, rfl, rfl⟩
/-- A StreamError at a header byte, in a block of the session, and in the final block. -/
theorem witness_PhaseTransitions_streamError :
    ((nextOf (exec .finalize { State.reset with sink := [false] })).map fun t => (t.result, t.phase)) =
        some (.streamError, .init) ∧
      ((nextOf (exec (.process 1) { ported [0x61] with sink := [true, false] })).map fun t => (t.result, t.phase)) =
        some (.streamError, .init) ∧
      ((nextOf (exec (.process 1) { ported [0x61] with biValid := 8, sink := [true, true, false] })).map
        fun t => (t.result, t.phase)) = some (.streamError, .busy) ∧
      ((nextOf (exec .finalize { waiting with cfg := { Config.default with litBufsize := 2 }, sink := [false] })).map
        fun t => (t.result, t.phase)) = some (.streamError, .busy) ∧
      ((nextOf (exec .finalize { waiting with sink := [false] })).map fun t => (t.result, t.phase)) =
        some (.streamError, .finish) := by decide +kernel
theorem witness_FramingAndParametersKept :
    (∃ t, exec .status waiting = .next t) ∧ ∀ framing, Instr.status ≠ .init framing := ⟨next_of (by decide), nofun⟩
theorem witness_OutputIsDelivered : step { waiting with inputs := [] } = .next { waiting with inputs := [] } ∧
    ∀ c rest, ({ waiting with inputs := [] } : State).inputs ≠ .command c :: rest := ⟨rfl, nofun⟩
theorem witness_OneSinkAnswerPerByte :
    ((nextOf (exec .finalize { waiting with sink := [true, false, true] })).bind State.response) =
        some ⟨.streamError, none, [0x4B]⟩ ∧
      ((nextOf (exec .finalize { waiting with sink := [true] })).bind State.response).map Response.code = some .ok := by
  decide +kernel
theorem witness_HeaderRefused :
    ({ ported [0x61] with sink := [false] } : State).failed = false ∧
      ({ ported [0x61] with sink := [false] } : State).phase = .init ∧
      ({ ported [0x61] with sink := [false] } : State).framing = true ∧
      ({ ported [0x61] with sink := [false] } : State).feed = [] ∧
      ({ ported [0x61] with sink := [false] } : State).sink = false :: [] ∧
      ({ ported [0x61] with sink := [false] } : State).payload ≠ [] ∧
      ({ ported [] with sink := [true, false] } : State).sink = true :: false :: [] ∧
      ({ ported [] with sink := [true, false] } : State).payload = [] := by decide
/-- The session invariant of a state without an error, from its parts. -/
theorem sessionInv_of {s : State} (h1 : s.ChainsBehind) (h2 : s.MatchHeld) (h3 : s.TallyExact) (h4 : s.BlockCovered)
    (h5 : s.CostsClear) : s.SessionInv := fun _ => ⟨h1, h2, h3, h4, h5⟩

theorem waiting_sessionInv : waiting.SessionInv :=
  sessionInv_of (Laws.chainsBehind_of_empty rfl) (by decide) (by decide +kernel) (by decide +kernel) (by decide)

theorem idle_sessionInv : idle.SessionInv :=
  sessionInv_of (Laws.chainsBehind_of_empty rfl) (by decide) (by decide +kernel) (by decide +kernel) (by decide)

/-- The start of a session: the hypotheses of ProcessCompletes, FinalizeCompletes and SessionOutput. -/
theorem witness_session : idle.Inv ∧ idle.SessionInv ∧ idle.failed = false ∧
    idle.phase.accepts = true ∧ false ∉ idle.sink ∧ idle.sink = [] := ⟨by decide, idle_sessionInv, by decide⟩
/-- The same in BUSY, with bytes waiting. -/
theorem witness_session_busy : waiting.Inv ∧ waiting.SessionInv ∧ waiting.failed = false ∧
    waiting.phase.accepts = true ∧ false ∉ waiting.sink := ⟨by decide, waiting_sessionInv, by decide⟩
/-- A reset core whose unspecified memories hold bytes and positions that no rule gave them (R201): the hypothesis of
InvariantsAtReset and, with `idle`, of SessionOutput and FinalizeEmptySession. -/
theorem witness_Unspecified :
    (∀ s ∈ [State.reset, idle], s.Unspecified
      { s with window := [(7, 0x55)], prev := [(0, 60000), (5, 32768)], tokDist := [(0, 9)], tokLc := [(1, 0xFF)] }) ∧
      idle.Inv ∧ idle.sink = [] := by decide
/-- The same after an INIT command, with a sink that answers: the hypotheses of FinalizeEmptySession. -/
theorem witness_FinalizeEmptySession :
    ((nextOf (exec (.init true) { waiting with sink := [true, true] })).any fun t => decide (false ∉ t.sink ∧
      State.Unspecified { State.fresh Config.default true with sink := [true, true], response := some ⟨.ok, none, []⟩ } t)) =
      true := by decide
/-- The same session over such memories: the same output (R201). -/
theorem test_unspecified_memories : delivered (exec .finalize { waiting with
    prev := [(0, 60000), (1, 60001), (2, 60002), (3, 60003)], tokDist := [(0, 9)], tokLc := [(1, 0xFF)] }) =
      delivered (exec .finalize waiting) := by decide +kernel
/-- The shortest and the longest data. -/
theorem witness_ShortProcessOnlyBuffers : idle.Inv ∧ idle.failed = false ∧
    idle.phase.accepts = true ∧ idle.sink = [] ∧ ([0x61] : List Byte) ≠ [] ∧
    idle.lookahead + ([0x61] : List Byte).length < MIN_LOOKAHEAD ∧
    idle.lookahead + (List.replicate 261 (0x61 : Byte)).length < MIN_LOOKAHEAD ∧
    idle.strstart < W + MAX_DIST := by decide +kernel
theorem witness_ShortChunkJoinsNext :
    idle.Inv ∧ idle.failed = false ∧ idle.phase.accepts = true ∧ idle.sink = [] ∧
      ([0x61] : List Byte) ≠ [] ∧ idle.lookahead + ([0x61] : List Byte).length < MIN_LOOKAHEAD ∧
      idle.strstart < W + MAX_DIST ∧
      ((nextOf (exec (.process 1) (idle.issue [0x61]))).bind fun t =>
        nextOf (exec (.process 1) (t.issue [0x62]))).isSome = true := by decide +kernel
theorem witness_ProcessWindowFrame : (∃ t, exec (.process 1) (ported [0x61]) = .next t) ∧
    (ported [0x61]).window.wf WIN = true ∧ (ported [0x61]).strstart + (ported [0x61]).lookahead + 1 < W + MAX_DIST :=
  ⟨next_of (by decide +kernel), by decide, by decide⟩
theorem witness_FinalizeWindowFrame : (∃ t, exec .finalize waiting = .next t) ∧ waiting.feed = [] ∧
    waiting.strstart + waiting.lookahead < W + MAX_DIST := ⟨next_of (by decide +kernel), by decide, by decide⟩
/-- An idle core with a PROCESS waiting: the hypotheses of StepKeepsInv and StepKeepsSessionInv. -/
def processWaiting : State := { idle with inputs := [.command ⟨0x20000001, [0x61]⟩] }
theorem witness_StepKeepsInv : processWaiting.Inv ∧ processWaiting.SessionInv ∧
    (nextOf (step processWaiting)).isSome = true :=
  ⟨by decide, sessionInv_of (Laws.chainsBehind_of_empty rfl) (by decide) (by decide +kernel) (by decide +kernel) (by decide),
    by decide +kernel⟩
/-- A failed session with a FINALIZE waiting. -/
def failedSession : State := { control .init true true .streamError with inputs := [.command ⟨0x30000000, []⟩] }
theorem witness_OnlyFaultIsCommandAfterError :
    failedSession.Inv ∧ failedSession.SessionInv ∧ step failedSession = .fault .commandAfterError :=
  ⟨by decide, nofun, rfl⟩
theorem witness_InsertStringLinks : idle.CoreOk ∧ waiting.CoreOk ∧ 0 + 2 < WIN ∧ 65533 + 2 < WIN := by decide
theorem witness_SlideMovesWindow :
    ({ State.reset with strstart := 65274, lookahead := 262 } : State).CoreOk ∧
      W + MAX_DIST ≤ ({ State.reset with strstart := 65274, lookahead := 262 } : State).strstart := by decide
theorem witness_FillWindowReadsFeed :
    ({ State.reset with strstart := 65275, lookahead := 261, feed := nine } : State).CoreOk ∧
      ({ State.reset with strstart := 65275, lookahead := 261, feed := nine } : State).lookahead < MIN_LOOKAHEAD := by
  decide
/-- No lookahead, and a byte waiting. -/
theorem witness_FillWindowReadsFeed_empty :
    ({ State.reset with feed := [0x61] } : State).CoreOk ∧ ({ State.reset with feed := [0x61] } : State).lookahead = 0 ∧
      ({ State.reset with feed := [0x61] } : State).lookahead < MIN_LOOKAHEAD := by decide
theorem witness_MatchLenIsLargest : 3 ≤ ({ waiting with strstart := 6, lookahead := 3 } : State).strstart ∧
    ({ waiting with strstart := 6, lookahead := 3 } : State).strstart +
      ({ waiting with strstart := 6, lookahead := 3 } : State).lookahead ≤ WIN := by decide
/-- A chain of three candidates in a window of equal bytes; each offers the 3 bytes of lookahead. -/
def threeCandidates : State := { State.reset with strstart := 6, lookahead := 3, prev := [(4, 3), (5, 4)] }
theorem witness_LongestMatchIsReal :
    threeCandidates.strstart + threeCandidates.lookahead ≤ WIN ∧
      (∀ c ∈ threeCandidates.candidates 5, c < threeCandidates.strstart) ∧
      5 < threeCandidates.strstart ∧ threeCandidates.strstart - 5 ≤ MAX_DIST ∧
      threeCandidates.candidates 5 = [5, 4, 3] := by decide +kernel
/-- The most recent of equals is taken (R108, R111). -/
theorem test_longestMatch_takes_nearest :
    (match longestMatch 5 threeCandidates with
      | .ok n t => decide (n = 3 ∧ t.matchStart = 5)
      | .error _ _ => false) = true := by decide +kernel
theorem witness_EvaluatePositionDefers : waiting.CoreOk ∧ waiting.ChainsBehind ∧ waiting.MatchHeld ∧
    1 ≤ waiting.lookahead := ⟨by decide, Laws.chainsBehind_of_empty rfl, by decide⟩
/-- A match of length 4 at distance 3 is held for position 3 of "abcabcabc" (R120), and position 4 has the same offer. -/
def deferred : State := { waiting with
  strstart := 4, lookahead := 5, matchAvailable := true, prevLength := 4, prevMatch := 0, matchLength := 4 }
/-- Behind the greatest distance, with 257 bytes of lookahead. -/
def deferredFar : State := { waiting with
  strstart := 32507, lookahead := 257, matchAvailable := true, prevLength := 258, prevMatch := 0, matchLength := 258 }
/-- R116, with the least and the greatest length and distance. -/
theorem witness_EvaluatePositionDefers_match :
    (∀ s ∈ [{ deferred with prevLength := 3, prevMatch := 2, matchLength := 2, lookahead := 2 }, deferred, deferredFar],
      s.CoreOk ∧ s.lastLit < s.cfg.tokenLimit ∧ 1 ≤ s.lookahead ∧ MIN_MATCH ≤ s.prevLength ∧
        s.matchLength ≤ s.prevLength ∧ s.prevLength ≤ s.lookahead + 1 ∧ 1 ≤ (s.strstart : Int) - 1 - s.prevMatch ∧
        (s.strstart : Int) - 1 - s.prevMatch ≤ MAX_DIST) ∧
      deferred.TallyExact ∧ deferredFar.TallyExact ∧
      ({ deferred with prevLength := 3, prevMatch := 2, matchLength := 2, lookahead := 2 } : State).TallyExact := by
  decide +kernel
/-- R115 and R117: a longer match at `strstart`, with and without an undecided byte. -/
theorem witness_EvaluatePositionDefers_literal :
    ({ deferred with matchLength := 5 } : State).CoreOk ∧ ({ deferred with matchLength := 5 } : State).TallyExact ∧
      ¬ (MIN_MATCH ≤ ({ deferred with matchLength := 5 } : State).prevLength ∧
        ({ deferred with matchLength := 5 } : State).matchLength ≤ ({ deferred with matchLength := 5 } : State).prevLength) ∧
      ({ deferred with matchLength := 5 } : State).matchAvailable = true ∧
      1 ≤ ({ deferred with matchLength := 5 } : State).strstart ∧
      waiting.TallyExact ∧ waiting.lastLit < waiting.cfg.tokenLimit ∧ 1 ≤ waiting.lookahead ∧
      ¬ (MIN_MATCH ≤ waiting.prevLength ∧ waiting.matchLength ≤ waiting.prevLength) ∧
      waiting.matchAvailable = false := by decide +kernel
/-- R115 and R116 with a token that fills the block: `LIT_BUFSIZE = 2`. -/
theorem witness_EvaluatePositionDefers_full :
    (match emitPosition { deferred with cfg := { deferred.cfg with litBufsize := 2 } } with
      | .ok _ t => decide (t.lastLit = 0 ∧ t.strstart = 7 ∧ t.blockStart = 7)
      | .error _ _ => false) = true ∧
      (match emitPosition { deferred with matchLength := 5, cfg := { deferred.cfg with litBufsize := 2 } } with
      | .ok _ t => decide (t.lastLit = 0 ∧ t.strstart = 5 ∧ t.blockStart = 4)
      | .error _ _ => false) = true := by decide +kernel
/-- R118, with and without an undecided byte. -/
theorem witness_EvaluatePositionDefers_drain : deferred.CoreOk ∧ deferred.TallyExact ∧
    deferred.lastLit < deferred.cfg.tokenLimit ∧ deferred.matchAvailable = true ∧ 1 ≤ deferred.strstart ∧
    waiting.CoreOk ∧ waiting.TallyExact ∧ waiting.lastLit < waiting.cfg.tokenLimit ∧ waiting.matchAvailable = false := by
  decide +kernel
theorem witness_TallyAppendsToken : waiting.CoreOk ∧ waiting.lastLit < waiting.cfg.tokenLimit ∧ 1 ≤ 1 ∧
    1 ≤ MAX_DIST ∧ MAX_DIST ≤ MAX_DIST ∧ 0 ≤ 255 ∧ 255 ≤ 255 ∧ (waiting.dynLfreq.read 0x61).toNat < 65535 ∧
    (waiting.dynLfreq.read (lengthCode (255 + 3))).toNat < 65535 ∧
    (waiting.dynDfreq.read (distCode MAX_DIST)).toNat < 65535 := by decide
/-- The counters at their limit. -/
theorem witness_TallyAppendsToken_full :
    ({ waiting with dynLfreq := [(0x61, 0xFFFF)], dynDfreq := [(0, 0xFFFF)] } : State).CoreOk ∧
      (Memory.read ([(0x61, 0xFFFF)] : Memory 16) 0x61).toNat = 65535 ∧
      (Memory.read ([(0, 0xFFFF)] : Memory 16) (distCode 1)).toNat = 65535 := by decide
theorem witness_TallyIdentities : waiting.Inv ∧ waiting.SessionInv ∧ waiting.failed = false :=
  ⟨by decide, waiting_sessionInv, by decide⟩
/-- The boundary values of the two ranges. -/
theorem witness_codes : (3 ≤ 3 ∧ 3 ≤ 257) ∧ (3 ≤ 257 ∧ 257 ≤ 257) ∧ (1 ≤ 1 ∧ 1 ≤ 32768) ∧ (1 ≤ 32768 ∧ 32768 ≤ 32768) ∧
    lengthBase 27 ≤ 257 ∧ distBase 29 ≤ 32768 := by decide
/-- Leaves that tie in frequency. -/
theorem witness_MergeJoinsLeast : ([⟨0, 1, 0⟩, ⟨2, 1, 0⟩, ⟨29, 1, 0⟩] : List Node) ≠ [] ∧
    (([⟨0, 1, 0⟩, ⟨2, 1, 0⟩, ⟨29, 1, 0⟩] : List Node).map Node.idx).Nodup ∧
    ∀ a ∈ ([⟨0, 1, 0⟩, ⟨2, 1, 0⟩, ⟨29, 1, 0⟩] : List Node), a.idx < TreeKind.dist.elems := by decide
/-- H7 of 95_test_vectors.md: no symbol lies deeper than the cap, and symbol 0 is more frequent than symbol 1. -/
theorem witness_LengthsFollowMerge :
    (builtTree .docOrder .dist [(0, 5), (1, 1), (2, 1), (3, 2)]).isSome = true ∧
      2 ≤ (leavesOf .dist [(0, 5), (1, 1), (2, 1), (3, 2)]).length ∧
      (∀ n < TreeKind.dist.elems, Memory.read ([(0, 5), (1, 1), (2, 1), (3, 2)] : Memory 16) n ≠ 0 →
        stepsToRoot (merge .docOrder .dist (leavesOf .dist [(0, 5), (1, 1), (2, 1), (3, 2)])).parents 30 n ≤ 15) ∧
      (Memory.read ([(0, 5), (1, 1), (2, 1), (3, 2)] : Memory 16) 1).toNat <
        (Memory.read ([(0, 5), (1, 1), (2, 1), (3, 2)] : Memory 16) 0).toNat := by decide +kernel
theorem witness_BuildTreeLengths :
    2 ≤ (List.range TreeKind.dist.elems).countP
        (fun n => decide (Memory.read ([(0, 1), (2, 1)] : Memory 16) n ≠ 0)) ∧
      Memory.read ([(0, 1), (2, 1)] : Memory 16) 1 = 0 ∧ Memory.read ([(256, 1)] : Memory 16) 256 ≠ 0 := by decide
/-- The hypotheses of BuildTreeKraftEquality and BuildTreePrefixFree, with two used symbols. -/
theorem witness_BuildTree : ((builtTree .zlibHeap .dist [(0, 1), (2, 1)]).map fun t => t.lens.take 3) = some [1, 0, 1] := by
  decide +kernel
theorem witness_RunLengthsDescribeTree : (∀ l ∈ [0, 15, 15], l ≤ 15) ∧ 0 < [0, 15, 15].length ∧ 2 < [0, 15, 15].length := by
  decide
theorem witness_PackerKeepsBitStream : (1 ≤ 16 ∧ 16 ≤ 16 ∧ 65535 < 2 ^ 16) ∧
    ({ State.reset with biValid := 16, biBuf := 0xFFFF } : State).PackerOk ∧ State.reset.PackerOk ∧
    State.reset.sink = [] ∧ ¬ (1 ≤ 17 ∧ 17 ≤ 16 ∧ 0 < 2 ^ 17) ∧
    ({ State.reset with biValid := 9, biBuf := 0x1FF } : State).PackerOk := by decide
theorem witness_StoredBlockLayout : State.reset.PackerOk ∧ State.reset.sink = [] ∧ 65535 ≤ 65535 ∧ 1 + 65535 ≤ WIN := by
  decide
/-- A block with one literal, coded with the static trees. -/
theorem witness_CompressBlockSendsTokens :
    (State.reset.tallyLiteral 0x61).PackerOk ∧ (State.reset.tallyLiteral 0x61).sink = [] ∧
      (∀ n, staticLitLens.getD n 0 ≤ 15 ∧ staticLitCodes.getD n 0 < 2 ^ staticLitLens.getD n 0) ∧
      (∀ n, staticDistLens.getD n 0 ≤ 15 ∧ staticDistCodes.getD n 0 < 2 ^ staticDistLens.getD n 0) ∧
      1 ≤ staticLitLens.getD END_BLOCK 0 ∧
      ∀ i < (State.reset.tallyLiteral 0x61).lastLit, (State.reset.tallyLiteral 0x61).tokDist.read i = 0 ∧
        1 ≤ staticLitLens.getD ((State.reset.tallyLiteral 0x61).tokLc.read i).toNat 0 :=
  ⟨by decide, by decide, Laws.codesOk_staticLit, Laws.codesOk_staticDist, by decide +kernel, by decide +kernel⟩
theorem witness_FlushBlockStartsNextBlock :
    (match flushBlock true idle with
      | .ok _ _ => true
      | .error _ _ => false) = true ∧
      idle.CoreOk ∧ idle.TallyExact ∧ idle.CostsClear ∧
      idle.blockStart ≤ idle.strstart ∧ idle.sink = [] := by decide +kernel
/-- A block under way: the hypotheses of FlushBlockSendsChosenForm. -/
theorem witness_FlushBlockSendsChosenForm :
    (idle.tallyLiteral 0x61).CoreOk ∧ (idle.tallyLiteral 0x61).TallyExact ∧ (idle.tallyLiteral 0x61).CostsClear ∧
      (idle.tallyLiteral 0x61).blockStart ≤ (idle.tallyLiteral 0x61).strstart ∧ (idle.tallyLiteral 0x61).sink = [] := by
  decide +kernel

end Sys2Proof.Tests
end

section
/-!
PROOFS. The tally (spec/43_tally.md R121 to R125): what `TallyLiteral` and `TallyDistance` answer from a state with room
for a token, and what they write.
-/

namespace Sys2Proof.Proofs

open Sys2Proof.Machine Sys2Proof.Laws

variable {s : State}

/-! ### What a run answers -/

theorem get_bind_run {α : Type} (f : State → M α) (s : State) : (get >>= f) s = f s s := rfl

/-- A condition in front of a program: the program runs if the condition holds, and the run faults if not. -/
theorem require_bind_run {α : Type} (ok : Bool) (c : InternalCondition) (f : Unit → M α) (s : State) :
    (require ok c >>= f) s = if ok then f () s else .error (.fault (.internalInvariant c)) s := by
  cases ok <;> rfl

/-- With room for a token, `TallyLiteral` depends on the literal's counter alone (R9, R123). -/
theorem tallyLiteral_run (hroom : s.lastLit < s.cfg.tokenLimit) (c : Byte) :
    tallyLiteral c s = if countFits s.dynLfreq c.toNat 1 then .ok (blockFull (s.tallyLiteral c)) (s.tallyLiteral c)
      else .error (.fault (.internalInvariant .counterRange)) s := by
  have hr : tallyRoom s = true := decide_eq_true hroom
  rw [Sys2Proof.Machine.tallyLiteral, get_bind_run, require_bind_run, if_pos hr, require_bind_run]
  rfl

/-- With room for a token and operands in range, `TallyDistance` depends on the two counters alone (R9, R124). -/
theorem tallyDistance_run (hroom : s.lastLit < s.cfg.tokenLimit) {d lc : Nat} (hd1 : 1 ≤ d) (hd2 : d ≤ MAX_DIST)
    (hlc : lc ≤ 255) :
    tallyDistance d lc s = if matchFits s d lc then .ok (blockFull (s.tallyDistance d lc)) (s.tallyDistance d lc)
      else .error (.fault (.internalInvariant .counterRange)) s := by
  have ho : tallyOperandOk d lc = true := by
    simp only [tallyOperandOk, Bool.and_eq_true, decide_eq_true_eq]
    omega
  have hr : tallyRoom s = true := decide_eq_true hroom
  rw [Sys2Proof.Machine.tallyDistance, get_bind_run, require_bind_run, if_pos ho, require_bind_run, if_pos hr,
    require_bind_run]
  rfl

/-- A counter has room for one more occurrence exactly below its 16-bit limit (R9). -/
theorem countFits_one_iff {freq : Memory 16} {n : Nat} :
    countFits freq n 1 = true ↔ (freq.read n).toNat < 65535 := by
  rw [countFits, decide_eq_true_eq]
  omega

theorem matchFits_iff {d lc : Nat} :
    matchFits s d lc = true ↔
      (s.dynLfreq.read (lengthCode (lc + 3))).toNat < 65535 ∧ (s.dynDfreq.read (distCode d)).toNat < 65535 := by
  rw [matchFits, Bool.and_eq_true, countFits_one_iff, countFits_one_iff]
  rfl

/-! ### What is written -/

/-- The token stands at index `last_lit`; the other entries of the two buffers stay (R122). -/
theorem pushToken_slots (h : TokenRoom s) (d : Half) (x : Byte) :
    (s.pushToken d x).tokDist.read s.lastLit = d ∧ (s.pushToken d x).tokLc.read s.lastLit = x ∧
      ∀ i, i ≠ s.lastLit → (s.pushToken d x).tokDist.read i = s.tokDist.read i ∧
        (s.pushToken d x).tokLc.read i = s.tokLc.read i := by
  refine ⟨?_, ?_, fun i hi => ⟨?_, ?_⟩⟩
  · rw [pushToken_dist h, if_pos rfl]
  · rw [pushToken_lc h, if_pos rfl]
  · rw [pushToken_dist h, if_neg hi]
  · rw [pushToken_lc h, if_neg hi]

/-- A counter below its limit is raised by 1 and no other counter changes. -/
theorem bump_read_of_fits {size : Nat} {m : Memory 16} (hm : m.wf size = true) {n : Nat}
    (hn : (m.read n).toNat < 65535) (i : Nat) :
    ((bump m n).read i).toNat = (m.read i).toNat + if i = n then 1 else 0 := by
  by_cases hi : i = n
  · subst hi
    rw [bump_read hm i i (by omega)]
  · rw [bump, read_write hm, if_neg hi, if_neg hi, Nat.add_zero]

/-- A literal's tally: the token `(0, c)`, and symbol `c` counted once (R123). -/
theorem tallyLiteral_appends (h : s.CoreOk) (hroom : s.lastLit < s.cfg.tokenLimit) {c : Byte}
    (hc : (s.dynLfreq.read c.toNat).toNat < 65535) :
    (s.tallyLiteral c).tokDist.read s.lastLit = 0 ∧ (s.tallyLiteral c).tokLc.read s.lastLit = c ∧
      (∀ i, i ≠ s.lastLit → (s.tallyLiteral c).tokDist.read i = s.tokDist.read i ∧
        (s.tallyLiteral c).tokLc.read i = s.tokLc.read i) ∧
      ∀ n, ((s.tallyLiteral c).dynLfreq.read n).toNat = (s.dynLfreq.read n).toNat + if n = c.toNat then 1 else 0 := by
  obtain ⟨hdist, hlc, hrest⟩ := pushToken_slots (tokenRoom h hroom) 0 c
  obtain ⟨-, ⟨-, -, -, -, -, hfreq, -⟩, -⟩ := h
  exact ⟨hdist, hlc, hrest, bump_read_of_fits hfreq hc⟩

/-- A match's tally: the token `(d, lc)`, and its length symbol and its distance symbol counted once each (R124). -/
theorem tallyDistance_appends (h : s.CoreOk) (hroom : s.lastLit < s.cfg.tokenLimit) {d lc : Nat} (hd : d ≤ MAX_DIST)
    (hlc : lc ≤ 255) (hl : (s.dynLfreq.read (lengthCode (lc + 3))).toNat < 65535)
    (hc : (s.dynDfreq.read (distCode d)).toNat < 65535) :
    ((s.tallyDistance d lc).tokDist.read s.lastLit).toNat = d ∧
      ((s.tallyDistance d lc).tokLc.read s.lastLit).toNat = lc ∧
      (∀ i, i ≠ s.lastLit → (s.tallyDistance d lc).tokDist.read i = s.tokDist.read i ∧
        (s.tallyDistance d lc).tokLc.read i = s.tokLc.read i) ∧
      (∀ n, ((s.tallyDistance d lc).dynLfreq.read n).toNat =
        (s.dynLfreq.read n).toNat + if n = lengthCode (lc + 3) then 1 else 0) ∧
      ∀ n, ((s.tallyDistance d lc).dynDfreq.read n).toNat =
        (s.dynDfreq.read n).toNat + if n = distCode d then 1 else 0 := by
  obtain ⟨hdist, hlen, hrest⟩ := pushToken_slots (tokenRoom h hroom) (BitVec.ofNat 16 d) (BitVec.ofNat 8 lc)
  obtain ⟨-, ⟨-, -, -, -, -, hlfreq, hdfreq, -⟩, -⟩ := h
  have hmax : MAX_DIST < 2 ^ 16 := by decide
  have hd16 : (BitVec.ofNat 16 d).toNat = d := by rw [BitVec.toNat_ofNat, Nat.mod_eq_of_lt (by omega)]
  have hlc8 : (BitVec.ofNat 8 lc).toNat = lc := by rw [BitVec.toNat_ofNat, Nat.mod_eq_of_lt (by omega)]
  exact ⟨(congrArg BitVec.toNat hdist).trans hd16, (congrArg BitVec.toNat hlen).trans hlc8, hrest,
    bump_read_of_fits hlfreq hl, bump_read_of_fits hdfreq hc⟩

/-! ### The obligation -/

/-- Settles O46: the run of either tally is known from its counters, and what it writes is a token at `last_lit` and one
more occurrence of each of its symbols. -/
theorem tallyAppendsToken : Obligations.TallyAppendsToken := by
  unfold Obligations.TallyAppendsToken
  intro s h hroom
  refine ⟨fun c => ⟨fun hc => ⟨s.tallyLiteral c, ?_, rfl, tallyLiteral_appends h hroom hc⟩, fun hc => ?_⟩,
    fun d lc hd1 hd2 hlc => ⟨fun hl hd => ⟨s.tallyDistance d lc, ?_, rfl, tallyDistance_appends h hroom hd2 hlc hl hd⟩,
      fun hfull => ?_⟩⟩
  · rw [tallyLiteral_run hroom, if_pos (countFits_one_iff.mpr hc)]
    rfl
  · rw [tallyLiteral_run hroom, if_neg (by rw [countFits_one_iff]; omega)]
  · rw [tallyDistance_run hroom hd1 hd2 hlc, if_pos (matchFits_iff.mpr ⟨hl, hd⟩)]
    rfl
  · rw [tallyDistance_run hroom hd1 hd2 hlc, if_neg (by rw [matchFits_iff]; omega)]

end Sys2Proof.Proofs
end

section
/-!
PROOFS. Reset and INIT (spec/10_state.md R41, spec/46_control.md R170), the end of a command by `raise`
(spec/60_exceptions.md R183), and the invariant as a property of every step.
-/

namespace Sys2Proof.Proofs

open Sys2Proof.Machine Sys2Proof.Laws

variable {s t : State}

/-! ### The table of R41 -/

/-- A core that has been reset stands at the table of R41. -/
theorem fresh_atStart (c : Config) (framing : Bool) : (State.fresh c framing).AtStart framing := by
  refine ⟨rfl, rfl, rfl, rfl, rfl, rfl, rfl, rfl, rfl, rfl, rfl, rfl, rfl, rfl, rfl, rfl, rfl, rfl, rfl, rfl,
    fun n _ => ?_, fun _ _ => rfl, fun _ _ => rfl, fun _ _ => rfl⟩
  rw [fresh_dynLfreq, read_cons]
  rfl

/-- INIT answers the state of `State.restarted`, completed with OK (R170). -/
theorem execInit_next {framing : Bool} (h : execInit framing s = .next t) :
    t = (s.restarted framing).complete s.out .ok := by
  unfold execInit runCommand at h
  split at h
  · cases h
    rfl
  · cases h

/-- Settles O10: INIT and reset both write the state of `State.fresh`, and what INIT keeps of the host's side is no
element of R41. -/
theorem tableAfterResetAndInit : Obligations.TableAfterResetAndInit := by
  unfold Obligations.TableAfterResetAndInit
  refine ⟨fresh_atStart _ _, fun s t framing h => ?_⟩
  rw [execInit_next h]
  exact fresh_atStart s.cfg framing

/-! ### Raising an error -/

theorem setsFailed_eq_decide (e : ResultCode) :
    e.setsFailed = decide (e = .streamError ∨ e = .outOfMemory) := by
  cases e <;> rfl

/-- A program that raises ends the command with its code; what was delivered before stays delivered (R183). -/
theorem runCommand_raise (e : ResultCode) (s : State) :
    runCommand s.payload.length (raise e) s = .next ((s.raiseError e).complete s.out e) := by
  unfold runCommand
  rw [if_pos rfl]
  rfl

/-- Settles O18: `raise` stops with `State.raiseError`, a program after it does not run, and the command completes. -/
theorem raiseEndsCommand : Obligations.RaiseEndsCommand := by
  unfold Obligations.RaiseEndsCommand
  intro e s
  rw [← setsFailed_eq_decide]
  refine ⟨rfl, fun _ => rfl, ?_⟩
  rw [runCommand_raise, State.complete, raiseError_out, List.drop_length]
  rfl

/-! ### The invariants -/

/-- Settles O34: what the invariants say of the unspecified memories is that they are canonical, and the rest of the state
is the reset state. -/
theorem invariantsAtReset : Obligations.InvariantsAtReset := by
  unfold Obligations.InvariantsAtReset
  intro s hu
  have hcfg : Config.default.ok = true := by decide
  refine ⟨⟨coreOk_start hcfg hu, ?_, ?_⟩, fun _ => settled_start hu⟩
  · rw [hu.2]
    exact ⟨rfl, rfl⟩
  · rw [hu.2]
    exact control_fresh hcfg Config.default.resetFraming

/-- Every command keeps the invariant (R37, R40). -/
theorem inv_exec {i : Instr} (h : Issued s) (hn : exec i s = .next t) : t.Inv := by
  cases i with
  | init framing => exact (inv_execInit h hn).1
  | process len => exact (inv_execProcess h hn).1
  | finalize => exact (inv_execFinalize h hn).1
  | status => exact (inv_execStatus h hn).1

/-- What a step can be (R166): idle, a hardware reset, or a command that decodes. -/
theorem step_next (hn : step s = .next t) :
    t = s ∨ (∃ rest, s.inputs = .reset :: rest ∧ t = (s.issue []).hardwareReset) ∨
      ∃ c rest i, s.inputs = .command c :: rest ∧ decode c = .ok i ∧ exec i (s.issue c.data) = .next t := by
  unfold step at hn
  split at hn
  case h_1 => cases hn; exact .inl rfl
  case h_2 rest hq => cases hn; exact .inr (.inl ⟨rest, hq, rfl⟩)
  case h_3 c rest hq =>
    split at hn
    case h_1 => cases hn
    case h_2 i hd => exact .inr (.inr ⟨c, rest, i, hq, hd, hn⟩)

/-- Settles O35, by cases on what the step does. -/
theorem stepKeepsInv : Obligations.StepKeepsInv := by
  unfold Obligations.StepKeepsInv
  intro s t h hn
  obtain rfl | ⟨rest, -, rfl⟩ | ⟨c, rest, i, -, -, he⟩ := step_next hn
  · exact h
  · exact (inv_hardwareReset (s := s.issue []) h.1).1
  · exact inv_exec (issued_issue h c.data) he

end Sys2Proof.Proofs
end

section
/-!
PROOFS. What a command's operations do from any state, in a session or not: those before a flush raise nothing, and they
take bytes off the feed only by way of the checksum (spec/40_window.md R96, R98); a byte refused inside a block leaves
everything as it was but the emitter's own fields.
-/

namespace Sys2Proof.Proofs

open Sys2Proof.Machine Sys2Proof.Laws

variable {α β : Type}

/-! ### Operations that offer no byte -/

/-- The checksum that the core will have once the rest of the feed has been read (R98). -/
def feedSum (s : State) : Half × Half := adlerOver (s.adlerA, s.adlerB) s.feed

/-- `m` raises nothing, and a byte it takes off the feed enters the checksum. -/
def Silent (m : M α) : Prop := ∀ s, wp m (fun _ t => feedSum t = feedSum s) (fun _ _ => False) True s

theorem wp_true (m : M α) (s : State) : wp m (fun _ _ => True) (fun _ _ => True) True s := by
  unfold wp
  split <;> trivial

theorem silent_bind {m : M α} {f : α → M β} (hm : Silent m) (hf : ∀ a, Silent (f a)) : Silent (m >>= f) := fun s =>
  (wp_bind m f _).mpr (wp_imp (hm s) fun a t ht => wp_imp (hf a t) fun _ _ hu => hu.trans ht)

theorem silent_get_bind {f : State → M β} (hf : ∀ s, Silent (f s)) : Silent (get >>= f) := fun s => by
  rw [wp_bind, wp_get]
  exact hf s s

theorem silent_pure (a : α) : Silent (pure a : M α) := fun _ => (wp_pure a).mpr rfl

theorem silent_ite {c : Prop} [Decidable c] {m n : M α} (hm : Silent m) (hn : Silent n) :
    Silent (if c then m else n) := by split <;> assumption

theorem silent_doIf (c : Bool) {m : M Unit} (hm : Silent m) : Silent (doIf c m) := silent_ite hm (silent_pure _)

theorem silent_internalFault (c : InternalCondition) : Silent (internalFault c : M α) := fun _ =>
  (wp_internalFault c).mpr trivial

theorem silent_require (ok : Bool) (c : InternalCondition) : Silent (require ok c) := fun _ =>
  (wp_require ok c _).mpr ⟨fun _ => rfl, fun _ => trivial⟩

theorem silent_readWindow (p : Int) : Silent (readWindow p) := fun _ =>
  (wp_readWindow p _).mpr ⟨fun _ => rfl, fun _ => trivial⟩

/-- Each byte of the feed that goes into the window goes through AdlerUpdate (R96). -/
theorem silent_readBytes (p n : Nat) : Silent (readBytes p n) := by
  intro s
  induction n generalizing p s with
  | zero => exact (wp_pure _).mpr rfl
  | succ n ih =>
    rw [readBytes, wp_bind]
    refine wp_inRead _ (fun b rest hf => ?_) fun _ => trivial
    rw [wp_bind, wp_writeWindow]
    refine ⟨fun _ => ?_, fun _ => trivial⟩
    rw [wp_bind, wp_adlerUpdate]
    refine wp_imp (ih (p + 1) _) fun _ t ht => ht.trans ?_
    unfold feedSum
    rw [hf]
    rfl

theorem silent_reseedHash : Silent reseedHash :=
  silent_get_bind fun _ => silent_ite
    (silent_bind (silent_readWindow _) fun _ => silent_bind (silent_readWindow _) fun _ _ => (wp_setHash _ _).mpr rfl)
    (silent_pure _)

theorem silent_fillPass : Silent fillPass :=
  silent_get_bind fun _ => silent_bind (silent_require _ _) fun _ =>
    silent_bind (silent_doIf _ fun _ => (wp_slide _).mpr rfl) fun _ => silent_get_bind fun _ =>
      silent_ite (silent_pure _) <|
        silent_bind (silent_get_bind fun _ => silent_bind (silent_readBytes _ _) fun _ => silent_pure _) fun _ =>
          silent_bind (fun _ => (wp_growLookahead _ _).mpr rfl) fun _ => silent_bind silent_reseedHash fun _ =>
            silent_get_bind fun _ => silent_pure _

theorem silent_fillLoop (fuel : Nat) : Silent (fillLoop fuel) := by
  induction fuel with
  | zero => exact silent_internalFault _
  | succ fuel ih => exact silent_bind silent_fillPass fun _ => silent_ite ih (silent_pure _)

theorem silent_fillWindow : Silent fillWindow := silent_get_bind fun _ => silent_fillLoop _

theorem silent_loopTop (finish : Bool) : Silent (loopTop finish) :=
  silent_get_bind fun _ => silent_bind (silent_require _ _) fun _ =>
    silent_ite (silent_bind silent_fillWindow fun _ => silent_get_bind fun _ =>
      silent_ite (silent_pure _) (silent_ite (silent_pure _) (silent_pure _))) (silent_pure _)

theorem silent_insertString (p : Nat) : Silent (insertString p) := fun _ =>
  (wp_insertString p _).mpr ⟨fun _ => rfl, fun _ => trivial⟩

theorem silent_longestMatch (c : Nat) : Silent (longestMatch c) := fun s =>
  wp_imp (wp_longestMatch c s) fun _ t ⟨ht, _⟩ => by rw [ht]; rfl

theorem silent_setMatchLength (n : Nat) : Silent (setMatchLength n) := fun _ => (wp_setMatchLength n _).mpr rfl

theorem silent_evaluatePosition : Silent evaluatePosition :=
  silent_bind (silent_get_bind fun _ => silent_ite (silent_insertString _) (silent_pure _)) fun _ =>
    silent_bind (fun _ => (wp_deferMatch _).mpr rfl) fun _ => silent_get_bind fun _ =>
      silent_ite (silent_bind (silent_longestMatch _) fun _ => silent_bind (silent_setMatchLength _) fun _ =>
        silent_get_bind fun _ => silent_doIf _ (silent_setMatchLength _)) (silent_pure _)

theorem silent_advance : Silent advance := fun _ => (wp_advance _).mpr ⟨fun _ => rfl, fun _ => trivial⟩

theorem silent_deferByte : Silent deferByte :=
  silent_bind (fun _ => (wp_modify _ _).mpr rfl) fun _ => silent_advance

/-! ### Where the loop may leave -/

/-- FillWindow stops short of `MIN_LOOKAHEAD` only for want of input (R97). -/
theorem fillPass_stop (s : State) :
    wp fillPass (fun again t => again = false → t.lookahead < MIN_LOOKAHEAD → t.feed = []) (fun _ _ => True) True s := by
  rw [fillPass, wp_bind, wp_get, wp_bind]
  refine wp_imp (wp_true _ s) fun _ v _ => ?_
  rw [wp_bind]
  refine wp_imp (wp_true _ v) fun _ w _ => ?_
  rw [wp_bind, wp_get, wp_ite, wp_pure]
  refine ⟨fun hf _ _ => hf, fun _ => ?_⟩
  rw [wp_bind]
  refine wp_imp (wp_true _ w) fun n x _ => ?_
  rw [wp_bind, wp_growLookahead, wp_bind]
  refine wp_imp (wp_true _ _) fun _ y _ => ?_
  rw [wp_bind, wp_get, wp_pure]
  intro hstop hlook
  by_contra hfeed
  rw [decide_eq_true hlook, decide_eq_true hfeed] at hstop
  cases hstop

theorem fillWindow_stop (s : State) :
    wp fillWindow (fun _ t => t.lookahead < MIN_LOOKAHEAD → t.feed = []) (fun _ _ => True) True s := by
  rw [fillWindow, wp_bind, wp_get]
  generalize s.feed.length + 1 = fuel
  induction fuel generalizing s with
  | zero => exact (wp_internalFault _).mpr trivial
  | succ fuel ih =>
    rw [fillLoop, wp_bind]
    refine wp_imp (fillPass_stop s) fun again t ht => (wp_ite _ _).mpr ⟨fun _ => ih t, fun ha => ?_⟩
    exact (wp_pure _).mpr (ht (Bool.eq_false_iff.mpr ha))

/-- The two ways out of the loop (R113): PROCESS leaves it when the feed is used up, and FINALIZE with no lookahead. -/
theorem loopTop_exit (finish : Bool) (s : State) :
    wp (loopTop finish) (fun top t =>
        match top with
        | .needsInput => finish = false ∧ t.feed = []
        | .consumed => finish = true ∧ t.lookahead = 0
        | .position => True)
      (fun _ _ => True) True s := by
  rw [loopTop, wp_bind, wp_get, wp_bind]
  refine wp_imp (wp_true _ s) fun _ v _ => (wp_ite _ _).mpr ⟨fun _ => ?_, fun _ => (wp_pure _).mpr trivial⟩
  rw [wp_bind]
  refine wp_imp (fillWindow_stop v) fun _ t ht => ?_
  rw [wp_bind, wp_get, wp_ite, wp_ite, wp_pure, wp_pure, wp_pure]
  refine ⟨fun hn => ⟨hn.2, ht hn.1⟩, fun hn => ⟨fun h0 => ⟨?_, h0⟩, fun _ => trivial⟩⟩
  have hpos : 0 < MIN_LOOKAHEAD := by decide
  exact Bool.eq_true_of_not_eq_false fun hf => hn ⟨by omega, hf⟩

end Sys2Proof.Proofs
end

section
/-!
PROOFS. FlushBlock (spec/45_emitter.md R160): what a sent block leaves, and what a byte refused inside it leaves
(spec/60_exceptions.md R183, R185).
-/

namespace Sys2Proof.Proofs

open Sys2Proof.Machine Sys2Proof.Laws

variable {s t u : State}

/-! ### The emitter up to a refused byte -/

/-- `t` differs from `s` in what offering bytes writes alone: the accumulator, the output stream, the sink's answers, and
at a refusal `FAILED` and `RESULT`. -/
def OnlySent (s t : State) : Prop :=
  t = { s with
    biBuf := t.biBuf, biValid := t.biValid, out := t.out, sink := t.sink, failed := t.failed, result := t.result }

theorem sent_outByte (b : Byte) : Keeps (OnlySent s) (outByte b) := fun t h => by
  refine wp_outByte b _ (fun _ => ?_) fun _ => ?_ <;> (unfold OnlySent; rw [h])

theorem sent_putShortLE (w : Half) : Keeps (OnlySent s) (putShortLE w) :=
  keeps_bind (sent_outByte _) fun _ => sent_outByte _

/-- Writing the accumulator registers. -/
theorem onlySent_packer (h : OnlySent s t) (b : Half) (n : Nat) :
    OnlySent s { t with biBuf := b, biValid := n } := by
  unfold OnlySent
  rw [h]

theorem sent_sendBits (value length : Nat) : Keeps (OnlySent s) (sendBits value length) :=
  keeps_bind (keeps_require _ _) fun _ => keeps_bind keeps_checkPacker fun _ => keeps_get_bind fun _ h =>
    (wp_ite _ _).mpr
      ⟨fun _ => keeps_bind (sent_putShortLE _) (fun _ => keeps_modify fun _ h => onlySent_packer h _ _) _ h,
        fun _ => (wp_set _ _).mpr (onlySent_packer h _ _)⟩

theorem sent_sendCode (lens codes : List Nat) (symbol : Nat) : Keeps (OnlySent s) (sendCode lens codes symbol) :=
  keeps_bind (keeps_require _ _) fun _ => sent_sendBits _ _

theorem sent_align : Keeps (OnlySent s) align :=
  keeps_bind (keeps_bind keeps_checkPacker fun _ => keeps_get_bind fun t h =>
      keeps_ite (sent_putShortLE _) (keeps_ite (sent_outByte _) (keeps_pure _)) t h) fun _ _ h =>
    (wp_clearBits _).mpr (onlySent_packer h _ _)

theorem sent_copyWindow (p : Int) (n : Nat) : Keeps (OnlySent s) (copyWindow p n) := by
  induction n generalizing p with
  | zero => exact keeps_pure _
  | succ n ih => exact keeps_bind (keeps_readWindow _) fun _ => keeps_bind (sent_outByte _) fun _ => ih _

theorem sent_storedBlock (start n : Int) (last : Bool) : Keeps (OnlySent s) (storedBlock start n last) :=
  keeps_bind (keeps_require _ _) fun _ => keeps_bind (sent_sendBits _ _) fun _ => keeps_bind sent_align fun _ =>
    keeps_bind (sent_putShortLE _) fun _ => keeps_bind (sent_putShortLE _) fun _ => sent_copyWindow _ _

theorem sent_sendExtra (value bits : Nat) : Keeps (OnlySent s) (sendExtra value bits) :=
  keeps_ite (sent_sendBits _ _) (keeps_pure _)

theorem sent_sendToken (lLens lCodes dLens dCodes : List Nat) (dist lc : Nat) :
    Keeps (OnlySent s) (sendToken lLens lCodes dLens dCodes dist lc) :=
  keeps_ite (sent_sendCode _ _ _) (keeps_bind (sent_sendCode _ _ _) fun _ =>
    keeps_bind (sent_sendExtra _ _) fun _ => keeps_bind (sent_sendCode _ _ _) fun _ => sent_sendExtra _ _)

theorem sent_sendTokens (lLens lCodes dLens dCodes : List Nat) (i n : Nat) :
    Keeps (OnlySent s) (sendTokens lLens lCodes dLens dCodes i n) := by
  induction n generalizing i with
  | zero => exact keeps_pure _
  | succ n ih => exact keeps_get_bind fun t h => keeps_bind (sent_sendToken _ _ _ _ _ _) (fun _ => ih _) t h

theorem sent_compressBlock (lLens lCodes dLens dCodes : List Nat) :
    Keeps (OnlySent s) (compressBlock lLens lCodes dLens dCodes) :=
  keeps_get_bind fun t h => keeps_bind (sent_sendTokens _ _ _ _ _ _) (fun _ => sent_sendCode _ _ _) t h

theorem sent_sendItems (bl : BuiltTree) (items : List BlItem) : Keeps (OnlySent s) (sendItems bl items) := by
  induction items with
  | nil => exact keeps_pure _
  | cons x xs ih => exact keeps_bind (sent_sendCode _ _ _) fun _ => keeps_bind (sent_sendExtra _ _) fun _ => ih

theorem sent_sendBlLengths (bl : BuiltTree) (symbols : List Nat) :
    Keeps (OnlySent s) (sendBlLengths bl symbols) := by
  induction symbols with
  | nil => exact keeps_pure _
  | cons x xs ih => exact keeps_bind (sent_sendBits _ _) fun _ => ih

theorem sent_dynamicBlock (l d bl : BuiltTree) (maxIndex : Nat) (last : Bool) :
    Keeps (OnlySent s) (dynamicBlock l d bl maxIndex last) :=
  keeps_bind (sent_sendBits _ _) fun _ => keeps_bind (keeps_require _ _) fun _ =>
    keeps_bind (sent_sendBits _ _) fun _ => keeps_bind (sent_sendBits _ _) fun _ =>
    keeps_bind (sent_sendBits _ _) fun _ => keeps_bind (sent_sendBlLengths _ _) fun _ =>
    keeps_bind (sent_sendItems _ _) fun _ => keeps_bind (sent_sendItems _ _) fun _ => sent_compressBlock _ _ _ _

theorem sent_emitBlock (l d bl : BuiltTree) (maxIndex : Nat) (last : Bool) :
    Keeps (OnlySent s) (emitBlock l d bl maxIndex last) := by
  refine keeps_get_bind fun t h => ?_
  cases chooseBlock t with
  | stored => exact sent_storedBlock _ _ _ t h
  | static => exact keeps_bind (sent_sendBits _ _) (fun _ => sent_compressBlock _ _ _ _) t h
  | dynamic => exact sent_dynamicBlock _ _ _ _ _ t h

/-! ### The end of a block -/

/-- A byte refused inside FlushBlock: the matcher's registers stay, and so does `last_lit`, unless the byte is one of the
pad after the final block, where InitBlock has run (R160). -/
structure BlockCut (last : Bool) (s t : State) : Prop where
  cfg : t.cfg = s.cfg
  lookahead : t.lookahead = s.lookahead
  matchAvailable : t.matchAvailable = s.matchAvailable
  lastLit : last = false → t.lastLit = s.lastLit

theorem BlockCut.of_onlySent {last : Bool} (h : OnlySent s t) : BlockCut last s t := by
  rw [h]
  exact ⟨rfl, rfl, rfl, fun _ => rfl⟩

theorem BlockCut.trans {last : Bool} (h : BlockCut last s t) (h' : BlockCut last t u) : BlockCut last s u where
  cfg := h'.cfg.trans h.cfg
  lookahead := h'.lookahead.trans h.lookahead
  matchAvailable := h'.matchAvailable.trans h.matchAvailable
  lastLit hl := (h'.lastLit hl).trans (h.lastLit hl)

/-- What follows a block (R160): the pad of the final block alone offers a byte. -/
theorem blockEnd_cut (last : Bool) (s : State) :
    wp (initBlock >>= fun _ => doIf last align >>= fun _ => startBlock) (fun _ _ => True)
      (fun _ t => BlockCut last s t) True s := by
  rw [wp_bind, wp_initBlock, wp_bind, wp_doIf]
  refine ⟨fun hlast => wp_mono (sent_align (s := s.blockCleared) _ rfl) (fun _ _ _ => ?_) (fun _ t ht => ?_) id, fun _ => ?_⟩
  · exact (wp_startBlock _).mpr trivial
  · rw [ht]
    exact ⟨rfl, rfl, rfl, fun hf => absurd (hlast.symm.trans hf) (by decide)⟩
  · exact (wp_startBlock _).mpr trivial

/-- FlushBlock up to a refused byte: building the trees offers none (R160, R185). -/
theorem flushBlock_cut (last : Bool) (s : State) :
    wp (flushBlock last) (fun _ _ => True) (fun _ t => BlockCut last s t) True s := by
  rw [flushBlock, wp_bind]
  refine wp_mono (wp_buildTree_eq (F := True) .litLen s) (fun l t ⟨_, ht⟩ => ?_) (fun _ _ h => h.elim) id
  rw [wp_bind]
  refine wp_mono (wp_buildTree_eq (F := True) .dist t) (fun d u ⟨_, hu⟩ => ?_) (fun _ _ h => h.elim) id
  rw [wp_bind]
  refine wp_mono (buildBlTree_spec (F := True) l d u (.inl trivial)) (fun ⟨bl, maxIndex⟩ v ⟨_, _, hv⟩ => ?_)
    (fun _ _ h => h.elim) id
  have hs : BlockCut last s v := by
    rw [hv, hu, ht]
    exact ⟨rfl, rfl, rfl, fun _ => rfl⟩
  rw [wp_bind]
  refine wp_mono (sent_emitBlock l d bl maxIndex last v rfl) (fun _ w hw => ?_)
    (fun _ w hw => hs.trans (.of_onlySent hw)) id
  exact wp_mono (blockEnd_cut last w) (fun _ _ h => h) (fun _ x hx => (hs.trans (.of_onlySent hw)).trans hx) id

/-- With an accepting sink, FlushBlock completes on a block that is ready (R160). -/
theorem flushBlock_completes (last : Bool) (h : FlushReady s) (hsink : s.sink = []) :
    ∃ t, flushBlock last s = .ok () t := by
  have hrun := wp_and (flush_spec (F := False) last s (.inr h)) (framed_flushBlock last s)
  unfold wp at hrun
  split at hrun
  case h_1 _ t heq => exact ⟨t, heq⟩
  case h_2 _ t _ =>
    obtain ⟨-, -, -, -, hmem, -⟩ := hrun
    rw [hsink] at hmem
    cases hmem
  case h_3 => exact hrun.1.elim

/-- Settles O60: FlushBlock leaves the state of `Flushed`, whose counters are those of a new block, and it completes where
`FlushReady` holds and the sink accepts. -/
theorem flushBlockStartsNextBlock : Obligations.FlushBlockStartsNextBlock := by
  unfold Obligations.FlushBlockStartsNextBlock
  refine ⟨fun s t last hrun => ?_, fun s last hc hx h0 hb hsink => flushBlock_completes last ⟨hc, hx, h0, hb⟩ hsink⟩
  obtain ⟨hflushed, hlast⟩ := wp_ok (flush_spec (F := True) last s (.inl trivial)) hrun
  refine ⟨?_, fun n _ => ?_, fun n _ => ?_, fun n _ => ?_, fun hl => ⟨(hlast hl).2, (hlast hl).1⟩⟩
  · rw [hflushed]
  · rw [hflushed, read_cons]
    rfl
  · rw [hflushed]
    rfl
  · rw [hflushed]
    rfl

end Sys2Proof.Proofs
end

section
/-!
PROOFS. DeflateLoop (spec/42_matcher.md R113) from any state: PROCESS reads its whole feed and leaves `STATE` alone,
FINALIZE drains the lookahead, and a refused byte is met in a full block or in the final one (R125, R160).
-/

namespace Sys2Proof.Proofs

open Sys2Proof.Machine Sys2Proof.Laws

variable {s : State}

/-! ### One position -/

/-- The flush a full block asks for: a byte refused there finds `last_lit` still at `TOKEN_LIMIT` (R125). -/
theorem doIf_flushBlock_any {full : Bool} (h : full = true → s.lastLit = s.cfg.tokenLimit) :
    wp (doIf full (flushBlock false)) (fun _ t => feedSum t = feedSum s) (fun _ t => t.lastLit = t.cfg.tokenLimit) True
      s := by
  rw [wp_doIf]
  refine ⟨fun hf => ?_, fun _ => rfl⟩
  refine wp_mono (wp_and (flush_spec (F := True) false s (.inl trivial)) (flushBlock_cut false s))
    (fun _ t ht => ?_) (fun _ t ht => ?_) fun _ => trivial
  · rw [ht.1.1]
    rfl
  · rw [ht.2.lastLit rfl, ht.2.cfg]
    exact h hf

/-- EmitPendingLiteral (R115) from any state: its one flush is that of a full block. -/
theorem emitPendingLiteral_any (s : State) :
    wp emitPendingLiteral (fun _ t => feedSum t = feedSum s) (fun _ t => t.lastLit = t.cfg.tokenLimit) True s := by
  rw [emitPendingLiteral, wp_bind, wp_get, wp_bind, wp_readWindow]
  refine ⟨fun _ => ?_, fun _ => trivial⟩
  rw [wp_bind, wp_tallyLiteral]
  refine ⟨fun _ => ⟨fun _ => ?_, fun _ => trivial⟩, fun _ => trivial⟩
  rw [wp_bind]
  refine wp_imp (doIf_flushBlock_any of_decide_eq_true) fun _ u hu => ?_
  exact wp_mono (silent_advance u) (fun _ _ ht => ht.trans hu) (fun _ _ h => h.elim) id

/-- EmitDeferredMatch (R116) from any state: nothing between the tally and the flush writes `last_lit`. -/
theorem emitDeferredMatch_any (s : State) :
    wp emitDeferredMatch (fun _ t => feedSum t = feedSum s) (fun _ t => t.lastLit = t.cfg.tokenLimit) True s := by
  rw [emitDeferredMatch, wp_bind, wp_get, wp_bind, wp_tallyDistance]
  refine ⟨fun _ => ⟨fun _ => ⟨fun _ => ?_, fun _ => trivial⟩, fun _ => trivial⟩, fun _ => trivial⟩
  rw [wp_bind, shrinkLookahead, wp_bind, wp_get, wp_bind, wp_require, wp_set]
  refine ⟨fun _ => ?_, fun _ => trivial⟩
  rw [wp_bind]
  refine wp_mono (insertCovered_spec (F := True) _ (.inl trivial) _ _) (fun _ u hu => ?_) (fun _ _ h => h.elim) id
  have hlast : u.lastLit = s.lastLit + 1 := by rw [hu.frame]; rfl
  have hcfg : u.cfg = s.cfg := by rw [hu.frame]; rfl
  have hsum : feedSum u = feedSum s := by rw [hu.frame]; rfl
  rw [wp_bind, wp_closeMatch]
  refine wp_imp (doIf_flushBlock_any fun hf => ?_) fun _ t ht => ht.trans hsum
  show u.lastLit = u.cfg.tokenLimit
  rw [hlast, hcfg]
  exact of_decide_eq_true hf

/-- The three branches of the loop (R113). -/
theorem emitPosition_any (s : State) :
    wp emitPosition (fun _ t => feedSum t = feedSum s) (fun _ t => t.lastLit = t.cfg.tokenLimit) True s := by
  rw [emitPosition, wp_bind, wp_get, wp_ite, wp_ite]
  refine ⟨fun _ => emitDeferredMatch_any s, fun _ => ⟨fun _ => emitPendingLiteral_any s, fun _ => ?_⟩⟩
  exact wp_mono (silent_deferByte s) (fun _ _ h => h) (fun _ _ h => h.elim) id

/-! ### The loop of PROCESS -/

/-- The loop of PROCESS never writes `STATE`: it leaves only for want of input (R113). -/
theorem framed_deflateFrom (fuel : Nat) : Framed (deflateFrom false fuel) := by
  intro s
  induction fuel generalizing s with
  | zero => exact framed_internalFault _ s
  | succ fuel ih =>
    rw [deflateFrom, wp_bind]
    refine wp_mono (wp_and (framed_loopTop false s) (loopTop_exit false s)) (fun top t ⟨ht, hexit⟩ => ?_)
      (fun _ _ h => h.1) fun _ => trivial
    have hrest : Framed (evaluatePosition >>= fun _ => emitPosition >>= fun _ => deflateFrom false fuel) :=
      framed_bind framed_evaluatePosition fun _ => framed_bind framed_emitPosition fun _ => ih
    cases top with
    | needsInput => exact (wp_pure _).mpr ht
    | consumed => exact absurd hexit.1 (by decide)
    | position => exact wp_mono (hrest t) (fun _ _ h => ht.trans h) (fun _ _ h => ht.broken h) id

theorem framed_deflateLoop : Framed (deflateLoop false) := framed_get_bind fun _ => framed_deflateFrom _

/-- The loop of PROCESS ends with the feed used up, each byte in the checksum once (R98, R113). -/
theorem deflateFrom_reads (fuel : Nat) (s : State) :
    wp (deflateFrom false fuel) (fun _ t => t.feed = [] ∧ feedSum t = feedSum s) (fun _ _ => True) True s := by
  induction fuel generalizing s with
  | zero => exact (wp_internalFault _).mpr trivial
  | succ fuel ih =>
    rw [deflateFrom, wp_bind]
    refine wp_mono (wp_and (silent_loopTop false s) (loopTop_exit false s)) (fun top t ⟨ht, hexit⟩ => ?_)
      (fun _ _ _ => trivial) fun _ => trivial
    cases top with
    | needsInput => exact (wp_pure _).mpr ⟨hexit.2, ht⟩
    | consumed => exact absurd hexit.1 (by decide)
    | position =>
      refine (wp_bind _ _ _).mpr (wp_mono (silent_evaluatePosition t) (fun _ u hu => ?_) (fun _ _ _ => trivial) id)
      refine (wp_bind _ _ _).mpr (wp_mono (emitPosition_any u) (fun _ v hv => ?_) (fun _ _ _ => trivial) id)
      exact wp_imp (ih v) fun _ w hw => ⟨hw.1, hw.2.trans (hv.trans (hu.trans ht))⟩

/-! ### The loop of FINALIZE -/

/-- All input is tokens (R113, R118): `STATE` is FINISH, and neither lookahead nor an undecided byte is left. -/
def Drained (t : State) : Prop := t.phase = .finish ∧ t.lookahead = 0 ∧ t.matchAvailable = false

/-- The undecided byte at the end is decided, and no byte is offered for it (R118). -/
theorem drainPending_decides (s : State) :
    wp drainPending (fun _ t => t.lookahead = s.lookahead ∧ t.matchAvailable = false) (fun _ _ => False) True s := by
  rw [drainPending, wp_bind, wp_get, wp_ite, wp_pure]
  refine ⟨fun _ => ?_, fun hav => ⟨rfl, Bool.eq_false_iff.mpr hav⟩⟩
  rw [wp_bind, wp_readWindow]
  refine ⟨fun _ => ?_, fun _ => trivial⟩
  rw [wp_bind, wp_tallyLiteral]
  exact ⟨fun _ => ⟨fun _ => (wp_modify _ _).mpr ⟨rfl, rfl⟩, fun _ => trivial⟩, fun _ => trivial⟩

/-- FinishDrain ends drained, and so it does where a byte of the final block is refused (R118, R185). -/
theorem finishDrain_drained (hphase : s.phase = .finish) (hlook : s.lookahead = 0) :
    wp finishDrain (fun _ t => Drained t) (fun _ t => Drained t) True s := by
  have hregs : wp finishDrain (fun _ t => t.lookahead = 0 ∧ t.matchAvailable = false)
      (fun _ t => t.lookahead = 0 ∧ t.matchAvailable = false) True s := by
    rw [finishDrain, wp_bind]
    refine wp_mono (drainPending_decides s) (fun _ u ⟨hu, hav⟩ => ?_) (fun _ _ h => h.elim) id
    have hu : u.lookahead = 0 := hu.trans hlook
    refine wp_mono (wp_and (flush_spec (F := True) true u (.inl trivial)) (flushBlock_cut true u))
      (fun _ t ht => ?_) (fun _ t ht => ⟨ht.2.lookahead.trans hu, ht.2.matchAvailable.trans hav⟩) fun _ => trivial
    rw [ht.1.1]
    exact ⟨hu, hav⟩
  exact wp_mono (wp_and (framed_finishDrain s) hregs) (fun _ _ ⟨⟨_, _, _, hph⟩, h⟩ => ⟨hph.trans hphase, h⟩)
    (fun _ _ ⟨⟨_, _, _, _, hph⟩, h⟩ => ⟨hph.trans hphase, h⟩) fun _ => trivial

/-- Where a byte of FINALIZE's blocks is refused: in a block that became full, with `STATE` as the loop found it, or in
the final one (R125, R185). -/
def CutInBlock (s t : State) : Prop := t.phase = s.phase ∧ t.lastLit = t.cfg.tokenLimit ∨ Drained t

/-- The loop of FINALIZE ends drained (R113). -/
theorem deflateFrom_drains (fuel : Nat) (s : State) :
    wp (deflateFrom true fuel) (fun _ t => Drained t) (fun _ t => CutInBlock s t) True s := by
  induction fuel generalizing s with
  | zero => exact (wp_internalFault _).mpr trivial
  | succ fuel ih =>
    rw [deflateFrom, wp_bind]
    refine wp_mono (wp_and (wp_and (silent_loopTop true s) (framed_loopTop true s)) (loopTop_exit true s))
      (fun top t ⟨⟨_, _, _, _, ht⟩, hexit⟩ => ?_) (fun _ _ h => h.1.1.elim) fun _ => trivial
    cases top with
    | needsInput => exact absurd hexit.1 (by decide)
    | consumed =>
      refine (wp_bind _ _ _).mpr ((wp_setPhase _ _).mpr ?_)
      exact wp_mono (finishDrain_drained (s := { t with phase := .finish }) rfl hexit.2) (fun _ _ h => h)
        (fun _ _ h => .inr h) id
    | position =>
      refine (wp_bind _ _ _).mpr (wp_mono (wp_and (silent_evaluatePosition t) (framed_evaluatePosition t))
        (fun _ u ⟨_, _, _, _, hu⟩ => ?_) (fun _ _ h => h.1.elim) fun _ => trivial)
      refine (wp_bind _ _ _).mpr (wp_mono (wp_and (emitPosition_any u) (framed_emitPosition u))
        (fun _ v ⟨_, _, _, _, hv⟩ => ?_)
        (fun _ v ⟨hfull, _, _, _, _, hv⟩ => .inl ⟨hv.trans (hu.trans ht), hfull⟩) fun _ => trivial)
      exact wp_mono (ih v) (fun _ _ h => h)
        (fun _ _ h => h.imp_left fun h => ⟨h.1.trans (hv.trans (hu.trans ht)), h.2⟩) id

end Sys2Proof.Proofs
end

section
/-!
PROOFS. How PROCESS and FINALIZE end (spec/46_control.md R167 to R174, spec/60_exceptions.md R183 to R185), from any state:
the transitions of `STATE`, `FAILED` and `RESULT`, and the completion of PROCESS in a session.
-/

namespace Sys2Proof.Proofs

open Sys2Proof.Machine Sys2Proof.Laws

variable {s t : State}

/-! ### The header -/

/-- `t` stands at a refused byte of the zlib header: the session had none, and not both bytes were accepted (R168). -/
abbrev HeaderCut (s t : State) : Prop := s.phase = .init ∧ s.framing = true ∧ t.out.length < s.out.length + 2

theorem headerBytes_of_due (h : s.phase = .init ∧ s.framing = true) :
    s.headerBytes = [s.cfg.zlibCmf, s.cfg.zlibFlg] := if_pos h

theorem headerBytes_of_not_due (h : ¬ (s.phase = .init ∧ s.framing = true)) : s.headerBytes = [] := if_neg h

/-- Once the header is out, no byte of it can be refused. -/
theorem not_headerCut (h : s.out ++ s.headerBytes <+: t.out) : ¬ HeaderCut s t := fun ⟨hp, hf, hlt⟩ => by
  have hle := h.length_le
  rw [headerBytes_of_due ⟨hp, hf⟩, List.length_append] at hle
  exact absurd hlt (Nat.not_lt.mpr hle)

/-- The header's two bytes (R73), and how much of the output there is where one of them is refused. -/
theorem putHeader_out (c : Config) (s : State) :
    wp (putHeader c) (fun _ t => t.out = s.out ++ [c.zlibCmf, c.zlibFlg])
      (fun _ t => t.out.length < s.out.length + 2) True s := by
  rw [putHeader, wp_bind]
  refine wp_outByte _ _ (fun _ => wp_outByte _ _ (fun _ => ?_) fun _ => ?_) fun _ => ?_
  · exact List.append_assoc _ _ _
  · show (s.out ++ [c.zlibCmf]).length < _
    rw [List.length_append]
    exact Nat.lt_succ_self _
  · exact Nat.lt_add_of_pos_right (by decide)

/-- What EnterBusy leaves (R168): the header is out, and `STATE` is BUSY. -/
structure Entered (s t : State) : Prop where
  outer : Outer s t
  frame : t = { s with out := t.out, sink := t.sink, phase := .busy }
  out : t.out = s.out ++ s.headerBytes

theorem enterBusy_out (s : State) :
    wp enterBusy (fun _ t => t.out = s.out ++ s.headerBytes) (fun e t => Broken s e t ∧ HeaderCut s t) True s := by
  have hframed : Framed (putHeader s.cfg) := framed_bind (framed_outByte _) fun _ => framed_outByte _
  rw [enterBusy, wp_bind, wp_get, wp_ite, wp_pure, wp_bind, wp_doIf]
  refine ⟨fun hp => ⟨fun hf => ?_, fun hf => ?_⟩, fun hp => ?_⟩
  · refine wp_mono (wp_and (putHeader_out s.cfg s) (hframed s)) (fun _ t ht => (wp_setPhase _ _).mpr ?_)
      (fun _ t ht => ⟨ht.2, hp, hf, ht.1⟩) fun _ => trivial
    rw [headerBytes_of_due ⟨hp, hf⟩]
    exact ht.1
  · rw [wp_setPhase, headerBytes_of_not_due fun h => Bool.false_ne_true (hf.symm.trans h.2), List.append_nil]
  · rw [headerBytes_of_not_due fun h => hp h.1, List.append_nil]

theorem enterBusy_ends (hacc : s.phase.accepts = true) :
    wp enterBusy (fun _ t => Entered s t) (fun e t => Broken s e t ∧ HeaderCut s t) True s :=
  wp_mono (wp_and (wp_and (runs_enterBusy s (accepts_ne_done hacc)) (enterBusy_spec (F := True) s hacc)) (enterBusy_out s))
    (fun _ _ ⟨⟨hrun, hframe⟩, hout⟩ => ⟨hrun.1, hframe, hout⟩) (fun _ _ h => h.2) fun _ => trivial

/-! ### How a body ends -/

/-- How the body of PROCESS or FINALIZE ends from `s`: with OK in a state that meets `ok`, with InvalidState and nothing
else written (R184), or with StreamError in a state that meets `cut` (R185). -/
inductive BodyEnds (s : State) (ok cut : State → Prop) : ResultCode → State → Prop where
  | ok {t : State} (hacc : s.phase.accepts = true) (hrun : Outer s t) (hfailed : t.failed = false) (h : ok t) :
    BodyEnds s ok cut .ok t
  | invalidState (hacc : s.phase.accepts = false) : BodyEnds s ok cut .invalidState (s.raiseError .invalidState)
  | streamError {t : State} (hacc : s.phase.accepts = true) (hrun : Outer s t) (hfailed : t.failed = true) (h : cut t) :
    BodyEnds s ok cut .streamError t

section

variable {ok cut : State → Prop} {code : ResultCode}

theorem BodyEnds.outer (h : BodyEnds s ok cut code t) : Outer s t := by
  cases h with
  | ok _ hrun => exact hrun
  | invalidState => exact ⟨rfl, rfl, rfl, rfl, rfl, List.prefix_rfl, List.suffix_rfl⟩
  | streamError _ hrun => exact hrun

/-- `FAILED` after a body that began with `FAILED = 0` (R15, R183). -/
theorem BodyEnds.failed_iff (h : BodyEnds s ok cut code t) (hnf : s.failed = false) :
    t.failed = true ↔ code = .streamError := by
  cases h with
  | ok _ _ hfailed => simp [hfailed]
  | invalidState => simp [hnf, ResultCode.setsFailed]
  | streamError _ _ hfailed => simp [hfailed]

theorem BodyEnds.ne_outOfMemory (h : BodyEnds s ok cut code t) : code ≠ .outOfMemory := by
  cases h <;> decide

theorem BodyEnds.of_ok (h : BodyEnds s ok cut .ok t) : s.phase.accepts = true ∧ ok t := by
  cases h with
  | ok hacc _ _ h => exact ⟨hacc, h⟩

theorem BodyEnds.of_invalidState (h : BodyEnds s ok cut .invalidState t) :
    s.phase.accepts = false ∧ t.phase = s.phase := by
  cases h with
  | invalidState hacc => exact ⟨hacc, rfl⟩

theorem BodyEnds.of_streamError (h : BodyEnds s ok cut .streamError t) : s.phase.accepts = true ∧ cut t := by
  cases h with
  | streamError hacc _ _ h => exact ⟨hacc, h⟩

end

/-! ### PROCESS -/

/-- What PROCESS leaves when it returns OK (R172, R173). -/
def ProcessOk (s t : State) : Prop :=
  (s.payload = [] → t = s) ∧ (s.payload ≠ [] → t.phase = .busy ∧ s.out ++ s.headerBytes <+: t.out)

/-- `STATE` where a byte of PROCESS is refused (R185). -/
def ProcessCut (s t : State) : Prop :=
  s.payload ≠ [] ∧ t.phase = if HeaderCut s t then .init else .busy

/-- The body of PROCESS (R172): after the header, `STATE` is BUSY to the end. -/
theorem processBody_ends (s : State) :
    wp processBody (fun code t => s.failed = false ∧ BodyEnds s (ProcessOk s) (ProcessCut s) code t)
      (fun code t => s.failed = false ∧ BodyEnds s (ProcessOk s) (ProcessCut s) code t) True s := by
  rw [processBody, wp_bind, wp_checkSession]
  refine ⟨fun _ => trivial, fun hnf hacc => ?_, fun hnf hacc => ⟨hnf, .invalidState hacc⟩⟩
  rw [wp_bind, wp_get, wp_ite, wp_pure]
  refine ⟨fun hp => ⟨hnf, .ok hacc (Outer.refl s) hnf ⟨fun _ => rfl, fun hn => absurd hp hn⟩⟩, fun hp => ?_⟩
  rw [wp_bind]
  refine wp_mono (enterBusy_ends hacc) (fun _ t ht => ?_) (fun e t ⟨⟨hrun, he, hf, _, hphase⟩, hcut⟩ => ?_) id
  · have hrest := framed_bind (framed_bind framed_loadFeed fun _ => framed_deflateLoop) fun _ => framed_endFlush
    have hphase : t.phase = .busy := by rw [ht.frame]
    have hfailed : t.failed = false := by rw [ht.frame]; exact hnf
    simp only [← bind_assoc] -- all that may raise, in front of the return
    rw [wp_bind]
    refine wp_mono (hrest t) (fun _ u ⟨hrun, hf, _, hph⟩ => (wp_pure _).mpr ⟨hnf, ?_⟩)
      (fun e u ⟨hrun, he, hf, _, hph⟩ => ⟨hnf, ?_⟩) id
    · exact .ok hacc (ht.outer.trans hrun) (hf.trans hfailed)
        ⟨fun h => absurd h hp, fun _ => ⟨hph.trans hphase, ht.out ▸ hrun.out⟩⟩
    · subst he
      refine .streamError hacc (ht.outer.trans hrun) hf ⟨hp, ?_⟩
      rw [if_neg (not_headerCut (ht.out ▸ hrun.out)), hph, hphase]
  · subst he
    refine ⟨hnf, .streamError hacc hrun hf ⟨hp, ?_⟩⟩
    rw [if_pos hcut, hphase, hcut.1]

theorem execProcess_ends {len : Nat} (hn : execProcess len s = .next t) :
    s.failed = false ∧ ∃ code u, BodyEnds s (ProcessOk s) (ProcessCut s) code u ∧ t = u.complete s.out code := by
  obtain ⟨-, ⟨code, u, ⟨hnf, h⟩, ht⟩ | ⟨code, u, ⟨hnf, h⟩, ht⟩⟩ := runCommand_next (processBody_ends s) hn
  all_goals exact ⟨hnf, code, u, h, ht⟩

/-! ### FINALIZE -/

/-- `STATE` where a byte of FINALIZE is refused (R185): in the header, in a block that became full, or after the input was
drained. -/
def FinalizeCut (s t : State) : Prop :=
  if HeaderCut s t then t.phase = .init else (t.phase = .busy ∧ t.lastLit = t.cfg.tokenLimit) ∨ Drained t

theorem sent_trailer : Keeps (OnlySent s) trailer :=
  keeps_get_bind fun t h => keeps_ite
    (keeps_bind (keeps_bind (sent_outByte _) fun _ => sent_outByte _) fun _ =>
      keeps_bind (sent_outByte _) fun _ => sent_outByte _) (keeps_pure _) t h

/-- The blocks and the trailer of FINALIZE up to a refused byte. -/
theorem deflate_trailer_cut (s : State) :
    wp (deflateLoop true >>= fun _ => trailer) (fun _ _ => True) (fun _ t => CutInBlock s t) True s := by
  rw [wp_bind, deflateLoop, wp_bind, wp_get]
  refine wp_imp (deflateFrom_drains _ s) fun _ u hu => wp_mono (sent_trailer (s := u) u rfl) (fun _ _ _ => trivial)
    (fun _ t ht => .inr ?_) id
  rw [ht]
  exact hu

/-- The body of FINALIZE (R174). -/
theorem finalizeBody_ends (s : State) :
    wp finalizeBody (fun code t => s.failed = false ∧ BodyEnds s (fun t => t.phase = .done) (FinalizeCut s) code t)
      (fun code t => s.failed = false ∧ BodyEnds s (fun t => t.phase = .done) (FinalizeCut s) code t) True s := by
  rw [finalizeBody, wp_bind, wp_checkSession]
  refine ⟨fun _ => trivial, fun hnf hacc => ?_, fun hnf hacc => ⟨hnf, .invalidState hacc⟩⟩
  rw [wp_bind]
  refine wp_mono (enterBusy_ends hacc) (fun _ t ht => ?_) (fun e t ⟨⟨hrun, he, hf, _, hphase⟩, hcut⟩ => ?_) id
  · have hrest : Runs (deflateLoop true >>= fun _ => trailer) :=
      runs_bind (runs_deflateLoop true) fun _ => runs_framed framed_trailer
    have hphase : t.phase = .busy := by rw [ht.frame]
    have hfailed : t.failed = false := by rw [ht.frame]; exact hnf
    simp only [← bind_assoc] -- all that may raise, in front of what writes DONE
    rw [wp_bind, wp_bind]
    refine wp_mono (wp_and (hrest t (by rw [hphase]; decide)) (deflate_trailer_cut t))
      (fun _ u ⟨⟨hrun, hf, _⟩, _⟩ => ?_) (fun e u ⟨⟨hrun, he, hf, _⟩, hcut⟩ => ⟨hnf, ?_⟩) fun _ => trivial
    · rw [wp_setPhase, wp_pure]
      have hdone : Outer u { u with phase := .done } := ⟨rfl, rfl, rfl, rfl, rfl, List.prefix_rfl, List.suffix_rfl⟩
      exact ⟨hnf, .ok hacc ((ht.outer.trans hrun).trans hdone) (hf.trans hfailed) rfl⟩
    · subst he
      refine .streamError hacc (ht.outer.trans hrun) hf ?_
      rw [FinalizeCut, if_neg (not_headerCut (ht.out ▸ hrun.out)), ← hphase]
      exact hcut
  · subst he
    refine ⟨hnf, .streamError hacc hrun hf ?_⟩
    rw [FinalizeCut, if_pos hcut, hphase, hcut.1]

theorem execFinalize_ends (hn : execFinalize s = .next t) :
    s.failed = false ∧
      ∃ code u, BodyEnds s (fun t => t.phase = .done) (FinalizeCut s) code u ∧ t = u.complete s.out code := by
  obtain ⟨-, ⟨code, u, ⟨hnf, h⟩, ht⟩ | ⟨code, u, ⟨hnf, h⟩, ht⟩⟩ := runCommand_next (finalizeBody_ends s) hn
  all_goals exact ⟨hnf, code, u, h, ht⟩

/-! ### `FAILED`, `FRAMING` and `STATE` -/

/-- STATUS writes the response alone (R176). -/
theorem execStatus_next (hn : execStatus s = .next t) :
    t = { s with response := some ⟨.ok, some (statusWord s), []⟩ } := by
  unfold execStatus at hn
  split at hn
  · cases hn
    rfl
  · cases hn

/-- Settles O20, from how each command ends. -/
theorem failedOnlyByStreamError : Obligations.FailedOnlyByStreamError := by
  unfold Obligations.FailedOnlyByStreamError
  intro i s t hn
  cases i with
  | init framing =>
    rw [execInit_next hn]
    exact ⟨rfl, rfl⟩
  | status => rw [execStatus_next hn]
  | process len =>
    obtain ⟨hnf, code, u, hends, rfl⟩ := execProcess_ends hn
    exact ⟨hnf, hends.failed_iff hnf, hends.ne_outOfMemory⟩
  | finalize =>
    obtain ⟨hnf, code, u, hends, rfl⟩ := execFinalize_ends hn
    exact ⟨hnf, hends.failed_iff hnf, hends.ne_outOfMemory⟩

/-- Settles O22: no operation of PROCESS and FINALIZE writes these fields (`Outer`). -/
theorem framingAndParametersKept : Obligations.FramingAndParametersKept := by
  unfold Obligations.FramingAndParametersKept
  intro i s t hn hi
  cases i with
  | init framing => exact absurd rfl (hi framing)
  | status =>
    rw [execStatus_next hn]
    exact ⟨rfl, rfl, rfl⟩
  | process len =>
    obtain ⟨-, code, u, hends, rfl⟩ := execProcess_ends hn
    exact ⟨hends.outer.framing, hends.outer.cfg, hends.outer.inputs⟩
  | finalize =>
    obtain ⟨-, code, u, hends, rfl⟩ := execFinalize_ends hn
    exact ⟨hends.outer.framing, hends.outer.cfg, hends.outer.inputs⟩

/-- The header was cut exactly if the command delivered fewer than its two bytes. -/
theorem headerCut_iff_delivered (h : Outer s t) :
    HeaderCut s t ↔ s.phase = .init ∧ s.framing = true ∧ (t.out.drop s.out.length).length < 2 := by
  have hle := h.out.length_le
  have hlen : (t.out.drop s.out.length).length < 2 ↔ t.out.length < s.out.length + 2 := by
    rw [List.length_drop]
    omega
  rw [hlen]

/-- Settles O21, from how each command ends. -/
theorem phaseTransitions : Obligations.PhaseTransitions := by
  unfold Obligations.PhaseTransitions
  intro i s t hn
  cases i with
  | init framing =>
    rw [execInit_next hn]
    rfl
  | status => rw [execStatus_next hn]
  | process len =>
    obtain ⟨-, code, u, hends, rfl⟩ := execProcess_ends hn
    have houter := hends.outer
    refine ⟨?_, ?_, ?_⟩ <;> rintro rfl
    · obtain ⟨hacc, hnil, hdata⟩ := hends.of_ok
      refine ⟨hacc, ?_⟩
      by_cases hp : s.payload = []
      · rw [if_pos hp, hnil hp]
        rfl
      · rw [if_neg hp]
        exact (hdata hp).1
    · exact hends.of_invalidState
    · obtain ⟨hacc, hp, hphase⟩ := hends.of_streamError
      refine ⟨hacc, hp, ?_⟩
      rintro r ⟨⟩
      simp only [headerCut_iff_delivered houter] at hphase
      exact hphase
  | finalize =>
    obtain ⟨-, code, u, hends, rfl⟩ := execFinalize_ends hn
    have houter := hends.outer
    refine ⟨?_, ?_, ?_⟩ <;> rintro rfl
    · exact hends.of_ok
    · exact hends.of_invalidState
    · obtain ⟨hacc, hcut⟩ := hends.of_streamError
      refine ⟨hacc, ?_⟩
      rintro r ⟨⟩
      simp only [FinalizeCut, headerCut_iff_delivered houter] at hcut
      exact hcut

/-! ### Completion of PROCESS -/

/-- PROCESS takes every byte of its data through the checksum, once and in order (R98, R172). -/
theorem processBody_adler (s : State) :
    wp processBody
      (fun _ t => s.payload ≠ [] → (t.adlerA, t.adlerB) = adlerOver (s.adlerA, s.adlerB) s.payload)
      (fun _ _ => True) True s := by
  rw [processBody, wp_bind, wp_checkSession]
  refine ⟨fun _ => trivial, fun _ hacc => ?_, fun _ _ => trivial⟩
  rw [wp_bind, wp_get, wp_ite, wp_pure]
  refine ⟨fun hp hn => absurd hp hn, fun _ => ?_⟩
  rw [wp_bind]
  refine wp_imp (enterBusy_spec (F := True) s hacc) fun _ t ht => ?_
  rw [wp_bind, wp_loadFeed, wp_bind, deflateLoop, wp_bind, wp_get]
  refine wp_imp (deflateFrom_reads _ _) fun _ v ⟨hfeed, hsum⟩ => ?_
  rw [wp_bind]
  refine wp_imp (endFlush_spec (F := True) v (.inl trivial)) fun _ w ⟨hw, _⟩ => (wp_pure _).mpr fun _ => ?_
  rw [feedSum, hfeed, ht] at hsum
  rw [hw.eq]
  exact hsum

/-- In a session with an accepting sink, neither error can end a command (R184, R185). -/
theorem not_endsBadly {e : ResultCode} (hacc : s.phase.accepts = true) (hsink : false ∉ s.sink) : ¬ EndsBadly s e t := by
  rintro (⟨-, -, hrej, -⟩ | ⟨-, -, -, -, -, -, -, hmem⟩)
  · rw [hacc] at hrej
    cases hrej
  · exact hsink hmem

/-- Settles O26: PROCESS completes (`execProcess_completes`), with OK since no byte is refused, and what it leaves is what
the bodies' specifications say. -/
theorem processCompletes : Obligations.ProcessCompletes := by
  unfold Obligations.ProcessCompletes
  intro s data hinv hses hnf hacc hsink
  have hissued := issued_issue hinv data
  have hnot : ∀ e u, ¬ EndsBadly (s.issue data) e u := fun e u => not_endsBadly hacc hsink
  obtain ⟨code, u, -, hrun⟩ := execProcess_completes hissued hses hnf rfl
  have hroom : (s.issue data).failed = false → s.lastLit < s.cfg.tokenLimit := fun h => (hissued.2.2.2.2.2 h).2.2.1
  have hspec := wp_and (wp_and (processBody_spec (F := True) hissued.1 hroom (.inl trivial))
    (processBody_adler (s.issue data))) (processBody_ends (s.issue data))
  obtain ⟨-, ⟨code', v, ⟨⟨⟨rfl, -, -, -, hdata⟩, hadler⟩, -, hends⟩, ht⟩ | ⟨e, v, ⟨⟨hbad, -⟩, -⟩, -⟩⟩ :=
    runCommand_next (u := u.complete (s.issue data).out code) (wp_mono hspec (fun _ _ h => h) (fun _ _ h => h)
      fun _ => trivial) hrun
  swap
  · exact absurd hbad (hnot e v)
  obtain ⟨-, hnil, hout⟩ := hends.of_ok
  refine ⟨_, hrun, ?_⟩
  rw [ht]
  have hf : v.failed = false := Bool.eq_false_iff.mpr fun h => absurd ((hends.failed_iff hnf).mp h) (by decide)
  refine ⟨rfl, hf, rfl, rfl, ?_, fun hd => ?_, fun hd => ?_⟩
  · by_cases hd : data = []
    · rw [hnil hd, hd]
      rfl
    · exact hadler hd
  · rw [hnil hd]
    exact ⟨rfl, rfl⟩
  · obtain ⟨-, -, -, hvalid, -, hlook, -⟩ := hdata hd
    exact ⟨(hout hd).1, hlook, hvalid, (hout hd).2⟩

end Sys2Proof.Proofs
end

section
/-!
PROOFS. One walk over the operations of PROCESS and FINALIZE. But for FillWindow they move bytes in one way alone, through
the sink (spec/20_memory.md R52, R54): a property of the streams, the window, the checksum and the bytes not yet turned into
tokens that survives a byte offered to the sink survives them all.
-/

namespace Sys2Proof.Proofs

open Sys2Proof.Machine Sys2Proof.Laws

variable {α β : Type} {P : State → Prop} {C : ResultCode → State → Prop}

/-! ### Properties that a run keeps or ends in -/

/-- `t` has the streams, the window and the checksum of `s`, and its lookahead ends where that of `s` does. -/
structure Still (s t : State) : Prop where
  window : t.window = s.window
  feed : t.feed = s.feed
  payload : t.payload = s.payload
  adlerA : t.adlerA = s.adlerA
  adlerB : t.adlerB = s.adlerB
  out : t.out = s.out
  sink : t.sink = s.sink
  ends : t.strstart + t.lookahead = s.strstart + s.lookahead

/-- An update that names none of these fields. -/
theorem Still.of_eq {s t : State} (h : t = { t with
    window := s.window, feed := s.feed, payload := s.payload, adlerA := s.adlerA, adlerB := s.adlerB, out := s.out,
    sink := s.sink, strstart := s.strstart, lookahead := s.lookahead }) : Still s t := by
  constructor <;> rw [h]

/-- From `P`, `m` ends in `P` with a value, and in `C` with an error. -/
def Guards (P : State → Prop) (C : ResultCode → State → Prop) (m : M α) : Prop :=
  ∀ s, P s → wp m (fun _ t => P t) C True s

theorem guards_pure (a : α) : Guards P C (pure a : M α) := fun _ hp => (wp_pure a).mpr hp

theorem guards_bind {m : M α} {f : α → M β} (hm : Guards P C m) (hf : ∀ a, Guards P C (f a)) :
    Guards P C (m >>= f) := fun s hp => (wp_bind m f _).mpr (wp_imp (hm s hp) fun a t ht => hf a t ht)

theorem guards_get_bind {f : State → M β} (hf : ∀ s, Guards P C (f s)) : Guards P C (get >>= f) := fun s hp => by
  rw [wp_bind, wp_get]
  exact hf s s hp

theorem guards_ite {c : Prop} [Decidable c] {m n : M α} (hm : Guards P C m) (hn : Guards P C n) :
    Guards P C (if c then m else n) := by split <;> assumption

theorem guards_doIf (c : Bool) {m : M Unit} (hm : Guards P C m) : Guards P C (doIf c m) :=
  guards_ite hm (guards_pure _)

theorem guards_internalFault (c : InternalCondition) : Guards P C (internalFault c : M α) := fun _ _ =>
  (wp_internalFault c).mpr trivial

theorem guards_require (ok : Bool) (c : InternalCondition) : Guards P C (require ok c) := fun _ hp =>
  (wp_require ok c _).mpr ⟨fun _ => hp, fun _ => trivial⟩

theorem guards_checkPacker : Guards P C checkPacker := guards_get_bind fun _ => guards_require _ _

theorem guards_readWindow (p : Int) : Guards P C (readWindow p) := fun _ hp =>
  (wp_readWindow p _).mpr ⟨fun _ => hp, fun _ => trivial⟩

/-- What a property must allow: an update that moves no byte, and a byte offered to the sink. -/
structure Streaming (P : State → Prop) (C : ResultCode → State → Prop) : Prop where
  still : ∀ s t, Still s t → P s → P t
  outByte : ∀ b, Guards P C (outByte b)

namespace Streaming

variable (h : Streaming P C)
include h

theorem quiet {m : M α} (hm : ∀ s, wp m (fun _ t => Still s t) (fun _ _ => False) True s) : Guards P C m := fun s hp =>
  wp_mono (hm s) (fun _ t ht => h.still s t ht hp) (fun _ _ h => h.elim) id

theorem update {m : M α} (hm : ∀ s, ∃ a t, m s = .ok a t ∧ Still s t) : Guards P C m := fun s hp => by
  obtain ⟨a, t, hrun, ht⟩ := hm s
  unfold wp
  rw [hrun]
  exact h.still s t ht hp

theorem modify {f : State → State} (hf : ∀ s, Still s (f s)) : Guards P C (modify f : M PUnit) :=
  h.update fun s => ⟨⟨⟩, f s, rfl, hf s⟩

/-! ### The emitter -/

theorem putShortLE (w : Half) : Guards P C (putShortLE w) := guards_bind (h.outByte _) fun _ => h.outByte _

theorem putShortMSB (w : Half) : Guards P C (putShortMSB w) := guards_bind (h.outByte _) fun _ => h.outByte _

theorem clearBits : Guards P C clearBits := h.update fun _ => ⟨(), _, rfl, .of_eq rfl⟩

theorem sendBits (value length : Nat) : Guards P C (sendBits value length) :=
  guards_bind (guards_require _ _) fun _ => guards_bind guards_checkPacker fun _ s hp => by
    rw [wp_bind, wp_get, wp_ite, wp_set]
    exact ⟨fun _ => guards_bind (h.putShortLE _) (fun _ => h.modify fun _ => .of_eq rfl) s hp,
      fun _ => h.still s _ (.of_eq rfl) hp⟩

theorem sendCode (lens codes : List Nat) (symbol : Nat) : Guards P C (sendCode lens codes symbol) :=
  guards_bind (guards_require _ _) fun _ => h.sendBits _ _

theorem align : Guards P C align :=
  guards_bind (guards_bind guards_checkPacker fun _ => guards_get_bind fun _ =>
    guards_ite (h.putShortLE _) (guards_ite (h.outByte _) (guards_pure _))) fun _ => h.clearBits

theorem endFlush : Guards P C endFlush :=
  guards_bind guards_checkPacker fun _ => guards_get_bind fun _ =>
    guards_ite (guards_bind (h.putShortLE _) fun _ => h.clearBits)
      (guards_ite (guards_bind (h.outByte _) fun _ => h.modify fun _ => .of_eq rfl) (guards_pure _))

theorem copyWindow (p : Int) (n : Nat) : Guards P C (copyWindow p n) := by
  induction n generalizing p with
  | zero => exact guards_pure _
  | succ n ih => exact guards_bind (guards_readWindow _) fun _ => guards_bind (h.outByte _) fun _ => ih _

theorem storedBlock (start n : Int) (last : Bool) : Guards P C (storedBlock start n last) :=
  guards_bind (guards_require _ _) fun _ => guards_bind (h.sendBits _ _) fun _ => guards_bind h.align fun _ =>
    guards_bind (h.putShortLE _) fun _ => guards_bind (h.putShortLE _) fun _ => h.copyWindow _ _

theorem sendExtra (value bits : Nat) : Guards P C (sendExtra value bits) :=
  guards_ite (h.sendBits _ _) (guards_pure _)

theorem sendToken (lLens lCodes dLens dCodes : List Nat) (dist lc : Nat) :
    Guards P C (sendToken lLens lCodes dLens dCodes dist lc) :=
  guards_ite (h.sendCode _ _ _) (guards_bind (h.sendCode _ _ _) fun _ =>
    guards_bind (h.sendExtra _ _) fun _ => guards_bind (h.sendCode _ _ _) fun _ => h.sendExtra _ _)

theorem sendTokens (lLens lCodes dLens dCodes : List Nat) (i n : Nat) :
    Guards P C (sendTokens lLens lCodes dLens dCodes i n) := by
  induction n generalizing i with
  | zero => exact guards_pure _
  | succ n ih => exact guards_get_bind fun _ => guards_bind (h.sendToken _ _ _ _ _ _) fun _ => ih _

theorem compressBlock (lLens lCodes dLens dCodes : List Nat) :
    Guards P C (compressBlock lLens lCodes dLens dCodes) :=
  guards_get_bind fun _ => guards_bind (h.sendTokens _ _ _ _ _ _) fun _ => h.sendCode _ _ _

theorem sendItems (bl : BuiltTree) (items : List BlItem) : Guards P C (sendItems bl items) := by
  induction items with
  | nil => exact guards_pure _
  | cons x xs ih => exact guards_bind (h.sendCode _ _ _) fun _ => guards_bind (h.sendExtra _ _) fun _ => ih

theorem sendBlLengths (bl : BuiltTree) (symbols : List Nat) : Guards P C (sendBlLengths bl symbols) := by
  induction symbols with
  | nil => exact guards_pure _
  | cons x xs ih => exact guards_bind (h.sendBits _ _) fun _ => ih

theorem dynamicBlock (l d bl : BuiltTree) (maxIndex : Nat) (last : Bool) :
    Guards P C (dynamicBlock l d bl maxIndex last) :=
  guards_bind (h.sendBits _ _) fun _ => guards_bind (guards_require _ _) fun _ =>
    guards_bind (h.sendBits _ _) fun _ => guards_bind (h.sendBits _ _) fun _ =>
    guards_bind (h.sendBits _ _) fun _ => guards_bind (h.sendBlLengths _ _) fun _ =>
    guards_bind (h.sendItems _ _) fun _ => guards_bind (h.sendItems _ _) fun _ => h.compressBlock _ _ _ _

theorem emitBlock (l d bl : BuiltTree) (maxIndex : Nat) (last : Bool) :
    Guards P C (emitBlock l d bl maxIndex last) := by
  refine guards_get_bind fun s => ?_
  cases chooseBlock s with
  | stored => exact h.storedBlock _ _ _
  | static => exact guards_bind (h.sendBits _ _) fun _ => h.compressBlock _ _ _ _
  | dynamic => exact h.dynamicBlock _ _ _ _ _

theorem buildTree (k : TreeKind) : Guards P C (buildTree k) :=
  h.quiet fun _ => wp_buildTree k _ (fun _ _ => .of_eq rfl) fun _ => trivial

theorem scanTree (lens : List Nat) (maxCode : Nat) : Guards P C (scanTree lens maxCode) :=
  h.quiet fun _ => (wp_scanTree _ _ _).mpr ⟨fun _ => .of_eq rfl, fun _ => trivial⟩

theorem flushBlock (last : Bool) : Guards P C (flushBlock last) :=
  guards_bind (h.buildTree _) fun _ => guards_bind (h.buildTree _) fun _ =>
    guards_bind (guards_bind (h.scanTree _ _) fun _ => guards_bind (h.scanTree _ _) fun _ =>
      guards_bind (h.buildTree _) fun _ => guards_bind (h.modify fun _ => .of_eq rfl) fun _ => guards_pure _) fun _ =>
    guards_bind (h.emitBlock _ _ _ _ _) fun _ => guards_bind (h.update fun _ => ⟨(), _, rfl, .of_eq rfl⟩) fun _ =>
    guards_bind (guards_doIf _ h.align) fun _ => h.update fun _ => ⟨(), _, rfl, .of_eq rfl⟩

/-! ### One position -/

theorem insertString (p : Nat) : Guards P C (insertString p) :=
  h.quiet fun _ => (wp_insertString p _).mpr ⟨fun _ => .of_eq rfl, fun _ => trivial⟩

theorem longestMatch (c : Nat) : Guards P C (longestMatch c) :=
  h.quiet fun s => wp_imp (wp_longestMatch c s) fun _ t ⟨ht, _⟩ => by
    rw [ht]
    exact .of_eq rfl

theorem setMatchLength (n : Nat) : Guards P C (setMatchLength n) := h.update fun _ => ⟨(), _, rfl, .of_eq rfl⟩

theorem evaluatePosition : Guards P C evaluatePosition :=
  guards_bind (guards_get_bind fun _ => guards_ite (h.insertString _) (guards_pure _)) fun _ =>
    guards_bind (h.update fun _ => ⟨(), _, rfl, .of_eq rfl⟩) fun _ => guards_get_bind fun _ =>
      guards_ite (guards_bind (h.longestMatch _) fun _ => guards_bind (h.setMatchLength _) fun _ =>
        guards_get_bind fun _ => guards_doIf _ (h.setMatchLength _)) (guards_pure _)

theorem tallyLiteral (c : Byte) : Guards P C (tallyLiteral c) :=
  h.quiet fun _ => (wp_tallyLiteral c _).mpr
    ⟨fun _ => ⟨fun _ => .of_eq rfl, fun _ => trivial⟩, fun _ => trivial⟩

/-- A byte that becomes a token goes from the lookahead to the bytes before it (R115, R117). -/
theorem advance : Guards P C advance :=
  h.quiet fun s => (wp_advance _).mpr ⟨fun h1 => ⟨rfl, rfl, rfl, rfl, rfl, rfl, rfl, by
    show s.strstart + 1 + (s.lookahead - 1) = _
    omega⟩, fun _ => trivial⟩

theorem emitPendingLiteral : Guards P C emitPendingLiteral :=
  guards_get_bind fun _ => guards_bind (guards_readWindow _) fun _ => guards_bind (h.tallyLiteral _) fun _ =>
    guards_bind (guards_doIf _ (h.flushBlock _)) fun _ => h.advance

/-- The bytes of a match go from the lookahead to the bytes before it before anything is sent (R116). -/
theorem emitDeferredMatch {s : State} (hp : P s) (hlen : MIN_MATCH ≤ s.prevLength) :
    wp emitDeferredMatch (fun _ t => P t) C True s := by
  have h3 : MIN_MATCH = 3 := rfl
  rw [Machine.emitDeferredMatch, wp_bind, wp_get, wp_bind, wp_tallyDistance]
  refine ⟨fun _ => ⟨fun _ => ⟨fun _ => ?_, fun _ => trivial⟩, fun _ => trivial⟩, fun _ => trivial⟩
  rw [wp_bind, shrinkLookahead, wp_bind, wp_get, wp_bind, wp_require, wp_set]
  refine ⟨fun hle => ?_, fun _ => trivial⟩
  have hle : s.prevLength - 1 ≤ s.lookahead := of_decide_eq_true hle
  rw [wp_bind]
  refine wp_mono (insertCovered_spec (F := True) _ (.inl trivial) _ _) (fun _ u hu => ?_) (fun _ _ h => h.elim) id
  rw [wp_bind, wp_closeMatch]
  refine guards_doIf _ (h.flushBlock _) _ (h.still s _ ?_ hp)
  rw [hu.frame]
  refine ⟨rfl, rfl, rfl, rfl, rfl, rfl, rfl, ?_⟩
  show s.strstart + (s.prevLength - 2) + 1 + (s.lookahead - (s.prevLength - 1)) = _
  omega

theorem emitPosition : Guards P C emitPosition := fun s hp => by
  rw [Machine.emitPosition, wp_bind, wp_get, wp_ite, wp_ite]
  exact ⟨fun hm => h.emitDeferredMatch hp hm.1, fun _ => ⟨fun _ => h.emitPendingLiteral s hp,
    fun _ => guards_bind (h.modify fun _ => .of_eq rfl) (fun _ => h.advance) s hp⟩⟩

theorem finishDrain : Guards P C finishDrain :=
  guards_bind (guards_get_bind fun _ => guards_ite (guards_bind (guards_readWindow _) fun _ =>
    guards_bind (h.tallyLiteral _) fun _ => h.modify fun _ => .of_eq rfl) (guards_pure _)) fun _ => h.flushBlock _

/-! ### The loop and the framing -/

theorem setPhase (p : Phase) : Guards P C (setPhase p) := h.update fun _ => ⟨(), _, rfl, .of_eq rfl⟩

theorem deflateFrom (hfill : Guards P C fillWindow) (finish : Bool) (fuel : Nat) :
    Guards P C (deflateFrom finish fuel) := by
  have htop : Guards P C (loopTop finish) :=
    guards_get_bind fun _ => guards_bind (guards_require _ _) fun _ =>
      guards_ite (guards_bind hfill fun _ => guards_get_bind fun _ =>
        guards_ite (guards_pure _) (guards_ite (guards_pure _) (guards_pure _))) (guards_pure _)
  induction fuel with
  | zero => exact guards_internalFault _
  | succ fuel ih =>
    refine guards_bind htop fun top => ?_
    cases top with
    | needsInput => exact guards_pure _
    | consumed => exact guards_bind (h.setPhase _) fun _ => h.finishDrain
    | position => exact guards_bind h.evaluatePosition fun _ => guards_bind h.emitPosition fun _ => ih

theorem deflateLoop (hfill : Guards P C fillWindow) (finish : Bool) : Guards P C (deflateLoop finish) :=
  guards_get_bind fun _ => h.deflateFrom hfill _ _

theorem enterBusy : Guards P C enterBusy :=
  guards_get_bind fun _ => guards_ite (guards_bind (guards_doIf _ (guards_bind (h.outByte _) fun _ => h.outByte _))
    fun _ => h.setPhase _) (guards_pure _)

theorem trailer : Guards P C trailer :=
  guards_get_bind fun _ => guards_ite (guards_bind (h.putShortMSB _) fun _ => h.putShortMSB _) (guards_pure _)

end Streaming

/-! ### FillWindow and the commands' bodies -/

/-- FillWindow (R97) but for what a slide and a read do to the property. -/
theorem guards_fillWindow (h : Streaming P C) (hslide : ∀ s, slideDue s = true → P s → P s.slid)
    (hread : ∀ s n, P s → s.feed ≠ [] →
      wp (readBytes (s.strstart + s.lookahead) n) (fun _ t => P { t with lookahead := t.lookahead + n }) C True s) :
    Guards P C fillWindow := by
  have hseed : Guards P C reseedHash := guards_get_bind fun _ => guards_ite
    (guards_bind (guards_readWindow _) fun _ => guards_bind (guards_readWindow _) fun _ =>
      h.update fun _ => ⟨(), _, rfl, .of_eq rfl⟩) (guards_pure _)
  have hpass : Guards P C fillPass := fun s hp => by
    rw [fillPass, wp_bind, wp_get, wp_bind, wp_require]
    refine ⟨fun _ => ?_, fun _ => trivial⟩
    have hslid : wp (doIf (slideDue s) slide) (fun _ t => P t) C True s :=
      (wp_doIf _ _ _).mpr ⟨fun hd => (wp_slide _).mpr (hslide s hd hp), fun _ => hp⟩
    refine (wp_bind _ _ _).mpr (wp_imp hslid fun _ u hu => ?_)
    rw [wp_bind, wp_get, wp_ite, wp_pure]
    refine ⟨fun _ => hu, fun hf => ?_⟩
    rw [wp_bind, readBuf, wp_bind, wp_get, wp_bind]
    refine wp_imp (hread u _ hu hf) fun _ v hv => ?_
    rw [wp_pure, wp_bind, wp_growLookahead]
    exact guards_bind hseed (fun _ => guards_get_bind fun _ => guards_pure _) _ hv
  refine guards_get_bind fun s => ?_
  generalize s.feed.length + 1 = fuel
  induction fuel with
  | zero => exact guards_internalFault _
  | succ fuel ih => exact guards_bind hpass fun _ => guards_ite ih (guards_pure _)

/-- The body of FINALIZE (R174): it returns OK where it raises nothing. -/
theorem finalizeBody_streams (h : Streaming P C) (hfill : Guards P C fillWindow)
    (hinvalid : ∀ s, P s → C .invalidState (s.raiseError .invalidState)) {s : State} (hp : P s) :
    wp finalizeBody (fun code t => code = .ok ∧ P t) C True s := by
  rw [finalizeBody, wp_bind, wp_checkSession]
  refine ⟨fun _ => trivial, fun _ _ => ?_, fun _ _ => hinvalid s hp⟩
  have hrun := guards_bind h.enterBusy (fun _ => guards_bind (h.deflateLoop hfill true) fun _ =>
    guards_bind h.trailer fun _ => h.setPhase .done) s hp
  simp only [wp_bind] at hrun
  simp only [wp_bind, wp_pure, true_and]
  exact hrun

/-- The body of PROCESS (R172, R173), with one property up to the load of the feed and another one after it. Where it
raises nothing it returns OK, and the feed is used up. -/
theorem processBody_streams {P' : State → Prop} (h : Streaming P C) (h' : Streaming P' C)
    (hload : ∀ s, P s → P' { s with feed := s.payload }) (hfill : Guards P' C fillWindow)
    (hinvalid : ∀ s, P s → C .invalidState (s.raiseError .invalidState)) {s : State} (hp : P s) :
    wp processBody (fun code t => code = .ok ∧ (s.payload = [] → t = s) ∧ (s.payload ≠ [] → P' t ∧ t.feed = [])) C True
      s := by
  rw [processBody, wp_bind, wp_checkSession]
  refine ⟨fun _ => trivial, fun _ _ => ?_, fun _ _ => hinvalid s hp⟩
  rw [wp_bind, wp_get, wp_ite, wp_pure]
  refine ⟨fun hnil => ⟨rfl, fun _ => rfl, fun hn => absurd hnil hn⟩, fun hdata => ?_⟩
  rw [wp_bind]
  refine wp_imp (h.enterBusy s hp) fun _ t ht => ?_
  rw [wp_bind, wp_loadFeed, wp_bind]
  have hreads : ∀ u, wp (deflateLoop false) (fun _ v => v.feed = []) (fun _ _ => True) True u := fun u => by
    rw [deflateLoop, wp_bind, wp_get]
    exact wp_imp (deflateFrom_reads _ u) fun _ _ hv => hv.1
  refine wp_mono (wp_and (h'.deflateLoop hfill false _ (hload t ht)) (hreads _)) (fun _ v ⟨hv, hfeed⟩ => ?_)
    (fun _ _ hc => hc.1) fun _ => trivial
  rw [wp_bind]
  refine wp_mono (wp_and (h'.endFlush v hv) (endFlush_spec (F := True) v (.inl trivial))) (fun _ w ⟨hw, hframe, _⟩ => ?_)
    (fun _ _ hc => hc.1) fun _ => trivial
  refine (wp_pure _).mpr ⟨rfl, fun hn => absurd hn hdata, fun _ => ⟨hw, ?_⟩⟩
  rw [hframe.eq]
  exact hfeed

end Sys2Proof.Proofs
end

section
/-!
PROOFS. The output stream and the sink (spec/20_memory.md R52 to R54, spec/46_control.md R175): what a command delivers and
which of the sink's answers it takes; and the command that a step runs (R166).
-/

namespace Sys2Proof.Proofs

open Sys2Proof.Machine Sys2Proof.Laws

variable {s t : State} {code : ResultCode}

/-! ### The sink's answers -/

/-- From `s` to `t` the sink accepted every byte offered (R54): one answer went for each, as far as answers were listed. -/
def Accepted (s t : State) : Prop :=
  ∃ bytes : List Byte, t.out = s.out ++ bytes ∧ t.sink = s.sink.drop bytes.length ∧
    false ∉ s.sink.take bytes.length

/-- From `s` to `t` the sink accepted every byte offered but the last, which it refused (R185). -/
def Refused (s t : State) : Prop :=
  ∃ bytes : List Byte, t.out = s.out ++ bytes ∧ s.sink = List.replicate bytes.length true ++ false :: t.sink

/-- What the sink answered by the end of a command that returns `code`. -/
def SinkAnswered (s : State) (code : ResultCode) (t : State) : Prop :=
  (code = .streamError → Refused s t) ∧ (code ≠ .streamError → Accepted s t)

theorem Accepted.of_eq (hout : t.out = s.out) (hsink : t.sink = s.sink) : Accepted s t :=
  ⟨[], by rw [hout, List.append_nil], hsink, List.not_mem_nil⟩

theorem Accepted.answered (h : Accepted s t) (hcode : code ≠ .streamError) : SinkAnswered s code t :=
  ⟨fun hc => absurd hc hcode, fun _ => h⟩

theorem Refused.answered (h : Refused s t) : SinkAnswered s .streamError t :=
  ⟨fun _ => h, fun hc => absurd rfl hc⟩

/-- Answers none of which is a refusal are acceptances. -/
theorem eq_replicate_true {l : List Bool} (h : false ∉ l) : l = List.replicate l.length true :=
  List.eq_replicate_iff.mpr ⟨rfl, fun b hb => by
    cases b with
    | true => rfl
    | false => exact absurd hb h⟩

/-- One more byte accepted (R54): the list of answers is at its end, or its next answer is taken. -/
theorem Accepted.snoc (h : Accepted s t) (hnext : false ∉ t.sink.take 1) (b : Byte) :
    Accepted s { t with out := t.out ++ [b], sink := t.sink.tail } := by
  obtain ⟨bytes, hout, hsink, htake⟩ := h
  have hlen : (bytes ++ [b]).length = bytes.length + 1 := List.length_append
  refine ⟨bytes ++ [b], ?_, ?_, ?_⟩
  · rw [← List.append_assoc, ← hout]
  · rw [hlen, ← List.tail_drop, ← hsink]
  · rw [hlen, List.take_add, ← hsink, List.mem_append]
    exact not_or.mpr ⟨htake, hnext⟩

/-- The next byte is refused (R185): each byte before it had an answer of its own. -/
theorem Accepted.refuse {answers : List Bool} (h : Accepted s t) (hs : t.sink = false :: answers) :
    Refused s { t with sink := answers, result := .streamError, failed := true } := by
  obtain ⟨bytes, hout, hsink, htake⟩ := h
  rw [hsink] at hs
  have hlisted : bytes.length ≤ s.sink.length := by
    by_contra hlt
    rw [List.drop_eq_nil_of_le (by omega)] at hs
    cases hs
  have haccepts := eq_replicate_true htake
  rw [List.length_take_of_le hlisted] at haccepts
  refine ⟨bytes, hout, ?_⟩
  rw [← haccepts, ← hs, List.take_append_drop]

theorem accepted_outByte (b : Byte) : Guards (Accepted s) (SinkAnswered s) (outByte b) := by
  intro t h
  unfold wp outByte
  cases hs : t.sink with
  | nil =>
    have := h.snoc (by simp [hs]) b
    rwa [hs] at this
  | cons answer answers =>
    cases answer with
    | true =>
      have := h.snoc (by simp [hs]) b
      rwa [hs] at this
    | false =>
      have := (h.refuse hs).answered
      simpa [raise, State.raiseError, ResultCode.setsFailed] using this

theorem streaming_accepted (s : State) : Streaming (Accepted s) (SinkAnswered s) where
  still t u h := by
    rintro ⟨bytes, hout, hsink, htake⟩
    exact ⟨bytes, h.out.trans hout, h.sink.trans hsink, htake⟩
  outByte := accepted_outByte

theorem accepted_fillWindow (s : State) : Guards (Accepted s) (SinkAnswered s) fillWindow := by
  refine guards_fillWindow (streaming_accepted s) (fun _ _ h => h) fun t n h _ => ?_
  refine wp_mono (readBytes_frame _ n t) (fun _ u ⟨hu, _⟩ => ?_) (fun _ _ hf => hf.elim) id
  rw [hu]
  exact h

/-- A command stopped by InvalidState offers nothing (R184). -/
theorem accepted_invalidState (h : Accepted s t) : SinkAnswered s .invalidState (t.raiseError .invalidState) :=
  Accepted.answered h nofun

theorem processBody_answered (s : State) : wp processBody (SinkAnswered s) (SinkAnswered s) True s := by
  have hs := streaming_accepted s
  refine wp_imp (processBody_streams hs hs (fun _ h => h) (accepted_fillWindow s) (fun _ => accepted_invalidState)
    (.of_eq rfl rfl)) fun code t ⟨hcode, hnil, hdata⟩ => ?_
  subst hcode
  refine Accepted.answered ?_ nofun
  by_cases hp : s.payload = []
  · exact .of_eq (by rw [hnil hp]) (by rw [hnil hp])
  · exact (hdata hp).1

theorem finalizeBody_answered (s : State) : wp finalizeBody (SinkAnswered s) (SinkAnswered s) True s :=
  wp_imp (finalizeBody_streams (streaming_accepted s) (accepted_fillWindow s) (fun _ => accepted_invalidState)
    (.of_eq rfl rfl)) fun _ _ ⟨hcode, h⟩ => h.answered (hcode ▸ nofun)

/-! ### What a command delivers -/

/-- What a command answers of the sink and the output stream from `s`: it delivers what it appends, and the sink answered
each byte of it. -/
def Delivers (s t : State) : Prop :=
  ∃ r, t.response = some r ∧ t.out = s.out ++ r.delivered ∧
    (r.code = .streamError → s.sink = List.replicate r.delivered.length true ++ false :: t.sink) ∧
      (r.code ≠ .streamError → t.sink = s.sink.drop r.delivered.length ∧ false ∉ s.sink.take r.delivered.length)

theorem SinkAnswered.delivers (h : SinkAnswered s code t) : Delivers s (t.complete s.out code) := by
  refine ⟨⟨code, none, t.out.drop s.out.length⟩, rfl, ?_⟩
  have hdrop : ∀ bytes, t.out = s.out ++ bytes → t.out.drop s.out.length = bytes := fun bytes ht => by
    rw [ht, List.drop_left]
  by_cases hc : code = .streamError
  · obtain ⟨bytes, hout, hsink⟩ := h.1 hc
    rw [hdrop bytes hout]
    exact ⟨hout, fun _ => hsink, fun hn => absurd hc hn⟩
  · obtain ⟨bytes, hout, hsink, htake⟩ := h.2 hc
    rw [hdrop bytes hout]
    exact ⟨hout, fun hs => absurd hs hc, fun _ => ⟨hsink, htake⟩⟩

theorem runCommand_delivers {need : Nat} {body : M ResultCode} (h : wp body (SinkAnswered s) (SinkAnswered s) True s)
    (hn : runCommand need body s = .next t) : Delivers s t := by
  obtain ⟨-, ⟨code, u, hu, rfl⟩ | ⟨code, u, hu, rfl⟩⟩ := runCommand_next h hn <;> exact hu.delivers

theorem exec_delivers {i : Instr} (hn : exec i s = .next t) : Delivers s t := by
  cases i with
  | init framing =>
    rw [execInit_next hn]
    have h : Accepted s (s.restarted framing) := .of_eq rfl rfl
    exact (h.answered (code := .ok) nofun).delivers
  | process len => exact runCommand_delivers (processBody_answered s) hn
  | finalize => exact runCommand_delivers (finalizeBody_answered s) hn
  | status =>
    rw [execStatus_next hn]
    exact ⟨_, rfl, (List.append_nil _).symm, nofun, fun _ => ⟨rfl, List.not_mem_nil⟩⟩

/-- Settles O23: a command appends what it delivers, and a step that runs no command is a reset or idle. -/
theorem outputIsDelivered : Obligations.OutputIsDelivered := by
  unfold Obligations.OutputIsDelivered
  refine ⟨fun i s t hn => ?_, fun s t hn hnone => ?_⟩
  · obtain ⟨r, hr, hout, -⟩ := exec_delivers hn
    exact ⟨r, hr, hout⟩
  · obtain rfl | ⟨rest, -, rfl⟩ | ⟨c, rest, i, hq, -, -⟩ := step_next hn
    · rfl
    · rfl
    · exact absurd hq (hnone c rest)

/-- Settles O24, from what a command answers of the sink. -/
theorem oneSinkAnswerPerByte : Obligations.OneSinkAnswerPerByte := by
  unfold Obligations.OneSinkAnswerPerByte
  intro i s t r hn hr
  obtain ⟨r', hr', -, hanswers⟩ := exec_delivers hn
  cases hr'.symm.trans hr
  exact hanswers

/-! ### The command a step runs -/

/-- Settles O6: the queue's head is the command, and its decoding selects the last arm of `step`. -/
theorem stepRunsDecodedCommand : Obligations.StepRunsDecodedCommand := by
  unfold Obligations.StepRunsDecodedCommand
  intro s c rest i hq hd
  simp only [step, hq, hd, State.issue, List.tail_cons]

end Sys2Proof.Proofs
end

section
/-!
PROOFS. The window (spec/40_window.md R91 to R99) while no slide is due: PROCESS stores its data at the end of the lookahead
and FINALIZE stores nothing.
-/

namespace Sys2Proof.Proofs

open Sys2Proof.Machine Sys2Proof.Laws

variable {s t : State}

/-! ### FINALIZE -/

/-- Since `s` no byte was read (R53), and none of the window was moved unless a slide could become due. -/
structure Unread (s t : State) : Prop where
  feed : t.feed = []
  adlerA : t.adlerA = s.adlerA
  adlerB : t.adlerB = s.adlerB
  window : s.strstart + s.lookahead < W + MAX_DIST →
    t.window = s.window ∧ t.strstart + t.lookahead = s.strstart + s.lookahead

theorem streaming_unread (s : State) : Streaming (Unread s) fun _ => Unread s where
  still _ _ h hu := ⟨h.feed.trans hu.feed, h.adlerA.trans hu.adlerA, h.adlerB.trans hu.adlerB, fun hlt =>
    ⟨h.window.trans (hu.window hlt).1, h.ends.trans (hu.window hlt).2⟩⟩
  outByte b _ h := wp_outByte b _ (fun _ => ⟨h.feed, h.adlerA, h.adlerB, h.window⟩) fun _ =>
    ⟨h.feed, h.adlerA, h.adlerB, h.window⟩

/-- FillWindow without input may slide, and does nothing else (R99). -/
theorem unread_fillWindow (s : State) : Guards (Unread s) (fun _ => Unread s) fillWindow := by
  refine guards_fillWindow (streaming_unread s) (fun t hdue h => ⟨h.feed, h.adlerA, h.adlerB, fun hlt => ?_⟩)
    fun t n h hf => absurd h.feed hf
  have hstart : W + MAX_DIST ≤ t.strstart := of_decide_eq_true hdue
  have hends := (h.window hlt).2
  omega

/-- Settles O33: FINALIZE reads no byte, and only a slide moves bytes of the window. -/
theorem finalizeWindowFrame : Obligations.FinalizeWindowFrame := by
  unfold Obligations.FinalizeWindowFrame
  intro s t hn hfeed
  have hstart : Unread s s := ⟨hfeed, rfl, rfl, fun _ => ⟨rfl, rfl⟩⟩
  have hbody := finalizeBody_streams (streaming_unread s) (unread_fillWindow s)
    (fun t h => (streaming_unread s).still t _ (.of_eq rfl) h) hstart
  have hend : Unread s t := by
    obtain ⟨-, ⟨code, u, ⟨-, hu⟩, rfl⟩ | ⟨code, u, hu, rfl⟩⟩ := runCommand_next hbody hn <;>
      exact ⟨rfl, hu.adlerA, hu.adlerB, hu.window⟩
  exact ⟨hend.adlerA, hend.adlerB, fun hlt a => by rw [(hend.window hlt).1]⟩

/-! ### PROCESS -/

/-- The memory `m` with `bytes` stored from entry `p` on, read at entry `a`. -/
def readStored (m : Memory 8) (p : Nat) (bytes : List Byte) (a : Nat) : Byte :=
  if p ≤ a ∧ a < p + bytes.length then bytes.getD (a - p) 0 else m.read a

theorem readStored_nil (m : Memory 8) (p a : Nat) : readStored m p [] a = m.read a := if_neg fun h => by
  have := h.2
  simp only [List.length_nil] at this
  omega

/-- Storing more bytes after some that were stored. -/
theorem readStored_append {m m' : Memory 8} {p : Nat} {bytes more : List Byte}
    (h : ∀ a, m'.read a = readStored m p bytes a) (a : Nat) :
    readStored m' (p + bytes.length) more a = readStored m p (bytes ++ more) a := by
  simp only [readStored, h, List.length_append]
  by_cases hmore : p + bytes.length ≤ a ∧ a < p + bytes.length + more.length
  · rw [if_pos hmore, if_pos (by omega), List.getD_append_right _ _ _ _ (by omega)]
    congr 1
    omega
  · rw [if_neg hmore]
    by_cases hold : p ≤ a ∧ a < p + bytes.length
    · rw [if_pos hold, if_pos (by omega), List.getD_append _ _ _ _ (by omega)]
    · rw [if_neg hold, if_neg (by omega)]

/-- The bytes that ReadBuf moves are stored in their order (R96). -/
theorem readBytes_stores (p n : Nat) (s : State) (hw : s.window.wf WIN = true) :
    wp (readBytes p n)
      (fun _ t => t.window.wf WIN = true ∧ ∀ a, t.window.read a = readStored s.window p (s.feed.take n) a)
      (fun _ _ => False) True s := by
  induction n generalizing p s with
  | zero => exact (wp_pure _).mpr ⟨hw, fun a => (readStored_nil _ _ _).symm⟩
  | succ n ih =>
    rw [readBytes, wp_bind]
    refine wp_inRead _ (fun b rest hf => ?_) fun _ => trivial
    rw [wp_bind, wp_writeWindow]
    refine ⟨fun hp => ?_, fun _ => trivial⟩
    rw [wp_bind, wp_adlerUpdate]
    refine wp_imp (ih (p + 1) _ (wf_write b hw hp)) fun _ t ⟨htw, ht⟩ => ⟨htw, fun a => (ht a).trans ?_⟩
    rw [hf, List.take_succ_cons]
    refine readStored_append (bytes := [b]) (fun a => ?_) a
    rw [read_write hw, readStored]
    by_cases ha : a = p
    · rw [if_pos ha, if_pos (by simp only [List.length_singleton]; omega), ha, Nat.sub_self]
      rfl
    · rw [if_neg ha, if_neg (by simp only [List.length_singleton]; omega)]

/-- Of the bytes `data`, those that have left the feed of `t` are stored in the window `m` from `e` on, and the lookahead
of `t` ends after them. -/
structure Buffered (m : Memory 8) (e : Nat) (data : List Byte) (t : State) : Prop where
  wf : t.window.wf WIN = true
  stored : ∃ bytes, data = bytes ++ t.feed ∧ t.strstart + t.lookahead = e + bytes.length ∧
    ∀ a, t.window.read a = readStored m e bytes a

section

variable {m : Memory 8} {e : Nat} {data : List Byte}

/-- The window holds what `m` holds but for the `n` bytes from `e` on. -/
def Outside (m : Memory 8) (e n : Nat) (t : State) : Prop :=
  ∀ a, (a < e ∨ e + n ≤ a) → t.window.read a = m.read a

theorem Buffered.outside (h : Buffered m e data t) : Outside m e data.length t := fun a ha => by
  obtain ⟨bytes, hdata, -, hread⟩ := h.stored
  have hlen : data.length = bytes.length + t.feed.length := by rw [hdata, List.length_append]
  rw [hread, readStored, if_neg (by omega)]

/-- Once the feed is used up, all the data is in its place. -/
theorem Buffered.inside (h : Buffered m e data t) (hfeed : t.feed = []) {i : Nat} (hi : i < data.length) :
    t.window.read (e + i) = data.getD i 0 := by
  obtain ⟨bytes, hdata, -, hread⟩ := h.stored
  rw [hfeed, List.append_nil] at hdata
  subst hdata
  rw [hread, readStored, if_pos (by omega), Nat.add_sub_cancel_left]

theorem Buffered.still {u : State} (h : Buffered m e data t) (hs : Still t u) : Buffered m e data u := by
  obtain ⟨hw, bytes, hdata, hends, hread⟩ := h
  exact ⟨hs.window ▸ hw, bytes, hs.feed ▸ hdata, hs.ends.trans hends, hs.window ▸ hread⟩

/-- Where PROCESS raises, the code is not OK, and no byte outside the data's place was written. -/
theorem streaming_buffered (m : Memory 8) (e : Nat) (data : List Byte) :
    Streaming (Buffered m e data) fun code t => code ≠ .ok ∧ Outside m e data.length t where
  still _ _ hs h := h.still hs
  outByte b _ h := wp_outByte b _ (fun _ => ⟨h.wf, h.stored⟩) fun _ => ⟨nofun, h.outside⟩

/-- The same before the feed is loaded, while the data is still on the port (R172). -/
theorem streaming_unloaded (m : Memory 8) (e : Nat) (data : List Byte) :
    Streaming (fun t => Buffered m e data { t with feed := t.payload })
      fun code t => code ≠ .ok ∧ Outside m e data.length t where
  still _ _ hs h := h.still ⟨hs.window, hs.payload, hs.payload, hs.adlerA, hs.adlerB, hs.out, hs.sink, hs.ends⟩
  outByte b _ h := wp_outByte b _ (fun _ => ⟨h.wf, h.stored⟩) fun _ => ⟨nofun, h.outside⟩

/-- FillWindow stores what it reads at the end of the lookahead (R97), and with little data no slide is due (R92). -/
theorem buffered_fillWindow (hlt : e + data.length < W + MAX_DIST) :
    Guards (Buffered m e data) (fun code t => code ≠ .ok ∧ Outside m e data.length t) fillWindow := by
  refine guards_fillWindow (streaming_buffered m e data) (fun t hdue ⟨_, bytes, hdata, hends, _⟩ => ?_)
    fun t n ⟨hw, bytes, hdata, hends, hread⟩ _ => ?_
  · have hstart : W + MAX_DIST ≤ t.strstart := of_decide_eq_true hdue
    have hlen : data.length = bytes.length + t.feed.length := by rw [hdata, List.length_append]
    omega
  · refine wp_mono (wp_and (readBytes_frame (t.strstart + t.lookahead) n t) (readBytes_stores _ n t hw))
      (fun _ u ⟨⟨hu, hn⟩, huw, hstored⟩ => ⟨huw, bytes ++ t.feed.take n, ?_, ?_, fun a => ?_⟩) (fun _ _ hf => hf.1.elim)
      fun _ => trivial
    · rw [hu, List.append_assoc, List.take_append_drop]
      exact hdata
    · rw [hu, List.length_append, List.length_take_of_le hn]
      show t.strstart + (t.lookahead + n) = _
      omega
    · rw [hends] at hstored
      exact (hstored a).trans (readStored_append hread a)

end

/-- Settles O32: what has left the feed stands at the end of the lookahead (`Buffered`), and a PROCESS that returns OK has
used the feed up. -/
theorem processWindowFrame : Obligations.ProcessWindowFrame := by
  unfold Obligations.ProcessWindowFrame
  intro len s t hn hw hlt
  have hbefore : Buffered s.window (s.strstart + s.lookahead) s.payload { s with feed := s.payload } :=
    ⟨hw, [], rfl, rfl, fun a => (readStored_nil _ _ a).symm⟩
  have hlen : s.payload.length = len := (runCommand_next (wp_true processBody s) hn).1
  subst hlen
  have hbody := processBody_streams (streaming_unloaded _ _ _) (streaming_buffered _ _ _) (fun _ h => h)
    (buffered_fillWindow hlt) (fun _ h => ⟨nofun, h.outside⟩) hbefore
  obtain ⟨-, ⟨code, u, ⟨-, hnil, hdata⟩, rfl⟩ | ⟨code, u, ⟨hcode, hu⟩, rfl⟩⟩ := runCommand_next hbody hn
  · by_cases hp : s.payload = []
    · rw [hnil hp, hp]
      exact ⟨fun _ _ => rfl, fun _ i hi => absurd hi (Nat.not_lt_zero i)⟩
    · obtain ⟨hu, hfeed⟩ := hdata hp
      exact ⟨hu.outside, fun _ i hi => hu.inside hfeed hi⟩
  · exact ⟨hu, fun hok => absurd hok hcode⟩

end Sys2Proof.Proofs
end

section
/-!
PROOFS. The decoder and the encoder (spec/30_encoding.md R63 to R71): a word decodes to a command exactly if it is the
word of that command.
-/

namespace Sys2Proof.Proofs

open Sys2Proof.Machine Sys2Proof.Laws

variable {w : Word} {i : Instr}

/-! ### The fields of a word -/

theorem opcOf_toNat (w : Word) : (opcOf w).toNat = w.toNat / 2 ^ 28 := by
  have := w.isLt
  rw [opcOf, BitVec.extractLsb'_toNat, Nat.shiftRight_eq_div_pow]
  omega

theorem argOf_toNat (w : Word) : (argOf w).toNat = w.toNat % 2 ^ 28 := by
  rw [argOf, BitVec.extractLsb'_toNat, Nat.shiftRight_zero]

theorem argOf_eq_zero_iff : argOf w = 0 ↔ w.toNat % 2 ^ 28 = 0 := by
  rw [← BitVec.toNat_inj, argOf_toNat]
  rfl

/-- The bits of `ARG` above `F` are clear exactly if `ARG` is 0 or 1 (R64). -/
theorem argOf_upper_eq_zero_iff : (argOf w).extractLsb' 1 27 = 0 ↔ w.toNat % 2 ^ 28 < 2 := by
  rw [← BitVec.toNat_inj, BitVec.extractLsb'_toNat, argOf_toNat, Nat.shiftRight_eq_div_pow]
  show w.toNat % 2 ^ 28 / 2 ^ 1 % 2 ^ 27 = 0 ↔ _
  omega

theorem argOf_lowest_toNat (w : Word) : ((argOf w).getLsbD 0).toNat = w.toNat % 2 := by
  rw [BitVec.getLsbD, Nat.toNat_testBit, argOf_toNat]
  omega

/-! ### The word of a command -/

/-- The number that the word of a command spells: `OPC`, then the operand in `ARG` (R64 to R67). -/
def wordNat : Instr → Nat
  | .init framing => 1 * 2 ^ 28 + framing.toNat
  | .process len => 2 * 2 ^ 28 + len
  | .finalize => 3 * 2 ^ 28
  | .status => 4 * 2 ^ 28

theorem encode_toNat (h : i.wellFormed = true) : (encode i).toNat = wordNat i := by
  cases i with
  | init framing => cases framing <;> rfl
  | process len =>
    have hlen : len < 2 ^ 28 := Nat.lt_succ_of_le (of_decide_eq_true h)
    show (0x20000000 ||| (BitVec.ofNat 28 len).setWidth 32 : Word).toNat = 2 * 2 ^ 28 + len
    rw [BitVec.toNat_or, BitVec.toNat_setWidth, BitVec.toNat_ofNat, Nat.mod_eq_of_lt hlen,
      Nat.mod_eq_of_lt (by omega), Nat.mul_comm, Nat.two_pow_add_eq_or_of_lt hlen]
    rfl
  | finalize => rfl
  | status => rfl

theorem eq_encode_iff (h : i.wellFormed = true) : encode i = w ↔ w.toNat = wordNat i := by
  rw [← BitVec.toNat_inj, encode_toNat h, eq_comm]

/-! ### Decoding -/

/-- What a word that decodes is: its `OPC` names the command and its `ARG` is the operand (R64 to R67). -/
theorem wordNat_of_decodeWord (h : decodeWord w = .ok i) : i.wellFormed = true ∧ w.toNat = wordNat i := by
  unfold decodeWord at h
  rw [opcOf_toNat] at h
  split at h
  case h_1 hopc =>
    split at h
    case isTrue harg =>
      cases h
      rw [argOf_upper_eq_zero_iff] at harg
      refine ⟨rfl, ?_⟩
      show w.toNat = 1 * 2 ^ 28 + ((argOf w).getLsbD 0).toNat
      rw [argOf_lowest_toNat]
      omega
    case isFalse => cases h
  case h_2 hopc =>
    cases h
    refine ⟨decide_eq_true ?_, ?_⟩ 
    · have := (argOf w).isLt
      show (argOf w).toNat ≤ 268435455
      omega
    · show w.toNat = 2 * 2 ^ 28 + (argOf w).toNat
      rw [argOf_toNat]
      omega
  case h_3 hopc =>
    split at h
    case isTrue harg =>
      cases h
      rw [argOf_eq_zero_iff] at harg
      exact ⟨rfl, show w.toNat = 3 * 2 ^ 28 by omega⟩
    case isFalse => cases h
  case h_4 hopc =>
    split at h
    case isTrue harg =>
      cases h
      rw [argOf_eq_zero_iff] at harg
      exact ⟨rfl, show w.toNat = 4 * 2 ^ 28 by omega⟩
    case isFalse => cases h
  case h_5 => cases h

theorem decodeWord_of_wordNat (hwf : i.wellFormed = true) (h : w.toNat = wordNat i) : decodeWord w = .ok i := by
  unfold decodeWord
  rw [opcOf_toNat]
  cases i with
  | init framing =>
    have hw : w.toNat = 1 * 2 ^ 28 + framing.toNat := h
    have hbit := framing.toNat_le
    have harg : (argOf w).extractLsb' 1 27 = 0 := argOf_upper_eq_zero_iff.mpr (by omega)
    have hinj : ∀ a b : Bool, a.toNat = b.toNat → a = b := by decide
    have hlow : (argOf w).getLsbD 0 = framing := hinj _ _ (by rw [argOf_lowest_toNat]; omega)
    rw [show w.toNat / 2 ^ 28 = 1 by omega]
    simp only [harg, if_true, hlow]
  | process len =>
    have hw : w.toNat = 2 * 2 ^ 28 + len := h
    have hlen : len ≤ 268435455 := of_decide_eq_true hwf
    rw [show w.toNat / 2 ^ 28 = 2 by omega]
    simp only [argOf_toNat, show w.toNat % 2 ^ 28 = len by omega]
  | finalize =>
    have hw : w.toNat = 3 * 2 ^ 28 := h
    rw [hw]
    exact if_pos (argOf_eq_zero_iff.mpr (by omega))
  | status =>
    have hw : w.toNat = 4 * 2 ^ 28 := h
    rw [hw]
    exact if_pos (argOf_eq_zero_iff.mpr (by omega))

/-- A word decodes to a command exactly if the command is well formed and the word is its own (R64 to R67, R69). -/
theorem decodeWord_eq_ok_iff : decodeWord w = .ok i ↔ i.wellFormed = true ∧ encode i = w := by
  constructor
  · intro h
    obtain ⟨hwf, hw⟩ := wordNat_of_decodeWord h
    exact ⟨hwf, (eq_encode_iff hwf).mpr hw⟩
  · rintro ⟨hwf, hw⟩
    exact decodeWord_of_wordNat hwf ((eq_encode_iff hwf).mp hw)

theorem decodeWord_encode (h : i.wellFormed = true) : decodeWord (encode i) = .ok i :=
  decodeWord_eq_ok_iff.mpr ⟨h, rfl⟩

theorem decode_encodeCommand (h : i.wellFormed = true) {data : List Byte} (hlen : data.length = i.payloadLength) :
    decode (encodeCommand i data) = .ok i := decode_of_length (decodeWord_encode h) hlen

/-- A table word of 32 bits is the word itself. -/
theorem tableWord_toNat (w : Word) : tableWord 32 w.toNat = w := by
  rw [tableWord, Nat.mod_eq_of_lt w.isLt, BitVec.ofNat_toNat, BitVec.setWidth_eq]

/-- Settles O2, by `decodeWord_eq_ok_iff` at the command's own word. -/
theorem decodeEncodeRoundTrip : Obligations.DecodeEncodeRoundTrip := by
  intro i hwf
  refine ⟨decodeWord_encode hwf, ?_, fun data hlen => decode_encodeCommand hwf hlen⟩
  rw [decodeTableWord, tableWord_toNat, decodeWord_encode hwf]
  rfl

/-- Settles O3, by `decodeWord_eq_ok_iff`. -/
theorem encodeDecodeRoundTrip : Obligations.EncodeDecodeRoundTrip := fun _ _ => decodeWord_eq_ok_iff.mp

/-! ### Match and mask -/

/-- The row of a word that decodes: it matches the pattern of its command under the mask of its command. -/
theorem mask_of_decodeWord (h : decodeWord w = .ok i) : w &&& i.mask = i.pattern := by
  obtain ⟨hwf, rfl⟩ := decodeWord_eq_ok_iff.mp h
  cases i with
  | init framing => exact Encoding.init framing hwf
  | process len => exact Encoding.process len hwf
  | finalize => exact Encoding.finalize hwf
  | status => exact Encoding.status hwf

/-- A word in the row of a well-formed command whose other bits are the command's operand is the word of the command. -/
theorem decodeWord_of_mask (hwf : i.wellFormed = true) (hmask : w &&& i.mask = i.pattern)
    (hoperand : w &&& ~~~ i.mask = i.operandBits) : decodeWord w = .ok i := by
  refine decodeWord_eq_ok_iff.mpr ⟨hwf, ?_⟩
  rw [encode, ← hmask, ← hoperand, ← BitVec.and_or_distrib_left, BitVec.or_not_self, BitVec.and_allOnes]

/-- The operand of INIT is the lowest bit of its word (R64). -/
theorem operand_init (w : Word) : w &&& ~~~ (Instr.init (w.getLsbD 0)).mask = (Instr.init (w.getLsbD 0)).operandBits := by
  apply BitVec.eq_of_toNat_eq
  have hbit := (w.getLsbD 0).toNat_le
  rw [BitVec.toNat_and, Instr.mask, Instr.operandBits, BitVec.toNat_setWidth, BitVec.toNat_ofBool,
    Nat.mod_eq_of_lt (by omega), BitVec.getLsbD, Nat.toNat_testBit, Nat.pow_zero, Nat.div_one]
  have hmask : (~~~ (0xFFFFFFFE : Word)).toNat = 1 := by decide
  rw [hmask, Nat.and_one_is_mod]

/-- The operand of PROCESS is the number in the low 28 bits of its word (R65). -/
theorem operand_process (w : Word) :
    w &&& ~~~ (Instr.process (w.toNat % 2 ^ 28)).mask = (Instr.process (w.toNat % 2 ^ 28)).operandBits := by
  apply BitVec.eq_of_toNat_eq
  rw [BitVec.toNat_and, Instr.mask, Instr.operandBits, BitVec.toNat_setWidth, BitVec.toNat_ofNat, Nat.mod_mod,
    Nat.mod_eq_of_lt (a := w.toNat % 2 ^ 28) (by omega)]
  have hmask : (~~~ (0xF0000000 : Word)).toNat = 2 ^ 28 - 1 := by decide
  rw [hmask, Nat.and_two_pow_sub_one_eq_mod]

/-- Settles O4: a word in a row is the word of the row's command, and a word that decodes lies in the row of its
command. -/
theorem decodeByMatchAndMask : Obligations.DecodeByMatchAndMask := by
  intro w
  refine ⟨fun h => decodeWord_of_mask rfl h (operand_init w), fun h => decodeWord_of_mask ?_ h (operand_process w),
    fun h => ?_, fun h => ?_, fun hinit hprocess hfinalize hstatus => ?_⟩
  · exact decide_eq_true (Nat.le_of_lt_succ (Nat.mod_lt _ (by decide)))
  · exact decodeWord_of_mask (i := .finalize) rfl h (BitVec.and_zero)
  · exact decodeWord_of_mask (i := .status) rfl h (BitVec.and_zero)
  · cases h : decodeWord w with
    | error why => exact ⟨why, rfl⟩
    | ok i =>
      have hrow := mask_of_decodeWord h
      cases i with
      | init framing => exact absurd hrow hinit
      | process len => exact absurd hrow hprocess
      | finalize => exact absurd hrow hfinalize
      | status => exact absurd hrow hstatus

/-! ### COMPRESS and the words of the spec -/

/-- Settles O5: each command that COMPRESS stands for is a well-formed one with as many data bytes as it asks for. -/
theorem compressExpands : Obligations.CompressExpands := by
  intro framing data hlen
  have hinit : decode (encodeCommand (.init framing) []) = .ok (.init framing) := decode_encodeCommand rfl rfl
  have hprocess : decode (processCommand data) = .ok (.process data.length) :=
    decode_encodeCommand (i := .process data.length) (decide_eq_true hlen) rfl
  have hfinalize : decode (encodeCommand .finalize []) = .ok .finalize := decode_encodeCommand rfl rfl
  unfold compressCommands
  by_cases hdata : data = []
  · rw [if_pos hdata, if_pos hdata]
    simp only [List.map_cons, List.map_nil, List.cons_append, List.nil_append, hinit, hfinalize]
    rfl
  · rw [if_neg hdata, if_neg hdata]
    simp only [List.map_cons, List.map_nil, List.cons_append, List.nil_append, hinit, hprocess, hfinalize]
    rfl

/-- Settles O1, word by word. -/
theorem decodeSpecWords : Obligations.DecodeSpecWords := by
  unfold Obligations.DecodeSpecWords
  decide

end Sys2Proof.Proofs
end

section
/-!
PROOFS. The code tables (spec/30_encoding.md R77 to R90) and the canonical codes (spec/44_huffman.md R137): the length and
distance codes are the greatest ones at or below their argument, and no code of a tree begins another as the bits are sent.
-/

namespace Sys2Proof.Proofs

open Sys2Proof.Machine Sys2Proof.Laws

/-! ### Length and distance codes -/

/-- In a rising list no base at or below `x` stands behind the one that `lastBaseLe` finds. -/
theorem le_lastBaseLe {bases : List Nat} (hrising : bases.Pairwise (· ≤ ·)) {x c : Nat} (hc : c < bases.length)
    (hx : bases.getD c 0 ≤ x) : c ≤ lastBaseLe bases x := by
  by_contra hlt
  rw [lastBaseLe] at hlt
  have hstop : (bases.takeWhile fun b => decide (b ≤ x)).length ≤ c := by omega
  have habove := takeWhile_stop (bases := bases) (x := x) (by omega)
  rw [List.getD_eq_getElem _ _ hc] at hx
  rw [List.getD_eq_getElem _ _ (by omega)] at habove
  have hle : bases[(bases.takeWhile fun b => decide (b ≤ x)).length] ≤ bases[c] := by
    rcases Nat.lt_or_eq_of_le hstop with h | h
    · exact List.pairwise_iff_getElem.mp hrising _ _ _ hc h
    · simp only [h, Nat.le_refl]
  omega

theorem lengthCode_of_le {len : Nat} (h : len ≤ 257) :
    lengthCode len = 257 + lastBaseLe (lengthBases.take 28) len := if_neg (by omega)

theorem lengthBase_eq_take {c : Nat} (h : c ≤ 27) : lengthBase c = (lengthBases.take 28).getD c 0 := by
  have : ∀ c ≤ 27, lengthBase c = (lengthBases.take 28).getD c 0 := by decide
  exact this c h

/-- Below 258 a length has one of the codes 257 to 284, the greatest whose base is not above it (R89). -/
theorem lengthCode_greatest {len : Nat} (h1 : 3 ≤ len) (h2 : len ≤ 257) :
    257 ≤ lengthCode len ∧ lengthCode len ≤ 284 ∧ lengthBase (lengthCode len - 257) ≤ len ∧
      ∀ c ≤ 27, lengthBase c ≤ len → c ≤ lengthCode len - 257 := by
  have hlt : lastBaseLe (lengthBases.take 28) len < 28 := lastBaseLe_lt len (by decide)
  have hbase : (lengthBases.take 28).getD (lastBaseLe (lengthBases.take 28) len) 0 ≤ len := (lastBaseLe_spec h1).1
  rw [lengthCode_of_le h2, Nat.add_sub_cancel_left]
  refine ⟨by omega, by omega, ?_, fun c hc hle => ?_⟩
  · rwa [lengthBase_eq_take (by omega)]
  · rw [lengthBase_eq_take hc] at hle
    exact le_lastBaseLe (by decide) (Nat.lt_succ_of_le hc) hle

theorem distCode_greatest {d c : Nat} (hc : c ≤ 29) (hle : distBase c ≤ d) : c ≤ distCode d :=
  le_lastBaseLe (by decide) (Nat.lt_succ_of_le hc) hle

/-- The base of a length's code is not above it, the rest fits the extra bits, and the longest rest of code 284 is left
to code 285 (R80, R88). -/
theorem lengthCode_rest {len : Nat} (h1 : 3 ≤ len) (h2 : len ≤ 258) :
    lengthBase (lengthCode len - 257) ≤ len ∧
      len - lengthBase (lengthCode len - 257) < 2 ^ lengthExtra (lengthCode len - 257) ∧
      ¬ (lengthCode len = 284 ∧ len - lengthBase (lengthCode len - 257) = 31) := by
  obtain ⟨lc, rfl⟩ : ∃ lc, len = lc + 3 := ⟨len - 3, by omega⟩
  have hfits := lengthCode_extra (lc := lc) (by omega)
  by_cases h258 : lc + 3 = 258
  · refine ⟨?_, hfits, ?_⟩ <;> rw [h258] <;> decide
  · refine ⟨(lengthCode_greatest h1 (by omega)).2.2.1, hfits, fun ⟨hcode, hrest⟩ => ?_⟩
    rw [hcode, show lengthBase (284 - 257) = 227 from rfl] at hrest
    omega

/-- Settles O48, by `le_lastBaseLe` for both tables. -/
theorem codesAndExtraBits : Obligations.CodesAndExtraBits := by
  refine ⟨⟨rfl, fun len h1 h2 => lengthCode_greatest h1 h2⟩, fun d h1 h2 => ?_, fun len h1 h2 => lengthCode_rest h1 h2,
    fun d h1 h2 => (distCode_spec h1 h2).2, by decide⟩
  exact ⟨Nat.le_of_lt_succ (distCode_lt d), (distCode_spec h1 h2).1, fun c hc hle => distCode_greatest hc hle⟩

/-! ### The number of a canonical code -/

/-- The code of symbol `n` before its bits are reversed (R137): the first code of its length, and one more for each
symbol of that length before it. -/
def codeNumber (lens : List Nat) (n : Nat) : Nat :=
  firstCode lens (lens.getD n 0) + (lens.take n).count (lens.getD n 0)

theorem assignCodes_getD {next lens : List Nat} (hnext : next.length = 16) (hlens : ∀ l ∈ lens, l ≤ 15) {n : Nat}
    (hn : n < lens.length) (hl : lens.getD n 0 ≠ 0) :
    (assignCodes next lens).getD n 0 =
      bitrev (next.getD (lens.getD n 0) 0 + (lens.take n).count (lens.getD n 0)) (lens.getD n 0) := by
  induction lens generalizing next n with
  | nil => exact absurd hn (Nat.not_lt_zero n)
  | cons l lens ih =>
    have hl15 : l ≤ 15 := hlens l List.mem_cons_self
    have hrest : ∀ x ∈ lens, x ≤ 15 := fun x hx => hlens x (List.mem_cons_of_mem l hx)
    unfold assignCodes
    cases n with
    | zero =>
      rw [List.getD_cons_zero] at hl ⊢
      rw [if_neg hl, List.getD_cons_zero, List.take_zero, List.count_nil, Nat.add_zero]
    | succ n =>
      have hn' : n < lens.length := Nat.lt_of_succ_lt_succ hn
      rw [List.getD_cons_succ] at hl ⊢
      rw [List.take_succ_cons, List.count_cons]
      by_cases h0 : l = 0
      · have hne : ¬ l = lens.getD n 0 := fun h => hl (h ▸ h0)
        rw [if_pos h0, List.getD_cons_succ, ih hnext hrest hn' hl, if_neg fun h => hne (eq_of_beq h), Nat.add_zero]
      · rw [if_neg h0, List.getD_cons_succ, ih (by rw [List.length_set, hnext]) hrest hn' hl, getD_set]
        congr 1
        by_cases heq : l = lens.getD n 0
        · rw [if_pos ⟨heq, by omega⟩, ← heq, if_pos (beq_self_eq_true l)]
          omega
        · rw [if_neg fun h => heq h.1, if_neg fun h => heq (eq_of_beq h), Nat.add_zero]

/-- CanonicalCodes stores the bits of a used symbol's code in reverse (R137). -/
theorem canonicalCodes_getD {lens : List Nat} (hlens : ∀ l ∈ lens, l ≤ 15) {n : Nat} (hl : lens.getD n 0 ≠ 0) :
    (canonicalCodes lens).getD n 0 = bitrev (codeNumber lens n) (lens.getD n 0) := by
  have hn : n < lens.length := by
    by_contra h
    exact hl (List.getD_eq_default _ _ (Nat.le_of_not_lt h))
  have h15 := getD_le_of_forall hlens n
  rw [canonicalCodes, assignCodes_getD (by rw [List.length_map, List.length_range]) hlens hn hl,
    getD_map_range (Nat.lt_succ_of_le h15), codeNumber]

/-! ### Prefix-freeness -/

/-- The lengths up to `b`, in units of `2 ^ -b`, take the numbers below `lastCode lens b` (R137). -/
def lastCode (lens : List Nat) (b : Nat) : Nat := firstCode lens b + if b = 0 then 0 else lens.count b

theorem firstCode_succ (lens : List Nat) (b : Nat) : firstCode lens (b + 1) = 2 * lastCode lens b := rfl

/-- The numbers of the shorter codes, continued, stay below the first code of a greater length. -/
theorem lastCode_le_firstCode (lens : List Nat) (b d : Nat) :
    2 ^ (d + 1) * lastCode lens b ≤ firstCode lens (b + d + 1) := by
  induction d with
  | zero => exact Nat.le_refl _
  | succ d ih =>
    have hfirst : firstCode lens (b + d + 1) ≤ lastCode lens (b + d + 1) := Nat.le_add_right _ _
    calc 2 ^ (d + 1 + 1) * lastCode lens b = 2 * (2 ^ (d + 1) * lastCode lens b) := by ring
      _ ≤ 2 * lastCode lens (b + d + 1) := Nat.mul_le_mul_left 2 (Nat.le_trans ih hfirst)
      _ = firstCode lens (b + (d + 1) + 1) := rfl

theorem lastCode_eq_sum (lens : List Nat) (b : Nat) :
    lastCode lens b = (lens.map fun l => if l = 0 ∨ b < l then 0 else 2 ^ (b - l)).sum := by
  induction b with
  | zero =>
    symm
    refine List.sum_eq_zero fun x hx => ?_
    obtain ⟨l, -, rfl⟩ := List.mem_map.mp hx
    exact if_pos (by omega)
  | succ b ih =>
    rw [lastCode, firstCode_succ, ih, if_neg (Nat.succ_ne_zero b)]
    clear ih
    induction lens with
    | nil => rfl
    | cons l lens ih =>
      rw [List.map_cons, List.map_cons, List.sum_cons, List.sum_cons, ← ih, List.count_cons]
      rcases Nat.lt_trichotomy l (b + 1) with hl | hl | hl
      · have hpow : 2 ^ (b + 1 - l) = 2 * 2 ^ (b - l) := by rw [Nat.sub_add_comm (by omega), Nat.pow_succ]; omega
        have hne : ¬ (l == b + 1) = true := fun h => by have := eq_of_beq h; omega
        rw [hpow, if_neg hne]
        split_ifs <;> omega
      · subst hl
        rw [if_pos (beq_self_eq_true _), if_pos (by omega), if_neg (by omega), Nat.sub_self, Nat.pow_zero]
        omega
      · have hne : ¬ (l == b + 1) = true := fun h => by have := eq_of_beq h; omega
        rw [if_neg hne, if_pos (by omega), if_pos (by omega)]
        omega

/-- Lengths that do not overfill the code space leave room for the numbers of every length (R139). -/
theorem lastCode_le {cap : Nat} {lens : List Nat} (hspace : codeSpace cap lens ≤ 2 ^ cap) {b : Nat} (hb : b ≤ cap) :
    lastCode lens b ≤ 2 ^ b := by
  have hle : lastCode lens b * 2 ^ (cap - b) ≤ codeSpace cap lens := by
    rw [lastCode_eq_sum, codeSpace]
    clear hspace
    induction lens with
    | nil => simp
    | cons l lens ih =>
      rw [List.map_cons, List.map_cons, List.sum_cons, List.sum_cons, Nat.add_mul]
      refine Nat.add_le_add ?_ ih
      split_ifs with h1 h2
      · omega
      · rw [Nat.zero_mul]
        exact Nat.zero_le _
      · omega
      · rw [← Nat.pow_add]
        exact Nat.le_of_eq (congrArg _ (by omega))
  have hcap : 2 ^ cap = 2 ^ b * 2 ^ (cap - b) := by rw [← Nat.pow_add, Nat.add_sub_cancel' hb]
  exact Nat.le_of_mul_le_mul_right (by omega : lastCode lens b * 2 ^ (cap - b) ≤ 2 ^ b * 2 ^ (cap - b))
    (Nat.two_pow_pos _)

theorem count_take_lt {lens : List Nat} {m n : Nat} (hmn : m < n) (hn : n ≤ lens.length) :
    (lens.take m).count (lens.getD m 0) < (lens.take n).count (lens.getD m 0) := by
  have hm : m < lens.length := by omega
  have hsub : (lens.take (m + 1)).Sublist (lens.take n) := by
    rw [show lens.take (m + 1) = (lens.take n).take (m + 1) by rw [List.take_take, Nat.min_eq_left hmn]]
    exact List.take_sublist _ _
  refine Nat.lt_of_lt_of_le ?_ (hsub.count_le _)
  rw [List.take_succ_eq_append_getElem hm, List.count_append, List.getD_eq_getElem _ _ hm]
  simp

theorem codeNumber_lt_lastCode {lens : List Nat} {n : Nat} (hn : n < lens.length) (hl : lens.getD n 0 ≠ 0) :
    codeNumber lens n < lastCode lens (lens.getD n 0) := by
  have hcount := count_take_lt (Nat.lt_of_lt_of_le hn (Nat.le_refl _)) (Nat.le_refl lens.length)
  rw [List.take_length] at hcount
  rw [codeNumber, lastCode, if_neg hl]
  omega

theorem codeNumber_ne {lens : List Nat} {m n : Nat} (hm : m < lens.length) (hn : n < lens.length) (hne : m ≠ n)
    (hl : lens.getD m 0 = lens.getD n 0) : codeNumber lens m ≠ codeNumber lens n := by
  intro h
  rw [codeNumber, codeNumber, hl] at h
  rcases Nat.lt_or_gt_of_ne hne with hlt | hlt
  · have := count_take_lt hlt (Nat.le_of_lt hn)
    rw [hl] at this
    omega
  · have := count_take_lt hlt (Nat.le_of_lt hm)
    omega

/-- No code number continues to that of another symbol: what is left of the longer number without its last bits differs
from the shorter one. -/
theorem codeNumber_not_continued {lens : List Nat} {m n d : Nat} (hm : m < lens.length) (hn : n < lens.length)
    (hne : m ≠ n) (hlm : lens.getD m 0 ≠ 0) (hln : lens.getD n 0 = lens.getD m 0 + d) :
    codeNumber lens n / 2 ^ d ≠ codeNumber lens m := by
  cases d with
  | zero =>
    rw [Nat.pow_zero, Nat.div_one]
    exact codeNumber_ne hn hm (Ne.symm hne) hln
  | succ d =>
    have hlast := codeNumber_lt_lastCode hm hlm
    have hfirst := lastCode_le_firstCode lens (lens.getD m 0) d
    have hnum : firstCode lens (lens.getD m 0 + d + 1) ≤ codeNumber lens n := by
      rw [codeNumber, hln]
      exact Nat.le_add_right _ _
    have hdiv : lastCode lens (lens.getD m 0) ≤ codeNumber lens n / 2 ^ (d + 1) :=
      (Nat.le_div_iff_mul_le (Nat.two_pow_pos _)).mpr (by rw [Nat.mul_comm]; omega)
    omega

theorem testBit_bitrev (c : Nat) {n i : Nat} (hi : i < n) : (bitrev c n).testBit i = c.testBit (n - 1 - i) := by
  induction n generalizing c with
  | zero => exact absurd hi (Nat.not_lt_zero i)
  | succ n ih =>
    rw [bitrev, Nat.mul_comm, Nat.testBit_two_pow_mul_add _ (bitrev_lt _ n)]
    split
    · rw [ih (c / 2) ‹_›, Nat.testBit_div_two]
      exact congrArg _ (by omega)
    · obtain rfl : i = n := by omega
      rw [Nat.sub_self, Nat.add_sub_cancel, Nat.sub_self, Nat.testBit_zero, Nat.testBit_zero, Nat.mod_mod]

/-- The bits of a used symbol as they are sent: its number's highest bit first (R87). -/
theorem symbolBits_canonical {lens : List Nat} (hlens : ∀ l ∈ lens, l ≤ 15) {n : Nat} (hl : lens.getD n 0 ≠ 0) :
    symbolBits lens (canonicalCodes lens) n =
      (List.range (lens.getD n 0)).map fun i => (codeNumber lens n).testBit (lens.getD n 0 - 1 - i) := by
  rw [symbolBits, canonicalCodes_getD hlens hl, bitsOf]
  exact List.map_congr_left fun i hi => testBit_bitrev _ (List.mem_range.mp hi)

theorem canonicalCodes_prefixFree {cap : Nat} {lens : List Nat} (hcap : cap ≤ 15) (hlens : ∀ l ∈ lens, l ≤ cap)
    (hspace : codeSpace cap lens ≤ 2 ^ cap) {m n : Nat} (hm : m < lens.length) (hn : n < lens.length) (hne : m ≠ n)
    (hlm : 1 ≤ lens.getD m 0) (hln : 1 ≤ lens.getD n 0) :
    ¬ symbolBits lens (canonicalCodes lens) m <+: symbolBits lens (canonicalCodes lens) n := by
  intro hpre
  have h15 : ∀ l ∈ lens, l ≤ 15 := fun l hl => Nat.le_trans (hlens l hl) hcap
  rw [symbolBits_canonical h15 (by omega), symbolBits_canonical h15 (by omega)] at hpre
  have hlen := hpre.length_le
  rw [List.length_map, List.length_map, List.length_range, List.length_range] at hlen
  obtain ⟨d, hd⟩ := Nat.exists_eq_add_of_le hlen
  have hlt : codeNumber lens m < 2 ^ lens.getD m 0 :=
    Nat.lt_of_lt_of_le (codeNumber_lt_lastCode hm (by omega)) (lastCode_le hspace (getD_le_of_forall hlens m))
  have hlt' : codeNumber lens n < 2 ^ lens.getD n 0 :=
    Nat.lt_of_lt_of_le (codeNumber_lt_lastCode hn (by omega)) (lastCode_le hspace (getD_le_of_forall hlens n))
  refine codeNumber_not_continued hm hn hne (by omega) hd (Nat.eq_of_testBit_eq fun j => ?_)
  rw [Nat.testBit_div_two_pow]
  by_cases hj : j < lens.getD m 0
  · have hget := hpre.getElem (i := lens.getD m 0 - 1 - j) (by rw [List.length_map, List.length_range]; omega)
    simp only [List.getElem_map, List.getElem_range] at hget
    rw [show lens.getD m 0 - 1 - (lens.getD m 0 - 1 - j) = j by omega,
      show lens.getD n 0 - 1 - (lens.getD m 0 - 1 - j) = d + j by omega] at hget
    rw [hget, Nat.add_comm]
  · rw [Nat.testBit_lt_two_pow (Nat.lt_of_lt_of_le hlt (Nat.pow_le_pow_right (by decide) (by omega))),
      Nat.testBit_lt_two_pow (Nat.lt_of_lt_of_le hlt' (Nat.pow_le_pow_right (by decide) (by omega)))]

theorem builtTree_codes {tie : HeapTie} {k : TreeKind} {freq : Memory 16} {t : BuiltTree}
    (h : builtTree tie k freq = some t) : t.codes = canonicalCodes t.lens := by
  unfold builtTree at h
  simp only [Option.map_eq_some_iff] at h
  obtain ⟨r, -, rfl⟩ := h
  rfl

/-- Settles O54: the codes are canonical ones for lengths that fill the code space exactly. -/
theorem buildTreePrefixFree : Obligations.BuildTreePrefixFree := by
  intro tie k freq t ht
  obtain ⟨t', ht', hgood⟩ := builtTree_good tie k freq
  obtain rfl : t = t' := Option.some.inj (ht.symm.trans ht')
  obtain ⟨hlength, hlens⟩ := builtTree_lens ht
  refine ⟨fun n _ => (codesOk_builtTree ht n).2, fun m hm n hn hne hlm hln => ?_⟩
  rw [builtTree_codes ht]
  exact canonicalCodes_prefixFree (maxLength_le k) hlens (Nat.le_of_eq hgood.space) (hlength ▸ hm) (hlength ▸ hn) hne hlm hln

/-! ### The static codes -/

/-- The static literal/length lengths are four runs (R77). -/
theorem staticLitLens_runs : staticLitLens =
    List.replicate 144 8 ++ (List.replicate 112 9 ++ (List.replicate 24 7 ++ List.replicate 8 8)) := by
  decide +kernel

theorem count_take_staticLitLens (l n : Nat) : (staticLitLens.take n).count l =
    (if 8 = l then min n 144 else 0) + ((if 9 = l then min (n - 144) 112 else 0) +
      ((if 7 = l then min (n - 256) 24 else 0) + if 8 = l then min (n - 280) 8 else 0)) := by
  rw [staticLitLens_runs]
  simp only [List.take_append, List.take_replicate, List.count_append, List.count_replicate, List.length_replicate,
    beq_iff_eq, Nat.sub_sub]

theorem firstCode_static (l : Nat) (h : l = 7 ∨ l = 8 ∨ l = 9) :
    firstCode staticLitLens l = if l = 7 then 0 else if l = 8 then 0x30 else 0x190 := by
  rcases h with rfl | rfl | rfl <;> decide +kernel

theorem staticLitCodes_getD {n : Nat} (h : n < 288) :
    staticLitCodes.getD n 0 = bitrev (codeNumber staticLitLens n) (staticLitLenLength n) := by
  have hlen := staticLitLens_getD h
  have hpos := staticLitLenLength_range n
  rw [← hlen] at hpos ⊢
  exact canonicalCodes_getD (fun l hl => by
    obtain ⟨m, -, rfl⟩ := List.mem_map.mp hl
    have := staticLitLenLength_range m
    omega) (by omega)

theorem codeNumber_static {n : Nat} (h : n < 288) : codeNumber staticLitLens n =
    if n ≤ 143 then 0x30 + n else if n ≤ 255 then 0x190 + (n - 144) else if n ≤ 279 then n - 256 else 0xC0 + (n - 280) := by
  have hrange := staticLitLenLength_range n
  rw [codeNumber, staticLitLens_getD h, count_take_staticLitLens, firstCode_static _ (by omega), staticLitLenLength]
  split_ifs <;> omega

/-- Settles O49: the static codes number the symbols of each length in order. -/
theorem staticCodeTables : Obligations.StaticCodeTables := by
  refine ⟨fun n hn => ⟨staticLitLens_getD hn, ?_⟩, fun d hd => ⟨getD_map_range hd, getD_map_range hd⟩⟩
  rw [staticLitCodes_getD hn, codeNumber_static hn, staticLitLenLength]
  split_ifs <;> rfl

end Sys2Proof.Proofs
end

section
/-!
PROOFS. What BuildTree adds to the costs (spec/44_huffman.md R130 to R139): FirstLengths and ReassignLengths keep
`opt_len` at the cost of the leaves under the lengths they have given out, and a forced leaf has length 1.
-/

namespace Sys2Proof.Proofs

open Sys2Proof.Machine Sys2Proof.Laws

variable {k : TreeKind} {mc : Int}

/-! ### The cost of leaves -/

/-- The bits that the nodes of `L` take under the lengths `len`, the extra bits of their symbols included (R134). -/
def leafCost (k : TreeKind) (len : Nat → Nat) (L : List Node) : Int :=
  (L.map fun n => (n.freq : Int) * ((len n.idx : Int) + k.extra n.idx)).sum

theorem leafCost_cons (len : Nat → Nat) (n : Node) (L : List Node) :
    leafCost k len (n :: L) = n.freq * ((len n.idx : Int) + k.extra n.idx) + leafCost k len L := by
  rw [leafCost, List.map_cons, List.sum_cons]
  rfl

theorem leafCost_append (len : Nat → Nat) (L L' : List Node) :
    leafCost k len (L ++ L') = leafCost k len L + leafCost k len L' := by
  rw [leafCost, List.map_append, List.sum_append]
  rfl

theorem leafCost_perm (len : Nat → Nat) {L L' : List Node} (h : L.Perm L') : leafCost k len L = leafCost k len L' :=
  (h.map _).sum_eq

theorem leafCost_congr {len len' : Nat → Nat} {L : List Node} (h : ∀ n ∈ L, len n.idx = len' n.idx) :
    leafCost k len L = leafCost k len' L :=
  congrArg List.sum (List.map_congr_left fun n hn => by rw [h n hn])

/-- A new length for one node changes the cost by that node's frequency times the difference (R136). -/
theorem leafCost_update (len : Nat → Nat) (bits : Nat) {m : Node} {L : List Node} (hnd : (L.map Node.idx).Nodup)
    (hm : m ∈ L) :
    leafCost k (fun i => if i = m.idx then bits else len i) L =
      leafCost k len L + ((bits : Int) - len m.idx) * m.freq := by
  induction L with
  | nil => exact absurd hm List.not_mem_nil
  | cons n L ih =>
    rw [List.map_cons, List.nodup_cons] at hnd
    obtain ⟨hn, hnd⟩ := hnd
    rw [leafCost_cons, leafCost_cons]
    rcases List.mem_cons.mp hm with rfl | hmL
    · have hL : leafCost k (fun i => if i = m.idx then bits else len i) L = leafCost k len L :=
        leafCost_congr fun x hx => if_neg fun h : x.idx = m.idx => hn (h ▸ List.mem_map_of_mem hx)
      rw [hL, if_pos rfl]
      ring
    · have hne : n.idx ≠ m.idx := fun h => hn (h ▸ List.mem_map_of_mem hmL)
      rw [if_neg hne, ih hnd hmL]
      ring

/-! ### FirstLengths -/

theorem visit_opt (up : Nat) (n : Node) (s : Lengths) :
    (s.visit k mc up n).opt = s.opt +
      if isLeaf mc n then n.freq * (((min (up + 1) k.maxLength : Nat) : Int) + k.extra n.idx) else 0 := by
  unfold Lengths.visit
  dsimp only
  by_cases h : (n.idx : Int) ≤ mc <;> simp [h]

/-- A visit adds the cost of its node if that is a leaf, and the nodes visited before keep their lengths. -/
theorem visit_leafCost {up : Nat} {n : Node} {s : Lengths} {L : List Node} (hn : ∀ m ∈ L, m.idx ≠ n.idx)
    (h : s.opt = leafCost k s.len.get (L.filter (isLeaf mc))) :
    (s.visit k mc up n).opt = leafCost k (s.visit k mc up n).len.get ((n :: L).filter (isLeaf mc)) := by
  have hlen : ∀ i, (s.visit k mc up n).len.get i = if i = n.idx then min (up + 1) k.maxLength else s.len.get i :=
    fun i => by rw [visit_len, assoc_get_cons]
  have hrest : leafCost k (s.visit k mc up n).len.get (L.filter (isLeaf mc)) = s.opt := by
    rw [h]
    exact leafCost_congr fun m hm => by rw [hlen, if_neg (hn m (List.mem_of_mem_filter hm))]
  rw [visit_opt, List.filter_cons]
  by_cases hleaf : isLeaf mc n = true
  · rw [if_pos hleaf, if_pos hleaf, leafCost_cons, hrest, hlen, if_pos rfl]
    ring
  · rw [if_neg hleaf, if_neg hleaf, hrest, Int.add_zero]

/-- FirstLengths adds up the cost of the leaves under the lengths it gives them, if there is more than a root (R134). -/
theorem firstLengths_opt {next : Nat} {q : List Node} {r : MergeResult} (h : Merges next q r) (hf : FreshQueue next q)
    (hmc : mc < next) (hq2 : 2 ≤ q.length ∨ ∀ n ∈ q, isLeaf mc n = false) :
    (firstLengths k mc r).opt = leafCost k (firstLengths k mc r).len.get (q.filter (isLeaf mc)) := by
  induction h with
  | root next n =>
    have hn := hq2.resolve_left (by simp) n List.mem_cons_self
    rw [List.filter_cons_of_neg (by simp [hn])]
    rfl
  | @join next q rest q' a b r hq hq' hr ih =>
    have hfab := hf.perm hq
    have hfj := hfab.join
    have hjl : isLeaf mc (Node.join next a b) = false := decide_eq_false (by show ¬ ((next : Int) ≤ mc); omega)
    have hq2' : 2 ≤ q'.length ∨ ∀ n ∈ q', isLeaf mc n = false := by
      rw [hq'.length_eq]
      cases rest with
      | nil =>
        refine .inr fun n hn => ?_
        rw [List.mem_singleton.mp (hq'.mem_iff.mp hn)]
        exact hjl
      | cons m rest => exact .inl (by simp)
    have hrest : (firstLengths k mc r).opt = leafCost k (firstLengths k mc r).len.get (rest.filter (isLeaf mc)) := by
      rw [ih (hfj.perm hq'.symm) (by omega) hq2', leafCost_perm _ (hq'.filter _), List.filter_cons_of_neg (by simp [hjl])]
    obtain ⟨hnd, hlt⟩ := hfab
    simp only [List.map_cons, List.nodup_cons, List.mem_cons, List.mem_map, not_or, not_exists, not_and] at hnd
    obtain ⟨⟨hab, har⟩, hbr, -⟩ := hnd
    have hla := hlt a List.mem_cons_self
    have hlb := hlt b (List.mem_cons_of_mem _ List.mem_cons_self)
    rw [leafCost_perm _ (hq.filter _), firstLengths_cons hr hab (by omega) fun n hn => ?_]
    · refine visit_leafCost (fun m hm => ?_) (visit_leafCost hbr hrest)
      rcases List.mem_cons.mp hm with rfl | hm
      · exact Ne.symm hab
      · exact har m hm
    · rcases merges_removal_mem hr n hn with hn | hn
      · rcases List.mem_cons.mp (hq'.mem_iff.mp hn) with rfl | hn
        · have : (Node.join next a b).idx = next := rfl
          omega
        · exact ⟨har n hn, hbr n hn⟩
      · omega

/-! ### ReassignLengths -/

/-- `opt_len` holds the cost of the leaves `L` under the lengths given out so far. -/
def Costed (k : TreeKind) (L : List Node) (s : Reassigned) : Prop := s.opt = leafCost k s.len.get L

theorem assign_opt (s : Reassigned) (bits : Nat) (m : Node) :
    (s.assign bits m).opt = s.opt + ((bits : Int) - s.len.get m.idx) * m.freq := by
  unfold Reassigned.assign
  split
  · rename_i h
    rw [h, Int.sub_self, Int.zero_mul, Int.add_zero]
  · rfl

theorem costed_assign {L : List Node} (hnd : (L.map Node.idx).Nodup) {s : Reassigned} (h : Costed k L s) (bits : Nat)
    {m : Node} (hm : m ∈ L) : Costed k L (s.assign bits m) := by
  have hlen : (s.assign bits m).len.get = fun i => if i = m.idx then bits else s.len.get i :=
    funext fun i => assign_get s bits m i
  rw [Costed, hlen, leafCost_update _ _ hnd hm, assign_opt, h]

theorem costed_reassignLevel {L : List Node} (hnd : (L.map Node.idx).Nodup) (bits : Nat) (rest : List Node) (count : Nat)
    {s : Reassigned} (hrest : ∀ n ∈ rest.filter (isLeaf mc), n ∈ L) (h : Costed k L s) :
    Costed k L (reassignLevel mc bits count rest s).2 := by
  induction rest generalizing count s with
  | nil => cases count <;> exact h
  | cons m rest ih =>
    have htail : ∀ n ∈ rest.filter (isLeaf mc), n ∈ L := fun n hn =>
      hrest n ((List.sublist_cons_self m rest).filter _ |>.subset hn)
    cases count with
    | zero => exact h
    | succ count =>
      unfold reassignLevel
      split
      · exact ih (count + 1) htail h
      · have hleaf : isLeaf mc m = true := decide_eq_true (by omega)
        have hm : m ∈ L := hrest m (List.mem_filter.mpr ⟨List.mem_cons_self, hleaf⟩)
        exact ih count htail (costed_assign hnd h bits hm)

theorem costed_reassignLengths {L : List Node} (hnd : (L.map Node.idx).Nodup) (c : List Nat) (bits : Nat)
    (rest : List Node) {s : Reassigned} (hrest : ∀ n ∈ rest.filter (isLeaf mc), n ∈ L) (h : Costed k L s) :
    Costed k L (reassignLengths mc c bits rest s) := by
  induction bits generalizing rest s with
  | zero => exact h
  | succ bits ih =>
    refine ih _ (fun n hn => hrest n ?_) (costed_reassignLevel hnd (bits + 1) rest _ hrest h)
    rw [(reassignLevel_spec (mc := mc) (bits + 1) rest (c.getD (bits + 1) 0) s).1] at hn
    exact List.mem_of_mem_drop hn

/-- With or without a correction of lengths, `opt_len` holds the cost of the leaves under the final lengths (R134 to
R136). -/
theorem cappedLengths_opt {L q : List Node} {r : MergeResult} {c : Reassigned} (hmc : mc < k.elems) (hp : q.Perm L)
    (hf : FreshQueue k.elems q) (hr : Merges k.elems q r) (h2 : 2 ≤ L.length) (hl : ∀ n ∈ L, (n.idx : Int) ≤ mc)
    (hc : cappedLengths k mc r (firstLengths k mc r) = some c) : c.opt = leafCost k c.len.get L := by
  have hall : ∀ n ∈ L, isLeaf mc n = true := fun n hn => decide_eq_true (hl n hn)
  have hfirst : Costed k L ⟨(firstLengths k mc r).len, (firstLengths k mc r).opt⟩ := by
    show (firstLengths k mc r).opt = leafCost k (firstLengths k mc r).len.get L
    rw [firstLengths_opt hr hf hmc (.inl (by rw [hp.length_eq]; exact h2)), leafCost_perm _ (hp.filter _),
      List.filter_eq_self.mpr hall]
  have hleaves : ∀ n ∈ r.removal.filter (isLeaf mc), n ∈ L := fun n hn =>
    hp.mem_iff.mp (List.mem_of_mem_filter ((merges_leaves hr hmc).mem_iff.mp hn))
  unfold cappedLengths at hc
  split at hc
  · obtain rfl := Option.some.inj hc
    exact hfirst
  · split at hc
    · cases hc
    · obtain rfl := Option.some.inj hc
      exact costed_reassignLengths (hf.perm hp).1 _ _ _ hleaves hfirst

/-! ### Forced leaves -/

theorem completeDegenerate_forced (leaves : List Node) (mc : Int) :
    (completeDegenerate 2 leaves mc).2.2.length = 2 - leaves.length := by
  match leaves with
  | [] => rfl
  | [_] => rfl
  | a :: b :: leaves =>
    rw [completeDegenerate, if_neg (by simp)]
    simp

/-- Two leaves that fill the code space have length 1 each. -/
theorem length_one_of_two {L : List Node} {len : Nat → Nat} {M : Nat} (hM : 2 ≤ M) (h2 : L.length = 2)
    (hpos : ∀ n ∈ L, 1 ≤ len n.idx) (hspace : (L.map fun n => 2 ^ (M - len n.idx)).sum = 2 ^ M) :
    ∀ n ∈ L, len n.idx = 1 := by
  obtain ⟨x, y, rfl⟩ := List.length_eq_two.mp h2
  have hx := hpos x (by simp)
  have hy := hpos y (by simp)
  have hsum : 2 ^ (M - len x.idx) + 2 ^ (M - len y.idx) = 2 ^ M := by simpa using hspace
  have hM' : 2 ^ M = 2 * 2 ^ (M - 1) := by rw [← Nat.pow_succ']; exact congrArg _ (by omega)
  have hlex : 2 ^ (M - len x.idx) ≤ 2 ^ (M - 1) := Nat.pow_le_pow_right (by decide) (by omega)
  have hley : 2 ^ (M - len y.idx) ≤ 2 ^ (M - 1) := Nat.pow_le_pow_right (by decide) (by omega)
  have hexpx : M - len x.idx = M - 1 := Nat.pow_right_injective (Nat.le_refl 2) (by dsimp only; omega)
  have hexpy : M - len y.idx = M - 1 := Nat.pow_right_injective (Nat.le_refl 2) (by dsimp only; omega)
  intro n hn
  rcases List.mem_cons.mp hn with rfl | hn
  · omega
  · obtain rfl := List.mem_singleton.mp hn
    omega

/-- Distinct nodes, at least two, have a number of at least 1 among them. -/
theorem one_le_of_two {L : List Node} {mc : Int} (hnd : (L.map Node.idx).Nodup) (h2 : 2 ≤ L.length)
    (hle : ∀ n ∈ L, (n.idx : Int) ≤ mc) : 1 ≤ mc := by
  match L, h2 with
  | x :: y :: L, _ =>
    have hx := hle x (by simp)
    have hy := hle y (by simp)
    have hne : x.idx ≠ y.idx := fun h => by simp [h] at hnd
    omega

theorem extra_forced {n : Nat} (h : n ≤ 2) : k.extra n = 0 := by
  have : ∀ k : TreeKind, ∀ n ≤ 2, k.extra n = 0 := by
    intro k
    cases k <;> decide
  exact this k n h

/-! ### The tree -/

/-- How a tree follows from its leaves, the forced ones `extra` among them, under the lengths `len` (R130 to R136). -/
structure FromLeaves (k : TreeKind) (freq : Memory 16) (t : BuiltTree) (extra : List Nat) (len : Nat → Nat) : Prop where
  lens : ∀ n < k.elems, t.lens.getD n 0 = len n
  maxCode : 1 ≤ t.maxCode
  unlisted : ∀ n < k.elems, n ∉ (leavesOf k freq ++ extra.map forcedNode).map Node.idx → len n = 0
  forced : ∀ n ∈ extra, n ≤ 2 ∧ len n = 1
  rounds : extra.length = 2 - (leavesOf k freq).length
  opt : t.optAdd = leafCost k len (leavesOf k freq ++ extra.map forcedNode) - extra.length

theorem builtTree_fromLeaves {tie : HeapTie} {freq : Memory 16} {t : BuiltTree} (h : builtTree tie k freq = some t) :
    ∃ extra len, FromLeaves k freq t extra len := by
  obtain ⟨extra, mc, hcd, hex, hfresh, h2, hle, hmc0, hmc⟩ := completeDegenerate_spec k freq
  have hrounds := completeDegenerate_forced (leavesOf k freq) (maxCodeOf (leavesOf k freq))
  rw [hcd] at hrounds
  unfold builtTree at h
  dsimp only at h
  rw [hcd] at h
  dsimp only at h
  have hne : leavesOf k freq ++ extra.map forcedNode ≠ [] := List.ne_nil_of_length_pos (by omega)
  obtain ⟨q, hq, hr⟩ := merges_merge tie k _ hne
  obtain ⟨c, hc, hpos, hzero, hspace, -⟩ := cappedLengths_spec hmc hq (hfresh.perm hq.symm) hr h2 hle
  have hopt := cappedLengths_opt hmc hq (hfresh.perm hq.symm) hr h2 hle hc
  rw [hc] at h
  obtain rfl := Option.some.inj h
  refine ⟨extra, c.len.get, fun n hn => getD_map_range hn, ?_, hzero, fun n hn => ⟨hex n hn, ?_⟩, hrounds, ?_⟩
  · have := one_le_of_two hfresh.1 h2 hle
    show 1 ≤ mc.toNat
    omega
  · have hone : 1 ≤ extra.length := List.length_pos_of_mem hn
    refine length_one_of_two (by cases k <;> decide) ?_ hpos hspace (forcedNode n)
      (List.mem_append_right _ (List.mem_map_of_mem hn))
    rw [List.length_append, List.length_map]
    dsimp only at hrounds
    omega
  · rw [← hopt]

/-- A forced leaf costs the one bit that R132 takes off again. -/
theorem FromLeaves.optAdd {freq : Memory 16} {t : BuiltTree} {extra : List Nat} {len : Nat → Nat}
    (h : FromLeaves k freq t extra len) :
    t.optAdd = (((List.range k.elems).map fun n =>
      (freq.read n).toNat * (t.lens.getD n 0 + k.extra n)).sum : Nat) := by
  have hforced : leafCost k len (extra.map forcedNode) = extra.length := by
    rw [leafCost, List.sum_eq_card_nsmul _ 1 fun x hx => ?_]
    · simp
    · obtain ⟨m, hm, rfl⟩ := List.mem_map.mp hx
      obtain ⟨n, hn, rfl⟩ := List.mem_map.mp hm
      obtain ⟨hle, hlen⟩ := h.forced n hn
      show (1 : Int) * ((len n : Int) + k.extra n) = 1
      rw [hlen, extra_forced hle]
      rfl
  have hleaves : leafCost k len (leavesOf k freq) =
      ((List.range k.elems).map fun n => ((freq.read n).toNat : Int) * ((len n : Int) + k.extra n)).sum :=
    leavesIn_sum (List.range k.elems) fun n => (len n : Int) + k.extra n
  rw [h.opt, leafCost_append, hforced, hleaves, Int.add_sub_cancel, Nat.cast_list_sum, List.map_map]
  refine congrArg List.sum (List.map_congr_left fun n hn => ?_)
  rw [Function.comp_apply, h.lens n (List.mem_range.mp hn)]
  push_cast
  rfl

/-- With two used symbols no leaf is forced, so an unused symbol has no length (R132). -/
theorem FromLeaves.unused {freq : Memory 16} {t : BuiltTree} {extra : List Nat} {len : Nat → Nat}
    (h : FromLeaves k freq t extra len) (h2 : 2 ≤ (leavesOf k freq).length) {n : Nat} (hn : n < k.elems)
    (hfreq : freq.read n = 0) : t.lens.getD n 0 = 0 := by
  have hextra : extra = [] := List.length_eq_zero_iff.mp (by have := h.rounds; omega)
  rw [h.lens n hn]
  refine h.unlisted n hn fun hmem => ?_
  rw [hextra, List.map_nil, List.append_nil, mem_leaves_idx] at hmem
  exact hmem.2 hfreq

theorem leavesOf_length (freq : Memory 16) :
    (leavesOf k freq).length = (List.range k.elems).countP fun n => decide (freq.read n ≠ 0) := by
  rw [List.countP_eq_length_filter, ← leavesIn_map_idx, List.length_map]
  rfl

theorem staticAdd_eq {freq : Memory 16} {t : BuiltTree} (h : GoodTree k freq t) :
    t.staticAdd = (((List.range k.elems).map fun n => (freq.read n).toNat * (staticCost k n).toNat).sum : Nat) := by
  have hcost : ∀ n, (((staticCost k n).toNat : Nat) : Int) = staticCost k n := fun n =>
    Int.toNat_of_nonneg (by cases k <;> exact Int.natCast_nonneg _)
  rw [h.static, Nat.cast_list_sum, List.map_map]
  refine congrArg List.sum (List.map_congr_left fun n _ => ?_)
  rw [Function.comp_apply, Nat.cast_mul, hcost]

/-- Settles O52: the lengths and `max_code` are those of a good tree, the costs those of its leaves. -/
theorem buildTreeLengths : Obligations.BuildTreeLengths := by
  intro tie k freq extra staticBits
  obtain ⟨t, ht, hgood⟩ := builtTree_good tie k freq
  obtain ⟨hlength, hcap⟩ := builtTree_lens ht
  obtain ⟨forced, len, hfrom⟩ := builtTree_fromLeaves ht
  have hextra : k.extra = extra := by
    funext n
    cases k with
    | litLen =>
      show (if 257 ≤ n then lengthExtra (n - 257) else 0) = if n < 257 then 0 else lengthExtra (n - 257)
      split_ifs <;> omega
    | dist => rfl
    | bitLen => rfl
  have hstatic : (fun n => (staticCost k n).toNat) = staticBits := by
    funext n
    cases k with
    | litLen => exact congrArg (staticLitLenLength n + ·) (congrFun hextra n)
    | dist => rfl
    | bitLen => rfl
  refine ⟨t, ht, hlength, hgood.maxCode_lt, fun n hn hf => ⟨hgood.used n hn hf, hgood.le_maxCode n hn hf⟩,
    fun n _ => ?_, fun h2 n hn hf => hfrom.unused (by rwa [leavesOf_length]) hn hf, fun hk hf => ?_, fun _ => hfrom.maxCode,
    ?_, ?_⟩
  · have := getD_le_of_forall hcap n
    cases k <;> exact this
  · subst hk
    exact hgood.le_maxCode 256 (by decide) hf
  · rw [hfrom.optAdd, hextra]
  · rw [staticAdd_eq hgood, ← hstatic]

end Sys2Proof.Proofs
end

section
/-!
PROOFS. The run-length symbols (spec/30_encoding.md R83, spec/44_huffman.md R140): expanded again they give the code
lengths back, and each has the extra bits of its symbol.
-/

namespace Sys2Proof.Proofs

open Sys2Proof.Machine Sys2Proof.Laws

/-! ### What one symbol stands for -/

theorem expandItems_append (done : List Nat) (xs ys : List BlItem) :
    expandItems done (xs ++ ys) = expandItems (expandItems done xs) ys := by
  induction xs generalizing done with
  | nil => rfl
  | cons x xs ih => exact ih _

theorem expandItems_length {done : List Nat} {l : Nat} (h : l ≤ 15) : expandItems done [⟨l, 0, 0⟩] = done ++ [l] := by
  have h16 : l ≠ REP_3_6 := by unfold REP_3_6; omega
  have h17 : l ≠ REPZ_3_10 := by unfold REPZ_3_10; omega
  have h18 : l ≠ REPZ_11_138 := by unfold REPZ_11_138; omega
  rw [expandItems, if_neg h16, if_neg h17, if_neg h18]
  rfl

theorem expandItems_lengths {done : List Nat} {l : Nat} (h : l ≤ 15) (count : Nat) :
    expandItems done (List.replicate count ⟨l, 0, 0⟩) = done ++ List.replicate count l := by
  induction count with
  | zero => rw [List.replicate_zero, List.replicate_zero, List.append_nil, expandItems]
  | succ count ih =>
    rw [List.replicate_succ', expandItems_append, ih, expandItems_length h, List.append_assoc, ← List.replicate_succ']

theorem expandItems_repeat (done : List Nat) (v bits : Nat) :
    expandItems done [⟨REP_3_6, v, bits⟩] = done ++ List.replicate (v + 3) (done.getLastD 0) := rfl

theorem expandItems_zeros (done : List Nat) (v bits : Nat) :
    expandItems done [⟨REPZ_3_10, v, bits⟩] = done ++ List.replicate (v + 3) 0 := rfl

theorem expandItems_manyZeros (done : List Nat) (v bits : Nat) :
    expandItems done [⟨REPZ_11_138, v, bits⟩] = done ++ List.replicate (v + 11) 0 := rfl

/-! ### A run -/

theorem runLimits_zero (prevlen : Option Nat) : runLimits prevlen (some 0) = (138, 3) := if_pos rfl

theorem runLimits_same {cur : Nat} (h : cur ≠ 0) : runLimits (some cur) (some cur) = (6, 3) := by
  simp [runLimits, h]

theorem runLimits_other {cur : Nat} {prevlen : Option Nat} (h : cur ≠ 0) (hne : prevlen ≠ some cur) :
    runLimits prevlen (some cur) = (7, 4) := by
  simp [runLimits, h, hne]

/-- The symbols of a finished run stand for its lengths, if the length before the run is the one `prevlen` names. -/
theorem expandItems_run {done : List Nat} {prevlen : Option Nat} {cur : Nat} (hcur : cur ≤ 15)
    (hprev : ∀ c, prevlen = some c → done.getLastD 0 = c) (count : Nat) :
    expandItems done (runItems prevlen cur count (runLimits prevlen (some cur)).2) = done ++ List.replicate count cur := by
  unfold runItems
  split
  · exact expandItems_lengths hcur count
  · rename_i hcount
    by_cases h0 : cur = 0
    · subst h0
      rw [runLimits_zero] at hcount
      rw [if_neg (not_not_intro rfl)]
      split
      · rw [expandItems_zeros, Nat.sub_add_cancel (by omega)]
      · rw [expandItems_manyZeros, Nat.sub_add_cancel (by omega)]
    · rw [if_pos h0]
      by_cases hsame : prevlen = some cur
      · rw [hsame, runLimits_same h0] at hcount
        rw [if_pos hsame, expandItems_repeat, hprev cur hsame, Nat.sub_add_cancel (by omega)]
      · rw [runLimits_other h0 hsame] at hcount
        have hsplit : expandItems done [⟨cur, 0, 0⟩, ⟨REP_3_6, count - 1 - 3, 2⟩] =
            expandItems (expandItems done [⟨cur, 0, 0⟩]) [⟨REP_3_6, count - 1 - 3, 2⟩] := expandItems_append done [_] [_]
        rw [if_neg hsame, hsplit, expandItems_length hcur, expandItems_repeat, List.getLastD_concat,
          Nat.sub_add_cancel (by omega), List.append_assoc, List.singleton_append, ← List.replicate_succ,
          Nat.sub_add_cancel (by omega)]

/-- The walk stands for the lengths of the current run that it has seen, and for the lengths still to come. -/
theorem expandItems_scanRuns {lens : List Nat} (hlens : ∀ l ∈ lens, l ≤ 15) {done : List Nat} {prevlen : Option Nat}
    (hprev : ∀ c, prevlen = some c → done.getLastD 0 = c) (count : Nat) (hnil : lens = [] → count = 0) :
    expandItems done (scanRuns prevlen count (runLimits prevlen lens.head?) lens) =
      done ++ (List.replicate count (lens.headD 0) ++ lens) := by
  induction lens generalizing done prevlen count with
  | nil =>
    rw [hnil rfl]
    exact (List.append_nil done).symm
  | cons cur rest ih =>
    have hrest : ∀ l ∈ rest, l ≤ 15 := fun l hl => hlens l (List.mem_cons_of_mem cur hl)
    have hrun : List.replicate count cur ++ cur :: rest = List.replicate (count + 1) cur ++ rest := by
      rw [List.replicate_succ', List.append_assoc, List.singleton_append]
    rw [List.headD_cons, hrun]
    unfold scanRuns
    split
    · rename_i hmore
      obtain ⟨rest', rfl⟩ : ∃ rest', rest = cur :: rest' := List.head?_eq_some_iff.mp hmore.2
      exact ih hrest hprev (count + 1) (fun h => nomatch h)
    · have hdone : ∀ c, some cur = some c → (done ++ List.replicate (count + 1) cur).getLastD 0 = c := fun c hc => by
        rw [List.replicate_succ', ← List.append_assoc, List.getLastD_concat]
        exact Option.some.inj hc
      rw [expandItems_append, List.head?_cons, expandItems_run (hlens cur List.mem_cons_self) hprev,
        ih hrest hdone 0 (fun _ => rfl), List.replicate_zero, List.nil_append, List.append_assoc]

/-! ### The extra bits of each symbol -/

/-- A symbol of the bit-length alphabet with as many extra bits as R83 gives it. -/
def ItemShape (x : BlItem) : Prop :=
  (x.symbol ≤ 15 ∧ x.extraBits = 0) ∨ (x.symbol = 16 ∧ x.extraBits = 2) ∨ (x.symbol = 17 ∧ x.extraBits = 3) ∨
    (x.symbol = 18 ∧ x.extraBits = 7)

theorem runItems_shape {prevlen : Option Nat} {cur count minc : Nat} (hcur : cur ≤ 15) :
    ∀ x ∈ runItems prevlen cur count minc, ItemShape x := by
  have hplain : ItemShape ⟨cur, 0, 0⟩ := .inl ⟨hcur, rfl⟩
  have hrepeat : ∀ v, ItemShape ⟨REP_3_6, v, 2⟩ := fun v => .inr (.inl ⟨rfl, rfl⟩)
  have hzeros : ∀ v, ItemShape ⟨REPZ_3_10, v, 3⟩ := fun v => .inr (.inr (.inl ⟨rfl, rfl⟩))
  have hmany : ∀ v, ItemShape ⟨REPZ_11_138, v, 7⟩ := fun v => .inr (.inr (.inr ⟨rfl, rfl⟩))
  unfold runItems
  split_ifs
  · exact fun x hx => List.eq_of_mem_replicate hx ▸ hplain
  · exact List.forall_mem_singleton.mpr (hrepeat _)
  · exact List.forall_mem_cons.mpr ⟨hplain, List.forall_mem_singleton.mpr (hrepeat _)⟩
  · exact List.forall_mem_singleton.mpr (hzeros _)
  · exact List.forall_mem_singleton.mpr (hmany _)

theorem scanRuns_shape {lens : List Nat} (hlens : ∀ l ∈ lens, l ≤ 15) (prevlen : Option Nat) (count : Nat)
    (limits : Nat × Nat) : ∀ x ∈ scanRuns prevlen count limits lens, ItemShape x := by
  induction lens generalizing prevlen count limits with
  | nil => exact fun x hx => absurd hx List.not_mem_nil
  | cons cur rest ih =>
    have hrest : ∀ l ∈ rest, l ≤ 15 := fun l hl => hlens l (List.mem_cons_of_mem cur hl)
    unfold scanRuns
    split
    · exact ih hrest _ _ _
    · exact fun x hx => (List.mem_append.mp hx).elim (runItems_shape (hlens cur List.mem_cons_self) x)
        (ih hrest _ _ _ x)

theorem blItems_shape {lens : List Nat} (hlens : ∀ l ∈ lens, l ≤ 15) (maxCode : Nat) :
    ∀ x ∈ blItems lens maxCode, ItemShape x :=
  scanRuns_shape (fun l hl => hlens l (List.mem_of_mem_take hl)) _ _ _

/-- Settles O55: the walk is undone run by run, and the extra value of a symbol fits the symbol's extra bits. -/
theorem runLengthsDescribeTree : Obligations.RunLengthsDescribeTree := by
  intro lens maxCode hlens _
  refine ⟨?_, fun x hx => ?_⟩
  · exact expandItems_scanRuns (fun l hl => hlens l (List.mem_of_mem_take hl)) (prevlen := none) (fun _ hc => nomatch hc) 0 fun _ => rfl
  · obtain ⟨-, hvalue⟩ := blItems_fits lens maxCode hx
    rcases blItems_shape hlens maxCode x hx with ⟨h, hbits⟩ | ⟨h, hbits⟩ | ⟨h, hbits⟩ | ⟨h, hbits⟩ <;> rw [hbits] at hvalue
    · exact .inl ⟨h, hbits⟩
    · exact .inr (.inl ⟨h, hbits, Nat.le_of_lt_succ hvalue⟩)
    · exact .inr (.inr (.inl ⟨h, hbits, Nat.le_of_lt_succ hvalue⟩))
    · exact .inr (.inr (.inr ⟨h, hbits, Nat.le_of_lt_succ hvalue⟩))

end Sys2Proof.Proofs
end

section
/-!
PROOFS. The output bit stream (spec/45_emitter.md R147 to R159): the bits that each operation of the emitter appends to it.
That an operation runs without a fault is a fact of its own (Sys2Proof/Laws/Emits.lean); here a run that stops says nothing.
-/

namespace Sys2Proof.Proofs

open Sys2Proof.Machine Sys2Proof.Laws

/-! ### Bits of numbers and bytes -/

@[simp] theorem bitsOf_length (v n : Nat) : (bitsOf v n).length = n := by rw [bitsOf, List.length_map, List.length_range]

@[simp] theorem bitsOf_zero_width (v : Nat) : bitsOf v 0 = [] := rfl

theorem bitsOf_add (v a b : Nat) : bitsOf v (a + b) = bitsOf v a ++ bitsOf (v / 2 ^ a) b := by
  rw [bitsOf, List.range_add, List.map_append, List.map_map, bitsOf, bitsOf]
  refine congrArg _ (List.map_congr_left fun i _ => ?_)
  rw [Function.comp_apply, Nat.testBit_div_two_pow, Nat.add_comm]

theorem bitsOf_mod (v n : Nat) : bitsOf (v % 2 ^ n) n = bitsOf v n :=
  List.map_congr_left fun i hi => by
    rw [Nat.testBit_mod_two_pow, decide_eq_true (List.mem_range.mp hi), Bool.true_and]

theorem bitsOf_zero (n : Nat) : bitsOf 0 n = List.replicate n false := by
  rw [bitsOf, List.map_congr_left (g := fun _ => false) fun i _ => Nat.zero_testBit i, List.map_const', List.length_range]

/-- The bits of a value above pending bits (R148). -/
theorem bitsOf_append {b n : Nat} (hb : b < 2 ^ n) (v l : Nat) : bitsOf b n ++ bitsOf v l = bitsOf (b + v * 2 ^ n) (n + l) := by
  rw [bitsOf_add, ← bitsOf_mod (b + v * 2 ^ n) n, Nat.add_mul_mod_self_right, Nat.mod_eq_of_lt hb,
    Nat.add_mul_div_right _ _ (Nat.two_pow_pos n), Nat.div_eq_of_lt hb, Nat.zero_add]

/-- Above its bits a value has zeros. -/
theorem bitsOf_pad {b n : Nat} (hb : b < 2 ^ n) (d : Nat) : bitsOf b (n + d) = bitsOf b n ++ List.replicate d false := by
  rw [bitsOf_add, Nat.div_eq_of_lt hb, bitsOf_zero]

theorem byteBits_append (l l' : List Byte) : byteBits (l ++ l') = byteBits l ++ byteBits l' := List.flatMap_append

theorem byteBits_single (b : Byte) : byteBits [b] = bitsOf b.toNat 8 := List.flatMap_singleton _ _

theorem byteBits_length (l : List Byte) : (byteBits l).length = 8 * l.length := by
  rw [byteBits, List.length_flatMap, List.map_congr_left (g := fun _ => 8) fun b _ => bitsOf_length b.toNat 8,
    List.map_const', List.sum_replicate, smul_eq_mul, Nat.mul_comm]

theorem lowByte_toNat (w : Half) : (lowByte w).toNat = w.toNat % 2 ^ 8 := by
  rw [lowByte, BitVec.extractLsb'_toNat, Nat.shiftRight_zero]

theorem highByte_toNat (w : Half) : (highByte w).toNat = w.toNat / 2 ^ 8 := by
  have := w.isLt
  rw [highByte, BitVec.extractLsb'_toNat, Nat.shiftRight_eq_div_pow]
  omega

theorem byteBits_half (w : Half) : byteBits [lowByte w, highByte w] = bitsOf w.toNat 16 := by
  rw [show [lowByte w, highByte w] = [lowByte w] ++ [highByte w] from rfl, byteBits_append, byteBits_single,
    byteBits_single, lowByte_toNat, highByte_toNat, bitsOf_mod, bitsOf_add w.toNat 8 8]

theorem padBits_congr {m n : Nat} (h : m % 8 = n % 8) : padBits m = padBits n := by rw [padBits, padBits, h]

/-! ### What an operation appends -/

/-- `t` follows `s` in the emitter, and the bits between them are `bits`. -/
structure Sent (s t : State) (bits : List Bool) : Prop where
  frame : EmitFrame s t
  packer : t.PackerOk
  stream : t.bitStream = s.bitStream ++ bits

theorem Sent.trans {s t u : State} {bits bits' : List Bool} (h : Sent s t bits) (h' : Sent t u bits') :
    Sent s u (bits ++ bits') :=
  ⟨h.frame.trans h'.frame, h'.packer, by rw [h'.stream, h.stream, List.append_assoc]⟩

/-- From `s`, where the accumulator is in range, a run of `m` that ends appends `bits`. -/
def Appends (s : State) (m : M Unit) (bits : List Bool) : Prop :=
  s.PackerOk → wp m (fun _ t => Sent s t bits) (fun _ _ => True) True s

variable {s : State} {m n : M Unit} {bits bits' : List Bool}

theorem appends_pure (s : State) : Appends s (pure ()) [] := fun hp =>
  (wp_pure ()).mpr ⟨EmitFrame.refl s, hp, (List.append_nil _).symm⟩

theorem appends_bind (hm : Appends s m bits) (hn : ∀ t, EmitFrame s t → Appends t n bits') :
    Appends s (m >>= fun _ => n) (bits ++ bits') := fun hp =>
  (wp_bind m _ _).mpr (wp_imp (hm hp) fun _ t ht => wp_imp (hn t ht.frame ht.packer) fun _ _ hu => ht.trans hu)

theorem appends_require {ok : Bool} {c : InternalCondition} (h : ok = true → Appends s n bits) :
    Appends s (require ok c >>= fun _ => n) bits := fun hp =>
  (wp_bind _ _ _).mpr ((wp_require ok c _).mpr ⟨fun hok => h hok hp, fun _ => trivial⟩)

theorem appends_get {f : State → M Unit} (h : Appends s (f s) bits) : Appends s (get >>= f) bits := fun hp =>
  (wp_bind _ _ _).mpr ((wp_get _).mpr (h hp))

theorem Appends.congr (h : Appends s m bits) (he : bits = bits') : Appends s m bits' := he ▸ h

/-! ### Bytes -/

/-- A run of `m` from `s` that ends offers exactly `bytes`, and all of them are accepted. -/
def PutsBytes (s : State) (m : M Unit) (bytes : List Byte) : Prop :=
  wp m (fun _ t => t = { s with out := s.out ++ bytes, sink := t.sink }) (fun _ _ => True) True s

theorem putsBytes_pure (s : State) : PutsBytes s (pure ()) [] := (wp_pure ()).mpr (by rw [List.append_nil])

theorem putsBytes_outByte (b : Byte) (s : State) : PutsBytes s (outByte b) [b] :=
  wp_outByte b _ (fun _ => rfl) fun _ => trivial

theorem putsBytes_bind {bytes bytes' : List Byte} (hm : PutsBytes s m bytes)
    (hn : ∀ out sink, PutsBytes { s with out := out, sink := sink } n bytes') :
    PutsBytes s (m >>= fun _ => n) (bytes ++ bytes') :=
  (wp_bind m _ _).mpr (wp_imp hm fun _ t ht => by
    rw [ht]
    refine wp_imp (hn _ _) fun _ u hu => ?_
    rw [hu, List.append_assoc])

theorem putsBytes_putShortLE (w : Half) (s : State) : PutsBytes s (putShortLE w) [lowByte w, highByte w] :=
  putsBytes_bind (putsBytes_outByte _ _) fun _ _ => putsBytes_outByte _ _

theorem putsBytes_putShortMSB (w : Half) (s : State) : PutsBytes s (putShortMSB w) [highByte w, lowByte w] :=
  putsBytes_bind (putsBytes_outByte _ _) fun _ _ => putsBytes_outByte _ _

theorem putsBytes_copyWindow (start : Nat) (n : Nat) (s : State) :
    PutsBytes s (copyWindow start n) ((List.range n).map fun i => s.window.read (start + i)) := by
  induction n generalizing start s with
  | zero => exact putsBytes_pure s
  | succ n ih =>
    refine (wp_bind _ _ _).mpr ((wp_readWindow _ _).mpr ⟨fun _ => ?_, fun _ => trivial⟩)
    rw [List.range_succ_eq_map, List.map_cons, List.map_map]
    refine putsBytes_bind (bytes := [_]) (putsBytes_outByte _ s) fun out sink => ?_
    have htail := ih (start + 1) { s with out := out, sink := sink }
    rw [show (fun i => s.window.read (start + 1 + i)) = (fun i => s.window.read (start + i)) ∘ Nat.succ from
      funext fun i => by rw [Function.comp_apply, Nat.succ_eq_add_one, Nat.add_assoc, Nat.add_comm 1]] at htail
    exact htail

/-! ### The bit packer -/

theorem bitStream_put (s : State) (bytes : List Byte) (sink : List Bool) (b : Half) (n : Nat) :
    ({ s with out := s.out ++ bytes, sink := sink, biBuf := b, biValid := n } : State).bitStream =
      byteBits s.out ++ (byteBits bytes ++ bitsOf b.toNat n) := by
  rw [State.bitStream, byteBits_append, List.append_assoc]

theorem add_mul_two_pow_lt {b v n l : Nat} (hb : b < 2 ^ n) (hv : v < 2 ^ l) : b + v * 2 ^ n < 2 ^ (n + l) :=
  calc b + v * 2 ^ n < 2 ^ n + v * 2 ^ n := Nat.add_lt_add_right hb _
    _ = (v + 1) * 2 ^ n := by rw [Nat.add_mul, Nat.one_mul, Nat.add_comm]
    _ ≤ 2 ^ l * 2 ^ n := Nat.mul_le_mul_right _ hv
    _ = 2 ^ (n + l) := by rw [← Nat.pow_add, Nat.add_comm]

/-- The accumulator with a value above the pending bits, when both fit it (R148). -/
theorem sent_filled {value length : Nat} (hp : s.PackerOk) (hv : value < 2 ^ length) (hroom : s.biValid + length ≤ 16) :
    Sent s { s with biBuf := s.biBuf ||| (BitVec.ofNat 16 value <<< s.biValid), biValid := s.biValid + length }
      (bitsOf value length) := by
  have hlt := add_mul_two_pow_lt hp.2 hv
  have hbuf := filled_toNat hp.2 hv (by omega)
  rw [Nat.mod_eq_of_lt (Nat.lt_of_lt_of_le hlt (Nat.pow_le_pow_right (by decide) hroom))] at hbuf
  refine ⟨⟨rfl, fun _ => hroom⟩, ⟨hroom, hbuf ▸ hlt⟩, ?_⟩
  rw [State.bitStream, State.bitStream, hbuf, List.append_assoc, bitsOf_append hp.2]

/-- The bytes of a full accumulator, and the bits of the value that did not fit it (R148). -/
theorem sent_spilled {value length : Nat} (hp : s.PackerOk) (h16 : length ≤ 16) (hv : value < 2 ^ length)
    (hfull : 16 ≤ s.biValid + length) (sink : List Bool) :
    Sent s
      { s with
        out := s.out ++ [lowByte (s.biBuf ||| (BitVec.ofNat 16 value <<< s.biValid)),
          highByte (s.biBuf ||| (BitVec.ofNat 16 value <<< s.biValid))]
        sink := sink
        biBuf := BitVec.ofNat 16 value >>> (16 - s.biValid)
        biValid := s.biValid + length - 16 }
      (bitsOf value length) := by
  obtain ⟨hvalid, hbuf⟩ := hp
  have hfilled := filled_toNat hbuf hv h16
  have hspilled := spilled_toNat (n := s.biValid) hv h16
  have hrest : (s.biBuf.toNat + value * 2 ^ s.biValid) / 2 ^ 16 = value / 2 ^ (16 - s.biValid) := by
    have hpow : 2 ^ 16 = 2 ^ s.biValid * 2 ^ (16 - s.biValid) := by rw [← Nat.pow_add, Nat.add_sub_cancel' hvalid]
    rw [hpow, ← Nat.div_div_eq_div_mul, Nat.add_mul_div_right _ _ (Nat.two_pow_pos _), Nat.div_eq_of_lt hbuf, Nat.zero_add]
  have hlt : value / 2 ^ (16 - s.biValid) < 2 ^ (s.biValid + length - 16) := by
    rw [Nat.div_lt_iff_lt_mul (Nat.two_pow_pos _), ← Nat.pow_add]
    rwa [show s.biValid + length - 16 + (16 - s.biValid) = length by omega]
  have hle : s.biValid + length - 16 ≤ 16 := by omega
  refine ⟨⟨rfl, fun _ => hle⟩, ⟨hle, hspilled ▸ hlt⟩, ?_⟩
  rw [bitStream_put, byteBits_half, hfilled, hspilled, bitsOf_mod, ← hrest, ← bitsOf_add,
    Nat.add_sub_cancel' hfull, State.bitStream, List.append_assoc, bitsOf_append hbuf]

/-- SendBits appends the bits of its value (R148). -/
theorem appends_sendBits (value length : Nat) (s : State) : Appends s (sendBits value length) (bitsOf value length) := by
  refine appends_require fun hok hp => ?_
  obtain ⟨-, h16, hv⟩ := (sendBitsOperandOk_iff value length).mp hok
  rw [wp_bind, wp_checkPacker]
  refine ⟨fun _ => ?_, fun _ => trivial⟩
  rw [wp_bind, wp_get, wp_ite]
  refine ⟨fun hfull => ?_, fun hroom => ?_⟩
  · rw [wp_bind]
    refine wp_imp (putsBytes_putShortLE _ s) fun _ t ht => ?_
    rw [wp_modify, ht]
    exact sent_spilled hp h16 hv (by omega) t.sink
  · rw [wp_set]
    exact sent_filled hp hv (by omega)

/-- Align appends the pad to the byte boundary and empties the accumulator (R150). -/
theorem wp_align (hp : s.PackerOk) :
    wp align (fun _ t => Sent s t (padBits s.biValid) ∧ t.biBuf = 0 ∧ t.biValid = 0) (fun _ _ => True) True s := by
  obtain ⟨hvalid, hbuf⟩ := hp
  have hsent : ∀ (bytes : List Byte) (sink : List Bool), byteBits bytes = bitsOf s.biBuf.toNat s.biValid ++ padBits s.biValid →
      Sent s { s with out := s.out ++ bytes, sink := sink, biBuf := 0, biValid := 0 } (padBits s.biValid) := by
    intro bytes sink hbytes
    refine ⟨⟨rfl, fun _ => Nat.zero_le _⟩, ⟨Nat.zero_le _, Nat.one_pos⟩, ?_⟩
    rw [bitStream_put, hbytes, bitsOf_zero_width, List.append_nil, State.bitStream, List.append_assoc]
  have hpad : ∀ d, d = (8 - s.biValid % 8) % 8 →
      bitsOf s.biBuf.toNat (s.biValid + d) = bitsOf s.biBuf.toNat s.biValid ++ padBits s.biValid :=
    fun d hd => by rw [bitsOf_pad hbuf, padBits, hd]
  rw [align, drainBits, wp_bind, wp_bind, wp_checkPacker]
  refine ⟨fun _ => ?_, fun _ => trivial⟩
  rw [wp_bind, wp_get, wp_ite, wp_ite]
  refine ⟨fun h8 => ?_, fun h8 => ⟨fun h0 => ?_, fun h0 => ?_⟩⟩
  · refine wp_imp (putsBytes_putShortLE _ s) fun _ t ht => ?_
    rw [wp_clearBits, ht]
    refine ⟨hsent _ _ ?_, rfl, rfl⟩
    rw [byteBits_half, ← hpad (16 - s.biValid) (by omega), Nat.add_sub_cancel' hvalid]
  · refine wp_imp (putsBytes_outByte _ s) fun _ t ht => ?_
    rw [wp_clearBits, ht]
    refine ⟨hsent _ _ ?_, rfl, rfl⟩
    rw [byteBits_single, lowByte_toNat, bitsOf_mod, ← hpad (8 - s.biValid) (by omega), Nat.add_sub_cancel' (by omega)]
  · rw [wp_pure, wp_clearBits]
    have hz : s.biValid = 0 := Nat.eq_zero_of_not_pos h0
    have := hsent [] s.sink (by rw [hz]; rfl)
    rw [List.append_nil] at this
    exact ⟨this, rfl, rfl⟩

/-! ### Codes and tokens -/

theorem appends_sendCode (lens codes : List Nat) (symbol : Nat) (s : State) :
    Appends s (sendCode lens codes symbol) (symbolBits lens codes symbol) :=
  appends_require fun _ => appends_sendBits _ _ s

theorem appends_sendExtra (value bits : Nat) (s : State) : Appends s (sendExtra value bits) (bitsOf value bits) := by
  unfold sendExtra
  split
  · exact appends_sendBits value bits s
  · obtain rfl : bits = 0 := Nat.eq_zero_of_not_pos ‹_›
    exact appends_pure s

theorem appends_sendToken (lLens lCodes dLens dCodes : List Nat) (dist lc : Nat) (s : State) :
    Appends s (sendToken lLens lCodes dLens dCodes dist lc) (tokenBits lLens lCodes dLens dCodes dist lc) := by
  unfold sendToken tokenBits
  split
  · exact appends_sendCode _ _ _ s
  · refine (appends_bind (appends_sendCode _ _ _ s) fun t _ => appends_bind (appends_sendExtra _ _ t) fun u _ =>
      appends_bind (appends_sendCode _ _ _ u) fun v _ => appends_sendExtra _ _ v).congr ?_
    rw [List.append_assoc, List.append_assoc]

theorem appends_sendTokens (lLens lCodes dLens dCodes : List Nat) (i n : Nat) (s : State) :
    Appends s (sendTokens lLens lCodes dLens dCodes i n)
      ((List.range' i n).flatMap fun j =>
        tokenBits lLens lCodes dLens dCodes (s.tokDist.read j).toNat (s.tokLc.read j).toNat) := by
  induction n generalizing i s with
  | zero => exact appends_pure s
  | succ n ih =>
    rw [List.range'_succ, List.flatMap_cons]
    refine appends_get (appends_bind (appends_sendToken _ _ _ _ _ _ s) fun t ht => ?_)
    have hrest := ih (i + 1) t
    rw [ht.eq] at hrest
    rw [ht.eq]
    exact hrest

theorem appends_compressBlock (lLens lCodes dLens dCodes : List Nat) (s : State) :
    Appends s (compressBlock lLens lCodes dLens dCodes) (s.codedBits lLens lCodes dLens dCodes) := by
  refine appends_get (appends_bind ?_ fun t _ => appends_sendCode _ _ _ t)
  rw [List.range_eq_range']
  exact appends_sendTokens _ _ _ _ _ _ s

theorem appends_sendItems (bl : BuiltTree) (items : List BlItem) (s : State) :
    Appends s (sendItems bl items) (itemBits bl items) := by
  induction items generalizing s with
  | nil => exact appends_pure s
  | cons x xs ih =>
    refine (appends_bind (appends_sendCode _ _ _ s) fun t _ => appends_bind (appends_sendExtra _ _ t) fun u _ =>
      ih u).congr ?_
    rw [itemBits, itemBits, List.flatMap_cons, List.append_assoc]

theorem appends_sendBlLengths (bl : BuiltTree) (symbols : List Nat) (s : State) :
    Appends s (sendBlLengths bl symbols) (symbols.flatMap fun n => bitsOf (bl.lens.getD n 0) 3) := by
  induction symbols generalizing s with
  | nil => exact appends_pure s
  | cons n rest ih => exact appends_bind (appends_sendBits _ _ s) fun t _ => ih t

/-! ### Blocks -/

theorem appends_blockHeader (kind : BlockType) (last : Bool) (s : State) :
    Appends s (blockHeader kind last) (headerBits kind last) :=
  (appends_sendBits _ _ s).congr (by cases kind <;> cases last <;> decide)

theorem codedBits_emitFrame {t : State} (h : EmitFrame s t) (lLens lCodes dLens dCodes : List Nat) :
    t.codedBits lLens lCodes dLens dCodes = s.codedBits lLens lCodes dLens dCodes := by
  rw [h.eq]
  rfl

theorem appends_staticBlock (last : Bool) (s : State) :
    Appends s (staticBlock last)
      (headerBits .static last ++ s.codedBits staticLitLens staticLitCodes staticDistLens staticDistCodes) :=
  appends_bind (appends_blockHeader _ _ s) fun t ht => (appends_compressBlock _ _ _ _ t).congr (codedBits_emitFrame ht _ _ _ _)

theorem appends_dynamicBlock (l d bl : BuiltTree) (maxIndex : Nat) (last : Bool) (s : State) :
    Appends s (dynamicBlock l d bl maxIndex last) (headerBits .dynamic last ++ s.dynamicBits l d bl maxIndex) := by
  refine appends_bind (appends_blockHeader _ _ s) fun t ht => appends_require fun _ => ?_
  refine (appends_bind (appends_sendBits _ _ t) fun t1 h1 => appends_bind (appends_sendBits _ _ t1) fun t2 h2 =>
    appends_bind (appends_sendBits _ _ t2) fun t3 h3 => appends_bind (appends_sendBlLengths _ _ t3) fun t4 h4 =>
    appends_bind (appends_sendItems _ _ t4) fun t5 h5 => appends_bind (appends_sendItems _ _ t5) fun t6 h6 =>
    (appends_compressBlock _ _ _ _ t6).congr (codedBits_emitFrame
      (ht.trans (h1.trans (h2.trans (h3.trans (h4.trans (h5.trans h6)))))) _ _ _ _)).congr ?_
  simp only [State.dynamicBits, List.append_assoc]

/-! ### The stored block -/

theorem bitStream_length (s : State) : s.bitStream.length = 8 * s.out.length + s.biValid := by
  rw [State.bitStream, List.length_append, byteBits_length, bitsOf_length]

theorem Sent.biValid_mod {t : State} (h : Sent s t bits) : t.biValid % 8 = (s.biValid + bits.length) % 8 := by
  have hlen := congrArg List.length h.stream
  rw [List.length_append, bitStream_length, bitStream_length] at hlen
  omega

/-- With no pending bits, accepted bytes are the next bits of the stream. -/
theorem sent_bytes (h0 : s.biValid = 0) (hp : s.PackerOk) (bytes : List Byte) (sink : List Bool) :
    Sent s { s with out := s.out ++ bytes, sink := sink } (byteBits bytes) := by
  refine ⟨⟨rfl, id⟩, hp, ?_⟩
  show byteBits (s.out ++ bytes) ++ bitsOf s.biBuf.toNat s.biValid = s.bitStream ++ byteBits bytes
  rw [State.bitStream, h0, bitsOf_zero_width, List.append_nil, List.append_nil, byteBits_append]

theorem lowByte_ofNat (n : Nat) : lowByte (BitVec.ofNat 16 n) = BitVec.ofNat 8 n := by
  apply BitVec.eq_of_toNat_eq
  rw [lowByte_toNat, BitVec.toNat_ofNat, BitVec.toNat_ofNat]
  omega

theorem highByte_ofNat {n : Nat} (h : n ≤ 65535) : highByte (BitVec.ofNat 16 n) = BitVec.ofNat 8 (n / 256) := by
  apply BitVec.eq_of_toNat_eq
  rw [highByte_toNat, BitVec.toNat_ofNat, BitVec.toNat_ofNat]
  omega

theorem lowByte_not (w : Half) : lowByte (~~~ w) = ~~~ lowByte w := by
  apply BitVec.eq_of_toNat_eq
  have := w.isLt
  rw [lowByte_toNat, BitVec.toNat_not, BitVec.toNat_not, lowByte_toNat]
  omega

theorem highByte_not (w : Half) : highByte (~~~ w) = ~~~ highByte w := by
  apply BitVec.eq_of_toNat_eq
  have := w.isLt
  rw [highByte_toNat, BitVec.toNat_not, BitVec.toNat_not, highByte_toNat]
  omega

/-- The bytes of a stored block behind its pad (R76): LEN, NLEN and `n` bytes of the window. -/
def storedBytes (window : Memory 8) (start n : Nat) : List Byte :=
  [BitVec.ofNat 8 n, BitVec.ofNat 8 (n / 256), ~~~ BitVec.ofNat 8 n, ~~~ BitVec.ofNat 8 (n / 256)] ++
    (List.range n).map fun i => window.read (start + i)

theorem putsBytes_stored (start : Nat) {n : Nat} (hn : n ≤ 65535) (s : State) :
    PutsBytes s (putShortLE (BitVec.ofNat 16 n) >>= fun _ => putShortLE (~~~ BitVec.ofNat 16 n) >>= fun _ =>
      copyWindow start n) (storedBytes s.window start n) := by
  rw [storedBytes, ← lowByte_ofNat n, ← highByte_ofNat hn, ← lowByte_not, ← highByte_not]
  show PutsBytes s _ ([_, _] ++ ([_, _] ++ _))
  exact putsBytes_bind (putsBytes_putShortLE _ s) fun _ _ => putsBytes_bind (putsBytes_putShortLE _ _) fun _ _ =>
    putsBytes_copyWindow start n _

/-- StoredBlock appends its header, the pad, LEN, NLEN and the bytes, and leaves the accumulator empty (R154). -/
theorem wp_storedBlock (start n : Int) (last : Bool) (hp : s.PackerOk) :
    wp (storedBlock start n last)
      (fun _ t => Sent s t (headerBits .stored last ++ s.storedBits start.toNat n.toNat) ∧ t.biBuf = 0 ∧ t.biValid = 0)
      (fun _ _ => True) True s := by
  rw [storedBlock, wp_bind, wp_require]
  refine ⟨fun hok => ?_, fun _ => trivial⟩
  simp only [Bool.and_eq_true, decide_eq_true_eq] at hok
  obtain ⟨⟨hstart, hn0⟩, hn⟩ := hok
  rw [wp_bind]
  refine wp_imp (appends_blockHeader .stored last s hp) fun _ t ht => ?_
  rw [wp_bind]
  refine wp_imp (wp_align ht.packer) fun _ u ⟨hu, hbuf, hvalid⟩ => ?_
  have hbytes := putsBytes_stored start.toNat (n := n.toNat) (by omega) u
  rw [Int.toNat_of_nonneg hstart] at hbytes
  refine wp_imp hbytes fun _ v hv => ?_
  have hpad : padBits t.biValid = padBits (s.biValid + 3) := padBits_congr ht.biValid_mod
  have hwindow : u.window = s.window := by rw [(ht.trans hu).frame.eq]
  have hall := ht.trans (hu.trans (sent_bytes hvalid hu.packer (storedBytes u.window start.toNat n.toNat) v.sink))
  rw [hpad, hwindow] at hall
  rw [hv, hwindow]
  exact ⟨hall, hbuf, hvalid⟩

/-! ### Completion -/

theorem run_of_wp {α : Type} {m : M α} {Q : α → State → Prop} (h : wp m Q (fun _ _ => False) False s) :
    ∃ a t, m s = .ok a t ∧ Q a t := by
  unfold wp at h
  split at h
  case h_1 a t heq => exact ⟨a, t, heq, h⟩
  case h_2 => exact h.elim
  case h_3 => exact h.elim

/-- With an accepting sink a framed program that does not fault runs to its end (R54, R185). -/
theorem wp_accepted {α : Type} {m : M α} {Q Q' : α → State → Prop} {R R' : ResultCode → State → Prop}
    (hnofault : wp m Q' R' False s) (hframed : Framed m) (hsink : false ∉ s.sink) (h : wp m Q R True s) :
    wp m (fun a t => Q a t ∧ Q' a t ∧ Frame s t) (fun _ _ => False) False s :=
  wp_mono (wp_and h (wp_and hnofault (hframed s))) (fun _ _ h => h)
    (fun _ _ ⟨_, _, hbroken⟩ => by
      obtain ⟨-, -, -, hmem, -⟩ := hbroken
      exact hsink hmem)
    fun ⟨_, hfault, _⟩ => hfault

theorem sink_nil {t : State} (h : Frame s t) (hsink : s.sink = []) : t.sink = [] :=
  List.suffix_nil.mp (hsink ▸ h.1.sink)

/-- Settles O58: the bits are those of `wp_storedBlock`, and the run completes as its window reads are in range. -/
theorem storedBlockLayout : Obligations.StoredBlockLayout := by
  intro s start n last hp hsink hn hwin
  have hnofault := emits_storedBlock (F := False) (start := start) (n := n) (last := last)
    (.inr ⟨by omega, by omega, by omega, by omega⟩) s (.inr hp.1)
  obtain ⟨_, t, hrun, ⟨hsent, hbuf, hvalid⟩, -, hframe⟩ := run_of_wp (wp_accepted hnofault (framed_storedBlock _ _ _)
    (by rw [hsink]; exact List.not_mem_nil) (wp_storedBlock start n last hp))
  refine ⟨t, hrun, ?_, ?_⟩
  · rw [hsent.stream, List.append_assoc, List.append_assoc]
    rfl
  · rw [hsent.frame.eq, hbuf, hvalid, sink_nil hframe hsink, ← hsink]

end Sys2Proof.Proofs
end

section
/-!
PROOFS. FlushBlock (spec/45_emitter.md R156 to R161): the trees it builds, the form it takes, and the bits it appends.
-/

namespace Sys2Proof.Proofs

open Sys2Proof.Machine Sys2Proof.Laws

variable {s : State}

/-! ### The bit-length tree -/

/-- The position that `max_blindex` answers has a length, unless it is one of the first three (R141). -/
theorem maxBlIndex_used {lens : List Nat} {r : Nat} (h : 3 ≤ maxBlIndex lens r) :
    lens.getD (bitLengthOrder.getD (maxBlIndex lens r) 0) 0 ≠ 0 := by
  induction r with
  | zero => exact absurd h (Nat.not_succ_le_zero 2)
  | succ r ih =>
    unfold maxBlIndex at h ⊢
    split
    · rename_i hskip
      rw [if_pos hskip] at h
      exact ih h
    · rename_i hstop
      rw [if_neg hstop] at h
      exact fun hz => hstop ⟨h, hz⟩

theorem maxBlIndex_above {lens : List Nat} {r j : Nat} (hj : maxBlIndex lens r < j) (hr : j ≤ r) :
    lens.getD (bitLengthOrder.getD j 0) 0 = 0 := by
  by_contra h
  exact absurd (le_maxBlIndex hr h) (by omega)

/-- The frequencies of the bit-length tree count the run-length symbols of both trees (R140, R141). -/
theorem scanned_read {l d : BuiltTree} (hl : l.lens.length = L_CODES ∧ ∀ x ∈ l.lens, x ≤ 15)
    (hd : d.lens.length = D_CODES ∧ ∀ x ∈ d.lens, x ≤ 15) (n : Nat) :
    ((scanned l d).read n).toNat =
      (blItems l.lens l.maxCode ++ blItems d.lens d.maxCode).countP fun x => decide (x.symbol = n) := by
  have hsymbol : ∀ x ∈ blItems l.lens l.maxCode ++ blItems d.lens d.maxCode, x.symbol < BL_CODES := fun x hx =>
    (scanned_used hl hd hx).1
  have hlength : (blItems l.lens l.maxCode ++ blItems d.lens d.maxCode).length ≤ 286 + 30 := by
    rw [List.length_append]
    exact Nat.add_le_add (Nat.le_trans (blItems_length _ _) (Nat.le_of_eq hl.1))
      (Nat.le_trans (blItems_length _ _) (Nat.le_of_eq hd.1))
  have hzero : (Memory.read ([] : Memory 16) n).toNat = 0 := rfl
  rw [scanned_eq, foldl_bump_read _ (wf_nil BL_CODES) hsymbol n (by rw [hzero]; omega), hzero, Nat.zero_add]

theorem good_of_builtTree {tie : HeapTie} {k : TreeKind} {freq : Memory 16} {t : BuiltTree}
    (h : builtTree tie k freq = some t) : GoodTree k freq t := by
  obtain ⟨t', ht', hgood⟩ := builtTree_good tie k freq
  obtain rfl : t = t' := Option.some.inj (h.symm.trans ht')
  exact hgood

/-- The bit-length tree has no static form, so it adds nothing to `static_len` (R128). -/
theorem bitLen_staticAdd {tie : HeapTie} {freq : Memory 16} {t : BuiltTree} (h : builtTree tie .bitLen freq = some t) :
    t.staticAdd = 0 := by
  rw [(good_of_builtTree h).static]
  exact List.sum_eq_zero fun x hx => by
    obtain ⟨n, -, rfl⟩ := List.mem_map.mp hx
    exact Int.mul_zero _

/-! ### The form of a block -/

/-- The state in which ChooseBlock compares the costs: those of the three trees (R142). -/
def treesCosted (s : State) (l d bl : BuiltTree) (maxIndex : Nat) : State :=
  { s with
    optLen := l.optAdd + d.optAdd + bl.optAdd + (3 * (maxIndex + 1) + 14)
    staticLen := l.staticAdd + d.staticAdd }

/-- A block in a given form, header and body (R153 to R156). -/
def blockBits (s : State) (kind : BlockType) (l d bl : BuiltTree) (maxIndex : Nat) (last : Bool) : List Bool :=
  headerBits kind last ++
    match kind with
    | .stored => s.storedBits s.blockStart.toNat (s.strstart - s.blockStart).toNat
    | .static => s.codedBits staticLitLens staticLitCodes staticDistLens staticDistCodes
    | .dynamic => s.dynamicBits l d bl maxIndex

theorem appends_emitBlock (l d bl : BuiltTree) (maxIndex : Nat) (last : Bool) (s : State) :
    Appends s (emitBlock l d bl maxIndex last) (blockBits s (chooseBlock s) l d bl maxIndex last) := by
  refine appends_get ?_
  cases chooseBlock s with
  | stored => exact fun hp => wp_imp (wp_storedBlock _ _ last hp) fun _ _ ht => ht.1
  | static => exact appends_staticBlock last s
  | dynamic => exact appends_dynamicBlock l d bl maxIndex last s

/-- After the block come the next block's accumulators, and after the final one the pad (R43, R160, R161). -/
theorem wp_blockEnd (last : Bool) (hp : s.PackerOk) :
    wp (initBlock >>= fun _ => doIf last align >>= fun _ => startBlock)
      (fun _ t => t.bitStream = s.bitStream ++ if last = true then padBits s.bitStream.length else [])
      (fun _ _ => True) True s := by
  rw [wp_bind, wp_initBlock, wp_bind, wp_doIf]
  refine ⟨fun hlast => ?_, fun hlast => ?_⟩
  · refine wp_imp (wp_align (s := s.blockCleared) hp) fun _ t ⟨ht, _, _⟩ => ?_
    have hpad : padBits s.biValid = padBits s.bitStream.length := padBits_congr (by rw [bitStream_length]; omega)
    rw [wp_startBlock, if_pos hlast, ← hpad]
    exact ht.stream
  · rw [wp_startBlock, if_neg (by rw [hlast]; decide), List.append_nil]
    rfl

/-- FlushBlock after its three trees, which it always builds: the block is sent from the state with their costs. -/
theorem wp_flushBlock (last : Bool) (hclear : s.CostsClear) {F : Prop} {Q : Unit → State → Prop}
    {R : ResultCode → State → Prop}
    (h : ∀ l d bl freq, builtTree s.cfg.heapTie .litLen s.dynLfreq = some l →
      builtTree s.cfg.heapTie .dist s.dynDfreq = some d → builtTree s.cfg.heapTie .bitLen (scanned l d) = some bl →
      wp (emitBlock l d bl (maxBlIndex bl.lens 18) last >>= fun _ => initBlock >>= fun _ => doIf last align >>= fun _ =>
        startBlock) Q R F { treesCosted s l d bl (maxBlIndex bl.lens 18) with blFreq := freq }) :
    wp (flushBlock last) Q R F s := by
  obtain ⟨hfreq, hopt, hstatic⟩ := hclear
  rw [flushBlock, wp_bind]
  refine wp_mono (wp_buildTree_eq (F := F) .litLen s) (fun l t ⟨hl, ht⟩ => ?_) (fun _ _ h => h.elim) id
  rw [wp_bind]
  refine wp_mono (wp_buildTree_eq (F := F) .dist t) (fun d u ⟨hd, hu⟩ => ?_) (fun _ _ h => h.elim) id
  have hblu : u.blFreq = [] := by rw [hu, ht, ← hfreq]
  rw [wp_bind]
  refine wp_mono (buildBlTree_spec (F := F) l d u (.inr ⟨hblu, ⟨(builtTree_lens hl).1, lens_le_15 hl⟩,
    (builtTree_lens hd).1⟩)) (fun ⟨bl, maxIndex⟩ v ⟨hb, hindex, hv⟩ => ?_) (fun _ _ h => h.elim) id
  simp only at hb hindex hv
  rw [hu, ht] at hb
  rw [ht] at hd
  simp only [State.scanned, hfreq] at hb
  have hoptLen : v.optLen = l.optAdd + d.optAdd + bl.optAdd + (3 * (maxIndex + 1) + 14) := by
    rw [hv, hu, ht]
    simp only
    omega
  have hstaticLen : v.staticLen = l.staticAdd + d.staticAdd := by
    rw [hv, hu, ht]
    simp only
    rw [bitLen_staticAdd hb]
    omega
  have hcosted : v = { treesCosted s l d bl maxIndex with blFreq := v.blFreq } := by
    rw [treesCosted, ← hoptLen, ← hstaticLen, hv, hu, ht]
  rw [hcosted, hindex]
  exact h l d bl v.blFreq hl hd hb

/-- What FlushBlock has appended when it ends, with the trees of the block. -/
structure BlockSent (s : State) (last : Bool) (t : State) (l d bl : BuiltTree) : Prop where
  lTree : builtTree s.cfg.heapTie .litLen s.dynLfreq = some l
  dTree : builtTree s.cfg.heapTie .dist s.dynDfreq = some d
  blTree : builtTree s.cfg.heapTie .bitLen (scanned l d) = some bl
  stream : ∀ sent, sent = s.bitStream ++
      blockBits s (chooseBlock (treesCosted s l d bl (maxBlIndex bl.lens 18))) l d bl (maxBlIndex bl.lens 18) last →
    t.bitStream = sent ++ if last = true then padBits sent.length else []

theorem flushBlock_sends (last : Bool) (hp : s.PackerOk) (hclear : s.CostsClear) :
    wp (flushBlock last) (fun _ t => ∃ l d bl, BlockSent s last t l d bl) (fun _ _ => True) True s := by
  refine wp_flushBlock last hclear fun l d bl freq hl hd hb => ?_
  rw [wp_bind]
  refine wp_imp (appends_emitBlock l d bl _ last _ hp) fun _ w hw => wp_imp (wp_blockEnd last hw.packer) fun _ x hx => ?_
  refine ⟨l, d, bl, hl, hd, hb, fun sent hbits => ?_⟩
  rw [hx, hw.stream, hbits]
  rfl

theorem packerOk_of_coreOk (h : s.CoreOk) : s.PackerOk := by
  obtain ⟨-, -, -, -, -, -, hp, -⟩ := h
  exact hp

/-- Settles O14: the bits are those of `flushBlock_sends`, and the run completes as the block is ready. -/
theorem flushBlockSendsChosenForm : Obligations.FlushBlockSendsChosenForm := by
  refine ⟨rfl, fun s last hcore htally hclear hstart hsink => ?_⟩
  have hp := packerOk_of_coreOk hcore
  obtain ⟨t, hrun⟩ := flushBlock_completes last ⟨hcore, htally, hclear, hstart⟩ hsink
  obtain ⟨l, d, bl, hl, hd, hbl, hstream⟩ := wp_ok (flushBlock_sends last hp hclear) hrun
  have hready := dynamicReady htally hl hd hbl
  refine ⟨l, d, bl, scanned l d, maxBlIndex bl.lens 18, t, hl, hd, hbl, fun n _ => ?_, hready.index.1, hready.index.2,
    maxBlIndex_used hready.index.1, fun r hr h18 => maxBlIndex_above hr h18, hrun, hstream _ ?_⟩
  · exact scanned_read ⟨(builtTree_lens hl).1, lens_le_15 hl⟩ ⟨(builtTree_lens hd).1, lens_le_15 hd⟩ n
  · exact List.append_assoc _ _ _

end Sys2Proof.Proofs
end

section
/-!
PROOFS. FINALIZE (spec/46_control.md R169, R174): it completes in a session with an accepting sink, and its output begins
with the header, if none was written yet, and ends with the trailer.
-/

namespace Sys2Proof.Proofs

open Sys2Proof.Machine Sys2Proof.Laws

variable {s : State}

/-! ### The output of the body -/

/-- With framing the trailer is the checksum, most significant byte first (R74, R169). -/
theorem putsBytes_trailer (s : State) :
    PutsBytes s trailer (if s.framing = true then trailerBytes (s.adlerA, s.adlerB) else []) := by
  refine (wp_bind _ _ _).mpr ((wp_get _).mpr ?_)
  split
  · exact putsBytes_bind (putsBytes_putShortMSB _ s) fun _ _ => putsBytes_putShortMSB _ _
  · exact putsBytes_pure s

/-- The loop of FINALIZE ends with a flush, so no token is left (R118, R160). -/
theorem deflateFrom_lastLit (fuel : Nat) (s : State) :
    wp (deflateFrom true fuel) (fun _ t => t.lastLit = 0) (fun _ _ => True) True s := by
  induction fuel generalizing s with
  | zero => exact (wp_internalFault _).mpr trivial
  | succ fuel ih =>
    rw [deflateFrom, wp_bind]
    refine wp_imp (loopTop_exit true s) fun top t hexit => ?_
    cases top with
    | needsInput => exact absurd hexit.1 (by decide)
    | consumed =>
      rw [wp_bind, wp_setPhase, finishDrain, wp_bind]
      refine wp_imp (wp_true _ _) fun _ u _ => wp_imp (flush_spec (F := True) true u (.inl trivial)) fun _ v hv => ?_
      rw [hv.1]
    | position =>
      rw [wp_bind]
      refine wp_imp (wp_true _ _) fun _ u _ => ?_
      rw [wp_bind]
      exact wp_imp (wp_true _ _) fun _ v _ => ih v

/-- What the body of FINALIZE has written when it ends (R168, R169, R174). -/
theorem finalizeBody_writes (s : State) :
    wp finalizeBody
      (fun _ t => t.lastLit = 0 ∧ ∃ blocks, t.out = s.out ++ s.headerBytes ++ blocks ++
        if s.framing = true then trailerBytes (t.adlerA, t.adlerB) else [])
      (fun _ _ => True) True s := by
  rw [finalizeBody, wp_bind, wp_checkSession]
  refine ⟨fun _ => trivial, fun _ hacc => ?_, fun _ _ => trivial⟩
  rw [wp_bind]
  refine wp_mono (enterBusy_ends hacc) (fun _ t ht => ?_) (fun _ _ _ => trivial) id
  have hphase : t.phase ≠ .done := by rw [ht.frame]; exact nofun
  have hlit : wp (deflateLoop true) (fun _ u => u.lastLit = 0) (fun _ _ => True) True t := by
    rw [deflateLoop, wp_bind, wp_get]
    exact deflateFrom_lastLit _ t
  rw [wp_bind]
  refine wp_mono (wp_and (runs_deflateLoop true t hphase) hlit) (fun _ u ⟨⟨hrun, _⟩, hu⟩ => ?_) (fun _ _ _ => trivial)
    fun _ => trivial
  rw [wp_bind]
  refine wp_imp (putsBytes_trailer u) fun _ v hv => ?_
  rw [wp_bind, wp_setPhase, wp_pure, hv]
  obtain ⟨blocks, hblocks⟩ := hrun.out
  have hframing : u.framing = s.framing := hrun.framing.trans ht.outer.framing
  refine ⟨hu, blocks, ?_⟩
  rw [← ht.out, hblocks, hframing]

/-! ### Completion -/

/-- FINALIZE raises an error only outside a session or at a refused byte (R184, R185). -/
theorem finalizeBody_raises (s : State) :
    wp finalizeBody (fun _ _ => True) (fun _ _ => s.phase.accepts = false ∨ false ∈ s.sink) True s := by
  rw [finalizeBody, wp_bind, wp_checkSession]
  refine ⟨fun _ => trivial, fun _ hacc => ?_, fun _ hacc => .inl hacc⟩
  rw [wp_bind]
  refine wp_mono (enterBusy_ends hacc) (fun _ t ht => ?_) (fun _ _ ⟨⟨_, _, _, hmem, _⟩, _⟩ => .inr hmem) id
  have hphase : t.phase ≠ .done := by rw [ht.frame]; exact nofun
  have hrest : Runs (deflateLoop true >>= fun _ => trailer) :=
    runs_bind (runs_deflateLoop true) fun _ => runs_framed framed_trailer
  simp only [← bind_assoc] -- all that may raise, in front of what writes DONE
  rw [wp_bind, wp_bind]
  refine wp_mono (hrest t hphase) (fun _ u _ => ?_) (fun _ _ ⟨_, _, _, hmem, _⟩ => .inr (ht.outer.sink.subset hmem)) id
  rw [wp_setPhase, wp_pure]
  trivial

/-- In a session with an accepting sink FINALIZE completes if its body does not fault, as the body ends. -/
theorem execFinalize_of_body {Q : ResultCode → State → Prop} {R : ResultCode → State → Prop}
    (hbody : wp finalizeBody Q R False s) (hpayload : s.payload = []) (hacc : s.phase.accepts = true)
    (hsink : false ∉ s.sink) : ∃ code u, Q code u ∧ exec .finalize s = .next (u.complete s.out code) := by
  have hlen : s.payload.length = 0 := by rw [hpayload]; rfl
  rcases runCommand_completes hlen (wp_mono (wp_and hbody (finalizeBody_raises s)) (fun _ _ h => h) (fun _ _ h => h.2)
    fun h => h.1) with ⟨code, u, ⟨hq, -⟩, hrun⟩ | ⟨e, u, hraised, -⟩
  · exact ⟨code, u, hq, hrun⟩
  · rcases hraised with hrej | hmem
    · rw [hacc] at hrej
      cases hrej
    · exact absurd hmem hsink

/-- Settles O27: the body does not fault in a session, no error ends it, and its output is that of `finalizeBody_writes`. -/
theorem finalizeCompletes : Obligations.FinalizeCompletes := by
  intro s hinv hses hnf hacc hsink
  have hissued := issued_issue hinv []
  have hroom : (s.issue []).failed = false → s.lastLit < s.cfg.tokenLimit := fun h => (hissued.2.2.2.2.2 h).2.2.1
  have hspec := finalizeBody_spec (F := False) hissued.1 hroom (.inr ⟨hnf, fun _ => hses hnf⟩)
  have hunread := finalizeBody_streams (streaming_unread (s.issue [])) (unread_fillWindow _)
    (fun t h => (streaming_unread _).still t _ (.of_eq rfl) h) ⟨hissued.2.1, rfl, rfl, fun _ => ⟨rfl, rfl⟩⟩
  have hbody := wp_mono (wp_and hspec (wp_and hunread (finalizeBody_writes (s.issue [])))) (fun _ _ h => h)
    (fun _ _ h => h) (fun h => h.1)
  obtain ⟨code, t, ⟨⟨rfl, -, -, -, hfailed, hphase, hvalid, -, hlook, hav, -⟩, ⟨-, hread⟩, hlit, blocks, hout⟩, hrun⟩ :=
    execFinalize_of_body hbody rfl hacc hsink
  have hadler : (t.adlerA, t.adlerB) = (s.adlerA, s.adlerB) := by rw [hread.adlerA, hread.adlerB]; rfl
  rw [hadler] at hout
  exact ⟨_, hrun, rfl, hfailed, hphase, hlook, hav, hvalid, hlit, hadler, blocks, hout⟩

end Sys2Proof.Proofs
end

section
/-!
PROOFS. Whole sessions (spec/46_control.md R170 to R177, spec/70_reset_and_hazards.md R201): INIT, PROCESS and FINALIZE
with an accepting sink, whatever the unspecified memories hold.
-/

namespace Sys2Proof.Proofs

open Sys2Proof.Machine Sys2Proof.Laws

variable {s t u : State}

/-! ### The start of a session -/

theorem execInit_issued (framing : Bool) (s : State) :
    exec (.init framing) (s.issue []) = .next (((s.issue []).restarted framing).complete s.out .ok) := rfl

/-- The invariants at the start of a session do not depend on the unspecified memories (R201). -/
theorem inv_unspecified {framing : Bool} (h : t.Inv) (ht : t = ((s.issue []).restarted framing).complete s.out .ok)
    (hu : t.Unspecified u) : u.Inv ∧ u.SessionInv := by
  obtain ⟨hmem, hu⟩ := hu
  obtain ⟨⟨hcfg, -, hregs⟩, hports, hcontrol⟩ := h
  have hsettled : Settled { State.fresh s.cfg framing with
      window := u.window, prev := u.prev, tokDist := u.tokDist, tokLc := u.tokLc } := by
    refine settled_start (c := s.cfg) (framing := framing) ⟨?_, rfl⟩
    rw [hu, ht] at hmem
    exact hmem
  refine ⟨⟨⟨?_, hmem, ?_⟩, ?_, ?_⟩, fun _ => ?_⟩ <;> rw [hu]
  · exact hcfg
  · exact hregs
  · exact hports
  · exact hcontrol
  · rw [ht]
    exact hsettled

theorem sink_nil_of_exec {i : Instr} (hn : exec i s = .next t) (hsink : s.sink = []) : t.sink = [] := by
  obtain ⟨r, -, -, hcut, hrun⟩ := exec_delivers hn
  rw [hsink] at hcut hrun
  by_cases hcode : r.code = .streamError
  · exact absurd (hcut hcode) (by simp)
  · exact (hrun hcode).1.trans List.drop_nil

/-- PROCESS and FINALIZE in a row, with an accepting sink (R172, R174): the header, if there was none, the blocks of both,
and the trailer for the data. -/
theorem process_finalize (data : List Byte) (hinv : s.Inv) (hses : s.SessionInv) (hnf : s.failed = false)
    (hphase : s.phase = .init) (hsink : s.sink = []) :
    ∃ t1 t2, exec (.process data.length) (s.issue data) = .next t1 ∧ exec .finalize (t1.issue []) = .next t2 ∧
      t2.result = .ok ∧ t2.phase = .done ∧
      ∃ blocks, t2.out = s.out ++ s.headerBytes ++ blocks ++
        if s.framing = true then trailerBytes (adlerOver (s.adlerA, s.adlerB) data) else [] := by
  have hacc : s.phase.accepts = true := by rw [hphase]; rfl
  obtain ⟨t1, hrun1, -, hnf1, -, -, hadler, hnil, hdata⟩ :=
    processCompletes s data hinv hses hnf hacc (by rw [hsink]; exact List.not_mem_nil)
  have hinv1 : t1.Inv ∧ (s.SessionInv → t1.SessionInv) := inv_execProcess (s := s.issue data) (len := data.length)
    (issued_issue hinv data) hrun1
  obtain ⟨hframing, hcfg, -⟩ := framingAndParametersKept _ _ _ hrun1 nofun
  have hphase1 : t1.phase.accepts = true := by
    by_cases hd : data = []
    · rw [(hnil hd).1, hphase]
      rfl
    · rw [(hdata hd).1]
      rfl
  obtain ⟨t2, hrun2, hok, -, hdone, -, -, -, -, -, blocks, hout⟩ := finalizeCompletes t1 hinv1.1 (hinv1.2 hses) hnf1
    hphase1 (by rw [sink_nil_of_exec hrun1 hsink]; exact List.not_mem_nil)
  refine ⟨t1, t2, hrun1, hrun2, hok, hdone, ?_⟩
  rw [hadler, hframing] at hout
  by_cases hd : data = []
  · obtain ⟨hph, hout1⟩ := hnil hd
    have hheader : t1.headerBytes = s.headerBytes := by
      rw [State.headerBytes, State.headerBytes, hph, hframing, hcfg]
      rfl
    rw [hout1, hheader] at hout
    exact ⟨blocks, hout⟩
  · obtain ⟨hbusy, -, -, blocks1, hout1⟩ := hdata hd
    have hheader : t1.headerBytes = [] := headerBytes_of_not_due fun h => by rw [hbusy] at h; cases h.1
    refine ⟨blocks1 ++ blocks, ?_⟩
    rw [hout, ← hout1, hheader, List.append_nil, List.append_assoc (s.out ++ s.headerBytes)]
    rfl

/-- Settles O28: INIT starts a session from the table of R41, and `process_finalize` is the rest. -/
theorem sessionOutput : Obligations.SessionOutput := by
  intro s framing data hinv hsink
  refine ⟨_, execInit_issued framing s, fun u hu => ?_⟩
  have hinv0 := (inv_execInit (issued_issue hinv []) (execInit_issued framing s)).1
  obtain ⟨hinvu, hsesu⟩ := inv_unspecified hinv0 rfl hu
  obtain ⟨-, hu⟩ := hu
  have hstart : u.failed = false ∧ u.phase = .init ∧ u.sink = [] ∧ u.out = s.out ∧ u.framing = framing ∧ u.cfg = s.cfg ∧
      u.adlerA = 1 ∧ u.adlerB = 0 := by
    rw [hu]
    exact ⟨rfl, rfl, hsink, rfl, rfl, rfl, rfl, rfl⟩
  obtain ⟨hnf, hphase, hsinku, hout, hframing, hcfg, hadlerA, hadlerB⟩ := hstart
  have hheader : u.headerBytes = if framing = true then [s.cfg.zlibCmf, s.cfg.zlibFlg] else [] := by
    rw [State.headerBytes, hphase, hframing, hcfg]
    cases framing <;> rfl
  obtain ⟨t1, t2, hrun1, hrun2, hok, hdone, blocks, hall⟩ := process_finalize data hinvu hsesu hnf hphase hsinku
  rw [hout, hheader, hframing, hadlerA, hadlerB] at hall
  exact ⟨t1, t2, hrun1, hrun2, hok, hdone, blocks, hall⟩

end Sys2Proof.Proofs
end

section
/-!
PROOFS. FINALIZE without data (spec/46_control.md R174): one final block with no tokens, in the static form, whatever the
unspecified memories hold (R201).
-/

namespace Sys2Proof.Proofs

open Sys2Proof.Machine Sys2Proof.Laws

variable {s t u : State}

/-! ### A block without tokens -/

/-- The state holds no token of the current block and no byte of it (R43). -/
structure EmptyBlock (s : State) : Prop where
  lfreq : s.dynLfreq = [(END_BLOCK, 1)]
  dfreq : s.dynDfreq = []
  costs : s.CostsClear
  lastLit : s.lastLit = 0
  start : s.blockStart = s.strstart

theorem optAdd_nonneg {tie : HeapTie} {k : TreeKind} {freq : Memory 16} {t : BuiltTree}
    (h : builtTree tie k freq = some t) : 0 ≤ t.optAdd := by
  obtain ⟨extra, len, hfrom⟩ := builtTree_fromLeaves h
  rw [hfrom.optAdd]
  exact Int.natCast_nonneg _

/-- Of a block without tokens the static form takes the 7 bits of `END_BLOCK` (R77, R134). -/
theorem empty_staticAdd {tie : HeapTie} {l d : BuiltTree} (hl : builtTree tie .litLen [(END_BLOCK, 1)] = some l)
    (hd : builtTree tie .dist [] = some d) : l.staticAdd + d.staticAdd = 7 := by
  rw [staticAdd_eq (good_of_builtTree hl), staticAdd_eq (good_of_builtTree hd)]
  decide +kernel

/-- A block without tokens is sent in the static form: the dynamic one has at least 14 bits more, and the stored one at
least 4 bytes (R142, R143). -/
theorem chooseBlock_empty {tie : HeapTie} {freq : Memory 16} {l d bl : BuiltTree} (h : EmptyBlock s)
    (hl : builtTree tie .litLen [(END_BLOCK, 1)] = some l) (hd : builtTree tie .dist [] = some d)
    (hbl : builtTree tie .bitLen freq = some bl) (maxIndex : Nat) :
    chooseBlock (treesCosted s l d bl maxIndex) = .static := by
  have hopt : 14 ≤ (treesCosted s l d bl maxIndex).optLen := by
    have h1 := optAdd_nonneg hl
    have h2 := optAdd_nonneg hd
    have h3 := optAdd_nonneg hbl
    show (14 : Int) ≤ l.optAdd + d.optAdd + bl.optAdd + (3 * (maxIndex + 1) + 14)
    omega
  have hstatic : (treesCosted s l d bl maxIndex).staticLen = 7 := empty_staticAdd hl hd
  have hstored : storedLength (treesCosted s l d bl maxIndex) = 0 := by
    show (s.strstart : Int) - s.blockStart = 0
    rw [h.start, Int.sub_self]
  unfold chooseBlock bytesOf
  rw [hstatic, hstored]
  dsimp only
  rw [if_neg (by omega), if_pos (by omega)]

/-- A block without tokens is flushed without a fault. -/
theorem flush_empty_completes (h : EmptyBlock s) (hvalid : s.biValid ≤ 16) (last : Bool) :
    wp (flushBlock last) (fun _ _ => True) (fun _ _ => True) False s := by
  refine wp_flushBlock last h.costs fun l d bl freq hl hd hbl => ?_
  rw [h.lfreq] at hl
  rw [h.dfreq] at hd
  have hform : chooseBlock { treesCosted s l d bl (maxBlIndex bl.lens 18) with blFreq := freq } = .static :=
    chooseBlock_empty h hl hd hbl _
  rw [wp_bind, emitBlock, wp_bind, wp_get, hform]
  refine wp_imp (emits_staticBlock (F := False) last _ (.inr hvalid)
    (.inr (tallyExact_empty h.lfreq h.dfreq h.lastLit))) fun _ w hw => ?_
  rw [wp_bind, wp_initBlock, wp_bind, wp_doIf]
  refine ⟨fun _ => ?_, fun _ => (wp_startBlock _).mpr trivial⟩
  exact wp_imp (emits_align (F := False) w.blockCleared (.inr (hw.valid hvalid))) fun _ x _ => (wp_startBlock _).mpr trivial

/-! ### The two bytes of the block -/

theorem bitsOf_byte_inj {a b : Byte} (h : bitsOf a.toNat 8 = bitsOf b.toNat 8) : a = b := by
  refine BitVec.eq_of_getLsbD_eq fun i hi => ?_
  exact List.map_inj_left.mp h i (List.mem_range.mpr hi)

/-- Bytes are known from their bits (R56). -/
theorem byteBits_injective : Function.Injective byteBits := by
  intro l
  induction l with
  | nil =>
    intro l' h
    have hlen := byteBits_length l'
    rw [← h] at hlen
    exact (List.length_eq_zero_iff.mp (by change 0 = _ at hlen; omega)).symm
  | cons a l ih =>
    intro l' h
    cases l' with
    | nil =>
      have hlen := byteBits_length (a :: l)
      rw [h] at hlen
      exact absurd hlen (by rw [List.length_cons]; change 0 ≠ _; omega)
    | cons b l' =>
      obtain ⟨hab, hll⟩ := List.append_inj h (by rw [bitsOf_length, bitsOf_length])
      rw [bitsOf_byte_inj hab, ih hll]

theorem bitStream_aligned (h : s.biValid = 0) : s.bitStream = byteBits s.out := by
  rw [State.bitStream, h, bitsOf_zero_width, List.append_nil]

theorem symbolBits_endBlock : symbolBits staticLitLens staticLitCodes END_BLOCK = List.replicate 7 false := by
  decide +kernel

/-- The bits of a final block without tokens: the 3 header bits and the 7 bits of `END_BLOCK` (R75, R77). -/
theorem emptyBlock_bits (s : State) (h : s.lastLit = 0) (l d bl : BuiltTree) (maxIndex : Nat) :
    blockBits s .static l d bl maxIndex true = [true, true] ++ List.replicate 8 false := by
  have hcoded : s.codedBits staticLitLens staticLitCodes staticDistLens staticDistCodes = List.replicate 7 false := by
    rw [State.codedBits, h, List.range_zero, List.flatMap_nil, List.nil_append, symbolBits_endBlock]
  exact congrArg (headerBits .static true ++ ·) hcoded

/-- The final block without tokens is the bytes 03 00: its 10 bits and the pad (R161). -/
theorem flush_empty (h : EmptyBlock s) (hbuf : s.biBuf = 0) (hvalid : s.biValid = 0) :
    wp (flushBlock true) (fun _ t => Flushed s t ∧ t.out = s.out ++ [0x03, 0x00]) (fun _ _ => True) False s := by
  have hp : s.PackerOk := by
    rw [State.PackerOk, hbuf, hvalid]
    decide
  refine wp_mono (wp_and (flush_empty_completes h (Nat.le_trans (Nat.le_of_eq hvalid) (Nat.zero_le 16)) true)
    (wp_and (flush_spec (F := True) true s (.inl trivial)) (flushBlock_sends true hp h.costs)))
    (fun _ t ⟨_, ⟨hflushed, haligned⟩, l, d, bl, hsent⟩ => ⟨hflushed, byteBits_injective ?_⟩) (fun _ _ _ => trivial)
    fun hfault => hfault.1
  have hl := hsent.lTree
  have hd := hsent.dTree
  rw [h.lfreq] at hl
  rw [h.dfreq] at hd
  have hstream := hsent.stream _ rfl
  rw [chooseBlock_empty h hl hd hsent.blTree, if_pos rfl, bitStream_aligned (haligned rfl).2,
    bitStream_aligned hvalid] at hstream
  rw [emptyBlock_bits s h.lastLit] at hstream
  have hpad : padBits (byteBits s.out ++ ([true, true] ++ List.replicate 8 false)).length = padBits 10 :=
    padBits_congr (by rw [List.length_append, byteBits_length]; exact Nat.mul_add_mod 8 _ 10)
  rw [hstream, hpad, List.append_assoc, byteBits_append]
  exact congrArg _ (by decide)

/-! ### The run of FINALIZE -/

/-- A session to which no data ever came. -/
structure EmptySession (s : State) : Prop where
  block : EmptyBlock s
  strstart : s.strstart = 0
  lookahead : s.lookahead = 0
  feed : s.feed = []
  matchAvailable : s.matchAvailable = false
  biBuf : s.biBuf = 0
  biValid : s.biValid = 0

theorem EmptySession.moved (h : EmptySession s) (ht : t = { s with out := t.out, sink := t.sink, phase := t.phase }) :
    EmptySession t := by
  rw [ht]
  exact ⟨⟨h.block.lfreq, h.block.dfreq, h.block.costs, h.block.lastLit, h.block.start⟩, h.strstart, h.lookahead, h.feed,
    h.matchAvailable, h.biBuf, h.biValid⟩

theorem fillPass_empty (h : EmptySession s) {Q : Bool → State → Prop} {R : ResultCode → State → Prop} (hQ : Q false s) :
    wp fillPass Q R False s := by
  have hdue : slideDue s = false := by
    rw [slideDue, h.strstart]
    decide
  rw [fillPass, wp_bind, wp_get, wp_bind, wp_require, h.strstart, h.lookahead]
  refine ⟨fun _ => ?_, fun hn => absurd hn (by decide)⟩
  rw [wp_bind, wp_doIf, hdue]
  refine ⟨nofun, fun _ => ?_⟩
  rw [wp_bind, wp_get, if_pos h.feed, wp_pure]
  exact hQ

theorem loopTop_empty (h : EmptySession s) {Q : LoopTop → State → Prop} {R : ResultCode → State → Prop}
    (hQ : Q .consumed s) : wp (loopTop true) Q R False s := by
  rw [loopTop, wp_bind, wp_get, wp_bind, wp_require, h.strstart, h.lookahead]
  refine ⟨fun _ => ?_, fun hn => absurd hn (by decide)⟩
  rw [if_pos (by decide), wp_bind, fillWindow, wp_bind, wp_get, h.feed, List.length_nil, Nat.zero_add, fillLoop, wp_bind]
  refine fillPass_empty h ?_
  rw [if_neg (by decide), wp_pure, wp_bind, wp_get, h.lookahead, if_neg (by decide), if_pos rfl, wp_pure]
  exact hQ

/-- Without data the loop of FINALIZE flushes one block without tokens (R113, R118). -/
theorem deflateLoop_empty (h : EmptySession s) :
    wp (deflateLoop true) (fun _ t => Flushed { s with phase := .finish } t ∧ t.out = s.out ++ [0x03, 0x00])
      (fun _ _ => True) False s := by
  have hfuel : s.lookahead + s.feed.length = 0 := by rw [h.lookahead, h.feed, List.length_nil]
  rw [deflateLoop, wp_bind, wp_get, hfuel, Nat.zero_add, deflateFrom, wp_bind]
  refine loopTop_empty h ?_
  rw [wp_bind, wp_setPhase, finishDrain, wp_bind, drainPending, wp_bind, wp_get, if_neg (by rw [h.matchAvailable]; nofun),
    wp_pure]
  have hfinish : EmptySession { s with phase := .finish } := h.moved rfl
  exact flush_empty hfinish.block hfinish.biBuf hfinish.biValid

/-- The body of FINALIZE without data (R174). -/
theorem finalizeBody_empty (h : EmptySession s) (hnf : s.failed = false) (hacc : s.phase.accepts = true) :
    wp finalizeBody (fun code t => code = .ok ∧ t.phase = .done ∧ t.inputs = s.inputs ∧
        t.out = s.out ++ s.headerBytes ++ [0x03, 0x00] ++
          if s.framing = true then trailerBytes (s.adlerA, s.adlerB) else [])
      (fun _ _ => True) False s := by
  rw [finalizeBody, wp_bind, wp_checkSession]
  refine ⟨fun hf => absurd hf (by rw [hnf]; nofun), fun _ _ => ?_, fun _ _ => trivial⟩
  rw [wp_bind]
  refine wp_mono (wp_and (enterBusy_spec (F := False) s hacc) (enterBusy_out s)) (fun _ t ⟨ht, hout⟩ => ?_)
    (fun _ _ _ => trivial) fun hfault => hfault.1
  have hphase : t.phase = .busy := by rw [ht]
  have hempty : EmptySession t := h.moved (by rw [hphase]; exact ht)
  rw [wp_bind]
  refine wp_imp (deflateLoop_empty hempty) fun _ u ⟨hu, houtu⟩ => ?_
  have hkept : u.framing = s.framing ∧ u.adlerA = s.adlerA ∧ u.adlerB = s.adlerB ∧ u.inputs = s.inputs := by
    rw [hu, ht]
    exact ⟨rfl, rfl, rfl, rfl⟩
  obtain ⟨hframing, hadlerA, hadlerB, hinputs⟩ := hkept
  rw [wp_bind]
  refine wp_mono (wp_and (puts_trailer False u) (putsBytes_trailer u)) (fun _ v ⟨_, hv⟩ => ?_) (fun _ _ _ => trivial)
    fun hfault => hfault.1
  rw [wp_bind, wp_setPhase, wp_pure, hv]
  refine ⟨rfl, rfl, hinputs, ?_⟩
  rw [← hout, ← houtu, ← hframing, ← hadlerA, ← hadlerB]

/-- Settles O29: the state at the start of a session is empty, so the body is that of `finalizeBody_empty`. -/
theorem finalizeEmptySession : Obligations.FinalizeEmptySession := by
  intro c framing out inputs sink response s hsink ⟨_, hs⟩
  have hempty : EmptySession s := by
    rw [hs]
    exact ⟨⟨rfl, rfl, ⟨rfl, rfl, rfl⟩, rfl, rfl⟩, rfl, rfl, rfl, rfl, rfl, rfl⟩
  have hstart : s.failed = false ∧ s.phase = .init ∧ s.sink = sink ∧ s.out = out ∧ s.inputs = inputs ∧
      s.payload = [] ∧ s.framing = framing ∧ s.cfg = c ∧ s.adlerA = 1 ∧ s.adlerB = 0 := by
    rw [hs]
    exact ⟨rfl, rfl, rfl, rfl, rfl, rfl, rfl, rfl, rfl, rfl⟩
  obtain ⟨hnf, hphase, hsinks, hout, hinputs, hpayload, hframing, hcfg, hadlerA, hadlerB⟩ := hstart
  have hacc : s.phase.accepts = true := by
    rw [hphase]
    rfl
  have hheader : s.headerBytes = if framing = true then [c.zlibCmf, c.zlibFlg] else [] := by
    rw [State.headerBytes, hphase, hframing, hcfg]
    cases framing <;> rfl
  obtain ⟨_, u, ⟨rfl, hdone, hkept, hbytes⟩, hrun⟩ :=
    execFinalize_of_body (finalizeBody_empty hempty hnf hacc) hpayload hacc (by rw [hsinks]; exact hsink)
  rw [hout, hheader, hframing, hadlerA, hadlerB] at hbytes
  exact ⟨_, hrun, rfl, hdone, hkept.trans hinputs, hbytes⟩

end Sys2Proof.Proofs
end

section
/-!
PROOFS. The closed form of Adler-32 (spec/40_window.md R98, spec/46_control.md R177).
-/

namespace Sys2Proof.Proofs

open Sys2Proof.Machine Sys2Proof.Laws

/-- The sum of the bytes. -/
def byteSum (data : List Byte) : Nat := (data.map BitVec.toNat).sum

/-- The sum of the bytes, each taken once for itself and once for every byte after it. -/
def weightedSum (data : List Byte) : Nat :=
  ((List.range data.length).map fun i => (data.length - i) * (data.getD i 0).toNat).sum

theorem byteSum_cons (x : Byte) (data : List Byte) : byteSum (x :: data) = x.toNat + byteSum data := List.sum_cons

theorem weightedSum_cons (x : Byte) (data : List Byte) :
    weightedSum (x :: data) = (data.length + 1) * x.toNat + weightedSum data := by
  rw [weightedSum, List.length_cons, List.range_succ_eq_map, List.map_cons, List.sum_cons, List.map_map]
  congr 2
  refine List.map_congr_left fun i _ => ?_
  rw [Function.comp_apply, Nat.succ_eq_add_one, Nat.add_sub_add_right, List.getD_cons_succ]

/-- The halves that stand for two sums of any size. -/
def adlerHalves (a b : Nat) : Half × Half := (BitVec.ofNat 16 (a % 65521), BitVec.ofNat 16 (b % 65521))

theorem toNat_residue (n : Nat) : (BitVec.ofNat 16 (n % 65521)).toNat = n % 65521 := by
  rw [BitVec.toNat_ofNat]
  omega

/-- AdlerUpdate (R98) on the two sums. -/
theorem adlerStep_halves (a b : Nat) (x : Byte) :
    adlerStep (adlerHalves a b).1 (adlerHalves a b).2 x = adlerHalves (a + x.toNat) (b + (a + x.toNat)) := by
  rw [adlerStep, adlerHalves, toNat_residue, toNat_residue, ADLER_MOD, adlerHalves, Nat.mod_add_mod, ← Nat.add_mod]

/-- From any two sums on, the first gains the sum of the bytes, and the second the first one for each byte and the weighted
sum. -/
theorem adlerOver_halves (data : List Byte) (a b : Nat) :
    adlerOver (adlerHalves a b) data =
      adlerHalves (a + byteSum data) (b + data.length * a + weightedSum data) := by
  induction data generalizing a b with
  | nil => rw [List.length_nil, Nat.zero_mul]; rfl
  | cons x data ih =>
    have hstep : adlerOver (adlerHalves a b) (x :: data) =
        adlerOver (adlerHalves (a + x.toNat) (b + (a + x.toNat))) data := by rw [← adlerStep_halves]; rfl
    rw [hstep, ih, byteSum_cons, weightedSum_cons, List.length_cons]
    congr 1 <;> ring

/-- Settles O38: the halves (1, 0) stand for the sums 1 and 0. -/
theorem adlerClosedForm : Obligations.AdlerClosedForm := by
  unfold Obligations.AdlerClosedForm
  intro data
  refine (adlerOver_halves data 1 0).trans ?_
  rw [Nat.zero_add, Nat.mul_one]
  rfl

end Sys2Proof.Proofs
end

section
/-!
PROOFS. The slide (spec/40_window.md R94, R95) and FillWindow (R91 to R93, R96 to R99): what a pass reads, and what stays
where it was relative to `strstart`.
-/

namespace Sys2Proof.Proofs

open Sys2Proof.Machine Sys2Proof.Laws

variable {s t u : State} {bytes more : List Byte}

/-! ### The slide -/

/-- A stored position after the rebase (R95). -/
theorem read_rebase_toNat {size : Nat} {m : Memory 16} (hm : m.wf size = true) (a : Nat) :
    (m.rebase.read a).toNat = if W ≤ (m.read a).toNat then (m.read a).toNat - W else NIL := by
  rw [read_rebase hm, rebasePosition_toNat]
  rfl

/-- At the trigger the difference of R94 is the one of natural numbers. -/
theorem slid_strstart_of_due (h : W + MAX_DIST ≤ s.strstart) : s.slid.strstart = s.strstart - W := by
  rw [slid_strstart]
  omega

/-- Settles O41: the slid window reads as `read_compact` says, and the slid tables as `read_rebase` says. -/
theorem slideMovesWindow : Obligations.SlideMovesWindow := by
  unfold Obligations.SlideMovesWindow
  intro s ⟨_, ⟨hwindow, hhead, hprev, _⟩, _⟩ hdue
  refine ⟨s.slid, rfl, ?_, fun i hi => ?_, fun i hi _ => ?_, fun h _ => ?_, fun i _ => ?_⟩
  · rw [← slid_strstart_of_due hdue]
    rfl
  · rw [slid_window, read_compact hwindow, if_pos hi]
  · rw [slid_window, read_compact hwindow, if_neg (Nat.not_lt.mpr hi)]
  · exact read_rebase_toNat hhead h
  · exact read_rebase_toNat hprev i

/-! ### One pass of FillWindow -/

/-- The checksum takes the bytes that ReadBuf moves, in their order (R96, R98). -/
theorem readBytes_sums (p n : Nat) (s : State) :
    wp (readBytes p n) (fun _ t => (t.adlerA, t.adlerB) = adlerOver (s.adlerA, s.adlerB) (s.feed.take n))
      (fun _ _ => True) True s := by
  induction n generalizing p s with
  | zero => exact (wp_pure _).mpr rfl
  | succ n ih =>
    rw [readBytes, wp_bind]
    refine wp_inRead _ (fun b rest hf => ?_) fun _ => trivial
    rw [wp_bind, wp_writeWindow]
    refine ⟨fun _ => ?_, fun _ => trivial⟩
    rw [wp_bind, wp_adlerUpdate]
    refine wp_imp (ih (p + 1) _) fun _ t ht => ?_
    rw [hf, List.take_succ_cons]
    exact ht

/-- The rolling hash after the re-seed (R97), where it was `h` before. -/
def reseeded (s : State) (h : BitVec 15) : BitVec 15 :=
  if MIN_MATCH ≤ s.lookahead then updateHash ((s.window.read s.strstart).setWidth 15) (s.window.read (s.strstart + 1))
  else h

theorem reseedHash_seeds (s : State) :
    wp reseedHash (fun _ t => t = { s with insH := reseeded s s.insH }) (fun _ _ => True) True s := by
  rw [reseedHash, wp_bind, wp_get, wp_ite]
  refine ⟨fun hl => ?_, fun hl => (wp_pure _).mpr ?_⟩
  · rw [wp_bind, wp_readWindow]
    refine ⟨fun _ => ?_, fun _ => trivial⟩
    rw [wp_bind, wp_readWindow]
    refine ⟨fun _ => (wp_setHash _ _).mpr ?_, fun _ => trivial⟩
    rw [reseeded, if_pos hl]
    rfl
  · rw [reseeded, if_neg hl]

/-- What a pass that reads `bytes` leaves of `s` (R96, R97). -/
structure ReadIn (s t : State) (bytes : List Byte) : Prop where
  feed : s.feed = bytes ++ t.feed
  frame : t = { s with
    window := t.window, lookahead := s.lookahead + bytes.length, adlerA := t.adlerA, adlerB := t.adlerB, insH := t.insH,
    feed := t.feed }
  stored : ∀ a, t.window.read a = readStored s.window (s.strstart + s.lookahead) bytes a
  sum : (t.adlerA, t.adlerB) = adlerOver (s.adlerA, s.adlerB) bytes
  seed : t.insH = reseeded t s.insH

/-- The state in which a pass reads: a slide is made if it is due (R92). -/
def slidIfDue (s : State) : State := if slideDue s then s.slid else s

theorem coreOk_slidIfDue (hc : s.CoreOk) : (slidIfDue s).CoreOk := by
  unfold slidIfDue
  split
  · exact coreOk_slide s hc
  · exact hc

theorem wp_doIf_slide {R : ResultCode → State → Prop} {F : Prop} (Q : Unit → State → Prop) :
    wp (doIf (slideDue s) slide) Q R F s ↔ Q () (slidIfDue s) := by
  rw [wp_doIf, wp_slide, slidIfDue]
  cases slideDue s <;> simp

/-- A pass of FillWindow: the slide if it is due, and then, unless the feed is empty, the bytes for which there is room. -/
theorem fillPass_reads (hc : s.CoreOk) :
    wp fillPass (fun _ t => (slidIfDue s).feed = [] ∧ t = slidIfDue s ∨
        ReadIn (slidIfDue s) t ((slidIfDue s).feed.take (freeSpace (slidIfDue s))))
      (fun _ _ => True) True s := by
  have hwf := (coreOk_slidIfDue hc).2.1.1
  rw [fillPass, wp_bind, wp_get, wp_bind, wp_require]
  refine ⟨fun _ => ?_, fun _ => trivial⟩
  rw [wp_bind, wp_doIf_slide, wp_bind, wp_get, wp_ite, wp_pure]
  generalize slidIfDue s = u at hwf ⊢
  refine ⟨fun hf => .inl ⟨hf, rfl⟩, fun _ => ?_⟩
  rw [wp_bind, readBuf, wp_bind, wp_get, wp_bind]
  refine wp_mono (wp_and (readBytes_frame _ _ u) (wp_and (readBytes_stores _ _ u hwf) (readBytes_sums _ _ u)))
    (fun _ v ⟨⟨hv, hn⟩, ⟨_, hstored⟩, hsum⟩ => ?_) (fun _ _ _ => trivial) fun _ => trivial
  rw [wp_pure, wp_bind, wp_growLookahead, wp_bind]
  refine wp_imp (reseedHash_seeds _) fun _ t ht => ?_
  rw [wp_bind, wp_get, wp_pure]
  have htake : u.feed.take (freeSpace u) = u.feed.take (min u.feed.length (freeSpace u)) := by
    rw [Nat.min_comm, ← List.take_eq_take_min]
  rw [htake, ht]
  generalize min u.feed.length (freeSpace u) = n at hv hn hstored hsum ⊢
  refine .inr ⟨?_, ?_, hstored, hsum, ?_⟩
  · rw [hv]
    exact (List.take_append_drop n u.feed).symm
  · rw [hv, List.length_take_of_le hn]
  · rw [hv]
    rfl

/-! ### What FillWindow takes -/

/-- From `s` to `t` the bytes `bytes` went from the feed to the end of the lookahead, through the checksum (R96, R98), and
the bytes of the lookahead and those that a match may refer to stand where they stood relative to `strstart` (R94). -/
structure Took (s t : State) (bytes : List Byte) : Prop where
  feed : s.feed = bytes ++ t.feed
  lookahead : t.lookahead = s.lookahead + bytes.length
  sum : (t.adlerA, t.adlerB) = adlerOver (s.adlerA, s.adlerB) bytes
  ahead : ∀ i < s.lookahead, t.window.read (t.strstart + i) = s.window.read (s.strstart + i)
  taken : ∀ i < bytes.length, t.window.read (t.strstart + s.lookahead + i) = bytes.getD i 0
  behind : ∀ d, 1 ≤ d → d ≤ MAX_DIST → d ≤ s.strstart →
    d ≤ t.strstart ∧ t.window.read (t.strstart - d) = s.window.read (s.strstart - d)

theorem Took.refl (s : State) : Took s s [] :=
  ⟨rfl, rfl, rfl, fun _ _ => rfl, fun _ h => absurd h (Nat.not_lt_zero _), fun _ _ _ h => ⟨h, rfl⟩⟩

theorem Took.trans (h : Took s t bytes) (h' : Took t u more) : Took s u (bytes ++ more) where
  feed := by rw [h.feed, h'.feed, List.append_assoc]
  lookahead := by rw [h'.lookahead, h.lookahead, List.length_append, Nat.add_assoc]
  sum := by rw [h'.sum, h.sum, adlerOver, adlerOver, adlerOver, List.foldl_append]
  ahead i hi := (h'.ahead i (by rw [h.lookahead]; omega)).trans (h.ahead i hi)
  taken i hi := by
    by_cases hb : i < bytes.length
    · rw [Nat.add_assoc, h'.ahead _ (by rw [h.lookahead]; omega), ← Nat.add_assoc, h.taken i hb,
        List.getD_append _ _ _ _ hb]
    · rw [List.length_append] at hi
      rw [List.getD_append_right _ _ _ _ (Nat.not_lt.mp hb), ← h'.taken _ (by omega), h.lookahead]
      congr 1
      omega
  behind d h1 h2 h3 := by
    obtain ⟨hd, hread⟩ := h.behind d h1 h2 h3
    obtain ⟨hd', hread'⟩ := h'.behind d h1 h2 hd
    exact ⟨hd', hread'.trans hread⟩

/-- A slide moves the lookahead and the bytes within `MAX_DIST` behind it down by `W`, as it moves `strstart` (R94). -/
theorem took_slid (hc : s.CoreOk) (hdue : W + MAX_DIST ≤ s.strstart) : Took s s.slid [] := by
  obtain ⟨_, ⟨hwindow, _⟩, hends, _⟩ := hc
  have hWIN : WIN = W + W := rfl
  refine ⟨rfl, rfl, rfl, fun i hi => ?_, fun _ h => absurd h (Nat.not_lt_zero _), fun d h1 h2 _ => ⟨?_, ?_⟩⟩
  · rw [slid_strstart_of_due hdue, slid_window, read_compact hwindow, if_pos (by omega)]
    congr 1
    omega
  · rw [slid_strstart_of_due hdue]
    omega
  · rw [slid_strstart_of_due hdue, slid_window, read_compact hwindow, if_pos (by omega)]
    congr 1
    omega

theorem took_slidIfDue (hc : s.CoreOk) : Took s (slidIfDue s) [] := by
  unfold slidIfDue
  split
  · next hdue => exact took_slid hc (of_decide_eq_true hdue)
  · exact Took.refl s

/-- What is read is stored behind the lookahead, and nothing before that is written (R96). -/
theorem ReadIn.took (h : ReadIn s t bytes) : Took s t bytes := by
  have hstart : t.strstart = s.strstart := by rw [h.frame]
  refine ⟨h.feed, by rw [h.frame], h.sum, fun i hi => ?_, fun i hi => ?_, fun d h1 _ h3 => ⟨hstart ▸ h3, ?_⟩⟩
  · rw [hstart, h.stored, readStored, if_neg (by omega)]
  · rw [hstart, h.stored, readStored, if_pos (by omega), Nat.add_sub_cancel_left]
  · rw [hstart, h.stored, readStored, if_neg (by omega)]

theorem fillPass_takes (hc : s.CoreOk) :
    wp fillPass (fun _ t => ∃ bytes, Took s t bytes) (fun _ _ => True) True s :=
  wp_imp (fillPass_reads hc) fun _ _ ht =>
    ht.elim (fun ⟨_, h⟩ => ⟨[], h ▸ took_slidIfDue hc⟩) fun h => ⟨_, (took_slidIfDue hc).trans h.took⟩

theorem fillLoop_takes (fuel : Nat) (hc : s.CoreOk) :
    wp (fillLoop fuel) (fun _ t => ∃ bytes, Took s t bytes) (fun _ _ => True) True s := by
  induction fuel generalizing s with
  | zero => exact (wp_internalFault _).mpr trivial
  | succ fuel ih =>
    rw [fillLoop, wp_bind]
    refine wp_mono (wp_and (coreOk_fillPass s hc) (fillPass_takes hc)) (fun _ t ⟨hct, _, ht⟩ => ?_)
      (fun _ _ _ => trivial) fun _ => trivial
    exact (wp_ite _ _).mpr ⟨fun _ => wp_imp (ih hct) fun _ _ ⟨_, hu⟩ => ⟨_, ht.trans hu⟩,
      fun _ => (wp_pure _).mpr ⟨_, ht⟩⟩

/-- Settles O42: FillWindow completes (`fillWindow_spec`), and what it takes from the feed is a list of bytes that went the
way of `Took`. -/
theorem fillWindowReadsFeed : Obligations.FillWindowReadsFeed := by
  unfold Obligations.FillWindowReadsFeed
  intro s hc hl
  have htakes : wp fillWindow (fun _ t => ∃ bytes, Took s t bytes) (fun _ _ => True) True s := by
    rw [fillWindow, wp_bind, wp_get]
    exact fillLoop_takes _ hc
  have hrun : wp fillWindow (fun _ t => (Filled s t ∧ (t.lookahead < MIN_LOOKAHEAD → t.feed = [])) ∧ t.CoreOk ∧
      ∃ bytes, Took s t bytes) (fun _ _ => False) False s :=
    wp_mono (wp_and (fillWindow_spec hc hl) (wp_and (coreOk_fillWindow s hc) htakes)) (fun _ _ h => h)
      (fun _ _ h => h.1) fun h => h.1
  obtain ⟨_, t, hok, ⟨hfilled, hstop⟩, hct, bytes, ht⟩ := run_of_wp hrun
  refine ⟨t, bytes.length, hok, hct, ?_, ?_, ht.lookahead, ?_, ?_, ht.ahead, fun i hi => ?_, ht.behind, hfilled.stored,
    hfilled.back⟩
  · rw [ht.feed, List.length_append]
    exact Nat.le_add_right _ _
  · rw [ht.feed, List.drop_left]
  · exact (Nat.lt_or_ge t.lookahead MIN_LOOKAHEAD).symm.imp_right hstop
  · rw [ht.sum, ht.feed, List.take_left]
  · rw [ht.taken i hi, ht.feed, List.getD_append _ _ _ _ hi]

end Sys2Proof.Proofs
end

section
/-!
PROOFS. A PROCESS too short to make a position ready (spec/40_window.md R96, R97, spec/42_matching.md R113,
spec/46_control.md R168, R172): its bytes are buffered, and no token is written.
-/

namespace Sys2Proof.Proofs

open Sys2Proof.Machine Sys2Proof.Laws

variable {s t : State} {R : ResultCode → State → Prop} {F : Prop}

/-! ### The header and the last flush -/

/-- With an accepting sink EnterBusy runs to its end (R168). -/
theorem enterBusy_accepted (hacc : s.phase.accepts = true) (hsink : s.sink = []) :
    wp enterBusy (fun _ t => t = { s with out := s.out ++ s.headerBytes, phase := .busy }) (fun _ _ => False) False s := by
  refine wp_mono (wp_and (enterBusy_spec (F := False) s hacc) (enterBusy_ends hacc)) (fun _ t ⟨ht, hentered⟩ => ?_)
    (fun _ _ ⟨_, ⟨_, _, _, hmem, _⟩, _⟩ => ?_) fun h => h.1
  · have hnil : t.sink = s.sink := (List.suffix_nil.mp (hsink ▸ hentered.outer.sink)).trans hsink.symm
    rw [ht, hentered.out, hnil]
  · rw [hsink] at hmem
    exact List.not_mem_nil hmem

/-- With no whole byte pending EndFlush offers none (R151). -/
theorem endFlush_of_few_bits (h : s.biValid ≤ 7) : wp endFlush (fun _ t => t = s) R F s := by
  rw [endFlush, wp_bind, wp_checkPacker]
  refine ⟨fun _ => ?_, fun hn => absurd (by omega) hn⟩
  rw [wp_bind, wp_get, if_neg (by omega), if_neg (by omega), wp_pure]

/-! ### The loop -/

/-- With little input and no slide due, one pass of FillWindow takes the whole feed (R97). -/
theorem fillWindow_takes_all (hc : s.CoreOk) (hfeed : s.feed ≠ []) (hfew : s.lookahead + s.feed.length < MIN_LOOKAHEAD)
    (hstart : s.strstart < W + MAX_DIST) :
    wp fillWindow (fun _ t => ReadIn s t s.feed) (fun _ _ => True) True s := by
  have hsame : slidIfDue s = s := if_neg fun hdue => absurd (of_decide_eq_true hdue) (Nat.not_le.mpr hstart)
  have hroom : s.feed.length ≤ freeSpace s := by
    have hsum : MIN_LOOKAHEAD + (W + MAX_DIST) = WIN := rfl
    unfold freeSpace
    omega
  have hpass := fillPass_reads hc
  rw [hsame, List.take_of_length_le hroom] at hpass
  rw [fillWindow, wp_bind, wp_get, fillLoop, wp_bind]
  refine wp_mono (wp_and hpass (fillPass_spec (R := fun _ _ => True) (F := True) hc (by omega)))
    (fun again t ⟨ht, _, hagain, _⟩ => ?_) (fun _ _ _ => trivial) fun _ => trivial
  have hread : ReadIn s t s.feed := ht.resolve_left fun h => hfeed h.1
  have hempty : t.feed = [] := List.self_eq_append_right.mp hread.feed
  have hstop : again = false := Bool.eq_false_iff.mpr fun ha => (hagain ha).2.1 hempty
  rw [hstop, if_neg Bool.false_ne_true, wp_pure]
  exact hread

/-- The loop of PROCESS then leaves at its top: more input is needed (R113). -/
theorem deflateLoop_buffers (hc : s.CoreOk) (hfeed : s.feed ≠ []) (hfew : s.lookahead + s.feed.length < MIN_LOOKAHEAD)
    (hstart : s.strstart < W + MAX_DIST) :
    wp (deflateLoop false) (fun _ t => ReadIn s t s.feed) (fun _ _ => False) False s := by
  have htop : wp (loopTop false) (fun top t => top = .needsInput ∧ ReadIn s t s.feed) (fun _ _ => True) True s := by
    rw [loopTop, wp_bind, wp_get, wp_bind, wp_require]
    refine ⟨fun _ => ?_, fun _ => trivial⟩
    rw [if_pos (by omega), wp_bind]
    refine wp_imp (fillWindow_takes_all hc hfeed hfew hstart) fun _ t ht => ?_
    have hlook : t.lookahead = s.lookahead + s.feed.length := by rw [ht.frame]
    rw [wp_bind, wp_get, if_pos ⟨hlook ▸ hfew, rfl⟩, wp_pure]
    exact ⟨rfl, ht⟩
  rw [deflateLoop, wp_bind, wp_get, deflateFrom, wp_bind]
  refine wp_mono (wp_and (loopTop_spec (F := False) false hc) htop) (fun top t ⟨_, hneeds, ht⟩ => ?_) (fun _ _ h => h.1)
    fun h => h.1
  rw [hneeds]
  exact (wp_pure _).mpr ht

/-! ### The command -/

/-- The state in which PROCESS runs the loop: the header is out, and the data is in the feed (R168, R172). -/
def entered (s : State) : State :=
  { s with out := s.out ++ s.headerBytes, phase := .busy, feed := s.payload }

theorem processBody_buffers (hc : s.CoreOk) (hnf : s.failed = false) (hacc : s.phase.accepts = true)
    (hsink : s.sink = []) (hbits : s.biValid ≤ 7) (hdata : s.payload ≠ [])
    (hfew : s.lookahead + s.payload.length < MIN_LOOKAHEAD) (hstart : s.strstart < W + MAX_DIST) :
    wp processBody (fun code t => code = .ok ∧ ReadIn (entered s) t s.payload) (fun _ _ => False) False s := by
  rw [processBody, wp_bind, wp_checkSession]
  refine ⟨fun hf => absurd hf (by rw [hnf]; nofun), fun _ _ => ?_, fun _ hrej => absurd hrej (by rw [hacc]; nofun)⟩
  rw [wp_bind, wp_get, if_neg hdata, wp_bind]
  refine wp_imp (enterBusy_accepted hacc hsink) fun _ t ht => ?_
  rw [ht, wp_bind, wp_loadFeed, wp_bind]
  refine wp_imp (deflateLoop_buffers (s := entered s) hc hdata hfew hstart) fun _ u hu => ?_
  have hvalid : u.biValid ≤ 7 := by rw [hu.frame]; exact hbits
  rw [wp_bind]
  exact wp_imp (endFlush_of_few_bits hvalid) fun _ v hv => (wp_pure _).mpr ⟨rfl, hv ▸ hu⟩

/-- Settles O30: the body ends where the bytes are read in, and the command completes with OK. -/
theorem shortProcessOnlyBuffers : Obligations.ShortProcessOnlyBuffers := by
  unfold Obligations.ShortProcessOnlyBuffers
  intro s data ⟨hc, ⟨hpayload, hfeed⟩, _, _, _, hsession⟩ hnf hacc hsink hdata hfew hstart
  obtain ⟨_, hbits, _⟩ := hsession hnf
  obtain ⟨_, t, ⟨rfl, ht⟩, hrun⟩ | ⟨_, _, hfalse, _⟩ := runCommand_completes (s := s.issue data) rfl
    (processBody_buffers (s := s.issue data) hc hnf hacc hsink hbits hdata hfew hstart)
  swap
  · exact hfalse.elim
  have hstored : ∀ a, t.window.read a = readStored s.window (s.strstart + s.lookahead) data a := ht.stored
  refine ⟨_, hrun, ?_, fun i hi => (hstored _).trans ?_, fun a ha => (hstored _).trans ?_, ht.sum, ht.seed.trans ?_⟩
  · have hdelivered : t.out.drop (s.issue data).out.length = s.headerBytes := by
      rw [ht.frame]
      exact List.drop_left
    rw [State.complete, hdelivered, ht.frame, hpayload, hfeed]
    rfl
  · rw [readStored, if_pos (by omega), Nat.add_sub_cancel_left]
  · rw [readStored, if_neg (by omega)]
  · rw [reseeded, ht.frame]
    rfl

end Sys2Proof.Proofs
end

section
/-!
PROOFS. The hash of three bytes (spec/41_hash_chain.md R101, R102), InsertString (R103), and the session invariant, the
chains of R105 among it, as a property of every step.
-/

namespace Sys2Proof.Proofs

open Sys2Proof.Machine Sys2Proof.Laws

variable {s t : State}

/-! ### The hash -/

/-- Three shifts by `HASH_SHIFT` move every older bit out of the hash (R101). -/
theorem updateHash_three (h : BitVec 15) (b0 b1 b2 : Byte) :
    updateHash (updateHash (updateHash h b0) b1) b2 = hash3 b0 b1 b2 := by
  have hold : h <<< (5 + 5 + 5) = 0#15 := BitVec.shiftLeft_eq_zero (Nat.le_refl 15)
  simp only [updateHash, HASH_SHIFT, hash3, BitVec.shiftLeft_xor_distrib, ← BitVec.shiftLeft_add, hold,
    BitVec.zero_xor]

/-- The 15-bit width is the mask `0x7FFF` of R101. -/
theorem hash3_toNat (b0 b1 b2 : Byte) :
    (hash3 b0 b1 b2).toNat = ((b0.toNat <<< 10) ^^^ (b1.toNat <<< 5) ^^^ b2.toNat) &&& 0x7FFF := by
  have hmask (n : Nat) : n &&& 0x7FFF = n % 2 ^ 15 := Nat.and_two_pow_sub_one_eq_mod n 15
  have hfit (b : Byte) : b.toNat % 2 ^ 15 = b.toNat := Nat.mod_eq_of_lt (Nat.lt_trans b.isLt (by decide))
  simp only [hash3, BitVec.toNat_xor, BitVec.toNat_shiftLeft, BitVec.toNat_setWidth, hfit, hmask, Nat.xor_mod_two_pow]

/-- Shifted by 10 only the low five bits of a byte stay within the hash (R101). -/
theorem shiftLeft_ten_low_bits (b : Byte) : (b &&& 0x1F).setWidth 15 <<< 10 = b.setWidth 15 <<< 10 := by
  have hlow : (b &&& 0x1F).toNat = b.toNat % 32 := Nat.and_two_pow_sub_one_eq_mod b.toNat 5
  apply BitVec.eq_of_toNat_eq
  simp only [BitVec.toNat_shiftLeft, BitVec.toNat_setWidth, hlow, Nat.shiftLeft_eq]
  omega

/-- The low byte of the hash: `b0` stands above it (R101). -/
theorem hash3_low_byte (b0 b1 b2 : Byte) : (hash3 b0 b1 b2).setWidth 8 = b2 ^^^ (b1 <<< 5) := by
  have hshift (b : Byte) (n : Nat) : (b.setWidth 15 <<< n).setWidth 8 = b <<< n := by
    rw [BitVec.setWidth_shiftLeft_of_le (by decide), BitVec.setWidth_setWidth_of_le _ (by decide), BitVec.setWidth_eq]
  have hgone : b0 <<< 10 = 0#8 := BitVec.shiftLeft_eq_zero (by decide)
  rw [hash3, BitVec.setWidth_xor, BitVec.setWidth_xor, hshift, hshift, hgone, BitVec.zero_xor, BitVec.xor_comm,
    BitVec.setWidth_setWidth_of_le _ (by decide), BitVec.setWidth_eq]

/-- With `b0` and `b1` the hash determines `b2`: it is read off the low byte (R101). -/
theorem hash3_inj_last {b0 b1 b2 c2 : Byte} (h : hash3 b0 b1 b2 = hash3 b0 b1 c2) : b2 = c2 := by
  have hlow := congrArg (BitVec.setWidth 8) h
  rwa [hash3_low_byte, hash3_low_byte, BitVec.xor_left_inj] at hlow

/-- Settles O39: each clause is a lemma on the shifts by 5 and 10. -/
theorem hashOfThreeBytes : Obligations.HashOfThreeBytes := by
  unfold Obligations.HashOfThreeBytes
  intro h b0 b1 b2 c2
  refine ⟨updateHash_three h b0 b1 b2, hash3_toNat b0 b1 b2, ?_, hash3_inj_last, hash3_low_byte b0 b1 b2⟩
  rw [hash3, shiftLeft_ten_low_bits]
  rfl

/-! ### InsertString -/

/-- Inside the window InsertString completes (R103). -/
theorem insertString_run {p : Nat} (hp : p + 2 < WIN) :
    insertString p s = .ok (s.head.read (updateHash s.insH (s.window.read (p + 2))).toNat).toNat
      (s.inserted p (updateHash s.insH (s.window.read (p + 2)))) := by
  obtain ⟨_, _, hrun, rfl, rfl⟩ := run_of_wp (s := s) (Q := fun r t => r = _ ∧ t = _)
    ((wp_insertString p _).mpr ⟨fun _ => ⟨rfl, rfl⟩, fun hn => hn hp⟩)
  exact hrun

/-- The bucket heads after an insertion (R103). -/
theorem inserted_head_read (hc : s.CoreOk) (p : Nat) (h : BitVec 15) (x : Nat) :
    (s.inserted p h).head.read x = if x = h.toNat then BitVec.ofNat 16 p else s.head.read x := by
  obtain ⟨-, ⟨-, hhead, -⟩, -⟩ := hc
  rw [inserted_head, read_write hhead]

/-- The chain links after an insertion (R103). -/
theorem inserted_prev_read (hc : s.CoreOk) (p : Nat) (h : BitVec 15) (x : Nat) :
    (s.inserted p h).prev.read x = if x = p % W then s.head.read h.toNat else s.prev.read x := by
  obtain ⟨-, ⟨-, -, hprev, -⟩, -⟩ := hc
  rw [inserted_prev, read_write hprev, prevIndex_eq]

/-- Settles O40: the run leaves `State.inserted`, which writes one entry of `head` and one of `prev`. A position of the
window fits the 16 bits of its entry. -/
theorem insertStringLinks : Obligations.InsertStringLinks := by
  unfold Obligations.InsertStringLinks
  intro s p hc hp
  refine ⟨_, _, insertString_run hp, rfl, rfl, ?_, fun x hx => ?_, ?_, fun x hx => ?_⟩
  · have hwin : WIN = 2 ^ 16 := rfl
    rw [inserted_head_read hc, if_pos rfl, BitVec.toNat_ofNat, Nat.mod_eq_of_lt (by omega)]
  · rw [inserted_head_read hc, if_neg hx]
  · rw [inserted_prev_read hc, if_pos rfl]
  · rw [inserted_prev_read hc, if_neg hx]

/-! ### The session invariant -/

/-- Every command keeps the session invariant: INIT starts a session, STATUS writes nothing of the core, and the bodies
of PROCESS and FINALIZE keep `Settled`. -/
theorem sessionInv_exec {i : Instr} (h : Issued s) (hs : s.SessionInv) (hn : exec i s = .next t) : t.SessionInv := by
  cases i with
  | init framing => exact (inv_execInit h hn).2
  | process len => exact (inv_execProcess h hn).2 hs
  | finalize => exact (inv_execFinalize h hn).2 hs
  | status => exact (inv_execStatus h hn).2 hs

/-- Settles O36, by cases on what the step does: taking the command off the queue writes nothing the invariant speaks
of. -/
theorem stepKeepsSessionInv : Obligations.StepKeepsSessionInv := by
  unfold Obligations.StepKeepsSessionInv
  intro s t h hs hn
  obtain rfl | ⟨rest, -, rfl⟩ | ⟨c, rest, i, -, -, he⟩ := step_next hn
  · exact hs
  · exact (inv_hardwareReset (s := s.issue []) h.1).2
  · exact sessionInv_exec (issued_issue h c.data) hs he

end Sys2Proof.Proofs
end

section
/-!
PROOFS. MatchLen (spec/42_matcher.md R109) and LongestMatch (R107, R108, R111, R112): what a candidate offers, and which
of the examined candidates is taken.
-/

namespace Sys2Proof.Proofs

open Sys2Proof.Machine Sys2Proof.Laws

variable {s t : State} {c k l best : Nat} {x : Int}

/-! ### What a candidate offers -/

/-- The most bytes that a match at `strstart` may have (R109). -/
def matchCap (s : State) : Nat := min MAX_MATCH s.lookahead

/-- The length that the candidate `c` offers (R109). -/
def offer (s : State) (c : Nat) : Nat := Nat.findGreatest (s.Agrees c) (matchCap s)

theorem agrees_of_le (h : s.Agrees c l) (hkl : k ≤ l) : s.Agrees c k := fun i hi => h i (Nat.lt_of_lt_of_le hi hkl)

theorem agrees_succ (h : s.Agrees c k) (heq : s.window.read (c + k) = s.window.read (s.strstart + k)) :
    s.Agrees c (k + 1) := fun i hi => by
  obtain hlt | rfl := Nat.lt_succ_iff_lt_or_eq.mp hi
  · exact h i hlt
  · exact heq

theorem offer_le (s : State) (c : Nat) : offer s c ≤ matchCap s := Nat.findGreatest_le _

theorem agrees_offer (s : State) (c : Nat) : s.Agrees c (offer s c) :=
  Nat.findGreatest_spec (P := s.Agrees c) (Nat.zero_le (matchCap s)) fun _ hi => absurd hi (Nat.not_lt_zero _)

/-- The agreeing lengths are those up to what the candidate offers. -/
theorem agrees_iff_le_offer (hk : k ≤ matchCap s) : s.Agrees c k ↔ k ≤ offer s c :=
  ⟨fun h => Nat.le_findGreatest hk h, agrees_of_le (agrees_offer s c)⟩

theorem offer_differs (h : offer s c < matchCap s) :
    s.window.read (c + offer s c) ≠ s.window.read (s.strstart + offer s c) := fun heq =>
  Nat.findGreatest_is_greatest (Nat.lt_succ_self (offer s c)) h (agrees_succ (agrees_offer s c) heq)

/-- A length with no more agreement behind it is what the candidate offers. -/
theorem offer_eq (hk : k ≤ matchCap s) (h : s.Agrees c k)
    (hdiff : k < matchCap s → s.window.read (c + k) ≠ s.window.read (s.strstart + k)) : offer s c = k := by
  refine Nat.le_antisymm (Nat.le_of_not_lt fun hlt => ?_) ((agrees_iff_le_offer hk).mp h)
  exact hdiff (Nat.lt_of_lt_of_le hlt (offer_le s c)) (agrees_offer s c k hlt)

/-! ### MatchLen -/

/-- A program after another that ends with a value. -/
theorem bind_run {α β : Type} {m : M α} {a : α} (h : m s = .ok a t) (f : α → M β) : (m >>= f) s = f a t := by
  simp only [bind, EStateM.bind, h]

theorem readWindow_run {p : Int} {n : Nat} (hp : p = n) (hn : n < WIN) :
    readWindow p s = .ok (s.window.read n) s := by
  rw [hp, readWindow, if_pos (by omega), Int.toNat_natCast]

/-- The comparison of R109, once `k` bytes agree and up to the cap are left. -/
theorem matchBytes_run (hc : c ≤ s.strstart) (hsum : s.strstart + s.lookahead ≤ WIN) (n : Nat)
    (hn : k + n = matchCap s) (hk : s.Agrees c k) : matchBytes c s.strstart k n s = .ok (offer s c) s := by
  induction n generalizing k with
  | zero => rw [offer_eq (by omega) hk (by omega)]; rfl
  | succ n ih =>
    have hcap : matchCap s ≤ s.lookahead := Nat.min_le_right _ _
    rw [matchBytes, bind_run (readWindow_run (Nat.cast_add c k).symm (by omega)),
      bind_run (readWindow_run (Nat.cast_add s.strstart k).symm (by omega))]
    split
    · next heq => exact ih (by omega) (agrees_succ hk heq)
    · next hne => rw [offer_eq (by omega) hk fun _ => hne]; rfl

/-- MatchLen answers what the candidate offers (R109). -/
theorem matchLen_run (hc : c ≤ s.strstart) (hsum : s.strstart + s.lookahead ≤ WIN) :
    matchLen c s = .ok (offer s c) s :=
  matchBytes_run hc hsum (matchCap s) (Nat.zero_add _) fun _ hi => absurd hi (Nat.not_lt_zero _)

/-- Settles O43: the length is `offer`, the greatest agreeing length up to the cap. -/
theorem matchLenIsLargest : Obligations.MatchLenIsLargest := by
  unfold Obligations.MatchLenIsLargest
  intro s c hc hsum
  exact ⟨offer s c, matchLen_run hc hsum, offer_le s c, agrees_offer s c, offer_differs⟩

/-! ### The chain walk -/

/-- `l` and the match start `x` are the best of the candidates `cs` against a match of length `best` (R108): no candidate
offers more, and a longer match is the first candidate that offers its length. -/
structure BestOf (s : State) (cs : List Nat) (best l : Nat) (x : Int) : Prop where
  best_le : best ≤ l
  offers : ∀ c ∈ cs, offer s c ≤ l
  kept : l = best → x = s.matchStart
  taken : best < l → ∃ (nearer farther : List Nat) (c : Nat), cs = nearer ++ c :: farther ∧ x = c ∧ offer s c = l ∧
    ∀ c' ∈ nearer, offer s c' < l

theorem BestOf.nil (s : State) (best : Nat) : BestOf s [] best best s.matchStart where
  best_le := Nat.le_refl _
  offers _ hc := absurd hc List.not_mem_nil
  kept _ := rfl
  taken h := absurd h (Nat.lt_irrefl _)

/-- The first candidate, before the walk goes on (R108). -/
def examined (s : State) (best c : Nat) : State :=
  { s with matchStart := if best < offer s c then (c : Int) else s.matchStart }

/-- One candidate more in front. -/
theorem BestOf.cons {cs : List Nat} (h : BestOf (examined s best c) cs (max best (offer s c)) l x) :
    BestOf s (c :: cs) best l x where
  best_le := (Nat.le_max_left _ _).trans h.best_le
  offers := List.forall_mem_cons.mpr ⟨(Nat.le_max_right _ _).trans h.best_le, h.offers⟩
  kept hl := by
    have hle := h.best_le
    rw [h.kept (by omega), examined, if_neg (by omega)]
  taken hl := by
    by_cases hlt : max best (offer s c) < l
    · obtain ⟨nearer, farther, d, rfl, hx, hd, hnear⟩ := h.taken hlt
      exact ⟨c :: nearer, farther, d, rfl, hx, hd, List.forall_mem_cons.mpr ⟨by omega, hnear⟩⟩
    · have hle := h.best_le
      refine ⟨[], cs, c, rfl, ?_, by omega, fun _ hc' => absurd hc' List.not_mem_nil⟩
      rw [h.kept (by omega), examined, if_pos (by omega)]

/-- A candidate that beats `best` and offers all that a match may have is the best of every list it heads (R108). -/
theorem BestOf.of_cap {cs : List Nat} (hlt : best < offer s c) (hcap : matchCap s ≤ offer s c) :
    BestOf s (c :: cs) best (offer s c) c where
  best_le := hlt.le
  offers d _ := (offer_le s d).trans hcap
  kept h := absurd h hlt.ne'
  taken _ := ⟨[], cs, c, rfl, rfl, rfl, fun _ hd => absurd hd List.not_mem_nil⟩

/-- One candidate of the walk: it ends the walk, or its entry of `prev` does not, or the walk goes on (R108). -/
theorem walkChain_succ_run (limit nice chain : Nat) (hc : c ≤ s.strstart) (hsum : s.strstart + s.lookahead ≤ WIN) :
    walkChain limit nice (chain + 1) c best s =
      if best < offer s c ∧ nice ≤ offer s c then .ok (offer s c) { s with matchStart := c }
      else if limit < (s.prev.read (c % W)).toNat then
        walkChain limit nice chain (s.prev.read (c % W)).toNat (max best (offer s c)) (examined s best c)
      else .ok (max best (offer s c)) (examined s best c) := by
  have hset : doIf (decide (best < offer s c)) (setMatchStart c) s = .ok () (examined s best c) := by
    by_cases h : best < offer s c
    · rw [examined, if_pos h, decide_eq_true h]
      rfl
    · rw [examined, if_neg h, decide_eq_false h]
      rfl
  rw [walkChain, bind_run (matchLen_run hc hsum)]
  split
  · rfl
  · rw [bind_run hset, get_bind_run, prevIndex_eq, apply_ite (fun m : M Nat => m (examined s best c))]
    rfl

/-- The walk of R108 takes the best of the chain. -/
theorem walkChain_run (limit : Nat) {nice : Nat} (hnice : matchCap s ≤ nice) (hsum : s.strstart + s.lookahead ≤ WIN)
    (chain : Nat) (hbehind : ∀ d ∈ chainFrom s.prev limit chain c, d < s.strstart) :
    ∃ l x, walkChain limit nice chain c best s = .ok l { s with matchStart := x } ∧
      BestOf s (chainFrom s.prev limit chain c) best l x := by
  induction chain generalizing s c best with
  | zero => exact ⟨best, s.matchStart, rfl, .nil s best⟩
  | succ chain ih =>
    rw [chainFrom] at hbehind ⊢
    rw [walkChain_succ_run limit nice chain (hbehind c List.mem_cons_self).le hsum]
    split
    · next hgood => exact ⟨offer s c, c, rfl, .of_cap hgood.1 (hnice.trans hgood.2)⟩
    · by_cases hlimit : limit < (s.prev.read (c % W)).toNat
      · rw [if_pos hlimit] at hbehind
        rw [if_pos hlimit, if_pos hlimit]
        obtain ⟨l, x, hrun, hbest⟩ := ih (s := examined s best c) (best := max best (offer s c)) hnice hsum
          fun d hd => hbehind d (List.mem_cons_of_mem c hd)
        exact ⟨l, x, hrun, hbest.cons⟩
      · rw [if_neg hlimit, if_neg hlimit]
        exact ⟨_, _, rfl, BestOf.cons (.nil (examined s best c) _)⟩

/-! ### LongestMatch -/

theorem chainBudget_eq (s : State) : chainBudget s = if s.cfg.goodMatch ≤ s.prevLength then 1024 else 4096 := rfl

theorem chainLimit_eq (s : State) : chainLimit s = s.strstart - MAX_DIST := by
  have hnil : NIL = 0 := rfl
  rw [chainLimit]
  split <;> omega

/-- Every position on a chain but the first is above the limit (R107). -/
theorem chainFrom_above {prev : Memory 16} {limit d : Nat} (n : Nat) (h : d ∈ chainFrom prev limit n c) :
    d = c ∨ limit < d := by
  induction n generalizing c with
  | zero => exact absurd h List.not_mem_nil
  | succ n ih =>
    rw [chainFrom] at h
    obtain rfl | h := List.mem_cons.mp h
    · exact .inl rfl
    · split at h
      · next hlimit =>
        obtain rfl | h := ih h
        · exact .inr hlimit
        · exact .inr h
      · exact absurd h List.not_mem_nil

/-- A candidate lies no further back than `MAX_DIST` if the first one does (R107, R112). -/
theorem candidate_in_reach {d : Nat} (hd : d ∈ s.candidates c) (hreach : s.strstart - c ≤ MAX_DIST) :
    s.strstart - d ≤ MAX_DIST := by
  obtain rfl | h := chainFrom_above _ hd
  · exact hreach
  · omega

/-- LongestMatch takes the best of the candidates (R108). -/
theorem longestMatch_run (hsum : s.strstart + s.lookahead ≤ WIN) (hbehind : ∀ d ∈ s.candidates c, d < s.strstart) :
    ∃ l x, longestMatch c s = .ok (min l s.lookahead) { s with matchStart := x } ∧
      BestOf s (s.candidates c) s.prevLength l x := by
  have hnice : matchCap s ≤ min NICE_MATCH s.lookahead := Nat.le_refl _
  obtain ⟨l, x, hrun, hbest⟩ := walkChain_run (c := c) (best := s.prevLength) (s.strstart - MAX_DIST) hnice hsum _ hbehind
  refine ⟨l, x, ?_, hbest⟩
  rw [longestMatch, get_bind_run, chainLimit_eq, chainBudget_eq, bind_run hrun]
  rfl

/-- A length above the one to beat is what some candidate offers, so it is within the cap. -/
theorem BestOf.le_cap {cs : List Nat} (h : BestOf s cs best l x) (hlt : best < l) : l ≤ matchCap s := by
  obtain ⟨-, -, c, -, -, rfl, -⟩ := h.taken hlt
  exact offer_le s c

/-- Settles O44: the result is the best of the candidates, cut to the lookahead, which a longer match is within. -/
theorem longestMatchIsReal : Obligations.LongestMatchIsReal := by
  unfold Obligations.LongestMatchIsReal
  intro s c1 hsum hbehind _ hreach
  obtain ⟨l, x, hrun, hbest⟩ := longestMatch_run hsum hbehind
  have hmin := hbest.best_le
  have hcap : matchCap s = min MAX_MATCH s.lookahead := rfl
  have hlong : s.prevLength < l → l ≤ matchCap s := hbest.le_cap
  refine ⟨min l s.lookahead, _, hrun, rfl, Nat.min_le_right _ _, by omega, fun hle => hbest.kept (by omega),
    fun c hc k hk hagree => ?_, fun hlt => ?_⟩
  · have hoffer := (agrees_iff_le_offer hk).mp hagree
    have hbound := hbest.offers c hc
    omega
  · obtain ⟨nearer, farther, c, hsplit, hx, hoffer, hnear⟩ := hbest.taken (by omega)
    have hl : min l s.lookahead = l := by omega
    have hmem : c ∈ s.candidates c1 := by
      rw [hsplit]
      exact List.mem_append_cons_self
    rw [hl]
    refine ⟨nearer, farther, c, hsplit, hx, hbehind c hmem, candidate_in_reach hmem hreach, by omega,
      hoffer ▸ agrees_offer s c, fun c' hc' hagree => ?_⟩
    have hle := (agrees_iff_le_offer (by omega)).mp hagree
    have hless := hnear c' hc'
    omega

end Sys2Proof.Proofs
end

section
/-!
PROOFS. EvaluatePosition (spec/42_matcher.md R114): the insertion, the deferral, and the search from the former head.
-/

namespace Sys2Proof.Proofs

open Sys2Proof.Machine Sys2Proof.Laws

variable {s u : State} {hashHead n p b : Nat} {x : Int}

/-! ### The parts of the step -/

theorem insertHere_run (s : State) :
    insertHere s = if MIN_MATCH ≤ s.lookahead then insertString s.strstart s else .ok NIL s := by
  rw [insertHere, get_bind_run]
  split <;> rfl

/-- The state in which the search runs: the current match is the deferred one (R114). -/
def matchDeferred (u : State) : State :=
  { u with prevLength := u.matchLength, prevMatch := u.matchStart, matchLength := 2 }

/-- The state after the search: a match of length `n` at `x` is the current one. -/
def matchSet (u : State) (n : Nat) (x : Int) : State := { matchDeferred u with matchLength := n, matchStart := x }

/-- The length kept of a match of length `n` found at `x` from position `p`: one of 3 bytes too far away is dropped
(R114). -/
def keptLength (n p : Nat) (x : Int) : Nat := if n = MIN_MATCH ∧ (TOO_FAR : Int) < p - x then 2 else n

theorem deferMatch_run (u : State) : deferMatch u = .ok () (matchDeferred u) := rfl

theorem searchAllowed_iff :
    searchAllowed (matchDeferred u) hashHead = true ↔
      hashHead ≠ NIL ∧ u.matchLength < MAX_LAZY ∧ (u.strstart : Int) - hashHead ≤ MAX_DIST := by
  simp only [searchAllowed, Bool.and_eq_true, decide_eq_true_eq, and_assoc]
  rfl

theorem tooFar_iff : tooFar (matchSet u n x) = true ↔ n = MIN_MATCH ∧ (TOO_FAR : Int) < u.strstart - x := by
  simp only [tooFar, Bool.and_eq_true, decide_eq_true_eq]
  rfl

/-- The check for a short match too far away (R114). -/
theorem dropTooFar_run (u : State) (n : Nat) (x : Int) :
    doIf (tooFar (matchSet u n x)) (setMatchLength (MIN_MATCH - 1)) (matchSet u n x) =
      .ok () (matchSet u (keptLength n u.strstart x) x) := by
  cases h : tooFar (matchSet u n x) with
  | true => rw [keptLength, if_pos (tooFar_iff.mp h)]; rfl
  | false => rw [keptLength, if_neg (mt tooFar_iff.mpr (ne_true_of_eq_false h))]; rfl

theorem keptLength_eq_of_lt (htwo : 2 ≤ b) (h : b < keptLength n p x) : keptLength n p x = n := by
  unfold keptLength at h ⊢
  split
  · next hfar => rw [if_pos hfar] at h; omega
  · rfl

theorem keptLength_near (h : keptLength n p x = MIN_MATCH) : (p : Int) - x ≤ TOO_FAR := by
  have h3 : MIN_MATCH = 3 := rfl
  unfold keptLength at h
  split at h <;> omega

/-! ### The step -/

/-- Without a search there is no new match (R114). -/
theorem evaluatePosition_skips (hinsert : insertHere s = .ok hashHead u)
    (hno : ¬ searchAllowed (matchDeferred u) hashHead = true) :
    evaluatePosition s = .ok () (matchSet u 2 u.matchStart) := by
  rw [evaluatePosition, bind_run hinsert, bind_run (deferMatch_run u), get_bind_run, if_neg hno]
  rfl

/-- With a search the new match is what LongestMatch finds, unless it is too far away (R114). -/
theorem evaluatePosition_searches (hinsert : insertHere s = .ok hashHead u)
    (hsearch : searchAllowed (matchDeferred u) hashHead = true)
    (hmatch : longestMatch hashHead (matchDeferred u) = .ok n { matchDeferred u with matchStart := x }) :
    evaluatePosition s = .ok () (matchSet u (keptLength n u.strstart x) x) := by
  have hset : setMatchLength n { matchDeferred u with matchStart := x } = .ok () (matchSet u n x) := rfl
  rw [evaluatePosition, bind_run hinsert, bind_run (deferMatch_run u), get_bind_run, if_pos hsearch, bind_run hmatch,
    bind_run hset, get_bind_run, dropTooFar_run]

/-- A match longer than the deferred one is real and in reach (R112, R119). -/
theorem longestMatch_real (hsum : s.strstart + s.lookahead ≤ WIN) (hbehind : ∀ d ∈ s.candidates hashHead, d < s.strstart)
    (hhead : hashHead < s.strstart) (hreach : s.strstart - hashHead ≤ MAX_DIST) :
    ∃ n x, longestMatch hashHead s = .ok n { s with matchStart := x } ∧
      (s.prevLength < n → ∃ c : Nat, x = c ∧ c < s.strstart ∧ s.strstart - c ≤ MAX_DIST ∧ n ≤ s.lookahead ∧
        s.Agrees c n) := by
  obtain ⟨n, t, hrun, ht, hle, -, -, -, hreal⟩ := longestMatchIsReal s hashHead hsum hbehind hhead hreach
  refine ⟨n, t.matchStart, hrun.trans (congrArg _ ht), fun hlt => ?_⟩
  obtain ⟨-, -, c, -, hc, hlow, hdist, -, hagree, -⟩ := hreal hlt
  exact ⟨c, hc, hlow, hdist, hle, hagree⟩

/-- What the step writes, after an insertion that wrote the chains alone. -/
theorem matchSet_frame (hu : u = { s with insH := u.insH, head := u.head, prev := u.prev }) (n : Nat) (x : Int) :
    matchSet u n x = { s with
      insH := u.insH, head := u.head, prev := u.prev, prevLength := s.matchLength, prevMatch := s.matchStart
      matchLength := n, matchStart := x } := by
  rw [hu]
  rfl

/-- The clauses of O45 about EvaluatePosition (R112, R114, R119). -/
theorem evaluatePosition_defers (hc : s.CoreOk) (hb : s.ChainsBehind) (h1 : 1 ≤ s.lookahead) :
    ∃ (hashHead : Nat) (u t : State),
      (if MIN_MATCH ≤ s.lookahead then insertString s.strstart s = .ok hashHead u else hashHead = NIL ∧ u = s) ∧
      evaluatePosition s = .ok () t ∧
      t = { s with
        insH := u.insH, head := u.head, prev := u.prev, prevLength := s.matchLength, prevMatch := s.matchStart
        matchLength := t.matchLength, matchStart := t.matchStart } ∧
      (if hashHead ≠ NIL ∧ s.matchLength < MAX_LAZY ∧ (s.strstart : Int) - hashHead ≤ MAX_DIST then
        ∃ (n : Nat) (v : State),
          longestMatch hashHead
            { u with prevLength := s.matchLength, prevMatch := s.matchStart, matchLength := 2 } = .ok n v ∧
          t.matchStart = v.matchStart ∧
          t.matchLength = if n = MIN_MATCH ∧ (TOO_FAR : Int) < s.strstart - v.matchStart then 2 else n
      else t.matchStart = s.matchStart ∧ t.matchLength = 2) ∧
      (s.matchLength < t.matchLength →
        ∃ c : Nat, t.matchStart = c ∧ c < s.strstart ∧ s.strstart - c ≤ MAX_DIST ∧ t.matchLength ≤ s.lookahead ∧
          s.Agrees c t.matchLength) ∧
      (t.matchLength = MIN_MATCH → (t.strstart : Int) - t.matchStart ≤ TOO_FAR) := by
  obtain ⟨hashHead, u, hinsert, hu, hchain, -⟩ := run_of_wp (insertHere_spec (F := False) hc hb h1)
  obtain ⟨-, -, hsum, htwo, -⟩ := hc
  have hbranch : if MIN_MATCH ≤ s.lookahead then insertString s.strstart s = .ok hashHead u
      else hashHead = NIL ∧ u = s := by
    rw [insertHere_run] at hinsert
    split at hinsert
    · next h => rwa [if_pos h]
    · next h =>
      rw [if_neg h]
      cases hinsert
      exact ⟨rfl, rfl⟩
  have hstrstart : u.strstart = s.strstart := by rw [hu]
  have hlookahead : u.lookahead = s.lookahead := by rw [hu]
  have hwindow : u.window = s.window := by rw [hu]
  have hlength : u.matchLength = s.matchLength := by rw [hu]
  have hstart : u.matchStart = s.matchStart := by rw [hu]
  have hallowed := searchAllowed_iff (u := u) (hashHead := hashHead)
  rw [hstrstart, hlength] at hallowed
  by_cases hsearch : searchAllowed (matchDeferred u) hashHead = true
  · obtain ⟨hne, hlazy, hdist⟩ := hallowed.mp hsearch
    obtain ⟨S, hbelow, hclosed, hmem⟩ := hchain hne
    have hhead := hbelow hashHead hmem
    obtain ⟨n, x, hmatch, hreal⟩ := longestMatch_real (s := matchDeferred u) (hashHead := hashHead)
      (by rwa [← hstrstart, ← hlookahead] at hsum)
      (fun d hd => hstrstart ▸ hbelow d (chainFrom_closed hclosed _ _ hmem d hd)) (hstrstart ▸ hhead)
      (by show u.strstart - hashHead ≤ MAX_DIST; omega)
    refine ⟨hashHead, u, _, hbranch, evaluatePosition_searches hinsert hsearch hmatch, matchSet_frame hu _ _, ?_,
      fun hlt => ?_, keptLength_near⟩
    · rw [if_pos ⟨hne, hlazy, hdist⟩, ← hlength, ← hstart, ← hstrstart]
      exact ⟨n, _, hmatch, rfl, rfl⟩
    · have hkept : (matchSet u (keptLength n u.strstart x) x).matchLength = n := keptLength_eq_of_lt htwo hlt
      rw [hkept] at hlt ⊢
      obtain ⟨c, hc, hlow, hfar, hle, hagree⟩ := hreal (hlength.trans_lt hlt)
      have hagree : ∀ i < n, u.window.read (c + i) = u.window.read (u.strstart + i) := hagree
      rw [hwindow, hstrstart] at hagree
      exact ⟨c, hc, hstrstart ▸ hlow, hstrstart ▸ hfar, hlookahead ▸ hle, hagree⟩
  · refine ⟨hashHead, u, _, hbranch, evaluatePosition_skips hinsert hsearch, matchSet_frame hu _ _, ?_, fun hlt => ?_,
      fun h3 => ?_⟩
    · rw [if_neg (mt hallowed.mpr hsearch)]
      exact ⟨hstart, rfl⟩
    · exact absurd (htwo.trans_lt hlt) (Nat.lt_irrefl 2)
    · exact absurd h3 (show (2 : Nat) ≠ MIN_MATCH by decide)

end Sys2Proof.Proofs
end

section
/-!
PROOFS. The decision after EvaluatePosition (spec/42_matcher.md R113): EmitDeferredMatch (R116), EmitPendingLiteral
(R115), Defer (R117), and the drain at the end of the input (R118).
-/

namespace Sys2Proof.Proofs

open Sys2Proof.Machine Sys2Proof.Laws

variable {s u v : State} {b : Byte} {d lc : Nat} {maxInsert : Int}

/-- A program after another that stops. -/
theorem bind_error {α β : Type} {m : M α} {e : Stop} (h : m s = .error e v) (f : α → M β) :
    (m >>= f) s = .error e v := by
  simp only [bind, EStateM.bind, h]

/-! ### The token -/

/-- In a block whose counters are exact a literal's tally completes (R123). -/
theorem tallyLiteral_completes (hc : s.CoreOk) (hroom : s.lastLit < s.cfg.tokenLimit) (h : s.TallyExact) (b : Byte) :
    tallyLiteral b s = .ok (blockFull (s.tallyLiteral b)) (s.tallyLiteral b) := by
  rw [tallyLiteral_run hroom, if_pos (countFits_literal h (tokenRoom hc hroom) b)]

theorem tokenAdded_literal (hc : s.CoreOk) (hroom : s.lastLit < s.cfg.tokenLimit) (h : s.TallyExact) (b : Byte) :
    s.TokenAdded (s.tallyLiteral b) 0 b.toNat := by
  have hfits := countFits_one_iff.mp (countFits_literal h (tokenRoom hc hroom) b)
  obtain ⟨hdist, hlc, hrest, hfreq⟩ := tallyLiteral_appends hc hroom hfits
  exact ⟨rfl, congrArg BitVec.toNat hdist, congrArg BitVec.toNat hlc, hrest, hfreq, fun _ => rfl⟩

/-- In a block whose counters are exact a match's tally completes (R124). -/
theorem tallyDistance_completes (hc : s.CoreOk) (hroom : s.lastLit < s.cfg.tokenLimit) (h : s.TallyExact)
    (hd1 : 1 ≤ d) (hd2 : d ≤ MAX_DIST) (hlc : lc ≤ 255) :
    tallyDistance d lc s = .ok (blockFull (s.tallyDistance d lc)) (s.tallyDistance d lc) := by
  rw [tallyDistance_run hroom hd1 hd2 hlc, if_pos (matchFits_of h (tokenRoom hc hroom) d lc)]

theorem tokenAdded_distance (hc : s.CoreOk) (hroom : s.lastLit < s.cfg.tokenLimit) (h : s.TallyExact)
    (hd1 : 1 ≤ d) (hd2 : d ≤ MAX_DIST) (hlc : lc ≤ 255) : s.TokenAdded (s.tallyDistance d lc) d lc := by
  obtain ⟨hl, hd⟩ := matchFits_iff.mp (matchFits_of h (tokenRoom hc hroom) d lc)
  obtain ⟨hdist, hlen, hrest, hlfreq, hdfreq⟩ := tallyDistance_appends hc hroom hd2 hlc hl hd
  have hd0 : d ≠ 0 := Nat.one_le_iff_ne_zero.mp hd1
  refine ⟨rfl, hdist, hlen, hrest, fun n => ?_, fun n => ?_⟩
  · rw [if_neg hd0]
    exact hlfreq n
  · rw [hdfreq]
    simp only [ne_eq, hd0, not_false_eq_true, true_and]

/-- The flush that a full block asks for (R125). -/
theorem flushIfFull_run (u : State) :
    doIf (blockFull u) (flushBlock false) u = if u.lastLit = u.cfg.tokenLimit then flushBlock false u else .ok () u := by
  by_cases h : u.lastLit = u.cfg.tokenLimit
  · rw [if_pos h, blockFull, decide_eq_true h]
    rfl
  · rw [if_neg h, blockFull, decide_eq_false h]
    rfl

/-! ### The insertions of a match -/

/-- `s` with the chains of `v`. -/
def withChains (s v : State) : State := { s with insH := v.insH, head := v.head, prev := v.prev }

/-- `InsertString(p)` writes the chains alone, and it reads but them and the window (R103). -/
theorem insertString_withChains {p : Nat} (hp : p + 2 < WIN) (hwindow : v.window = s.window) :
    ∃ h w, insertString p v = .ok h w ∧ w.window = s.window ∧
      insertString p (withChains s v) = .ok h (withChains s w) := by
  refine ⟨_, _, insertString_run hp, hwindow, ?_⟩
  rw [insertString_run hp, hwindow]
  rfl

/-- One position that a match covers (R116). -/
theorem insertNext_run (maxInsert : Int) (s : State) :
    insertNext maxInsert s =
      if ((s.strstart + 1 : Nat) : Int) ≤ maxInsert then
        (insertString (s.strstart + 1) >>= fun _ => pure ()) { s with strstart := s.strstart + 1 }
      else .ok () { s with strstart := s.strstart + 1 } := by
  have hmove : (modify fun s => { s with strstart := s.strstart + 1 } : M PUnit) s =
    .ok ⟨⟩ { s with strstart := s.strstart + 1 } := rfl
  rw [insertNext, bind_run hmove, get_bind_run]
  split <;> rfl

/-- The positions a match covers are inserted in turn, up to the last one that three bytes follow (R116). -/
theorem insertCovered_run (hmax : maxInsert + 2 < WIN) (n : Nat) (hwindow : v.window = s.window) :
    ∃ w, insertEach (List.range' (s.strstart + 1) (min n (maxInsert - s.strstart).toNat)) v = .ok () w ∧
      insertCovered maxInsert n (withChains s v) = .ok () { withChains s w with strstart := s.strstart + n } := by
  induction n generalizing s v with
  | zero => exact ⟨v, by rw [Nat.zero_min]; rfl, rfl⟩
  | succ n ih =>
    have hsum : s.strstart + 1 + n = s.strstart + (n + 1) := by omega
    by_cases hle : ((s.strstart + 1 : Nat) : Int) ≤ maxInsert
    · obtain ⟨h, u, hrun, hu, hmoved⟩ := insertString_withChains (s := { s with strstart := s.strstart + 1 })
        (p := s.strstart + 1) (by omega) hwindow
      obtain ⟨w, heach, hcovered⟩ := ih (s := { s with strstart := s.strstart + 1 }) hu
      have hcount : min (n + 1) (maxInsert - s.strstart).toNat =
        min n (maxInsert - (s.strstart + 1 : Nat)).toNat + 1 := by omega
      have hnext : insertNext maxInsert (withChains s v) =
          .ok () (withChains { s with strstart := s.strstart + 1 } u) := by
        rw [insertNext_run]
        exact (if_pos hle).trans (bind_run hmoved _)
      rw [hcount, List.range'_succ, insertEach, bind_run hrun, insertCovered, bind_run hnext, ← hsum]
      exact ⟨w, heach, hcovered⟩
    · obtain ⟨w, heach, hcovered⟩ := ih (s := { s with strstart := s.strstart + 1 }) hwindow
      have hcount : min (n + 1) (maxInsert - s.strstart).toNat = 0 := by omega
      have hcount' : min n (maxInsert - (s.strstart + 1 : Nat)).toNat = 0 := by omega
      have hnext : insertNext maxInsert (withChains s v) =
          .ok () (withChains { s with strstart := s.strstart + 1 } v) := by
        rw [insertNext_run]
        exact if_neg hle
      rw [hcount'] at heach
      rw [hcount, insertCovered, bind_run hnext, ← hsum]
      exact ⟨w, heach, hcovered⟩

/-! ### The three branches -/

/-- The distance of the deferred match (R116). -/
def heldDistance (s : State) : Nat := ((s.strstart : Int) - 1 - s.prevMatch).toNat

/-- The state after the deferred match's token is tallied and its bytes are taken off the lookahead (R116). -/
def matchTallied (s : State) : State :=
  { s.tallyDistance (heldDistance s) (s.prevLength - 3) with lookahead := s.lookahead - (s.prevLength - 1) }

/-- What EmitDeferredMatch leaves before the flush (R116): the token, the chains of `v`, and the position behind the
match. -/
def matchEmitted (s v : State) : State :=
  { s with
    tokDist := (matchTallied s).tokDist, tokLc := (matchTallied s).tokLc, lastLit := (matchTallied s).lastLit
    dynLfreq := (matchTallied s).dynLfreq, dynDfreq := (matchTallied s).dynDfreq
    insH := v.insH, head := v.head, prev := v.prev
    strstart := s.strstart + s.prevLength - 1, lookahead := s.lookahead - (s.prevLength - 1)
    prevLength := 0, matchLength := 2, matchAvailable := false }

theorem shrinkLookahead_run {n : Nat} (h : n ≤ s.lookahead) :
    shrinkLookahead n s = .ok () { s with lookahead := s.lookahead - n } := by
  rw [shrinkLookahead, get_bind_run, require_bind_run, if_pos (decide_eq_true h)]
  rfl

theorem advance_run (h : 1 ≤ s.lookahead) :
    advance s = .ok () { s with strstart := s.strstart + 1, lookahead := s.lookahead - 1 } := by
  rw [advance, get_bind_run, require_bind_run, if_pos (decide_eq_true h)]
  rfl

theorem closeMatch_run (h : 2 ≤ s.prevLength) (v : State) :
    closeMatch { withChains (matchTallied s) v with strstart := s.strstart + (s.prevLength - 2) } =
      .ok () (matchEmitted s v) := by
  have hend : s.strstart + s.prevLength - 1 = s.strstart + (s.prevLength - 2) + 1 := by omega
  simp [closeMatch, withChains, matchTallied, matchEmitted, hend, MIN_MATCH]

/-- A deferred match that R112 allows: no longer than the bytes there, at a distance of 1..`MAX_DIST`. -/
structure MatchDue (s : State) : Prop where
  long : 3 ≤ s.prevLength
  short : s.prevLength ≤ 258
  look : s.prevLength ≤ s.lookahead + 1
  dist : (s.strstart : Int) - 1 - s.prevMatch = heldDistance s
  near : 1 ≤ heldDistance s
  far : heldDistance s ≤ MAX_DIST

/-- EmitDeferredMatch (R116): the tally, the insertions, the move behind the match, and the flush of a full block. -/
theorem emitDeferredMatch_run (hc : s.CoreOk) (htally : s.TallyExact) (hroom : s.lastLit < s.cfg.tokenLimit)
    (hdue : MatchDue s) :
    ∃ v, insertEach (List.range' (s.strstart + 1) (min (s.prevLength - 2) (s.lookahead - 3))) s = .ok () v ∧
      emitDeferredMatch s = doIf (blockFull (matchEmitted s v)) (flushBlock false) (matchEmitted s v) := by
  obtain ⟨hlong, hshort, hlook, hdist, hnear, hfar⟩ := hdue
  have ⟨_, _, hsum, _⟩ := hc
  have h3 : MIN_MATCH = 3 := rfl
  have htoken := tallyDistance_completes (d := heldDistance s) (lc := s.prevLength - 3) hc hroom htally hnear hfar
    (by omega)
  have hshrink : shrinkLookahead (s.prevLength - 1) (s.tallyDistance (heldDistance s) (s.prevLength - 3)) =
    .ok () (matchTallied s) := shrinkLookahead_run (Nat.sub_le_of_le_add hlook)
  obtain ⟨v, heach, hcovered⟩ := insertCovered_run (s := matchTallied s) (v := s)
    (maxInsert := (s.strstart : Int) + s.lookahead - 3) (by omega) (s.prevLength - 2) rfl
  have hcount : ((s.strstart : Int) + s.lookahead - 3 - s.strstart).toNat = s.lookahead - 3 := by omega
  refine ⟨v, hcount ▸ heach, ?_⟩
  rw [emitDeferredMatch, get_bind_run, hdist, h3, bind_run htoken, bind_run hshrink]
  exact (bind_run hcovered _).trans (bind_run (closeMatch_run (by omega) v) _)

/-- The clause of O45 about R116. -/
theorem emitPosition_match (hc : s.CoreOk) (htally : s.TallyExact) (hroom : s.lastLit < s.cfg.tokenLimit)
    (hdue : MatchDue s) (hbeats : s.matchLength ≤ s.prevLength) :
    ∃ u v : State, s.TokenAdded u ((s.strstart : Int) - 1 - s.prevMatch).toNat (s.prevLength - 3) ∧
      insertEach (List.range' (s.strstart + 1) (min (s.prevLength - 2) (s.lookahead - MIN_MATCH))) s = .ok () v ∧
      u = { s with
        tokDist := u.tokDist, tokLc := u.tokLc, lastLit := u.lastLit, dynLfreq := u.dynLfreq
        dynDfreq := u.dynDfreq, insH := v.insH, head := v.head, prev := v.prev
        strstart := s.strstart + s.prevLength - 1, lookahead := s.lookahead - (s.prevLength - 1)
        prevLength := 0, matchLength := 2, matchAvailable := false } ∧
      emitPosition s = if u.lastLit = u.cfg.tokenLimit then flushBlock false u else .ok () u := by
  obtain ⟨v, heach, hrun⟩ := emitDeferredMatch_run hc htally hroom hdue
  obtain ⟨hlong, hshort, -, -, hnear, hfar⟩ := hdue
  have htoken : s.TokenAdded (matchEmitted s v) (heldDistance s) (s.prevLength - 3) :=
    tokenAdded_distance hc hroom htally hnear hfar (by omega)
  refine ⟨matchEmitted s v, v, htoken, heach, ?_, ?_⟩
  · rfl
  rw [emitPosition, get_bind_run, if_pos ⟨hlong, hbeats⟩, hrun, flushIfFull_run]

/-- EmitPendingLiteral (R115): the tally of the byte before `strstart`, the flush of a full block, and the move. -/
theorem emitPendingLiteral_run (hc : s.CoreOk) (htally : s.TallyExact) (hroom : s.lastLit < s.cfg.tokenLimit)
    (hpos : 1 ≤ s.strstart) (hb : b = s.window.read (s.strstart - 1)) :
    emitPendingLiteral s =
      (doIf (blockFull (s.tallyLiteral b)) (flushBlock false) >>= fun _ => advance) (s.tallyLiteral b) := by
  have ⟨_, _, hsum, _⟩ := hc
  have hwin : WIN = 65536 := rfl
  have hread : readWindow ((s.strstart : Int) - 1) s = .ok b s := by
    rw [hb]
    exact readWindow_run (by omega) (by omega)
  rw [emitPendingLiteral, get_bind_run, bind_run hread, bind_run (tallyLiteral_completes hc hroom htally b)]

/-- The clause of O45 about R115. -/
theorem emitPosition_literal (hc : s.CoreOk) (htally : s.TallyExact) (hroom : s.lastLit < s.cfg.tokenLimit)
    (hlook : 1 ≤ s.lookahead) (hno : ¬ (MIN_MATCH ≤ s.prevLength ∧ s.matchLength ≤ s.prevLength))
    (havail : s.matchAvailable = true) (hpos : 1 ≤ s.strstart) :
    ∃ u : State, s.TokenAdded u 0 (s.window.read (s.strstart - 1)).toNat ∧
      u = { s with tokDist := u.tokDist, tokLc := u.tokLc, lastLit := u.lastLit, dynLfreq := u.dynLfreq } ∧
      (u.lastLit < u.cfg.tokenLimit →
        emitPosition s = .ok () { u with strstart := s.strstart + 1, lookahead := s.lookahead - 1 }) ∧
      (u.lastLit = u.cfg.tokenLimit →
        (∀ v, flushBlock false u = .ok () v →
          emitPosition s = .ok () { v with strstart := s.strstart + 1, lookahead := s.lookahead - 1 }) ∧
        ∀ e v, flushBlock false u = .error e v → emitPosition s = .error e v) := by
  generalize hb : s.window.read (s.strstart - 1) = b
  have hrun : emitPosition s =
      (doIf (blockFull (s.tallyLiteral b)) (flushBlock false) >>= fun _ => advance) (s.tallyLiteral b) := by
    rw [emitPosition, get_bind_run, if_neg hno, if_pos havail, emitPendingLiteral_run hc htally hroom hpos hb.symm]
  refine ⟨s.tallyLiteral b, tokenAdded_literal hc hroom htally b, rfl, fun hless => ?_, fun hfull => ⟨fun v hv => ?_,
    fun e v hv => ?_⟩⟩
  · have hflush := (flushIfFull_run (s.tallyLiteral b)).trans (if_neg (Nat.ne_of_lt hless))
    rw [hrun, bind_run hflush]
    exact advance_run (s := s.tallyLiteral b) hlook
  · have hflush := ((flushIfFull_run (s.tallyLiteral b)).trans (if_pos hfull)).trans hv
    obtain ⟨hframe, -⟩ := wp_ok (flush_spec (F := True) false (s.tallyLiteral b) (.inl trivial)) hv
    have hstrstart : v.strstart = s.strstart := by rw [hframe]; rfl
    have hlookahead : v.lookahead = s.lookahead := by rw [hframe]; rfl
    rw [hrun, bind_run hflush, advance_run (by omega), hstrstart, hlookahead]
  · have hflush := ((flushIfFull_run (s.tallyLiteral b)).trans (if_pos hfull)).trans hv
    rw [hrun, bind_error hflush]

/-- The clause of O45 about R117. -/
theorem emitPosition_defers (hlook : 1 ≤ s.lookahead) (hno : ¬ (MIN_MATCH ≤ s.prevLength ∧ s.matchLength ≤ s.prevLength))
    (havail : s.matchAvailable = false) :
    emitPosition s =
      .ok () { s with matchAvailable := true, strstart := s.strstart + 1, lookahead := s.lookahead - 1 } := by
  rw [emitPosition, get_bind_run, if_neg hno, if_neg (by rw [havail]; decide)]
  exact advance_run (s := { s with matchAvailable := true }) hlook

/-! ### The drain -/

/-- The clause of O45 about R118 with an undecided byte. -/
theorem finishDrain_literal (hc : s.CoreOk) (htally : s.TallyExact) (hroom : s.lastLit < s.cfg.tokenLimit)
    (havail : s.matchAvailable = true) (hpos : 1 ≤ s.strstart) :
    ∃ u : State, s.TokenAdded u 0 (s.window.read (s.strstart - 1)).toNat ∧
      u = { s with
        tokDist := u.tokDist, tokLc := u.tokLc, lastLit := u.lastLit, dynLfreq := u.dynLfreq
        matchAvailable := false } ∧
      finishDrain s = flushBlock true u := by
  have ⟨_, _, hsum, _⟩ := hc
  have hread : readWindow ((s.strstart : Int) - 1) s = .ok (s.window.read (s.strstart - 1)) s :=
    readWindow_run (by omega) (by omega)
  generalize s.window.read (s.strstart - 1) = b at hread ⊢
  have hdrain : drainPending s = .ok () { s.tallyLiteral b with matchAvailable := false } := by
    rw [drainPending, get_bind_run, if_pos havail, bind_run hread, bind_run (tallyLiteral_completes hc hroom htally b)]
    rfl
  exact ⟨{ s.tallyLiteral b with matchAvailable := false }, tokenAdded_literal hc hroom htally b, rfl, bind_run hdrain _⟩

/-- The clause of O45 about R118 without an undecided byte. -/
theorem finishDrain_exact (havail : s.matchAvailable = false) : finishDrain s = flushBlock true s := by
  have hdrain : drainPending s = .ok () s := by
    rw [drainPending, get_bind_run, if_neg (by rw [havail]; decide)]
    rfl
  exact bind_run hdrain _

/-! ### The obligation -/

theorem matchDue_of (hc : s.CoreOk) (hlong : MIN_MATCH ≤ s.prevLength) (hlook : s.prevLength ≤ s.lookahead + 1)
    (hnear : 1 ≤ (s.strstart : Int) - 1 - s.prevMatch) (hfar : (s.strstart : Int) - 1 - s.prevMatch ≤ MAX_DIST) :
    MatchDue s := by
  obtain ⟨-, -, -, -, -, hshort, -⟩ := hc
  have hdist : (s.strstart : Int) - 1 - s.prevMatch = heldDistance s := (Int.toNat_of_nonneg (by omega)).symm
  exact ⟨hlong, hshort, hlook, hdist, by omega, by omega⟩

/-- Settles O45, clause by clause: EvaluatePosition, the three branches of the decision, and the drain. -/
theorem evaluatePositionDefers : Obligations.EvaluatePositionDefers := by
  unfold Obligations.EvaluatePositionDefers
  refine ⟨fun s hc hb _ h1 => evaluatePosition_defers hc hb h1, fun s hc htally hroom h1 => ⟨?_, ?_, ?_⟩,
    fun s hc htally hroom => ⟨finishDrain_literal hc htally hroom, finishDrain_exact⟩⟩
  · exact fun hlong hbeats hlook hnear hfar =>
      emitPosition_match hc htally hroom (matchDue_of hc hlong hlook hnear hfar) hbeats
  · exact emitPosition_literal hc htally hroom h1
  · exact emitPosition_defers h1

end Sys2Proof.Proofs
end

section
/-!
PROOFS. The counter identities between commands (spec/43_tally.md R126): what the counters of a block sum to, the one
count of `END_BLOCK`, and the bound on each counter.
-/

namespace Sys2Proof.Proofs

open Sys2Proof.Machine Sys2Proof.Laws

variable {s : State}

/-! ### The tokens behind the counters -/

/-- Each match has one distance code, so the matches counted code by code are all the matches. -/
theorem sum_distCount_eq (s : State) : ((List.range D_CODES).map s.distCount).sum =
    (List.range s.lastLit).countP fun i => decide (s.tokDist.read i ≠ 0) := by
  have hsum := sum_countP ((List.range s.lastLit).filter fun i => decide (s.tokDist.read i ≠ 0))
    (fun i => distCode (s.tokDist.read i).toNat) (fun _ => 1) (D_CODES - 1)
    fun i _ => Nat.le_sub_one_of_lt (distCode_lt _)
  simp only [Nat.mul_one, List.map_const', List.sum_replicate, smul_eq_mul] at hsum
  rw [list_sum_range, List.countP_eq_length_filter, ← hsum]
  refine Finset.sum_congr rfl fun n _ => ?_
  rw [List.countP_filter]
  exact List.countP_congr fun i _ => by rw [Bool.and_comm]

/-- No token has the symbol of the end of a block: a literal is below it and a length code above (R89, R122). -/
theorem litSymbol_ne_endBlock (dist : Half) (lc : Byte) : litSymbol dist lc ≠ END_BLOCK := by
  unfold litSymbol
  split
  · exact Nat.ne_of_lt lc.isLt
  · exact Nat.ne_of_gt (lengthCode_lt _).1

theorem litCount_endBlock (s : State) : s.litCount END_BLOCK = 0 :=
  List.countP_eq_zero.mpr fun i _ => by simpa using litSymbol_ne_endBlock (s.tokDist.read i) (s.tokLc.read i)

/-! ### What exact counters are -/

theorem sum_dfreq_eq (h : s.TallyExact) : ((List.range D_CODES).map fun n => (s.dynDfreq.read n).toNat).sum =
    (List.range s.lastLit).countP fun i => decide (s.tokDist.read i ≠ 0) := by
  obtain ⟨-, hdist, -⟩ := h
  rw [← sum_distCount_eq]
  exact congrArg List.sum (List.map_congr_left fun n hn => hdist n (List.mem_range.mp hn))

theorem lfreq_endBlock (h : s.TallyExact) : s.dynLfreq.read END_BLOCK = 1 := by
  refine BitVec.eq_of_toNat_eq ?_
  rw [h.1 END_BLOCK (by decide), litCount_endBlock, if_pos rfl]
  rfl

/-- A counter outside the alphabet reads 0, one inside counts some of the tokens, and `END_BLOCK` is counted once. -/
theorem lfreq_le (hwf : s.dynLfreq.wf L_CODES = true) (h : s.TallyExact) (n : Nat) :
    (s.dynLfreq.read n).toNat ≤ s.lastLit + 1 := by
  by_cases hn : n < L_CODES
  · have hcount := h.1 n hn
    have hle := litCount_le s n
    split at hcount <;> omega
  · rw [read_above hwf (Nat.le_of_not_lt hn)]
    exact Nat.zero_le _

theorem dfreq_le (hwf : s.dynDfreq.wf D_CODES = true) (h : s.TallyExact) (n : Nat) :
    (s.dynDfreq.read n).toNat ≤ s.lastLit := by
  by_cases hn : n < D_CODES
  · rw [h.2.1 n hn]
    exact distCount_le s n
  · rw [read_above hwf (Nat.le_of_not_lt hn)]
    exact Nat.zero_le _

/-! ### The obligation -/

/-- Settles O47: between commands the counters are exact and the token buffer has room, which bounds `last_lit`. -/
theorem tallyIdentities : Obligations.TallyIdentities := by
  unfold Obligations.TallyIdentities
  intro s ⟨hcore, _, _, _, _, hcontrol⟩ hsession hok
  obtain ⟨-, -, htally, -, -⟩ := hsession hok
  obtain ⟨-, -, hroom, -, -⟩ := hcontrol hok
  obtain ⟨-, -, hlast, hsize⟩ := tokenRoom hcore hroom
  obtain ⟨-, ⟨-, -, -, -, -, hlwf, hdwf, -⟩, -⟩ := hcore
  refine ⟨sum_lfreq htally, sum_dfreq_eq htally, lfreq_endBlock htally, fun n => ?_, fun n => ?_⟩
  · have := lfreq_le hlwf htally n
    omega
  · have := dfreq_le hdwf htally n
    omega

end Sys2Proof.Proofs
end

section
/-!
PROOFS. The merge (spec/44_huffman.md R131, R133, R138): both orders remove two least nodes and join them, so that one
relation holds of every merge.
-/

namespace Sys2Proof.Proofs

open Sys2Proof.Machine Sys2Proof.Laws

variable {tie : HeapTie} {next : Nat} {q : List Node} {r : MergeResult}

/-! ### Least nodes -/

/-- Among distinct nodes, one that none comes before is the least by R131. -/
theorem leastOf_docOrder {a : Node} (hbefore : ∀ c ∈ q, c.before a = false) (hidx : ∀ c ∈ q, c.idx ≠ a.idx) :
    a.LeastOf .docOrder q := by
  intro c hc
  have hc' := hbefore c hc
  have hne := hidx c hc
  rw [Bool.eq_false_iff, ne_eq, before_iff] at hc'
  simp only [true_imp_iff]
  omega

theorem leastOf_zlibHeap {a : Node} (hsmaller : ∀ c ∈ q, a.smaller c = true) : a.LeastOf .zlibHeap q := by
  intro c hc
  have hc' := (smaller_iff a c).mp (hsmaller c hc)
  simp only [reduceCtorEq, false_imp_iff, and_true]
  omega

theorem freshQueue_tail {a : Node} (h : FreshQueue next (a :: q)) : FreshQueue next q :=
  ⟨(List.nodup_cons.mp h.1).2, fun n hn => h.2 n (List.mem_cons_of_mem a hn)⟩

theorem freshQueue_idx_ne {a : Node} (h : FreshQueue next (a :: q)) : ∀ c ∈ q, c.idx ≠ a.idx :=
  fun _ hc he => (List.nodup_cons.mp h.1).1 (he ▸ List.mem_map_of_mem hc)

/-! ### The relation -/

theorem joinsLeast_perm {q' : List Node} (h : JoinsLeast tie next q r) (hp : q'.Perm q) : JoinsLeast tie next q' r := by
  cases h with
  | root next n =>
    rw [List.perm_singleton.mp hp]
    exact .root next n
  | join hq ha hb hr => exact .join (hp.trans hq) ha hb hr

/-- A merge of least nodes is a merge. -/
theorem merges_of_joinsLeast (h : JoinsLeast tie next q r) : Merges next q r := by
  induction h with
  | root next n => exact .root next n
  | join hq _ _ _ ih => exact .join hq (List.Perm.refl _) ih

/-! ### The merge of DOC_ORDER -/

theorem popLeast_leastOf {q' : List Node} {a : Node} (hf : FreshQueue next q) (h : popLeast q = some (a, q')) :
    a.LeastOf .docOrder q' ∧ FreshQueue next (a :: q') := by
  have hp := popLeast_perm h
  have hf' := hf.perm hp
  refine ⟨leastOf_docOrder (fun c hc => ?_) (freshQueue_idx_ne hf'), hf'⟩
  exact popLeast_least h c (hp.mem_iff.mpr (List.mem_cons_of_mem a hc))

theorem joinsLeast_mergeDoc (fuel : Nat) (h0 : q ≠ []) (hl : q.length ≤ fuel + 1) (hf : FreshQueue next q) :
    JoinsLeast .docOrder next q (mergeDoc fuel next q) := by
  induction fuel generalizing next q with
  | zero =>
    obtain ⟨n, rfl⟩ := List.length_eq_one_iff.mp (Nat.le_antisymm hl (List.length_pos_iff.mpr h0))
    exact .root next n
  | succ fuel ih =>
    obtain ⟨a, q1, h1⟩ := popLeast_isSome h0
    obtain ⟨ha, hf1⟩ := popLeast_leastOf hf h1
    have p1 := popLeast_perm h1
    unfold mergeDoc
    rw [h1]
    by_cases he : q1 = []
    · subst he
      rw [List.perm_singleton.mp p1]
      exact .root next a
    · obtain ⟨b, q2, h2⟩ := popLeast_isSome he
      obtain ⟨hb, -⟩ := popLeast_leastOf (freshQueue_tail hf1) h2
      have p2 := popLeast_perm h2
      have hf2 := hf1.perm (p2.cons a)
      have hlen := (p1.trans (p2.cons a)).length_eq
      have hback : (q2 ++ [Node.join next a b]).Perm (Node.join next a b :: q2) := List.perm_append_singleton _ _
      simp only [h2]
      refine .join (p1.trans (p2.cons a)) (fun c hc => ha c (p2.mem_iff.mpr hc)) hb (joinsLeast_perm ?_ hback.symm)
      refine ih (by simp) ?_ (hf2.join.perm hback.symm)
      simp only [List.length_cons, List.length_append, List.length_nil] at hlen ⊢
      omega

/-! ### The merge of ZLIB_HEAP -/

/-- When the root of a heap is replaced, DownHeap makes a heap of it again (R138). -/
theorem siftDown_replaceRoot {h : List Node} (v : Node) (h1 : 1 ≤ h.length) (hh : HeapFrom 1 h) :
    HeapFrom 1 (siftDown 1 (h.set 0 v)) := by
  refine siftDown_heap (Nat.le_refl 1) (by rwa [List.length_set]) ?_
  by_cases h2 : 2 ≤ h.length
  · exact (heapFrom_takeRoot v h2 hh).2
  · intro j c hj hc hcl
    rw [List.length_set] at hcl
    omega

/-- Taking the root of a heap leaves a heap of the other nodes (R138). -/
theorem siftDown_takeRoot {h : List Node} (h2 : 2 ≤ h.length) (hh : HeapFrom 1 h) :
    HeapFrom 1 (siftDown 1 ((h.set 0 (heapAt h h.length)).dropLast)) ∧
      h.Perm (heapAt h 1 :: siftDown 1 ((h.set 0 (heapAt h h.length)).dropLast)) := by
  have hlen : 1 ≤ ((h.set 0 (heapAt h h.length)).dropLast).length := by simp; omega
  exact ⟨siftDown_heap (Nat.le_refl 1) hlen (heapFrom_takeRoot _ h2 hh).1,
    (takeRoot_perm h2).trans ((siftDown_perm (Nat.le_refl 1) hlen).symm.cons _)⟩

theorem heapRoot_leastOf {h : List Node} (hh : HeapFrom 1 h) (hq : ∀ c ∈ q, c ∈ h) :
    (heapAt h 1).LeastOf .zlibHeap q :=
  leastOf_zlibHeap fun c hc => heapRoot_smaller hh c (hq c hc)

theorem joinsLeast_mergeZlib (fuel : Nat) {h : List Node} (h0 : h ≠ []) (hl : h.length ≤ fuel + 1) (hh : HeapFrom 1 h) :
    JoinsLeast .zlibHeap next h (mergeZlib fuel next h) := by
  induction fuel generalizing next h with
  | zero =>
    obtain ⟨n, rfl⟩ := List.length_eq_one_iff.mp (Nat.le_antisymm hl (List.length_pos_iff.mpr h0))
    exact .root next n
  | succ fuel ih =>
    have hpos := List.length_pos_iff.mpr h0
    unfold mergeZlib
    split
    · obtain ⟨n, rfl⟩ := List.length_eq_one_iff.mp (show h.length = 1 by omega)
      exact .root next n
    · obtain ⟨hh1, p1⟩ := siftDown_takeRoot (h := h) (by omega) hh
      dsimp only
      generalize siftDown 1 ((h.set 0 (heapAt h h.length)).dropLast) = h1 at hh1 p1 ⊢
      cases h1 with
      | nil => have := p1.length_eq; simp at this; omega
      | cons b rest =>
        have hlen := p1.length_eq
        have hh2 := siftDown_replaceRoot (Node.join next (heapAt h 1) b) (by simp) hh1
        have p2 := siftDown_perm (k := 1) (h := Node.join next (heapAt h 1) b :: rest) (Nat.le_refl 1) (by simp)
        have hlen2 := p2.length_eq
        simp only [List.length_cons] at hlen hlen2
        refine .join p1 (heapRoot_leastOf hh fun c hc => p1.mem_iff.mpr (List.mem_cons_of_mem _ hc))
          (heapRoot_leastOf hh1 fun c hc => List.mem_cons_of_mem b hc) (joinsLeast_perm ?_ p2.symm)
        exact ih (List.ne_nil_of_length_pos (by omega)) (by omega) hh2

/-! ### The obligation -/

theorem joinsLeast_merge (tie : HeapTie) (k : TreeKind) {leaves : List Node} (h0 : leaves ≠ [])
    (hf : FreshQueue k.elems leaves) : JoinsLeast tie k.elems leaves (merge tie k leaves) := by
  cases tie with
  | docOrder => exact joinsLeast_mergeDoc _ h0 (Nat.le_succ _) hf
  | zlibHeap =>
    have hp := heapify_perm (leaves.length / 2) leaves (Nat.div_le_self _ _)
    have hne : heapify (leaves.length / 2) leaves ≠ [] := fun he => h0 (List.nil_perm.mp (he ▸ hp))
    refine joinsLeast_perm (joinsLeast_mergeZlib _ hne ?_ (heapify_start leaves)) hp.symm
    rw [hp.length_eq]
    exact Nat.le_succ _

/-- Settles O50: `popLeast` takes the least node by R131, and the root of a heap is least by R138. -/
theorem mergeJoinsLeast : Obligations.MergeJoinsLeast := by
  intro tie k leaves h0 hnd hlt
  exact joinsLeast_merge tie k h0 ⟨hnd, hlt⟩

end Sys2Proof.Proofs
end

section
/-!
PROOFS. The completeness of the codes of a built tree (spec/44_huffman.md R139).
-/

namespace Sys2Proof.Proofs

open Sys2Proof.Machine Sys2Proof.Laws

/-- The Kraft sum is the part of the code space that the lengths use (R139). -/
theorem kraftSum_eq_codeSpace {cap : Nat} {lens : List Nat} (hlens : ∀ l ∈ lens, l ≤ cap) :
    (lens.map fun l => if l = 0 then (0 : ℚ) else 1 / 2 ^ l).sum = codeSpace cap lens / 2 ^ cap := by
  induction lens with
  | nil => simp [codeSpace]
  | cons l lens ih =>
    have hterm : (if l = 0 then (0 : ℚ) else 1 / 2 ^ l) = ((if l = 0 then 0 else 2 ^ (cap - l) : Nat) : ℚ) / 2 ^ cap := by
      split_ifs
      · rw [Nat.cast_zero, zero_div]
      · rw [Nat.cast_pow, Nat.cast_ofNat, div_eq_div_iff (by positivity) (by positivity), one_mul, ← pow_add,
          Nat.sub_add_cancel (hlens l List.mem_cons_self)]
    have hspace : codeSpace cap (l :: lens) = (if l = 0 then 0 else 2 ^ (cap - l)) + codeSpace cap lens := List.sum_cons
    rw [List.map_cons, List.sum_cons, ih fun x hx => hlens x (List.mem_cons_of_mem l hx), hterm, hspace, Nat.cast_add,
      add_div]

/-- Settles O53: the lengths of a good tree fill the code space exactly. -/
theorem buildTreeKraftEquality : Obligations.BuildTreeKraftEquality := by
  intro tie k freq t ht
  rw [kraftSum_eq_codeSpace (builtTree_lens ht).2, (good_of_builtTree ht).space, Nat.cast_pow, Nat.cast_ofNat]
  exact div_self (pow_ne_zero _ two_ne_zero)

end Sys2Proof.Proofs
end

section
/-!
PROOFS. The choice of the block type (spec/44_huffman.md R142, R143).
-/

namespace Sys2Proof.Proofs

open Sys2Proof.Machine Sys2Proof.Laws

theorem chooseBlock_eq_stored_iff (s : State) : chooseBlock s = .stored ↔
    0 ≤ s.blockStart ∧ storedLength s + 4 ≤ min (bytesOf s.optLen) (bytesOf s.staticLen) := by
  unfold chooseBlock
  dsimp only
  split_ifs with hstored
  · exact ⟨fun _ => hstored, fun _ => rfl⟩
  · exact ⟨nofun, fun h => absurd h hstored⟩
  · exact ⟨nofun, fun h => absurd h hstored⟩

/-- Of the two coded forms the static one is taken where it is not dearer (R143). -/
theorem chooseBlock_coded (s : State) (hcoded : chooseBlock s ≠ .stored) :
    chooseBlock s = if bytesOf s.staticLen ≤ bytesOf s.optLen then .static else .dynamic := by
  have hstored := mt (chooseBlock_eq_stored_iff s).mpr hcoded
  unfold chooseBlock
  rw [if_neg hstored]
  exact if_congr (by omega) rfl rfl

/-- Settles O56: stored is the first choice, and static the first of the coded forms. -/
theorem chooseBlockIsCheapest : Obligations.ChooseBlockIsCheapest := by
  intro s static dynamic stored
  have hstored := chooseBlock_eq_stored_iff s
  have hcoded := chooseBlock_coded s
  change _ ↔ 0 ≤ s.blockStart ∧ stored ≤ min dynamic static at hstored
  change _ → _ = if static ≤ dynamic then BlockType.static else .dynamic at hcoded
  refine ⟨hstored.trans (and_congr_right' (by omega)), fun h => ?_, fun h => ?_⟩
  all_goals
    rw [h] at hcoded
    have hform := hcoded nofun
    split_ifs at hform
    omega

end Sys2Proof.Proofs
end

section
/-!
PROOFS. What FirstLengths makes of a merge (spec/44_huffman.md R134): the lengths are the depths while none exceeds the
cap, and under either tie rule a more frequent node has no greater length.
-/

namespace Sys2Proof.Proofs

open Sys2Proof.Machine Sys2Proof.Laws

variable {tie : HeapTie} {k : TreeKind} {mc : Int} {next : Nat} {q : List Node} {r : MergeResult}

/-! ### What the lengths need of a merge -/

/-- A merge of distinct nodes that joins two of the least frequent ones, whatever the ties (R133, R138). -/
inductive FreqMerge : Nat → List Node → MergeResult → Prop where
  | root (next : Nat) (n : Node) : FreqMerge next [n] ⟨[n], []⟩
  | join {next : Nat} {q rest : List Node} {a b : Node} {r : MergeResult} (hq : q.Perm (a :: b :: rest))
      (hf : FreshQueue next (a :: b :: rest)) (hab : a.freq ≤ b.freq) (hrest : ∀ z ∈ rest, b.freq ≤ z.freq)
      (hr : FreqMerge (next + 1) (Node.join next a b :: rest) r) : FreqMerge next q (r.cons a b next)

theorem leastOf_freq_le {a : Node} (h : a.LeastOf tie q) : ∀ z ∈ q, a.freq ≤ z.freq := by
  intro z hz
  rcases h z hz with hlt | ⟨heq, -⟩
  · exact Nat.le_of_lt hlt
  · exact Nat.le_of_eq heq

theorem freqMerge_of_joinsLeast (h : JoinsLeast tie next q r) (hf : FreshQueue next q) : FreqMerge next q r := by
  induction h with
  | root next n => exact .root next n
  | join hq ha hb hr ih =>
    have hfab := hf.perm hq
    exact .join hq hfab (leastOf_freq_le ha _ List.mem_cons_self) (leastOf_freq_le hb) (ih hfab.join)

theorem FreqMerge.merges (h : FreqMerge next q r) : Merges next q r := by
  induction h with
  | root next n => exact .root next n
  | join hq _ _ _ _ ih => exact .join hq (List.Perm.refl _) ih

theorem mem_join_iff {rest : List Node} {a b z : Node} (hq : q.Perm (a :: b :: rest)) :
    z ∈ q ↔ (z = a ∨ z = b) ∨ z ∈ rest := by
  rw [hq.mem_iff, List.mem_cons, List.mem_cons, or_assoc]

/-- A join is no less frequent than its parts, so what bounds the second of them bounds the queue it goes into. -/
theorem le_freq_of_joined {rest : List Node} {a b : Node} (hrest : ∀ z ∈ rest, b.freq ≤ z.freq) {μ : Nat}
    (hμ : μ ≤ b.freq) : ∀ z ∈ Node.join next a b :: rest, μ ≤ z.freq := by
  intro z hz
  rcases List.mem_cons.mp hz with rfl | hz
  · exact Nat.le_trans hμ (Nat.le_add_left _ _)
  · exact Nat.le_trans hμ (hrest z hz)

/-! ### One join -/

section Join

variable {rest : List Node} {a b : Node} (hf : FreshQueue next (a :: b :: rest))
  (hr : Merges (next + 1) (Node.join next a b :: rest) r)

include hf in
theorem idx_ne_next : a.idx ≠ next ∧ b.idx ≠ next :=
  ⟨Nat.ne_of_lt (hf.2 a List.mem_cons_self), Nat.ne_of_lt (hf.2 b (List.mem_cons_of_mem a List.mem_cons_self))⟩

include hf hr

/-- The visits of the two joined nodes are the last ones (R134). -/
theorem firstLengths_join : firstLengths k mc (r.cons a b next) =
    ((firstLengths k mc r).visit k mc ((firstLengths k mc r).len.get next) b).visit k mc
      ((firstLengths k mc r).len.get next) a := by
  have hna := freshQueue_idx_ne hf
  have hnb := freshQueue_idx_ne (freshQueue_tail hf)
  obtain ⟨hla, hlb⟩ := idx_ne_next hf
  refine firstLengths_cons hr (Ne.symm (hna b List.mem_cons_self)) hlb fun n hn => ?_
  rcases merges_removal_mem hr n hn with hn | hn
  · rcases List.mem_cons.mp hn with rfl | hn
    · exact ⟨hla.symm, hlb.symm⟩
    · exact ⟨hna n (List.mem_cons_of_mem b hn), hnb n hn⟩
  · have := hf.2 a List.mem_cons_self
    have := hf.2 b (List.mem_cons_of_mem a List.mem_cons_self)
    omega

/-- The joined nodes lie one level below their parent, clamped at the cap; the other lengths stay (R134). -/
theorem firstLengths_join_len :
    (∀ z, z = a ∨ z = b → (firstLengths k mc (r.cons a b next)).len.get z.idx =
      min ((firstLengths k mc r).len.get next + 1) k.maxLength) ∧
    ∀ z ∈ rest, (firstLengths k mc (r.cons a b next)).len.get z.idx = (firstLengths k mc r).len.get z.idx := by
  have hna := freshQueue_idx_ne hf
  have hnb := freshQueue_idx_ne (freshQueue_tail hf)
  simp only [firstLengths_join hf hr, visit_len, assoc_get_cons]
  refine ⟨fun z hz => ?_, fun z hz => ?_⟩
  · rcases hz with rfl | rfl
    · rw [if_pos rfl]
    · rw [if_pos rfl, ite_self]
  · rw [if_neg (hna z (List.mem_cons_of_mem b hz)), if_neg (hnb z hz)]

theorem firstLengths_join_overflow (hcap : (firstLengths k mc r).len.get next + 1 ≤ k.maxLength) :
    (firstLengths k mc (r.cons a b next)).overflow = (firstLengths k mc r).overflow := by
  rw [firstLengths_join hf hr, visit_overflow, visit_overflow, if_neg (Nat.not_lt.mpr hcap),
    if_neg (Nat.not_lt.mpr hcap)]

end Join

/-! ### Depths -/

theorem parents_ge (h : Merges next q r) : ∀ p ∈ r.parents, next ≤ p.2 := by
  induction h with
  | root next n => exact fun p hp => absurd hp List.not_mem_nil
  | @join next q rest q' a b r hq hq' hr ih =>
    intro p hp
    rcases List.mem_cons.mp hp with rfl | hp
    · exact Nat.le_refl _
    · rcases List.mem_cons.mp hp with rfl | hp
      · exact Nat.le_refl _
      · exact Nat.le_of_succ_le (ih p hp)

/-- The parent of a node that is nobody's parent matters to that node alone. -/
theorem stepsToRoot_cons_of_ne {parents : List (Nat × Nat)} {i a p : Nat} (hi : i ≠ a)
    (ha : ∀ x ∈ parents, x.2 ≠ a) (fuel : Nat) :
    stepsToRoot ((a, p) :: parents) fuel i = stepsToRoot parents fuel i := by
  induction fuel generalizing i with
  | zero => rfl
  | succ fuel ih =>
    have hlook : List.lookup i ((a, p) :: parents) = List.lookup i parents := by
      rw [List.lookup_cons, beq_eq_false_iff_ne.mpr hi]
    simp only [stepsToRoot, hlook]
    cases hx : List.lookup i parents with
    | none => rfl
    | some y =>
      obtain ⟨l, l', rfl, -⟩ := List.lookup_eq_some_iff.mp hx
      exact congrArg (· + 1) (ih (ha (i, y) (by simp)))

theorem stepsToRoot_succ_le (parents : List (Nat × Nat)) (fuel i : Nat) :
    stepsToRoot parents (fuel + 1) i ≤ stepsToRoot parents fuel i + 1 := by
  induction fuel generalizing i with
  | zero =>
    simp only [stepsToRoot]
    cases List.lookup i parents <;> simp
  | succ fuel ih =>
    have hsucc : ∀ f, stepsToRoot parents (f + 1) i =
        ((List.lookup i parents).map fun p => stepsToRoot parents f p + 1).getD 0 := fun f => by
      rw [stepsToRoot]
      cases List.lookup i parents <;> rfl
    rw [hsucc, hsucc]
    cases List.lookup i parents with
    | none => exact Nat.zero_le _
    | some p => exact Nat.succ_le_succ (ih p)

/-- The joined nodes lie one level below their parent, and the depths of the others stay. -/
theorem stepsToRoot_join {rest : List Node} {a b : Node} (hf : FreshQueue next (a :: b :: rest))
    (hr : Merges (next + 1) (Node.join next a b :: rest) r) (fuel : Nat) :
    (∀ z, z = a ∨ z = b →
      stepsToRoot (r.cons a b next).parents (fuel + 1) z.idx = stepsToRoot r.parents fuel next + 1) ∧
    ∀ z ∈ rest, stepsToRoot (r.cons a b next).parents (fuel + 1) z.idx = stepsToRoot r.parents (fuel + 1) z.idx := by
  have hna := freshQueue_idx_ne hf
  have hnb := freshQueue_idx_ne (freshQueue_tail hf)
  obtain ⟨hla, hlb⟩ := idx_ne_next hf
  have hparent : ∀ p, next ≤ p → p ≠ a.idx ∧ p ≠ b.idx := fun p hp => by
    have := hf.2 a List.mem_cons_self
    have := hf.2 b (List.mem_cons_of_mem a List.mem_cons_self)
    omega
  have hge : ∀ x ∈ r.parents, next ≤ x.2 := fun x hx => Nat.le_of_succ_le (parents_ge hr x hx)
  have hup : ∀ i f, i ≠ a.idx → i ≠ b.idx → stepsToRoot (r.cons a b next).parents f i = stepsToRoot r.parents f i := by
    intro i f hia hib
    refine (stepsToRoot_cons_of_ne hia (fun x hx => ?_) f).trans
      (stepsToRoot_cons_of_ne hib (fun x hx => (hparent x.2 (hge x hx)).2) f)
    rcases List.mem_cons.mp hx with rfl | hx
    · exact hla.symm
    · exact (hparent x.2 (hge x hx)).1
  refine ⟨fun z hz => ?_, fun z hz => hup _ _ (hna z (List.mem_cons_of_mem b hz)) (hnb z hz)⟩
  have hlook : List.lookup z.idx (r.cons a b next).parents = some next := by
    rcases hz with rfl | rfl
    · exact List.lookup_cons_self
    · show List.lookup z.idx ((a.idx, next) :: (z.idx, next) :: r.parents) = some next
      rw [List.lookup_cons, beq_eq_false_iff_ne.mpr (hna z List.mem_cons_self)]
      exact List.lookup_cons_self
  rw [stepsToRoot, hlook]
  exact congrArg (· + 1) (hup next fuel hla.symm hlb.symm)

/-- FirstLengths gives each node its depth, clamped at the cap (R134). -/
theorem firstLengths_eq_depth (h : FreqMerge next q r) {fuel : Nat} (hfuel : q.length ≤ fuel + 1) {z : Node}
    (hz : z ∈ q) : (firstLengths k mc r).len.get z.idx = min (stepsToRoot r.parents fuel z.idx) k.maxLength := by
  induction h generalizing fuel z with
  | root next n =>
    obtain rfl := List.mem_singleton.mp hz
    have hsteps : stepsToRoot [] fuel z.idx = 0 := by cases fuel <;> rfl
    rw [hsteps, Nat.zero_min]
    exact (assoc_get_cons [] z.idx 0 z.idx).trans (if_pos rfl)
  | @join next q rest a b r hq hf hab hrest hr ih =>
    rw [hq.length_eq, List.length_cons, List.length_cons] at hfuel
    rw [List.length_cons] at ih
    obtain ⟨fuel, rfl⟩ : ∃ f, fuel = f + 1 := ⟨fuel - 1, by omega⟩
    obtain ⟨hlen, hlenRest⟩ := firstLengths_join_len (k := k) (mc := mc) hf hr.merges
    obtain ⟨hsteps, hstepsRest⟩ := stepsToRoot_join hf hr.merges fuel
    rcases (mem_join_iff hq).mp hz with hz | hz
    · have hparent : (firstLengths k mc r).len.get next = min (stepsToRoot r.parents fuel next) k.maxLength :=
        ih (Nat.le_of_succ_le_succ hfuel) List.mem_cons_self
      rw [hlen z hz, hsteps z hz, hparent]
      omega
    · rw [hlenRest z hz, hstepsRest z hz]
      exact ih (by omega) (List.mem_cons_of_mem _ hz)

/-- While no node lies deeper than the cap, none is clamped (R134). -/
theorem overflow_eq_zero (h : FreqMerge next q r) {fuel : Nat} (hfuel : q.length ≤ fuel + 1)
    (hcap : ∀ z ∈ q, stepsToRoot r.parents fuel z.idx ≤ k.maxLength) : (firstLengths k mc r).overflow = 0 := by
  induction h generalizing fuel with
  | root next n => rfl
  | @join next q rest a b r hq hf hab hrest hr ih =>
    rw [hq.length_eq, List.length_cons, List.length_cons] at hfuel
    rw [List.length_cons] at ih
    obtain ⟨fuel, rfl⟩ : ∃ f, fuel = f + 1 := ⟨fuel - 1, by omega⟩
    obtain ⟨hsteps, hstepsRest⟩ := stepsToRoot_join hf hr.merges fuel
    have hchild := hcap a ((mem_join_iff hq).mpr (.inl (.inl rfl)))
    rw [hsteps a (.inl rfl)] at hchild
    have hparent : (firstLengths k mc r).len.get next = min (stepsToRoot r.parents fuel next) k.maxLength :=
      firstLengths_eq_depth hr (Nat.le_of_succ_le_succ hfuel) List.mem_cons_self
    rw [firstLengths_join_overflow hf hr.merges (by omega)]
    refine ih (fuel := fuel + 1) (by omega) fun z hz => ?_
    rcases List.mem_cons.mp hz with rfl | hz
    · exact Nat.le_trans (stepsToRoot_succ_le _ _ _) hchild
    · rw [← hstepsRest z hz]
      exact hcap z ((mem_join_iff hq).mpr (.inr hz))

/-! ### More frequent nodes lie no deeper -/

/-- By how many levels one node of a queue may lie below another: `μ` is at most the frequency of every node, and each
level is paid for with it. With `j = 0` the more frequent node lies no deeper. -/
theorem length_le_of_freq_lt (h : FreqMerge next q r) (j μ : Nat) (hμ : ∀ z ∈ q, μ ≤ z.freq) {x y : Node} (hx : x ∈ q)
    (hy : y ∈ q) (hlt : x.freq < y.freq + j * μ) :
    (firstLengths k mc r).len.get y.idx ≤ (firstLengths k mc r).len.get x.idx + j := by
  induction h generalizing j μ x y with
  | root next n =>
    rw [List.mem_singleton.mp hx, List.mem_singleton.mp hy]
    exact Nat.le_add_right _ _
  | @join next q rest a b r hq hf hab hrest hr ih =>
    obtain ⟨hlen, hlenRest⟩ := firstLengths_join_len (k := k) (mc := mc) hf hr.merges
    have hμa := hμ a ((mem_join_iff hq).mpr (.inl (.inl rfl)))
    have hμb : μ ≤ b.freq := Nat.le_trans hμa hab
    have hjoined : ∀ z, z = a ∨ z = b → a.freq ≤ z.freq ∧ z.freq ≤ b.freq := by
      rintro z (rfl | rfl)
      · exact ⟨Nat.le_refl _, hab⟩
      · exact ⟨hab, Nat.le_refl _⟩
    rcases (mem_join_iff hq).mp hx with hx | hx
    · rcases (mem_join_iff hq).mp hy with hy | hy
      · rw [hlen x hx, hlen y hy]
        exact Nat.le_add_right _ _
      · -- `x` was joined: its parent and `y` are compared with one level more, at the bound `b.freq`
        have hxab := hjoined x hx
        have hbm : j * μ ≤ j * b.freq := Nat.mul_le_mul_left j hμb
        have hparent : (Node.join next a b).freq < y.freq + (j + 1) * b.freq := by
          rw [Nat.succ_mul]
          show a.freq + b.freq < _
          omega
        have hup := ih (j + 1) b.freq (le_freq_of_joined hrest (Nat.le_refl _)) List.mem_cons_self
          (List.mem_cons_of_mem _ hy) hparent
        have hcap := firstLengths_le k mc r y.idx
        change _ ≤ (firstLengths k mc r).len.get next + (j + 1) at hup
        rw [hlen x hx, hlenRest y hy]
        omega
    · rcases (mem_join_iff hq).mp hy with hy | hy
      · -- `y` was joined: its parent is more frequent by `μ` and is compared with `x` with one level less
        have hyab := hjoined y hy
        have hxb := hrest x hx
        cases j with
        | zero => omega
        | succ j =>
          rw [Nat.succ_mul] at hlt
          have hparent : x.freq < (Node.join next a b).freq + j * μ := by
            show x.freq < a.freq + b.freq + _
            rcases hy with rfl | rfl <;> omega
          have hup := ih j μ (le_freq_of_joined hrest hμb) (List.mem_cons_of_mem _ hx) List.mem_cons_self hparent
          change (firstLengths k mc r).len.get next ≤ _ at hup
          rw [hlenRest x hx, hlen y hy]
          omega
      · rw [hlenRest x hx, hlenRest y hy]
        exact ih j μ (le_freq_of_joined hrest hμb) (List.mem_cons_of_mem _ hx) (List.mem_cons_of_mem _ hy) hlt

end Sys2Proof.Proofs
end

section
/-!
PROOFS. The code lengths of a built tree (spec/44_huffman.md R134 to R136): ReassignLengths gives the leaves shorter
lengths in the order of their removal, which is that of their frequencies.
-/

namespace Sys2Proof.Proofs

open Sys2Proof.Machine Sys2Proof.Laws

variable {tie : HeapTie} {k : TreeKind} {mc : Int} {next : Nat} {L q : List Node} {r : MergeResult}

/-! ### The order of removal -/

theorem le_removal (h : FreqMerge next q r) {μ : Nat} (hμ : ∀ z ∈ q, μ ≤ z.freq) : ∀ n ∈ r.removal, μ ≤ n.freq := by
  induction h with
  | root next n => exact hμ
  | @join next q rest a b r hq hf hab hrest hr ih =>
    have hμb := hμ b ((mem_join_iff hq).mpr (.inl (.inr rfl)))
    intro n hn
    rcases List.mem_cons.mp hn with rfl | hn
    · exact hμ n ((mem_join_iff hq).mpr (.inl (.inl rfl)))
    · rcases List.mem_cons.mp hn with rfl | hn
      · exact hμb
      · exact ih (le_freq_of_joined hrest hμb) n hn

/-- Nodes are removed in the order of their frequencies (R133). -/
theorem removal_sorted (h : FreqMerge next q r) : r.removal.Pairwise fun x y => x.freq ≤ y.freq := by
  induction h with
  | root next n => exact List.pairwise_singleton _ _
  | @join next q rest a b r hq hf hab hrest hr ih =>
    have hb : ∀ n ∈ r.removal, b.freq ≤ n.freq := le_removal hr (le_freq_of_joined hrest (Nat.le_refl _))
    refine .cons (fun n hn => ?_) (.cons hb ih)
    rcases List.mem_cons.mp hn with rfl | hn
    · exact hab
    · exact Nat.le_trans hab (hb n hn)

/-! ### ReassignLengths -/

/-- The first leaves of the list get the length `bits + 1`, and the levels below go on with the others (R136). -/
theorem reassignLengths_succ (c : List Nat) (bits : Nat) (rest : List Node) (s : Reassigned)
    (hnd : ((rest.filter (isLeaf mc)).map Node.idx).Nodup)
    (hlen : (rest.filter (isLeaf mc)).length = ∑ b ∈ Finset.range (bits + 1), c.getD (b + 1) 0) :
    ∃ rest' s', reassignLengths mc c (bits + 1) rest s = reassignLengths mc c bits rest' s' ∧
      rest'.filter (isLeaf mc) = (rest.filter (isLeaf mc)).drop (c.getD (bits + 1) 0) ∧
      ((rest'.filter (isLeaf mc)).map Node.idx).Nodup ∧
      (rest'.filter (isLeaf mc)).length = ∑ b ∈ Finset.range bits, c.getD (b + 1) 0 ∧
      ∀ n ∈ (rest.filter (isLeaf mc)).take (c.getD (bits + 1) 0),
        (reassignLengths mc c bits rest' s').len.get n.idx = bits + 1 := by
  obtain ⟨hdrop, hlevel⟩ := reassignLevel_spec (mc := mc) (bits + 1) rest (c.getD (bits + 1) 0) s
  refine ⟨_, _, rfl, hdrop, ?_⟩
  generalize reassignLevel mc (bits + 1) (c.getD (bits + 1) 0) rest s = level at hdrop hlevel ⊢
  rw [Finset.sum_range_succ] at hlen
  rw [← List.take_append_drop (c.getD (bits + 1) 0) (rest.filter (isLeaf mc)), List.map_append,
    List.nodup_append] at hnd
  obtain ⟨-, hndDrop, hdisjoint⟩ := hnd
  have hlenDrop : ((rest.filter (isLeaf mc)).drop (c.getD (bits + 1) 0)).length =
      ∑ b ∈ Finset.range bits, c.getD (b + 1) 0 := by
    rw [List.length_drop]
    omega
  rw [← hdrop] at hndDrop hlenDrop hdisjoint
  refine ⟨hndDrop, hlenDrop, fun n hn => ?_⟩
  have hnTake := List.mem_map_of_mem (f := Node.idx) hn
  obtain ⟨-, hkept, -⟩ := reassignLengths_spec c bits level.1 level.2 hndDrop hlenDrop
  rw [hkept _ fun hnDrop => hdisjoint _ hnTake _ hnDrop rfl, hlevel, if_pos hnTake]

/-- ReassignLengths gives the leaves lengths that fall along the list (R136). -/
theorem reassignLengths_falling (c : List Nat) (bits : Nat) (rest : List Node) (s : Reassigned)
    (hnd : ((rest.filter (isLeaf mc)).map Node.idx).Nodup)
    (hlen : (rest.filter (isLeaf mc)).length = ∑ b ∈ Finset.range bits, c.getD (b + 1) 0) :
    (∀ n ∈ rest.filter (isLeaf mc), (reassignLengths mc c bits rest s).len.get n.idx ≤ bits) ∧
    (rest.filter (isLeaf mc)).Pairwise fun x y =>
      (reassignLengths mc c bits rest s).len.get y.idx ≤ (reassignLengths mc c bits rest s).len.get x.idx := by
  induction bits generalizing rest s with
  | zero =>
    have hnil : rest.filter (isLeaf mc) = [] := List.length_eq_zero_iff.mp hlen
    rw [hnil]
    exact ⟨nofun, .nil⟩
  | succ bits ih =>
    obtain ⟨rest', s', heq, hdrop, hnd', hlen', htake⟩ := reassignLengths_succ c bits rest s hnd hlen
    obtain ⟨hle, hfalling⟩ := ih rest' s' hnd' hlen'
    rw [hdrop] at hle hfalling
    rw [heq, ← List.take_append_drop (c.getD (bits + 1) 0) (rest.filter (isLeaf mc))]
    refine ⟨fun n hn => ?_, List.pairwise_append.mpr ⟨?_, hfalling, fun x hx y hy => ?_⟩⟩
    · rcases List.mem_append.mp hn with hn | hn
      · exact Nat.le_of_eq (htake n hn)
      · exact Nat.le_succ_of_le (hle n hn)
    · exact List.pairwise_of_forall_mem_list fun x hx y hy => by rw [htake x hx, htake y hy]
    · rw [htake x hx]
      exact Nat.le_succ_of_le (hle y hy)

/-! ### CorrectOverflow -/

/-- Sums over the level counts are sums over the leaves (R134). -/
theorem sum_blCount {s : Lengths} (h : TreeInv k mc next L s) (h2 : 2 ≤ L.length)
    (hl : ∀ n ∈ L, isLeaf mc n = true) (hcap : Assoc.Le k.maxLength s.len) (w : Nat → Nat) :
    ∑ i ∈ Finset.range (k.maxLength + 1), s.blCount.getD i 0 * w i = (L.map fun n => w (s.len.get n.idx)).sum := by
  rw [← sum_countP L (fun n => s.len.get n.idx) w k.maxLength fun n _ => hcap n.idx]
  refine Finset.sum_congr rfl fun i _ => ?_
  rw [h.counts (.inl h2) i]
  exact congrArg (· * w i) (List.countP_congr fun n hn => by rw [hl n hn, Bool.true_and])

theorem length_le_elems (hf : FreshQueue k.elems L) : L.length ≤ k.elems := by
  have hsub := List.Nodup.subperm hf.1 (l₂ := List.range k.elems) fun i hi => by
    obtain ⟨n, hn, rfl⟩ := List.mem_map.mp hi
    exact List.mem_range.mpr (hf.2 n hn)
  simpa using hsub.length_le

/-- CorrectOverflow keeps the number of leaves (R135). -/
theorem correctOverflow_total {s : Lengths} {c : List Nat} (h : TreeInv k mc k.elems L s) (hf : FreshQueue k.elems L)
    (h2 : 2 ≤ L.length) (hl : ∀ n ∈ L, isLeaf mc n = true) (hcap : Assoc.Le k.maxLength s.len)
    (hc : correctOverflow k.maxLength s.overflow s.overflow s.blCount = some c) :
    L.length = ∑ b ∈ Finset.range k.maxLength, c.getD (b + 1) 0 := by
  have hsum := sum_blCount h h2 hl hcap
  have hkraft : levelKraft k.maxLength s.blCount = (L.map fun n => 2 ^ (k.maxLength - s.len.get n.idx)).sum :=
    hsum fun i => 2 ^ (k.maxLength - i)
  have htotal : levelTotal k.maxLength s.blCount = L.length := by
    simpa [levelTotal] using hsum fun _ => 1
  have hzero : s.blCount.getD 0 0 = 0 := by
    rw [h.counts (.inl h2) 0, List.countP_eq_zero]
    intro n hn
    have := h.pos h2 n hn
    simp only [Bool.and_eq_true, decide_eq_true_eq]
    omega
  have hdeep : s.overflow ≤ 2 * s.blCount.getD k.maxLength 0 := by
    rw [h.counts (.inl h2) k.maxLength, List.countP_congr fun n hn => by rw [hl n hn, Bool.true_and]]
    exact h.deep
  have hM1 : 1 ≤ k.maxLength := by cases k <;> decide
  have hroom := Nat.lt_of_le_of_lt (length_le_elems hf) (elems_lt_pow k)
  obtain ⟨c', hc', hzero', -, htotal'⟩ := correctOverflow_spec hM1 (maxLength_le k) _ _ _ (Nat.le_refl _) h.counted
    hzero (by rw [hkraft]; exact h.kraft) hdeep (by rwa [htotal])
  obtain rfl := Option.some.inj (hc.symm.trans hc')
  rw [← htotal, ← htotal', levelTotal, Finset.sum_range_succ', hzero', Nat.add_zero]

/-! ### The lengths of a tree -/

/-- With or without a correction, the more frequent of two leaves has no longer code (R134 to R136). -/
theorem cappedLengths_antitone {c : Reassigned} (h : FreqMerge k.elems L r) (hf : FreshQueue k.elems L)
    (h2 : 2 ≤ L.length) (hl : ∀ n ∈ L, (n.idx : Int) ≤ mc) (hmc : mc < k.elems)
    (hc : cappedLengths k mc r (firstLengths k mc r) = some c) {x y : Node} (hx : x ∈ L) (hy : y ∈ L)
    (hlt : x.freq < y.freq) : c.len.get y.idx ≤ c.len.get x.idx := by
  have hall : ∀ n ∈ L, isLeaf mc n = true := fun n hn => decide_eq_true (hl n hn)
  unfold cappedLengths at hc
  split at hc
  · obtain rfl := Option.some.inj hc
    exact length_le_of_freq_lt h 0 0 (fun z _ => Nat.zero_le _) hx hy (by omega)
  · split at hc
    · cases hc
    · next blCount hblCount =>
      obtain rfl := Option.some.inj hc
      have htotal := correctOverflow_total (treeInv_firstLengths h.merges hf hmc) hf h2 hall (firstLengths_le k mc r)
        hblCount
      have hleaves : (r.removal.filter (isLeaf mc)).Perm L := by
        have hp := merges_leaves h.merges hmc
        rwa [List.filter_eq_self.mpr hall] at hp
      obtain ⟨-, hfalling⟩ := reassignLengths_falling (mc := mc) blCount k.maxLength r.removal
        ⟨(firstLengths k mc r).len, (firstLengths k mc r).opt⟩ ((hleaves.map _).nodup_iff.mpr hf.1)
        (hleaves.length_eq.trans htotal)
      have horder := List.pairwise_iff_getElem.mp (((removal_sorted h).filter (isLeaf mc)).and hfalling)
      obtain ⟨i, hi, rfl⟩ := List.mem_iff_getElem.mp (hleaves.mem_iff.mpr hx)
      obtain ⟨j, hj, rfl⟩ := List.mem_iff_getElem.mp (hleaves.mem_iff.mpr hy)
      rcases Nat.lt_trichotomy i j with hij | rfl | hij
      · exact (horder i j hi hj hij).2
      · exact Nat.le_refl _
      · exact absurd (horder j i hj hi hij).1 (Nat.not_le.mpr hlt)

/-- Without forced leaves a tree comes from its used symbols alone (R130, R132). -/
theorem builtTree_of_two {freq : Memory 16} {t : BuiltTree} (h : builtTree tie k freq = some t)
    (h2 : 2 ≤ (leavesOf k freq).length) :
    ∃ mc c, (∀ n ∈ leavesOf k freq, (n.idx : Int) ≤ mc) ∧ mc < k.elems ∧
      cappedLengths k mc (merge tie k (leavesOf k freq)) (firstLengths k mc (merge tie k (leavesOf k freq))) = some c ∧
      ∀ n < k.elems, t.lens.getD n 0 = c.len.get n := by
  obtain ⟨extra, mc, hcd, -, -, -, hle, -, hmc⟩ := completeDegenerate_spec k freq
  have hrounds := completeDegenerate_forced (leavesOf k freq) (maxCodeOf (leavesOf k freq))
  rw [hcd] at hrounds
  obtain rfl : extra = [] := List.length_eq_zero_iff.mp (hrounds.trans (by omega))
  rw [List.map_nil, List.append_nil] at hcd hle
  unfold builtTree at h
  simp only [hcd, Option.map_eq_some_iff] at h
  obtain ⟨c, hc, rfl⟩ := h
  exact ⟨mc, c, hle, hmc, hc, fun n hn => getD_map_range hn⟩

theorem freshQueue_leaves (freq : Memory 16) : FreshQueue k.elems (leavesOf k freq) :=
  ⟨leaves_nodup, fun n hn => ((mem_leaves_idx n.idx).mp (List.mem_map_of_mem hn)).1⟩

theorem mem_leavesOf {freq : Memory 16} {n : Nat} (hn : n < k.elems) (hf : freq.read n ≠ 0) :
    ⟨n, (freq.read n).toNat, 0⟩ ∈ leavesOf k freq :=
  List.mem_filterMap.mpr ⟨n, List.mem_range.mpr hn, if_neg hf⟩

theorem freqMerge_leaves (tie : HeapTie) {freq : Memory 16} (h2 : 2 ≤ (leavesOf k freq).length) :
    FreqMerge k.elems (leavesOf k freq) (merge tie k (leavesOf k freq)) :=
  freqMerge_of_joinsLeast (joinsLeast_merge tie k (List.ne_nil_of_length_pos (by omega)) (freshQueue_leaves freq))
    (freshQueue_leaves freq)

/-- While no used symbol lies deeper than the cap, each has its depth as its length (R134). -/
theorem builtTree_lens_eq_depth {freq : Memory 16} {t : BuiltTree} (h : builtTree tie k freq = some t)
    (h2 : 2 ≤ (leavesOf k freq).length)
    (hcap : ∀ n < k.elems, freq.read n ≠ 0 →
      stepsToRoot (merge tie k (leavesOf k freq)).parents k.elems n ≤ k.maxLength)
    {n : Nat} (hn : n < k.elems) (hf : freq.read n ≠ 0) :
    t.lens.getD n 0 = stepsToRoot (merge tie k (leavesOf k freq)).parents k.elems n := by
  obtain ⟨mc, c, -, -, hc, hlens⟩ := builtTree_of_two h h2
  have hmerge := freqMerge_leaves tie h2
  have hfuel : (leavesOf k freq).length ≤ k.elems + 1 := Nat.le_succ_of_le (length_le_elems (freshQueue_leaves freq))
  have hover : (firstLengths k mc (merge tie k (leavesOf k freq))).overflow = 0 := by
    refine overflow_eq_zero hmerge hfuel fun z hz => ?_
    obtain ⟨hz, hzf⟩ := (mem_leaves_idx z.idx).mp (List.mem_map_of_mem hz)
    exact hcap z.idx hz hzf
  rw [cappedLengths, if_pos hover] at hc
  obtain rfl := Option.some.inj hc
  rw [hlens n hn]
  exact (firstLengths_eq_depth hmerge hfuel (mem_leavesOf hn hf)).trans (Nat.min_eq_left (hcap n hn hf))

/-- The more frequent of two used symbols has no longer code (R134 to R136). -/
theorem builtTree_lens_antitone {freq : Memory 16} {t : BuiltTree} (h : builtTree tie k freq = some t) {m n : Nat}
    (hm : m < k.elems) (hn : n < k.elems) (hmf : freq.read m ≠ 0) (hlt : (freq.read m).toNat < (freq.read n).toNat) :
    t.lens.getD n 0 ≤ t.lens.getD m 0 := by
  have hnf : freq.read n ≠ 0 := fun hz => by
    rw [hz] at hlt
    exact absurd hlt (Nat.not_lt_zero _)
  have hmL := mem_leavesOf hm hmf
  have hnL := mem_leavesOf hn hnf
  have h2 : 2 ≤ (leavesOf k freq).length := by
    have hne : m ≠ n := fun he => Nat.lt_irrefl _ (he ▸ hlt)
    have hsub : [m, n].Subperm ((leavesOf k freq).map Node.idx) := by
      refine List.Nodup.subperm (by simp [hne]) fun i hi => ?_
      rcases List.mem_pair.mp hi with rfl | rfl
      · exact List.mem_map_of_mem hmL
      · exact List.mem_map_of_mem hnL
    simpa using hsub.length_le
  obtain ⟨mc, c, hle, hmc, hc, hlens⟩ := builtTree_of_two h h2
  rw [hlens m hm, hlens n hn]
  exact cappedLengths_antitone (freqMerge_leaves tie h2) (freshQueue_leaves freq) h2 hle hmc hc hmL hnL hlt

/-! ### The obligation -/

/-- H8 of spec/95_test_vectors.md: which two of 30 equally frequent symbols get the shorter codes (R131, R138). -/
theorem builtTree_thirty_equal (tie : HeapTie) :
    (builtTree tie .dist ((List.range 30).map fun n => (n, 1))).map
        (fun t => (List.range 30).filter fun n => t.lens.getD n 0 = 4) =
      some (match tie with
        | .docOrder => [28, 29]
        | .zlibHeap => [9, 20]) := by
  cases tie <;> decide +kernel

/-- Settles O51: `overflow_eq_zero` for the depths, `cappedLengths_antitone` for the order, and H8 by evaluation. -/
theorem lengthsFollowMerge : Obligations.LengthsFollowMerge := by
  refine ⟨fun tie k freq t ht => ⟨fun h2 hcap n hn hf => ?_, fun m hm n hn hmf hlt => ?_⟩, builtTree_thirty_equal⟩
  · refine builtTree_lens_eq_depth ht h2 (fun n hn hf => ?_) hn hf
    have hmax : k.maxLength = if k = .bitLen then 7 else 15 := by cases k <;> rfl
    rw [hmax]
    exact hcap n hn hf
  · exact builtTree_lens_antitone ht hm hn hmf hlt

end Sys2Proof.Proofs
end

section
/-!
PROOFS. The bit packer and the tokens of a block with an accepting sink (spec/45_emitter.md R147 to R151, R158, R159):
what SendBits, Align, EndFlush and CompressBlock append to the bit stream, and that they complete.
-/

namespace Sys2Proof.Proofs

open Sys2Proof.Machine Sys2Proof.Laws

variable {s : State}

/-- With an accepting sink a program that only emits and does not fault completes, and beside the accumulator it writes
the output alone (R54, R185). -/
theorem run_sent {m : M Unit} {bits : List Bool} {Q Q' : State → Prop} (hsink : s.sink = []) (hframed : Framed m)
    (hnofault : wp m (fun _ => Q') (fun _ _ => True) False s)
    (h : wp m (fun _ t => Sent s t bits ∧ Q t) (fun _ _ => True) True s) :
    ∃ t, m s = .ok () t ∧ Sent s t bits ∧ Q t ∧ t = { s with out := t.out, biBuf := t.biBuf, biValid := t.biValid } := by
  obtain ⟨_, t, hrun, ⟨hsent, hq⟩, -, hframe⟩ :=
    run_of_wp (wp_accepted hnofault hframed (by rw [hsink]; exact List.not_mem_nil) h)
  refine ⟨t, hrun, hsent, hq, ?_⟩
  rw [hsent.frame.eq, sink_nil hframe hsink, ← hsink]

/-! ### SendBits -/

/-- Past 16 pending bits SendBits offers two bytes (R148). -/
theorem wp_sendBits_biValid (value length : Nat) (s : State) :
    wp (sendBits value length)
      (fun _ t => t.biValid = if s.biValid + length ≤ 16 then s.biValid + length else s.biValid + length - 16)
      (fun _ _ => True) True s := by
  rw [sendBits, wp_bind, wp_require]
  refine ⟨fun hok => ?_, fun _ => trivial⟩
  obtain ⟨-, h16, -⟩ := (sendBitsOperandOk_iff value length).mp hok
  rw [wp_bind, wp_checkPacker]
  refine ⟨fun _ => ?_, fun _ => trivial⟩
  rw [wp_bind, wp_get, wp_ite]
  refine ⟨fun hfull => ?_, fun hroom => ?_⟩
  · rw [wp_bind, if_neg (by omega)]
    exact wp_imp (putsBytes_putShortLE _ s) fun _ _ _ => (wp_modify _ _).mpr rfl
  · rw [wp_set, if_pos (by omega)]

theorem sendBits_completes {value length : Nat} (hok : sendBitsOperandOk value length = true) (hp : s.PackerOk)
    (hsink : s.sink = []) :
    ∃ t, sendBits value length s = .ok () t ∧ Sent s t (bitsOf value length) ∧
      t.biValid = (if s.biValid + length ≤ 16 then s.biValid + length else s.biValid + length - 16) ∧
      t = { s with out := t.out, biBuf := t.biBuf, biValid := t.biValid } :=
  run_sent hsink (framed_sendBits _ _) (emits_sendBits (.inr hok) s (.inr hp.1))
    (wp_mono (wp_and (appends_sendBits value length s hp) (wp_sendBits_biValid value length s)) (fun _ _ h => h)
      (fun _ _ _ => trivial) fun _ => trivial)

theorem sendBits_faults {value length : Nat} (h : sendBitsOperandOk value length = false) (s : State) :
    sendBits value length s = .error (.fault (.internalInvariant .sendBitsOperand)) s := by
  rw [sendBits, h]
  rfl

/-! ### Align and EndFlush -/

theorem align_completes (hp : s.PackerOk) (hsink : s.sink = []) :
    ∃ t, align s = .ok () t ∧ Sent s t (padBits s.biValid) ∧ (t.biBuf = 0 ∧ t.biValid = 0) ∧
      t = { s with out := t.out, biBuf := t.biBuf, biValid := t.biValid } :=
  run_sent hsink framed_align (emits_align s (.inr hp.1)) (wp_align hp)

/-- Whole bytes that leave the accumulator move within the bit stream, and its other bits stay pending (R151). -/
theorem sent_drained (hp : s.PackerOk) {bytes : List Byte} {taken : Nat} (sink : List Bool) {rest : Half}
    (htaken : taken ≤ s.biValid) (hbytes : byteBits bytes = bitsOf s.biBuf.toNat taken)
    (hrest : rest.toNat = s.biBuf.toNat / 2 ^ taken) :
    Sent s { s with out := s.out ++ bytes, sink := sink, biBuf := rest, biValid := s.biValid - taken } [] := by
  obtain ⟨hvalid, hbuf⟩ := hp
  have hle : s.biValid - taken ≤ 16 := Nat.le_trans (Nat.sub_le _ _) hvalid
  have hlt : rest.toNat < 2 ^ (s.biValid - taken) := by
    rw [hrest, Nat.div_lt_iff_lt_mul (Nat.two_pow_pos _), ← Nat.pow_add, Nat.sub_add_cancel htaken]
    exact hbuf
  refine ⟨⟨rfl, fun _ => hle⟩, ⟨hle, hlt⟩, ?_⟩
  rw [bitStream_put, hbytes, hrest, ← bitsOf_add, Nat.add_sub_cancel' htaken, List.append_nil, State.bitStream]

theorem appends_endFlush (s : State) : Appends s endFlush [] := by
  intro hp
  rw [endFlush, wp_bind, wp_checkPacker]
  refine ⟨fun _ => ?_, fun _ => trivial⟩
  rw [wp_bind, wp_get, wp_ite, wp_ite]
  refine ⟨fun h16 => ?_, fun _ => ⟨fun h8 => ?_, fun _ => ?_⟩⟩
  · rw [wp_bind]
    refine wp_imp (putsBytes_putShortLE _ s) fun _ t ht => ?_
    have hempty : (0 : Half).toNat = s.biBuf.toNat / 2 ^ 16 := (Nat.div_eq_of_lt s.biBuf.isLt).symm
    have hsent := sent_drained hp t.sink (Nat.le_of_eq h16.symm) (byteBits_half s.biBuf) hempty
    rw [h16] at hsent
    rw [wp_clearBits, ht]
    exact hsent
  · rw [wp_bind]
    refine wp_imp (putsBytes_outByte _ s) fun _ t ht => ?_
    have hbyte : byteBits [lowByte s.biBuf] = bitsOf s.biBuf.toNat 8 := by
      rw [byteBits_single, lowByte_toNat, bitsOf_mod]
    have hrest : (s.biBuf >>> 8).toNat = s.biBuf.toNat / 2 ^ 8 := by
      rw [BitVec.toNat_ushiftRight, Nat.shiftRight_eq_div_pow]
    rw [wp_modify, ht]
    exact sent_drained hp t.sink h8 hbyte hrest
  · exact appends_pure s hp

theorem endFlush_completes (hp : s.PackerOk) (hsink : s.sink = []) :
    ∃ t, endFlush s = .ok () t ∧ Sent s t [] ∧ t.biValid ≤ 7 ∧
      t = { s with out := t.out, biBuf := t.biBuf, biValid := t.biValid } := by
  have hfew := endFlush_spec (F := False) s (.inr hp.1)
  refine run_sent hsink framed_endFlush hfew ?_
  exact wp_mono (wp_and (appends_endFlush s hp) hfew) (fun _ _ ⟨hsent, _, h7⟩ => ⟨hsent, h7⟩) (fun _ _ _ => trivial)
    fun _ => trivial

/-- Settles O57, operation by operation. -/
theorem packerKeepsBitStream : Obligations.PackerKeepsBitStream := by
  refine ⟨fun s value length => ⟨fun h1 h16 hv hp hsink => ?_, fun hbad => ?_⟩, fun s hp hsink => ⟨?_, ?_⟩⟩
  · obtain ⟨t, hrun, hsent, hvalid, hframe⟩ :=
      sendBits_completes ((sendBitsOperandOk_iff value length).mpr ⟨h1, h16, hv⟩) hp hsink
    exact ⟨t, hrun, hsent.stream, hsent.packer, hvalid, hframe⟩
  · exact sendBits_faults (Bool.eq_false_iff.mpr ((sendBitsOperandOk_iff value length).not.mpr hbad)) s
  · obtain ⟨t, hrun, hsent, ⟨hbuf, hvalid⟩, hframe⟩ := align_completes hp hsink
    rw [hbuf, hvalid] at hframe
    exact ⟨t, hrun, hsent.stream, hframe⟩
  · obtain ⟨t, hrun, hsent, h7, hframe⟩ := endFlush_completes hp hsink
    exact ⟨t, hrun, hsent.stream.trans (List.append_nil _), h7, hsent.packer, hframe⟩

/-! ### CompressBlock -/

/-- A token whose symbols have codes can be sent: the extra bits of every length and distance fit (R80, R81). -/
theorem tokenSendable_of_codes {lLens dLens : List Nat} {dist : Half} {lc : Byte}
    (hlit : dist = 0 → Sendable lLens lc.toNat)
    (hmatch : dist ≠ 0 → dist.toNat ≤ 32768 ∧ Sendable lLens (lengthCode (lc.toNat + 3)) ∧
      Sendable dLens (distCode dist.toNat)) :
    TokenSendable lLens dLens dist.toNat lc.toNat := by
  unfold TokenSendable
  by_cases h0 : dist = 0
  · rw [if_pos ((half_toNat_eq_zero dist).mpr h0)]
    exact hlit h0
  · have hne := (half_toNat_eq_zero dist).not.mpr h0
    obtain ⟨hle, hl, hd⟩ := hmatch h0
    rw [if_neg hne]
    exact ⟨hl, hd, lengthCode_extra lc.isLt, (distCode_spec (Nat.pos_of_ne_zero hne) hle).2⟩

/-- Settles O59: the bits are those of `appends_compressBlock`, and the run completes as every token can be sent. -/
theorem compressBlockSendsTokens : Obligations.CompressBlockSendsTokens := by
  intro s lLens lCodes dLens dCodes hp hsink hl hd hend htokens
  have hnofault := emits_compressBlock (F := False) (.inr hl) (.inr hd) s (.inr hp.1) (.inr hend)
    (.inr fun i hi => tokenSendable_of_codes (htokens i hi).1 (htokens i hi).2)
  obtain ⟨t, hrun, hsent, -, hframe⟩ := run_sent hsink (framed_compressBlock _ _ _ _) hnofault (Q := fun _ => True)
    (wp_imp (appends_compressBlock lLens lCodes dLens dCodes s hp) fun _ _ h => ⟨h, trivial⟩)
  refine ⟨t, hrun, ?_, hframe⟩
  rw [hsent.stream, State.codedBits, List.append_assoc]

end Sys2Proof.Proofs
end

section
/-!
PROOFS. The commands (spec/46_control.md R165 to R176): which of them are refused, what INIT and STATUS return, the code in
`RESULT`, and a PROCESS or FINALIZE whose body ends before a block (R168, R173, R185).
-/

namespace Sys2Proof.Proofs

open Sys2Proof.Machine Sys2Proof.Laws

variable {s t : State} {r : Refusal} {i : Instr} {answers : List Bool} {bytes : List Byte}

/-! ### The arms of `exec` -/

theorem exec_init (framing : Bool) (s : State) : exec (.init framing) s = runCommand 0 (initBody framing) s := rfl

theorem exec_process (len : Nat) (s : State) : exec (.process len) s = runCommand len processBody s := rfl

theorem exec_finalize (s : State) : exec .finalize s = runCommand 0 finalizeBody s := rfl

theorem exec_status (s : State) : exec .status s = execStatus s := rfl

/-! ### Refusals -/

theorem length_of_runCommand_refused {need : Nat} {body : M ResultCode} (h : runCommand need body s = .refused r) :
    s.payload.length ≠ need := by
  unfold runCommand at h
  split at h
  · cases hb : body s with
    | ok code t => rw [hb] at h; cases h
    | error e t => rw [hb] at h; cases e <;> cases h
  · assumption

/-- `exec` refuses a command only for the length of its data list (R165, R189). -/
theorem length_of_exec_refused (h : exec i s = .refused r) : s.payload.length ≠ i.payloadLength := by
  cases i with
  | init framing => exact length_of_runCommand_refused (exec_init framing s ▸ h)
  | process len => exact length_of_runCommand_refused (exec_process len s ▸ h)
  | finalize => exact length_of_runCommand_refused (exec_finalize s ▸ h)
  | status =>
    rw [exec_status, execStatus] at h
    split at h
    · cases h
    · assumption

/-- Settles O9: the decoder has compared the lengths, so no command that decodes is refused. -/
theorem onlyRejectedCommandsRefused : Obligations.OnlyRejectedCommandsRefused := by
  unfold Obligations.OnlyRejectedCommandsRefused
  intro s r h
  unfold step at h
  split at h
  case h_1 => cases h
  case h_2 => cases h
  case h_3 c rest hq =>
    split at h
    case h_1 why hd => cases h; exact ⟨c, rest, why, hq, hd, rfl⟩
    case h_2 i hd => exact absurd (decode_length hd).2 (length_of_exec_refused h)

/-! ### The code in `RESULT` -/

theorem runCommand_result {need : Nat} {body : M ResultCode} (h : runCommand need body s = .next t) :
    ∃ delivered, t.response = some ⟨t.result, none, delivered⟩ := by
  obtain ⟨-, ⟨code, u, -, rfl⟩ | ⟨code, u, -, rfl⟩⟩ := runCommand_next (wp_true body s) h <;> exact ⟨_, rfl⟩

/-- Settles O19: `State.complete` writes the code to `RESULT` and to the response, and STATUS does not run it. -/
theorem resultHoldsReturnedCode : Obligations.ResultHoldsReturnedCode := by
  unfold Obligations.ResultHoldsReturnedCode
  intro i s t h
  cases i with
  | init framing => exact ⟨fun _ => runCommand_result (exec_init framing s ▸ h), nofun⟩
  | process len => exact ⟨fun _ => runCommand_result (exec_process len s ▸ h), nofun⟩
  | finalize => exact ⟨fun _ => runCommand_result (exec_finalize s ▸ h), nofun⟩
  | status => exact ⟨fun hne => absurd rfl hne, fun _ => by rw [execStatus_next h]⟩

/-! ### INIT and STATUS -/

theorem runCommand_of_ok {need : Nat} {body : M ResultCode} {code : ResultCode} (hlen : s.payload.length = need)
    (h : body s = .ok code t) : runCommand need body s = .next (t.complete s.out code) := by
  rw [runCommand, if_pos hlen, h]

theorem runCommand_of_raised {need : Nat} {body : M ResultCode} {code : ResultCode} (hlen : s.payload.length = need)
    (h : body s = .error (.raised code) t) : runCommand need body s = .next (t.complete s.out code) := by
  rw [runCommand, if_pos hlen, h]

/-- Settles O11: INIT leaves `State.restarted`, and that is the table of R41. -/
theorem initStartsSession : Obligations.InitStartsSession := by
  unfold Obligations.InitStartsSession
  intro s framing hp
  have hrun : initBody framing s = .ok .ok (s.restarted framing) := rfl
  refine ⟨_, (exec_init framing s).trans (runCommand_of_ok (List.length_eq_zero_iff.mpr hp) hrun),
    fresh_atStart s.cfg framing, ?_, rfl, rfl, rfl, rfl, rfl, rfl⟩
  show some (⟨.ok, none, s.out.drop s.out.length⟩ : Response) = _
  rw [List.drop_length]

/-- The status word as a number (R67): each field lies below those before it. -/
theorem statusWord_toNat (s : State) : (statusWord s).toNat =
    s.result.toBits.toNat * 16 + s.framing.toNat * 8 + s.failed.toNat * 4 + s.phase.toBits.toNat := by
  have hresult := s.result.toBits.isLt
  have hframing := s.framing.toNat_le
  have hfailed := s.failed.toNat_le
  have hphase := s.phase.toBits.isLt
  simp only [statusWord, BitVec.toNat_or, BitVec.toNat_shiftLeft, BitVec.toNat_setWidth, BitVec.toNat_ofBool]
  generalize s.result.toBits.toNat = r, s.framing.toNat = g, s.failed.toNat = f, s.phase.toBits.toNat = p at *
  have h1 : r <<< 4 ||| g <<< 3 = (2 * r + g) <<< 3 := by
    rw [← Nat.shiftLeft_add_eq_or_of_lt (by omega)]
    omega
  have h2 : (2 * r + g) <<< 3 ||| f <<< 2 = (4 * r + 2 * g + f) <<< 2 := by
    rw [← Nat.shiftLeft_add_eq_or_of_lt (by omega)]
    omega
  repeat rw [Nat.mod_eq_of_lt (by omega)]
  rw [h1, h2, ← Nat.shiftLeft_add_eq_or_of_lt hphase]
  omega

/-- A bit of a word whose number is known. -/
theorem getLsbD_of_toNat {w : Word} {n : Nat} {b : Bool} (h : w.toNat / 2 ^ n % 2 = b.toNat) : w.getLsbD n = b := by
  have hinj : ∀ x y : Bool, x.toNat = y.toNat → x = y := by decide
  exact hinj _ _ ((Nat.toNat_testBit _ _).trans h)

/-- A field of a word whose number is known. -/
theorem extractLsb'_of_toNat {w : Word} {start len : Nat} {x : BitVec len}
    (h : w.toNat / 2 ^ start % 2 ^ len = x.toNat) : w.extractLsb' start len = x := by
  rw [← BitVec.toNat_inj, BitVec.extractLsb'_toNat, Nat.shiftRight_eq_div_pow, h]

theorem execStatus_of_nil (hp : s.payload = []) :
    execStatus s = .next { s with response := some ⟨.ok, some (statusWord s), []⟩ } :=
  if_pos (List.length_eq_zero_iff.mpr hp)

/-- Settles O13: the word is that of `statusWord`, which does not depend on the response, and its fields are read off its
number. -/
theorem statusReturnsWord : Obligations.StatusReturnsWord := by
  unfold Obligations.StatusReturnsWord
  intro s hp
  have hword := statusWord_toNat s
  have hresult := s.result.toBits.isLt
  have hframing := s.framing.toNat_le
  have hfailed := s.failed.toNat_le
  have hphase := s.phase.toBits.isLt
  refine ⟨statusWord s, hword, execStatus_of_nil hp, execStatus_of_nil hp,
    (extractLsb'_of_toNat (x := s.phase.toBits) (by omega)).trans rfl, getLsbD_of_toNat (by omega),
    getLsbD_of_toNat (by omega), (extractLsb'_of_toNat (x := s.result.toBits) (by omega)).trans rfl,
    extractLsb'_of_toNat (x := 0) ?_⟩
  show (statusWord s).toNat / 2 ^ 8 % 2 ^ 24 = 0
  omega

/-! ### PROCESS and FINALIZE up to the blocks -/

theorem checkSession_run (hnf : s.failed = false) (hacc : s.phase.accepts = true) : checkSession s = .ok () s := by
  rw [checkSession, get_bind_run, hnf, hacc]
  rfl

/-- Without data the body of PROCESS does nothing (R173). -/
theorem processBody_of_nil (hnf : s.failed = false) (hacc : s.phase.accepts = true) (hp : s.payload = []) :
    processBody s = .ok .ok s := by
  rw [processBody, bind_run (checkSession_run hnf hacc), get_bind_run, if_pos hp]
  rfl

/-- With data it goes on to EnterBusy, the loop and EndFlush (R172). -/
theorem processBody_of_data (hnf : s.failed = false) (hacc : s.phase.accepts = true) (hp : s.payload ≠ []) :
    processBody s = (do enterBusy; loadFeed; deflateLoop false; endFlush; pure .ok : M ResultCode) s := by
  rw [processBody, bind_run (checkSession_run hnf hacc), get_bind_run, if_neg hp]

/-- So does the body of FINALIZE (R174). -/
theorem finalizeBody_of_accepts (hnf : s.failed = false) (hacc : s.phase.accepts = true) :
    finalizeBody s = (do enterBusy; deflateLoop true; trailer; setPhase .done; pure .ok : M ResultCode) s := by
  rw [finalizeBody, bind_run (checkSession_run hnf hacc)]

/-- Settles O15: the body does nothing, and the ports that the command empties were empty. -/
theorem processZeroIsNoOp : Obligations.ProcessZeroIsNoOp := by
  unfold Obligations.ProcessZeroIsNoOp
  intro s hnf hphase hp hfeed
  have hacc : s.phase.accepts = true := by rcases hphase with h | h <;> rw [h] <;> rfl
  refine (runCommand_of_ok (List.length_eq_zero_iff.mpr hp) (processBody_of_nil hnf hacc hp)).trans ?_
  rw [State.complete, List.drop_length, hp, hfeed]

/-! ### A refused byte of the header -/

/-- The state where the sink refuses the byte after `bytes`, with `answers` still to come (R185). -/
def refusedAfter (s : State) (bytes : List Byte) (answers : List Bool) : State :=
  { s with out := s.out ++ bytes, sink := answers, result := .streamError, failed := true }

theorem outByte_accepted (b : Byte) (hsink : s.sink = true :: answers) :
    outByte b s = .ok () { s with out := s.out ++ [b], sink := answers } := by
  rw [outByte, hsink]

theorem outByte_refused (b : Byte) (hsink : s.sink = false :: answers) :
    outByte b s = .error (.raised .streamError) (refusedAfter s [] answers) := by
  rw [refusedAfter, List.append_nil, outByte, hsink]
  simp only [raise, State.raiseError, ResultCode.setsFailed, Bool.or_true]

theorem putHeader_refused_cmf (c : Config) (hsink : s.sink = false :: answers) :
    putHeader c s = .error (.raised .streamError) (refusedAfter s [] answers) :=
  bind_error (outByte_refused _ hsink) _

theorem putHeader_refused_flg (c : Config) (hsink : s.sink = true :: false :: answers) :
    putHeader c s = .error (.raised .streamError) (refusedAfter s [c.zlibCmf] answers) := by
  refine (bind_run (outByte_accepted _ hsink) _).trans ((outByte_refused _ rfl).trans ?_)
  rw [refusedAfter, List.append_nil]
  rfl

/-- EnterBusy stops where the header does (R168). -/
theorem enterBusy_refused (hphase : s.phase = .init) (hframing : s.framing = true)
    (h : putHeader s.cfg s = .error (.raised .streamError) (refusedAfter s bytes answers)) :
    enterBusy s = .error (.raised .streamError) (refusedAfter s bytes answers) := by
  rw [enterBusy, get_bind_run, if_pos hphase, hframing]
  exact bind_error h _

/-- What a command leaves that ended there. -/
theorem complete_refusedAfter (hfeed : s.feed = []) :
    (refusedAfter s bytes answers).complete s.out .streamError = { s with
      result := .streamError, failed := true, sink := answers, payload := [], out := s.out ++ bytes,
      response := some ⟨.streamError, none, bytes⟩ } := by
  have hdelivered : (refusedAfter s bytes answers).out.drop s.out.length = bytes := List.drop_left
  rw [State.complete, hdelivered, hfeed]
  rfl

theorem process_refused (hnf : s.failed = false) (hacc : s.phase.accepts = true) (hfeed : s.feed = [])
    (hp : s.payload ≠ []) (h : enterBusy s = .error (.raised .streamError) (refusedAfter s bytes answers)) :
    exec (.process s.payload.length) s = .next { s with
      result := .streamError, failed := true, sink := answers, payload := [], out := s.out ++ bytes,
      response := some ⟨.streamError, none, bytes⟩ } := by
  have hbody := (processBody_of_data hnf hacc hp).trans (bind_error h _)
  rw [exec_process, runCommand_of_raised rfl hbody, complete_refusedAfter hfeed]

theorem finalize_refused (hnf : s.failed = false) (hacc : s.phase.accepts = true) (hfeed : s.feed = [])
    (hp : s.payload = []) (h : enterBusy s = .error (.raised .streamError) (refusedAfter s bytes answers)) :
    exec .finalize s = .next { s with
      result := .streamError, failed := true, sink := answers, out := s.out ++ bytes,
      response := some ⟨.streamError, none, bytes⟩ } := by
  have hbody := (finalizeBody_of_accepts hnf hacc).trans (bind_error h _)
  rw [exec_finalize, runCommand_of_raised (List.length_eq_zero_iff.mpr hp) hbody, complete_refusedAfter hfeed, hp]

/-- Settles O25: EnterBusy comes first, and it stops at either byte of the header. -/
theorem headerRefused : Obligations.HeaderRefused := by
  unfold Obligations.HeaderRefused
  intro s answers hnf hphase hframing hfeed
  have hacc : s.phase.accepts = true := by rw [hphase]; rfl
  refine ⟨fun hsink => ?_, fun hsink => ?_⟩
  · have hstop := enterBusy_refused hphase hframing (putHeader_refused_cmf s.cfg hsink)
    rw [← List.append_nil s.out]
    exact ⟨fun hp => process_refused hnf hacc hfeed hp hstop, fun hp => finalize_refused hnf hacc hfeed hp hstop⟩
  · have hstop := enterBusy_refused hphase hframing (putHeader_refused_flg s.cfg hsink)
    exact ⟨fun hp => process_refused hnf hacc hfeed hp hstop, fun hp => finalize_refused hnf hacc hfeed hp hstop⟩

end Sys2Proof.Proofs
end

section
/-!
PROOFS. What the operations of PROCESS do not read: the port, the host's queue, the last response and `RESULT`
(spec/46_control.md R166, R172). A run that ends with a value ends so whatever these hold.
-/

namespace Sys2Proof.Proofs

open Sys2Proof.Machine Sys2Proof.Laws

variable {α β : Type} {h s t : State}

/-! ### Runs that differ in the host's side alone -/

/-- The state `s` with the host's side of `h`: the port, the queue, the last response, and `RESULT`. -/
def withHost (h s : State) : State :=
  { s with result := h.result, payload := h.payload, inputs := h.inputs, response := h.response }

/-- Where `m` ends with a value from `s`, `n` does the same from `s` with another host's side, and keeps that side. -/
def Alike (h s : State) (m n : M α) : Prop := ∀ a t, m s = .ok a t → n (withHost h s) = .ok a (withHost h t)

/-- `m` does not read the host's side, and does not write it where it ends with a value. -/
def HostBlind (m : M α) : Prop := ∀ h s, Alike h s m m

theorem alike_bind {m n : M α} {f g : α → M β} (hm : Alike h s m n) (hf : ∀ a t, Alike h t (f a) (g a)) :
    Alike h s (m >>= f) (n >>= g) := by
  intro b u hrun
  cases hs : m s with
  | ok a t =>
    rw [bind_run hs] at hrun
    rw [bind_run (hm a t hs)]
    exact hf a t b u hrun
  | error e t =>
    rw [bind_error hs] at hrun
    cases hrun

theorem alike_set (t : State) : Alike h s (set t : M PUnit) (set (withHost h t)) := fun _ _ hrun => by
  cases hrun
  rfl

theorem alike_ite {c : Prop} [Decidable c] {m n m' n' : M α} (hm : Alike h s m n) (hm' : Alike h s m' n') :
    Alike h s (if c then m else m') (if c then n else n') := by split <;> assumption

theorem blind_bind {m : M α} {f : α → M β} (hm : HostBlind m) (hf : ∀ a, HostBlind (f a)) : HostBlind (m >>= f) :=
  fun h s => alike_bind (hm h s) fun a t => hf a h t

/-- A program that begins with the state: it may hand on what it wrote into the state it got. -/
theorem blind_get_alike {f : State → M α} (hf : ∀ h s, Alike h s (f s) (f (withHost h s))) : HostBlind (get >>= f) :=
  fun h s => hf h s

/-- A program that begins with the state, of which it uses what is not the host's. -/
theorem blind_get {f : State → M α} (hf : ∀ s, HostBlind (f s))
    (hsame : ∀ h s, f (withHost h s) = f s := by exact fun _ _ => rfl) : HostBlind (get >>= f) :=
  blind_get_alike fun h s => (hsame h s).symm ▸ hf s h s

theorem blind_pure (a : α) : HostBlind (pure a : M α) := fun _ _ _ _ hrun => by
  cases hrun
  rfl

theorem blind_ite {c : Prop} [Decidable c] {m n : M α} (hm : HostBlind m) (hn : HostBlind n) :
    HostBlind (if c then m else n) := by split <;> assumption

theorem blind_doIf (c : Bool) {m : M Unit} (hm : HostBlind m) : HostBlind (doIf c m) := blind_ite hm (blind_pure _)

theorem blind_internalFault (c : InternalCondition) : HostBlind (internalFault c : M α) := fun _ _ _ _ => nofun

/-- A program that always ends with a value. -/
theorem blind_update {f : State → α} {g : State → State}
    (hsame : ∀ h s, f (withHost h s) = f s ∧ g (withHost h s) = withHost h (g s) := by exact fun _ _ => ⟨rfl, rfl⟩) :
    HostBlind (fun s => .ok (f s) (g s) : M α) := fun h s _ _ hrun => by
  cases hrun
  exact congrArg₂ EStateM.Result.ok (hsame h s).1 (hsame h s).2

theorem blind_modify {g : State → State}
    (hsame : ∀ h s, g (withHost h s) = withHost h (g s) := by exact fun _ _ => rfl) :
    HostBlind (modify g : M PUnit) := blind_update fun h s => ⟨rfl, hsame h s⟩

theorem blind_require (ok : Bool) (c : InternalCondition) : HostBlind (require ok c) := fun _ _ _ _ hrun => by
  cases ok <;> cases hrun
  rfl

theorem blind_readWindow (p : Int) : HostBlind (readWindow p) := fun h s _ _ hrun => by
  unfold readWindow at hrun ⊢
  split at hrun <;> cases hrun
  exact if_pos ‹_›

theorem blind_writeWindow (p : Nat) (b : Byte) : HostBlind (writeWindow p b) := fun h s _ _ hrun => by
  unfold writeWindow at hrun ⊢
  split at hrun <;> cases hrun
  exact if_pos ‹_›

theorem blind_checkPacker : HostBlind checkPacker := blind_get fun _ => blind_require _ _

/-! ### The emitter -/

theorem blind_outByte (b : Byte) : HostBlind (outByte b) := fun h s _ _ hrun => by
  have hsink : (withHost h s).sink = s.sink := rfl
  rw [outByte] at hrun ⊢
  rw [hsink]
  split at hrun <;> cases hrun <;> rfl

theorem blind_putShortLE (w : Half) : HostBlind (putShortLE w) :=
  blind_bind (blind_outByte _) fun _ => blind_outByte _

theorem blind_sendBits (value length : Nat) : HostBlind (sendBits value length) :=
  blind_bind (blind_require _ _) fun _ => blind_bind blind_checkPacker fun _ => blind_get_alike fun h s =>
    alike_ite (blind_bind (blind_putShortLE _) (fun _ => blind_modify) h s) (alike_set _)

theorem blind_sendCode (lens codes : List Nat) (symbol : Nat) : HostBlind (sendCode lens codes symbol) :=
  blind_bind (blind_require _ _) fun _ => blind_sendBits _ _

theorem blind_align : HostBlind align :=
  blind_bind (blind_bind blind_checkPacker fun _ => blind_get fun _ =>
    blind_ite (blind_putShortLE _) (blind_ite (blind_outByte _) (blind_pure _))) fun _ => blind_update

theorem blind_endFlush : HostBlind endFlush :=
  blind_bind blind_checkPacker fun _ => blind_get fun _ =>
    blind_ite (blind_bind (blind_putShortLE _) fun _ => blind_update)
      (blind_ite (blind_bind (blind_outByte _) fun _ => blind_modify) (blind_pure _))

theorem blind_copyWindow (p : Int) (n : Nat) : HostBlind (copyWindow p n) := by
  induction n generalizing p with
  | zero => exact blind_pure _
  | succ n ih => exact blind_bind (blind_readWindow _) fun _ => blind_bind (blind_outByte _) fun _ => ih _

theorem blind_storedBlock (start n : Int) (last : Bool) : HostBlind (storedBlock start n last) :=
  blind_bind (blind_require _ _) fun _ => blind_bind (blind_sendBits _ _) fun _ => blind_bind blind_align fun _ =>
    blind_bind (blind_putShortLE _) fun _ => blind_bind (blind_putShortLE _) fun _ => blind_copyWindow _ _

theorem blind_sendExtra (value bits : Nat) : HostBlind (sendExtra value bits) :=
  blind_ite (blind_sendBits _ _) (blind_pure _)

theorem blind_sendToken (lLens lCodes dLens dCodes : List Nat) (dist lc : Nat) :
    HostBlind (sendToken lLens lCodes dLens dCodes dist lc) :=
  blind_ite (blind_sendCode _ _ _) (blind_bind (blind_sendCode _ _ _) fun _ =>
    blind_bind (blind_sendExtra _ _) fun _ => blind_bind (blind_sendCode _ _ _) fun _ => blind_sendExtra _ _)

theorem blind_sendTokens (lLens lCodes dLens dCodes : List Nat) (i n : Nat) :
    HostBlind (sendTokens lLens lCodes dLens dCodes i n) := by
  induction n generalizing i with
  | zero => exact blind_pure _
  | succ n ih => exact blind_get fun _ => blind_bind (blind_sendToken _ _ _ _ _ _) fun _ => ih _

theorem blind_compressBlock (lLens lCodes dLens dCodes : List Nat) :
    HostBlind (compressBlock lLens lCodes dLens dCodes) :=
  blind_get fun _ => blind_bind (blind_sendTokens _ _ _ _ _ _) fun _ => blind_sendCode _ _ _

theorem blind_sendItems (bl : BuiltTree) (items : List BlItem) : HostBlind (sendItems bl items) := by
  induction items with
  | nil => exact blind_pure _
  | cons x xs ih => exact blind_bind (blind_sendCode _ _ _) fun _ => blind_bind (blind_sendExtra _ _) fun _ => ih

theorem blind_sendBlLengths (bl : BuiltTree) (symbols : List Nat) : HostBlind (sendBlLengths bl symbols) := by
  induction symbols with
  | nil => exact blind_pure _
  | cons x xs ih => exact blind_bind (blind_sendBits _ _) fun _ => ih

theorem blind_dynamicBlock (l d bl : BuiltTree) (maxIndex : Nat) (last : Bool) :
    HostBlind (dynamicBlock l d bl maxIndex last) :=
  blind_bind (blind_sendBits _ _) fun _ => blind_bind (blind_require _ _) fun _ =>
    blind_bind (blind_sendBits _ _) fun _ => blind_bind (blind_sendBits _ _) fun _ =>
    blind_bind (blind_sendBits _ _) fun _ => blind_bind (blind_sendBlLengths _ _) fun _ =>
    blind_bind (blind_sendItems _ _) fun _ => blind_bind (blind_sendItems _ _) fun _ => blind_compressBlock _ _ _ _

theorem blind_emitBlock (l d bl : BuiltTree) (maxIndex : Nat) (last : Bool) :
    HostBlind (emitBlock l d bl maxIndex last) := by
  refine blind_get fun s => ?_
  cases chooseBlock s with
  | stored => exact blind_storedBlock _ _ _
  | static => exact blind_bind (blind_sendBits _ _) fun _ => blind_compressBlock _ _ _ _
  | dynamic => exact blind_dynamicBlock _ _ _ _ _

theorem blind_buildTree (k : TreeKind) : HostBlind (buildTree k) := fun h s _ _ hrun => by
  have hfreq : builtTree (withHost h s).cfg.heapTie k ((withHost h s).freqOf k) =
      builtTree s.cfg.heapTie k (s.freqOf k) := rfl
  rw [buildTree] at hrun ⊢
  rw [hfreq]
  split at hrun <;> cases hrun
  rfl

theorem blind_scanTree (lens : List Nat) (maxCode : Nat) : HostBlind (scanTree lens maxCode) :=
  blind_get_alike fun h s => alike_bind (blind_require _ _ h s) fun _ _ => alike_set _

theorem blind_flushBlock (last : Bool) : HostBlind (flushBlock last) :=
  blind_bind (blind_buildTree _) fun _ => blind_bind (blind_buildTree _) fun _ =>
    blind_bind (blind_bind (blind_scanTree _ _) fun _ => blind_bind (blind_scanTree _ _) fun _ =>
      blind_bind (blind_buildTree _) fun _ => blind_bind blind_modify fun _ => blind_pure _) fun _ =>
    blind_bind (blind_emitBlock _ _ _ _ _) fun _ => blind_bind blind_update fun _ =>
    blind_bind (blind_doIf _ blind_align) fun _ => blind_update

/-! ### One position -/

theorem blind_insertString (p : Nat) : HostBlind (insertString p) :=
  blind_bind (blind_readWindow _) fun _ => blind_update

theorem blind_matchBytes (c p k n : Nat) : HostBlind (matchBytes c p k n) := by
  induction n generalizing k with
  | zero => exact blind_pure _
  | succ n ih =>
    exact blind_bind (blind_readWindow _) fun _ => blind_bind (blind_readWindow _) fun _ =>
      blind_ite (ih _) (blind_pure _)

theorem blind_walkChain (limit nice chain c best : Nat) : HostBlind (walkChain limit nice chain c best) := by
  induction chain generalizing c best with
  | zero => exact blind_pure _
  | succ chain ih =>
    exact blind_bind (blind_get fun _ => blind_matchBytes _ _ _ _) fun _ =>
      blind_ite (blind_bind blind_update fun _ => blind_pure _) (blind_bind (blind_doIf _ blind_update) fun _ =>
        blind_get fun _ => blind_ite (ih _ _) (blind_pure _))

theorem blind_longestMatch (c : Nat) : HostBlind (longestMatch c) :=
  blind_get fun _ => blind_bind (blind_walkChain _ _ _ _ _) fun _ => blind_pure _

theorem blind_evaluatePosition : HostBlind evaluatePosition :=
  blind_bind (blind_get fun _ => blind_ite (blind_insertString _) (blind_pure _)) fun _ =>
    blind_bind blind_update fun _ => blind_get fun _ =>
      blind_ite (blind_bind (blind_longestMatch _) fun _ => blind_bind blind_update fun _ =>
        blind_get fun _ => blind_doIf _ blind_update) (blind_pure _)

theorem blind_tallyLiteral (c : Byte) : HostBlind (tallyLiteral c) :=
  blind_get_alike fun h s => alike_bind (blind_require _ _ h s) fun _ t =>
    alike_bind (blind_require _ _ h t) fun _ _ => alike_bind (alike_set _) fun _ => blind_pure _ h

theorem blind_tallyDistance (d : Int) (lc : Nat) : HostBlind (tallyDistance d lc) :=
  blind_get_alike fun h s => alike_bind (blind_require _ _ h s) fun _ t =>
    alike_bind (blind_require _ _ h t) fun _ u => alike_bind (blind_require _ _ h u) fun _ _ =>
      alike_bind (alike_set _) fun _ => blind_pure _ h

theorem blind_advance : HostBlind advance :=
  blind_get_alike fun h s => alike_bind (blind_require _ _ h s) fun _ _ => alike_set _

theorem blind_shrinkLookahead (n : Nat) : HostBlind (shrinkLookahead n) :=
  blind_get_alike fun h s => alike_bind (blind_require _ _ h s) fun _ _ => alike_set _

theorem blind_emitPendingLiteral : HostBlind emitPendingLiteral :=
  blind_get fun _ => blind_bind (blind_readWindow _) fun _ => blind_bind (blind_tallyLiteral _) fun _ =>
    blind_bind (blind_doIf _ (blind_flushBlock _)) fun _ => blind_advance

theorem blind_insertCovered (maxInsert : Int) (n : Nat) : HostBlind (insertCovered maxInsert n) := by
  induction n with
  | zero => exact blind_pure _
  | succ n ih =>
    exact blind_bind (blind_bind blind_modify fun _ => blind_get fun _ =>
      blind_ite (blind_bind (blind_insertString _) fun _ => blind_pure _) (blind_pure _)) fun _ => ih

theorem blind_emitDeferredMatch : HostBlind emitDeferredMatch :=
  blind_get fun _ => blind_bind (blind_tallyDistance _ _) fun _ => blind_bind (blind_shrinkLookahead _) fun _ =>
    blind_bind (blind_insertCovered _ _) fun _ => blind_bind blind_update fun _ => blind_doIf _ (blind_flushBlock _)

theorem blind_emitPosition : HostBlind emitPosition :=
  blind_get fun _ => blind_ite blind_emitDeferredMatch (blind_ite blind_emitPendingLiteral
    (blind_bind blind_modify fun _ => blind_advance))

/-! ### The loop -/

theorem blind_inRead : HostBlind inRead := fun h s _ _ hrun => by
  have hfeed : (withHost h s).feed = s.feed := rfl
  rw [inRead] at hrun ⊢
  rw [hfeed]
  split at hrun <;> cases hrun
  rfl

theorem blind_readBytes (p n : Nat) : HostBlind (readBytes p n) := by
  induction n generalizing p with
  | zero => exact blind_pure _
  | succ n ih =>
    exact blind_bind blind_inRead fun _ => blind_bind (blind_writeWindow _ _) fun _ => blind_bind blind_update fun _ =>
      ih _

theorem blind_reseedHash : HostBlind reseedHash :=
  blind_get fun _ => blind_ite (blind_bind (blind_readWindow _) fun _ => blind_bind (blind_readWindow _) fun _ =>
    blind_update) (blind_pure _)

theorem blind_fillPass : HostBlind fillPass :=
  blind_get fun _ => blind_bind (blind_require _ _) fun _ => blind_bind (blind_doIf _ blind_update) fun _ =>
    blind_get fun _ => blind_ite (blind_pure _)
      (blind_bind (blind_get fun _ => blind_bind (blind_readBytes _ _) fun _ => blind_pure _) fun _ =>
        blind_bind blind_update fun _ => blind_bind blind_reseedHash fun _ => blind_get fun _ => blind_pure _)

theorem blind_fillLoop (fuel : Nat) : HostBlind (fillLoop fuel) := by
  induction fuel with
  | zero => exact blind_internalFault _
  | succ fuel ih => exact blind_bind blind_fillPass fun _ => blind_ite ih (blind_pure _)

theorem blind_loopTop (finish : Bool) : HostBlind (loopTop finish) :=
  blind_get fun _ => blind_bind (blind_require _ _) fun _ =>
    blind_ite (blind_bind (blind_get fun _ => blind_fillLoop _) fun _ => blind_get fun _ =>
      blind_ite (blind_pure _) (blind_ite (blind_pure _) (blind_pure _))) (blind_pure _)

theorem blind_finishDrain : HostBlind finishDrain :=
  blind_bind (blind_get fun _ => blind_ite (blind_bind (blind_readWindow _) fun _ =>
    blind_bind (blind_tallyLiteral _) fun _ => blind_modify) (blind_pure _)) fun _ => blind_flushBlock _

theorem blind_deflateFrom (finish : Bool) (fuel : Nat) : HostBlind (deflateFrom finish fuel) := by
  induction fuel with
  | zero => exact blind_internalFault _
  | succ fuel ih =>
    refine blind_bind (blind_loopTop finish) fun top => ?_
    cases top with
    | needsInput => exact blind_pure _
    | consumed => exact blind_bind blind_update fun _ => blind_finishDrain
    | position => exact blind_bind blind_evaluatePosition fun _ => blind_bind blind_emitPosition fun _ => ih

theorem blind_deflateLoop (finish : Bool) : HostBlind (deflateLoop finish) := blind_get fun _ => blind_deflateFrom _ _

end Sys2Proof.Proofs
end

section
/-!
PROOFS. A buffered PROCESS and the next one (spec/46_control.md R178): the first pass of FillWindow reads on where the first
command stopped, so the second command runs as the one with the bytes of both.
-/

namespace Sys2Proof.Proofs

open Sys2Proof.Machine Sys2Proof.Laws

variable {α β : Type} {s t u a b : State} {bytes more first second : List Byte}

/-! ### Reading in two parts -/

/-- A re-seed with more lookahead forgets one with less (R97). -/
theorem reseeded_reseeded (hle : s.lookahead ≤ t.lookahead) (x : BitVec 15) :
    reseeded t (reseeded s x) = reseeded t x := by
  unfold reseeded
  split
  · rfl
  · rw [if_neg (by omega)]

theorem ReadIn.strstart (h : ReadIn s t bytes) : t.strstart = s.strstart := by rw [h.frame]

theorem ReadIn.lookahead (h : ReadIn s t bytes) : t.lookahead = s.lookahead + bytes.length := by rw [h.frame]

theorem ReadIn.trans (h : ReadIn s t bytes) (h' : ReadIn t u more) : ReadIn s u (bytes ++ more) where
  feed := by rw [h.feed, h'.feed, List.append_assoc]
  frame := by
    rw [h'.frame, h.frame, List.length_append, ← Nat.add_assoc]
  stored x := by
    rw [h'.stored, h.strstart, h.lookahead, ← Nat.add_assoc]
    exact readStored_append h.stored x
  sum := by rw [h'.sum, h.sum, adlerOver, adlerOver, adlerOver, List.foldl_append]
  seed := by
    rw [h'.seed, h.seed, reseeded_reseeded]
    rw [h'.lookahead]
    exact Nat.le_add_right _ _

/-- What is read in decides the state. -/
theorem ReadIn.unique (h : ReadIn s t bytes) (h' : ReadIn s u bytes) (ht : t.window.wf WIN = true)
    (hu : u.window.wf WIN = true) : t = u := by
  have hfeed : t.feed = u.feed := List.append_cancel_left (h.feed.symm.trans h'.feed)
  have hwindow : t.window = u.window := wf_ext ht hu fun x => (h.stored x).trans (h'.stored x).symm
  obtain ⟨hA, hB⟩ := Prod.mk.inj (h.sum.trans h'.sum.symm)
  have hseed : t.insH = u.insH := by
    rw [h.seed, h'.seed, reseeded, reseeded, h.lookahead, h'.lookahead, h.strstart, h'.strstart, hwindow]
  rw [h.frame, h'.frame, hfeed, hwindow, hA, hB, hseed]

/-! ### Programs that run alike from both states -/

/-- Where `m` ends with a value from `b`, it ends in the same way from `a`. -/
def RunsAs (a b : State) (m : M α) : Prop := ∀ x t, m b = .ok x t → m a = .ok x t

theorem runsAs_bind {m : M α} (hm : RunsAs a b m) (f : α → M β) : RunsAs a b (m >>= f) := fun y v hrun => by
  cases hb : m b with
  | ok x t =>
    rw [bind_run hb] at hrun
    rwa [bind_run (hm x t hb)]
  | error e t =>
    rw [bind_error hb] at hrun
    cases hrun

/-- More fuel than a run of FillWindow's loop needs changes nothing. -/
theorem fillLoop_mono {fuel more : Nat} (hle : fuel ≤ more) (h : fillLoop fuel s = .ok () t) :
    fillLoop more s = .ok () t := by
  induction fuel generalizing more s with
  | zero => cases h
  | succ fuel ih =>
    obtain ⟨more, rfl⟩ := Nat.exists_eq_add_of_le' hle
    rw [← Nat.add_assoc] at hle ⊢
    rw [fillLoop] at h ⊢
    cases hp : fillPass s with
    | error e u =>
      rw [bind_error hp] at h
      cases h
    | ok again u =>
      rw [bind_run hp] at h ⊢
      cases again with
      | true => exact ih (Nat.le_of_succ_le_succ hle) h
      | false => exact h

/-- The state `b` is `a` after some of its feed was read in, too little to make a position ready, and with more to read. -/
structure PartRead (a b : State) (bytes : List Byte) : Prop where
  read : ReadIn a b bytes
  more : b.feed ≠ []
  few : b.lookahead < MIN_LOOKAHEAD
  start : a.strstart < W + MAX_DIST
  coreA : a.CoreOk
  coreB : b.CoreOk

/-- A pass of FillWindow before a slide is due, on a feed that is not empty. -/
theorem fillPass_run (hc : s.CoreOk) (hl : s.lookahead < MIN_LOOKAHEAD) (hstart : s.strstart < W + MAX_DIST)
    (hfeed : s.feed ≠ []) :
    ∃ again t, fillPass s = .ok again t ∧ ReadIn s t (s.feed.take (freeSpace s)) ∧ t.window.wf WIN = true ∧
      (again = true ↔ t.lookahead < MIN_LOOKAHEAD ∧ t.feed ≠ []) := by
  have hsame : slidIfDue s = s := if_neg fun hdue => absurd (of_decide_eq_true hdue) (Nat.not_le.mpr hstart)
  have hreads := fillPass_reads hc
  rw [hsame] at hreads
  obtain ⟨again, t, hrun, ⟨-, hon, hoff⟩, ht, hct⟩ := run_of_wp <| wp_mono
    (wp_and (fillPass_spec (R := fun _ _ => False) (F := False) hc hl) (wp_and hreads (coreOk_fillPass s hc)))
    (fun _ _ h => h) (fun _ _ h => h.1) fun h => h.1
  obtain ⟨-, ⟨hwf, -⟩, -⟩ := hct
  refine ⟨again, t, hrun, ht.resolve_left fun h => hfeed h.1, hwf, fun h => ?_, fun ⟨hlt, hne⟩ => ?_⟩
  · obtain ⟨hlt, hne, -⟩ := hon h
    exact ⟨hlt, hne⟩
  · exact Bool.not_eq_false _ ▸ fun hf => hne (hoff hf hlt)

theorem PartRead.fillPass (h : PartRead a b bytes) : RunsAs a b fillPass := fun again t hrun => by
  have hla := h.read.lookahead
  have hlb := h.few
  have hstart := h.read.strstart
  have hWIN : MIN_LOOKAHEAD + (W + MAX_DIST) = WIN := rfl
  have hs := h.start
  obtain ⟨again', t', hrun', hread', hwf', hagain'⟩ := fillPass_run h.coreB hlb (hstart ▸ hs) h.more
  obtain ⟨again'', u, hrunA, hreadA, hwfA, hagainA⟩ := fillPass_run h.coreA (by omega) hs fun hnil =>
    h.more (List.append_eq_nil_iff.mp (h.read.feed.symm.trans hnil)).2
  cases hrun.symm.trans hrun'
  have hfree : freeSpace a = bytes.length + freeSpace b := by
    unfold freeSpace
    omega
  rw [hfree, h.read.feed, List.take_length_add_append] at hreadA
  have hsame : t = u := (h.read.trans hread').unique hreadA hwf' hwfA
  rw [hrunA, hsame, Bool.eq_iff_iff.mpr (hagain'.trans (hsame ▸ hagainA.symm))]

theorem PartRead.fillWindow (h : PartRead a b bytes) : RunsAs a b fillWindow := fun _ t hrun => by
  have hlen : b.feed.length ≤ a.feed.length := by
    rw [h.read.feed, List.length_append]
    exact Nat.le_add_left _ _
  rw [Machine.fillWindow, get_bind_run] at hrun ⊢
  have hmore := fillLoop_mono (Nat.succ_le_succ hlen) hrun
  exact runsAs_bind h.fillPass _ _ _ hmore

theorem loopTop_of_short (finish : Bool) (hc : s.CoreOk) (hl : s.lookahead < MIN_LOOKAHEAD) :
    loopTop finish s = (do
      fillWindow
      let s ← get
      if s.lookahead < MIN_LOOKAHEAD ∧ finish = false then pure .needsInput
      else if s.lookahead = 0 then pure .consumed
      else pure .position : M LoopTop) s := by
  rw [loopTop, get_bind_run, require_bind_run, if_pos (decide_eq_true hc.2.2.1), if_pos hl]

theorem PartRead.deflateLoop (h : PartRead a b bytes) (finish : Bool) : RunsAs a b (deflateLoop finish) := by
  have hla := h.read.lookahead
  have hlb := h.few
  have htop : RunsAs a b (loopTop finish) := fun top t hrun => by
    rw [loopTop_of_short finish h.coreB hlb] at hrun
    rw [loopTop_of_short finish h.coreA (by omega)]
    exact runsAs_bind h.fillWindow _ _ _ hrun
  have hfuel : a.lookahead + a.feed.length + 1 = b.lookahead + b.feed.length + 1 := by
    rw [h.read.feed, List.length_append]
    omega
  intro x t hrun
  rw [Machine.deflateLoop, get_bind_run] at hrun ⊢
  rw [hfuel]
  exact runsAs_bind htop _ _ _ hrun

/-! ### The command -/

/-- With an accepting sink the body of PROCESS is the loop and the last flush, from the state after the header. -/
theorem processBody_entered (hnf : s.failed = false) (hacc : s.phase.accepts = true) (hsink : s.sink = [])
    (hp : s.payload ≠ []) :
    processBody s = (do deflateLoop false; endFlush; pure .ok : M ResultCode) (entered s) := by
  obtain ⟨_, t, hrun, ht⟩ := run_of_wp (enterBusy_accepted hacc hsink)
  rw [processBody_of_data hnf hacc hp, bind_run hrun, ht]
  rfl

/-- The run that a program's answer tells of. -/
theorem wp_run (m : M α) (s : State) :
    wp m (fun x t => m s = .ok x t) (fun e t => m s = .error (.raised e) t) True s := by
  unfold wp
  split
  case h_1 hrun => exact hrun
  case h_2 hrun => exact hrun
  case h_3 => trivial

/-- With an accepting sink a PROCESS that completes returns OK. -/
theorem processBody_ok_of_next {len : Nat} (hinv : Issued s) (hacc : s.phase.accepts = true) (hsink : s.sink = [])
    (h : exec (.process len) s = .next u) :
    ∃ w, processBody s = .ok .ok w ∧ u = w.complete s.out .ok := by
  obtain ⟨hc, -, -, -, -, hsession⟩ := hinv
  have hroom : s.failed = false → s.lastLit < s.cfg.tokenLimit := fun hnf => by
    obtain ⟨-, -, hroom, -⟩ := hsession hnf
    exact hroom
  have hspec := processBody_spec (F := True) hc hroom (.inl trivial)
  obtain ⟨-, ⟨code, w, ⟨⟨rfl, -⟩, hrun⟩, hw⟩ | ⟨e, w, ⟨hbad, -⟩, -⟩⟩ :=
    runCommand_next (wp_mono (wp_and hspec (wp_run processBody s)) (fun _ _ h => h) (fun _ _ h => h) fun _ => trivial) h
  · exact ⟨w, hrun, hw⟩
  · exact absurd hbad (not_endsBadly hacc (hsink ▸ List.not_mem_nil))

/-- After a buffered PROCESS the next one stands, in front of the loop, where the one with the bytes of both stands after
the first of them. -/
theorem readIn_of_buffered (h : ReadIn (entered (s.issue first)) t first) (out : List Byte) :
    ReadIn (withHost (entered ((t.complete out .ok).issue second)) (entered (s.issue (first ++ second))))
      (entered ((t.complete out .ok).issue second)) first := by
  have hphase : t.phase = .busy := by rw [h.frame]; rfl
  have hheader : ((t.complete out .ok).issue second).headerBytes = [] :=
    headerBytes_of_not_due fun hi => Phase.noConfusion (hphase.symm.trans hi.1)
  refine ⟨rfl, ?_, h.stored, h.sum, h.seed⟩
  rw [entered, hheader, List.append_nil, h.frame]
  rfl

/-- What a PROCESS leaves that is short enough to be buffered (R96, R172). -/
theorem process_buffered (hinv : s.Inv) (hnf : s.failed = false) (hacc : s.phase.accepts = true) (hsink : s.sink = [])
    (hne : first ≠ []) (hfew : s.lookahead + first.length < MIN_LOOKAHEAD) (hstart : s.strstart < W + MAX_DIST)
    (h : exec (.process first.length) (s.issue first) = .next t) :
    ∃ w, ReadIn (entered (s.issue first)) w first ∧ t = w.complete s.out .ok := by
  obtain ⟨hc, -, -, -, -, hsession⟩ := hinv
  obtain ⟨-, hbits, -⟩ := hsession hnf
  have hbody := processBody_buffers (s := s.issue first) hc hnf hacc hsink hbits hne hfew hstart
  obtain ⟨-, ⟨_, w, ⟨rfl, hread⟩, ht⟩ | ⟨_, _, hfalse, _⟩⟩ :=
    runCommand_next (wp_mono hbody (fun _ _ h => h) (fun _ _ h => h) False.elim) h
  · exact ⟨w, hread, ht⟩
  · exact hfalse.elim

/-- Settles O31: in front of the loop the second command has read in what the first one buffered (`PartRead`), and the rest
of the run does not depend on the host's side. -/
theorem shortChunkJoinsNext : Obligations.ShortChunkJoinsNext := by
  unfold Obligations.ShortChunkJoinsNext
  intro s t u first second hinv hnf hacc hsink hne hfew hstart ht hu
  have hissued := issued_issue (inv_exec (issued_issue hinv first) ht) second
  obtain ⟨w, hread, rfl⟩ := process_buffered hinv hnf hacc hsink hne hfew hstart ht
  have hnf' : w.failed = false := by rw [hread.frame]; exact hnf
  have hacc' : w.phase.accepts = true := by rw [hread.frame]; rfl
  have hsink' : w.sink = [] := by rw [hread.frame]; exact hsink
  obtain ⟨x, hx, rfl⟩ := processBody_ok_of_next hissued hacc' hsink' hu
  by_cases hsecond : second = []
  · subst hsecond
    have hnil := processBody_of_nil (s := (w.complete s.out .ok).issue []) hnf' hacc' rfl
    cases hnil.symm.trans hx
    rw [List.append_nil]
    exact ⟨_, ht, rfl⟩
  · rw [processBody_entered (s := (w.complete s.out .ok).issue second) hnf' hacc' hsink' hsecond] at hx
    have hpart : PartRead _ _ first :=
      ⟨readIn_of_buffered hread s.out, hsecond, hread.lookahead.trans_lt hfew, hstart, hinv.1, hissued.1⟩
    have hjoined := runsAs_bind (hpart.deflateLoop false) _ _ _ hx
    have hblind := blind_bind (blind_deflateLoop false) fun _ => blind_bind blind_endFlush fun _ =>
      blind_pure ResultCode.ok
    have hboth := processBody_entered (s := s.issue (first ++ second)) hnf hacc hsink fun h =>
      hne (List.append_eq_nil_iff.mp h).1
    have hrun := hboth.trans (hblind (entered (s.issue (first ++ second))) _ _ _ hjoined)
    exact ⟨_, (exec_process _ _).trans (runCommand_of_ok rfl hrun), rfl⟩

end Sys2Proof.Proofs
end

section
/-!
PROOFS. Refusals and faults (spec/60_exceptions.md R184, R187 to R189), the idle core (spec/70_reset_and_hazards.md R198)
and hardware reset (R200, R201).
-/

namespace Sys2Proof.Proofs

open Sys2Proof.Machine Sys2Proof.Laws

variable {s t : State} {c : Command} {rest : List HostInput} {i : Instr} {f : Fault}

/-! ### What a step answers, by what the host does next -/

/-- Settles O7: an empty queue selects the first arm of `step`. -/
theorem idleStepHoldsState : Obligations.IdleStepHoldsState := by
  unfold Obligations.IdleStepHoldsState
  intro s hq
  rw [step, hq]

theorem step_reset (hq : s.inputs = .reset :: rest) : step s = .next (s.issue []).hardwareReset := by
  rw [step, hq]

/-- A command that the decoder rejects is refused in every state (R189, R190). -/
theorem step_of_decode_error {why : Reject} (hq : s.inputs = .command c :: rest) (hd : decode c = .error why) :
    step s = .refused (.rejectedCommand why) := by
  simp only [step, hq, hd]

/-- A step faults only in a command that decodes: an idle core and a hardware reset never do. -/
theorem step_fault (h : step s = .fault f) :
    ∃ c rest i, s.inputs = .command c :: rest ∧ decode c = .ok i ∧ exec i (s.issue c.data) = .fault f := by
  unfold step at h
  split at h
  case h_1 => cases h
  case h_2 => cases h
  case h_3 c rest hq =>
    split at h
    case h_1 => cases h
    case h_2 i hd => exact ⟨c, rest, i, hq, hd, h⟩

/-! ### Refusals -/

/-- The list of R69, and a PROCESS whose data list has not `LEN` bytes (R189). -/
def Rejected (c : Command) : Prop :=
  c.word.toNat / 2 ^ 28 = 0 ∨ 5 ≤ c.word.toNat / 2 ^ 28 ∨
    (c.word.toNat / 2 ^ 28 = 1 ∧ c.word.toNat % 2 ^ 28 / 2 ≠ 0) ∨
    (c.word.toNat / 2 ^ 28 = 3 ∧ c.word.toNat % 2 ^ 28 ≠ 0) ∨
    (c.word.toNat / 2 ^ 28 = 4 ∧ c.word.toNat % 2 ^ 28 ≠ 0) ∨
    (c.word.toNat / 2 ^ 28 = 2 ∧ c.data.length ≠ c.word.toNat % 2 ^ 28)

/-- A command that decodes has the word of its command (`wordNat`), which is none of the rejected ones. -/
theorem not_rejected_of_decode (h : decode c = .ok i) : ¬ Rejected c := by
  obtain ⟨hword, hlen⟩ := decode_length h
  obtain ⟨hwf, hnat⟩ := wordNat_of_decodeWord hword
  unfold Rejected
  rw [hnat]
  cases i with
  | init framing =>
    have hbit := framing.toNat_le
    simp only [wordNat]
    omega
  | process len =>
    have hmax : len ≤ 268435455 := of_decide_eq_true hwf
    have hdata : c.data.length = len := hlen
    simp only [wordNat]
    omega
  | finalize =>
    simp only [wordNat]
    omega
  | status =>
    simp only [wordNat]
    omega

/-- Settles O8: such a command does not decode, and what does not decode is refused. -/
theorem reservedAndMalformedRefused : Obligations.ReservedAndMalformedRefused := by
  unfold Obligations.ReservedAndMalformedRefused
  intro s c rest hq hrejected
  cases hd : decode c with
  | error why => exact ⟨why, step_of_decode_error hq hd⟩
  | ok i => exact absurd hrejected (not_rejected_of_decode hd)

/-! ### PROCESS and FINALIZE after an error -/

theorem checkSession_of_failed (hf : s.failed = true) :
    checkSession s = .error (.fault .commandAfterError) s := by
  rw [checkSession, get_bind_run, hf]
  rfl

theorem runCommand_of_fault {need : Nat} {body : M ResultCode} (hlen : s.payload.length = need)
    (h : body s = .error (.fault f) t) : runCommand need body s = .fault f := by
  rw [runCommand, if_pos hlen, h]

/-- The body of PROCESS stops where its checks do (R172, R190). -/
theorem processBody_stops {e : Stop} (h : checkSession s = .error e t) : processBody s = .error e t := bind_error h _

/-- So does the body of FINALIZE (R174, R190). -/
theorem finalizeBody_stops {e : Stop} (h : checkSession s = .error e t) : finalizeBody s = .error e t := bind_error h _

theorem process_of_failed (hf : s.failed = true) {len : Nat} (hlen : s.payload.length = len) :
    exec (.process len) s = .fault .commandAfterError :=
  (exec_process len s).trans (runCommand_of_fault hlen (processBody_stops (checkSession_of_failed hf)))

theorem finalize_of_failed (hf : s.failed = true) (hlen : s.payload.length = 0) :
    exec .finalize s = .fault .commandAfterError :=
  (exec_finalize s).trans (runCommand_of_fault hlen (finalizeBody_stops (checkSession_of_failed hf)))

/-- Settles O17: `checkSession` stops PROCESS and FINALIZE, INIT starts a session (`initStartsSession`), and STATUS reads
the status word. -/
theorem commandsAfterError : Obligations.CommandsAfterError := by
  unfold Obligations.CommandsAfterError
  intro s hf
  refine ⟨process_of_failed hf rfl, fun hp =>
    ⟨finalize_of_failed hf (List.length_eq_zero_iff.mpr hp), fun framing => ?_,
      (exec_status s).trans (execStatus_of_nil hp)⟩⟩
  obtain ⟨t, hrun, ⟨-, hclear, -⟩, -⟩ := initStartsSession s framing hp
  exact ⟨t, hrun, hclear⟩

/-! ### The only fault of a session -/

theorem exec_init_ne_fault (framing : Bool) : exec (.init framing) s ≠ .fault f := by
  rw [exec_init, runCommand]
  split <;> nofun

theorem exec_status_ne_fault : exec .status s ≠ .fault f := by
  rw [exec_status, execStatus]
  split <;> nofun

/-- In a session a command with its data list on the port faults only as CommandAfterError (R187, R188). -/
theorem exec_fault (h : Issued s) (hs : s.SessionInv) (hlen : s.payload.length = i.payloadLength)
    (hfault : exec i s = .fault f) :
    f = .commandAfterError ∧ s.failed = true ∧ (i = .finalize ∨ ∃ len, i = .process len) := by
  cases i with
  | init framing => exact absurd hfault (exec_init_ne_fault framing)
  | status => exact absurd hfault exec_status_ne_fault
  | process len =>
    cases hf : s.failed with
    | false =>
      obtain ⟨code, u, -, hnext⟩ := execProcess_completes h hs hf hlen
      cases hfault.symm.trans hnext
    | true =>
      cases hfault.symm.trans (process_of_failed hf hlen)
      exact ⟨rfl, rfl, .inr ⟨len, rfl⟩⟩
  | finalize =>
    cases hf : s.failed with
    | false =>
      obtain ⟨code, u, -, hnext⟩ := execFinalize_completes h hs hf hlen
      cases hfault.symm.trans hnext
    | true =>
      cases hfault.symm.trans (finalize_of_failed hf hlen)
      exact ⟨rfl, rfl, .inl rfl⟩

/-- Settles O37: a step that faults runs a command (`step_fault`), and PROCESS and FINALIZE complete in a session without
an error. -/
theorem onlyFaultIsCommandAfterError : Obligations.OnlyFaultIsCommandAfterError := by
  unfold Obligations.OnlyFaultIsCommandAfterError
  intro s f h hs hstep
  obtain ⟨c, rest, i, hq, hd, hfault⟩ := step_fault hstep
  obtain ⟨rfl, hfailed, hi⟩ := exec_fault (issued_issue h c.data) hs (decode_length hd).2 hfault
  refine ⟨rfl, hfailed, c, rest, hq, ?_⟩
  obtain rfl | ⟨len, rfl⟩ := hi
  · exact .inl hd
  · exact .inr ⟨len, hd⟩

/-! ### InvalidState -/

theorem checkSession_of_ended (hnf : s.failed = false) (hacc : s.phase.accepts = false) :
    checkSession s = .error (.raised .invalidState) (s.raiseError .invalidState) := by
  rw [checkSession, get_bind_run, hnf, hacc]
  rfl

/-- What a command leaves that `checkSession` ended: `RESULT` is written, and the port is empty (R184). -/
theorem complete_invalidState (hnf : s.failed = false) (hfeed : s.feed = []) :
    (s.raiseError .invalidState).complete s.out .invalidState =
      { s with result := .invalidState, payload := [], response := some ⟨.invalidState, none, []⟩ } := by
  rw [State.complete, raiseError_out, List.drop_length, State.raiseError, hnf, hfeed]
  rfl

/-- Settles O16: `checkSession` ends both commands before anything is offered or read. -/
theorem invalidStateChangesResultOnly : Obligations.InvalidStateChangesResultOnly := by
  unfold Obligations.InvalidStateChangesResultOnly
  intro s hnf hphase hfeed
  have hacc : s.phase.accepts = false := by rcases hphase with h | h <;> rw [h] <;> rfl
  have hstop := checkSession_of_ended hnf hacc
  refine ⟨?_, fun hp => ?_⟩
  · rw [exec_process, runCommand_of_raised rfl (processBody_stops hstop), complete_invalidState hnf hfeed]
  · rw [exec_finalize, runCommand_of_raised (List.length_eq_zero_iff.mpr hp) (finalizeBody_stops hstop),
      complete_invalidState hnf hfeed, hp]

/-! ### Hardware reset -/

/-- Settles O12: hardware reset and INIT both write `State.fresh` around the host's side, and only INIT leaves a
response. -/
theorem hardwareResetIsInit : Obligations.HardwareResetIsInit := by
  unfold Obligations.HardwareResetIsInit
  intro s rest hq
  have htail : (s.issue []).hardwareReset.inputs = rest := congrArg List.tail hq
  refine ⟨_, step_reset hq, fresh_atStart s.cfg s.cfg.resetFraming, rfl, rfl, htail, fun u hu => ?_⟩
  rw [execInit_next hu, ← htail]
  rfl

end Sys2Proof.Proofs
end
